-- ==== Sys2Proof/Word.lean ====
section
/-!
DEFINITION. The word types of the core: 32-bit registers and addresses (00_scope.md R11), bytes of buffer
memory and of the stream.
-/

namespace Sys2Proof

/-- A host register or a buffer-memory address: 32 bits (R11). -/
abbrev Word := BitVec 32

/-- One byte of buffer memory, of a window or of the compressed stream. -/
abbrev Byte := BitVec 8

/-- The word of a natural number, modulo 2^32 (R11: counters wrap modulo 2^32). -/
abbrev Word.ofNat (n : Nat) : Word := BitVec.ofNat 32 n

/-- The byte of a natural number, modulo 256. -/
abbrev Byte.ofNat (n : Nat) : Byte := BitVec.ofNat 8 n

end Sys2Proof
end

