-- ==== Sys2Proof/Syntax.lean ====
section
/-!
DEFINITION. The commands of the core: one constructor per row of spec/opcode_table.json (30_encoding.md R102).
The operands are the fields of the command word (R100). They are counts and selectors, so they are natural
numbers; WellFormed.lean says which values fit their fields.
-/

namespace Sys2Proof

/-- A command (R102). Operands that pass through registers (R103) are not part of the command word. -/
inductive Instr where
  /-- Open the compressor (R440). -/
  | dinit (level wbits memLevel strategy : Nat)
  /-- Prime the compressor with a preset dictionary (R452). -/
  | dsetdict
  /-- Compress (R430). -/
  | deflate (flush : Nat)
  /-- Change level and strategy (R457). -/
  | dparams (level strategy : Nat)
  /-- Restart the compressor (R458). -/
  | dreset
  /-- Close the compressor (R459). -/
  | dend
  /-- Open the decompressor (R510). -/
  | iinit (wbits : Nat)
  /-- Supply the preset dictionary a stream asks for (R550). -/
  | isetdict
  /-- Decompress (R540). -/
  | inflate (flush : Nat)
  /-- Skip input to the next sync marker (R560). -/
  | isync
  /-- Restart the decompressor (R562). -/
  | ireset
  /-- Close the decompressor (R563). -/
  | iend
  /-- Update a checksum over a buffer (R305). -/
  | adler
  /-- Build a length-limited Huffman code (R640). -/
  | hbuild
  /-- Assign canonical codes (R641). -/
  | hcanon
  deriving DecidableEq, Repr

end Sys2Proof
end

