-- ==== Sys2Proof/WellFormed.lean ====
section
/-!
DEFINITION. Which commands a 32-bit command word can hold: each operand fits its field of 30_encoding.md R100.
Values that fit but are out of range (level 10, windowBits 8 for the compressor, FLUSH 5) are well formed: the
command's own rule refuses them with a status (R101 step 3).
-/

namespace Sys2Proof

/-- Every operand fits its field of the command word (R100): LEVEL, WBITS and MEMLEVEL 4 bits, STRATEGY 2 bits,
FLUSH 3 bits. -/
def Instr.wellFormed : Instr → Bool
  | .dinit level wbits memLevel strategy =>
    decide (level < 16) && decide (wbits < 16) && decide (memLevel < 16) && decide (strategy < 4)
  | .dsetdict => true
  | .deflate flush => decide (flush < 8)
  | .dparams level strategy => decide (level < 16) && decide (strategy < 4)
  | .dreset => true
  | .dend => true
  | .iinit wbits => decide (wbits < 16)
  | .isetdict => true
  | .inflate flush => decide (flush < 8)
  | .isync => true
  | .ireset => true
  | .iend => true
  | .adler => true
  | .hbuild => true
  | .hcanon => true

end Sys2Proof
end

