-- ==== Sys2Proof/Decode.lean ====
section
/-!
DEFINITION. Decoding and encoding of command words (30_encoding.md R100–R102, R107). Decoding is total: a word is
a command, or it is rejected by name. The order is R101's: the OPC first, then the reserved and unused bits.
-/

namespace Sys2Proof

/-- Why a word is no command. -/
inductive DecodeError where
  /-- The OPC is not in the opcode map (R107): the core answers StreamError 25. -/
  | illegalOpc
  /-- A legal OPC with a 1 in a reserved bit or in a field it does not use (R101 step 2): StreamError 20. -/
  | reservedBits
  deriving DecidableEq, Repr

/-- What decoding a word gives. -/
inductive Decoded where
  | command (i : Instr)
  | rejected (e : DecodeError)
  deriving DecidableEq, Repr

/-- OPC, bits 7:0 (R100). -/
def fieldOpc (w : Word) : Nat := (w.extractLsb' 0 8).toNat

/-- FLUSH, bits 10:8 (R100). -/
def fieldFlush (w : Word) : Nat := (w.extractLsb' 8 3).toNat

/-- LEVEL, bits 15:12 (R100). -/
def fieldLevel (w : Word) : Nat := (w.extractLsb' 12 4).toNat

/-- WBITS, bits 19:16 (R100). -/
def fieldWbits (w : Word) : Nat := (w.extractLsb' 16 4).toNat

/-- MEMLEVEL, bits 23:20 (R100). -/
def fieldMemLevel (w : Word) : Nat := (w.extractLsb' 20 4).toNat

/-- STRATEGY, bits 25:24 (R100). -/
def fieldStrategy (w : Word) : Nat := (w.extractLsb' 24 2).toNat

/-- One row of the opcode map (R102). -/
structure OpcodeRow where
  opc : Nat
  mnemonic : String
  pattern : Word
  mask : Word
  deriving DecidableEq, Repr

/-- The opcode map (R102): a word w is the row's command when `w & mask = pattern`. -/
def opcodeMap : List OpcodeRow :=
  [ ⟨0x01, "DINIT",    0x00000001#32, 0xFC000FFF#32⟩,
    ⟨0x02, "DSETDICT", 0x00000002#32, 0xFFFFFFFF#32⟩,
    ⟨0x03, "DEFLATE",  0x00000003#32, 0xFFFFF8FF#32⟩,
    ⟨0x04, "DPARAMS",  0x00000004#32, 0xFCFF0FFF#32⟩,
    ⟨0x05, "DRESET",   0x00000005#32, 0xFFFFFFFF#32⟩,
    ⟨0x06, "DEND",     0x00000006#32, 0xFFFFFFFF#32⟩,
    ⟨0x11, "IINIT",    0x00000011#32, 0xFFF0FFFF#32⟩,
    ⟨0x12, "ISETDICT", 0x00000012#32, 0xFFFFFFFF#32⟩,
    ⟨0x13, "INFLATE",  0x00000013#32, 0xFFFFF8FF#32⟩,
    ⟨0x14, "ISYNC",    0x00000014#32, 0xFFFFFFFF#32⟩,
    ⟨0x15, "IRESET",   0x00000015#32, 0xFFFFFFFF#32⟩,
    ⟨0x16, "IEND",     0x00000016#32, 0xFFFFFFFF#32⟩,
    ⟨0x21, "ADLER",    0x00000021#32, 0xFFFFFFFF#32⟩,
    ⟨0x22, "HBUILD",   0x00000022#32, 0xFFFFFFFF#32⟩,
    ⟨0x23, "HCANON",   0x00000023#32, 0xFFFFFFFF#32⟩ ]

/-- The row of an OPC, if the opcode map has one. -/
def opcodeRow? (opc : Nat) : Option OpcodeRow := opcodeMap.find? (fun r => r.opc == opc)

/-- The command of a legal OPC, its operands read from the word's fields (R102, column "fields used"). -/
def commandOf (opc : Nat) (w : Word) : Option Instr :=
  match opc with
  | 0x01 => some (.dinit (fieldLevel w) (fieldWbits w) (fieldMemLevel w) (fieldStrategy w))
  | 0x02 => some .dsetdict
  | 0x03 => some (.deflate (fieldFlush w))
  | 0x04 => some (.dparams (fieldLevel w) (fieldStrategy w))
  | 0x05 => some .dreset
  | 0x06 => some .dend
  | 0x11 => some (.iinit (fieldWbits w))
  | 0x12 => some .isetdict
  | 0x13 => some (.inflate (fieldFlush w))
  | 0x14 => some .isync
  | 0x15 => some .ireset
  | 0x16 => some .iend
  | 0x21 => some .adler
  | 0x22 => some .hbuild
  | 0x23 => some .hcanon
  | _ => none

/-- Decoding a command word, in the order of R101. -/
def decode (w : Word) : Decoded :=
  match opcodeRow? (fieldOpc w), commandOf (fieldOpc w) w with
  | some row, some i => if w &&& row.mask = row.pattern then .command i else .rejected .reservedBits
  | _, _ => .rejected .illegalOpc

/-- A field's value placed at its bit (R100). -/
def atBit (v lsb : Nat) : Word := Word.ofNat (v <<< lsb)

/-- The command word of a command: its OPC, its fields, zeros elsewhere (R104). -/
def encode : Instr → Word
  | .dinit level wbits memLevel strategy =>
    0x01#32 ||| atBit level 12 ||| atBit wbits 16 ||| atBit memLevel 20 ||| atBit strategy 24
  | .dsetdict => 0x02#32
  | .deflate flush => 0x03#32 ||| atBit flush 8
  | .dparams level strategy => 0x04#32 ||| atBit level 12 ||| atBit strategy 24
  | .dreset => 0x05#32
  | .dend => 0x06#32
  | .iinit wbits => 0x11#32 ||| atBit wbits 16
  | .isetdict => 0x12#32
  | .inflate flush => 0x13#32 ||| atBit flush 8
  | .isync => 0x14#32
  | .ireset => 0x15#32
  | .iend => 0x16#32
  | .adler => 0x21#32
  | .hbuild => 0x22#32
  | .hcanon => 0x23#32

/-- The command word held in the low `nbits` bits of `w`, every bit above them 0. -/
def tableWord (nbits w : Nat) : Word := Word.ofNat (w % 2 ^ nbits)

/-- The instruction the decoder reads from a word numbered as spec/opcode_table.json numbers it; none where it
rejects the word. A command word is one 32-bit value (R100), so there is no byte order to lay out. -/
def decodeTableWord (nbits w : Nat) : Option Instr :=
  match decode (tableWord nbits w) with
  | .command i => some i
  | .rejected _ => none

end Sys2Proof
end

