-- ==== Sys2Proof/Config.lean ====
section
/-!
DEFINITION. What one implementation of the core fixes (00_scope.md R9): the open parameters CORE_ID and MEM_SIZE, the
decided parameters HW_MAX_WBITS, HW_MAX_MEMLEVEL and ENCODER_PROFILE, and what a byte of buffer memory reads as that
nothing has written. The decided tables (LEVEL_TABLE, TRUNC_MASK)
stand in Machine/Tables.lean.
-/

namespace Sys2Proof

/-- The encoder profiles of R9 and R22. -/
inductive EncoderProfile where
  /-- The exact compressed bytes of 42_lz77.md and 44_deflate.md. -/
  | reference
  /-- Any output that satisfies R434. -/
  | any
  deriving DecidableEq, Repr

/-- `CORE_ID` (R9, R46): OPEN, any 32-bit value. It has no body, so no proof can rest on its value. DESIGN
CHOICE (log 3): an opaque constant. -/
opaque Config.coreId : Word

/-- `ENCODER_PROFILE` (R9): decided `Reference`, the profile that `exec` and `step` run. R9 leaves the parameter open for
proofs: `ExecUnder` and `StepUnder` of Machine/AnyProfile.lean take the profile as an argument (log 13). -/
def Config.encoderProfile : EncoderProfile := .reference

/-- `HW_MAX_WBITS` (R9, D37): decided 15. -/
def Config.hwMaxWbits : Nat := 15

/-- `HW_MAX_MEMLEVEL` (R9, D37): decided 9. -/
def Config.hwMaxMemLevel : Nat := 9

/-- `MEM_SIZE - 1`, the last buffer-memory address, of the machine that comes out of reset (R9: OPEN, 1 .. 2^32). It has
no body, so no proof can rest on its value. DESIGN CHOICE (log 2): an opaque constant, carried in the state from there
on, so that a statement about every state holds for every size. -/
opaque Config.resetMemTop : Word

/-- What a byte of buffer memory reads as that nothing has written. R650 makes the power-up contents a platform
matter; DESIGN CHOICE (log 4): 0. -/
def Config.unwrittenByte : Byte := 0#8

end Sys2Proof
end

