-- ==== Sys2Proof/Machine/State.lean ====
section
/-!
DEFINITION. The state of the core, as plain data: the host register file and buffer memory (10_state.md R32–R46,
20_memory.md R72), the open engine with all its fields (R51–R58), the host's pending actions, the reasons a step
stops, and the state after a hardware reset (70_reset_and_hazards.md R650).
-/

namespace Sys2Proof.Machine

/-! ## Memories -/

/-- Buffer memory (R72): (address, byte) cells, addresses strictly rising, no byte equal to what an unlisted
address reads as (`Config.unwrittenByte`). -/
abbrev Memory := List Host.Cell

/-- The canonical form of buffer memory above `low`: every address at least `low`, strictly rising, no listed
byte equal to the unwritten byte. -/
def Memory.wfFrom : Nat → Memory → Bool
  | _, [] => true
  | low, (a, b) :: rest => decide (low ≤ a) && decide (b ≠ Config.unwrittenByte) && Memory.wfFrom (a + 1) rest

/-- The canonical form of buffer memory. -/
def Memory.wf (m : Memory) : Bool := Memory.wfFrom 0 m

/-- An internal SRAM (20_memory.md R73) as plain data: a binary tree whose node at index 0 is the root, and whose
index k + 1 lies in the left subtree when k is even and in the right one when k is odd, at k / 2. An index with no
node holds the default value (zero). Reads and writes are in Machine/Sram.lean. -/
inductive Ram (α : Type) where
  | nil
  | node (value : α) (left right : Ram α)
  deriving DecidableEq, Repr, Inhabited

/-! ## Statuses -/

/-- The status codes (60_exceptions.md R600). -/
inductive Status where
  | ok
  | streamEnd
  | needDictionary
  | streamError
  | dataError
  | memError
  | bufError
  deriving DecidableEq, Repr, Inhabited

/-! ## The compressor (R52–R54) -/

/-- The strategy functions of 42_lz77.md R355. -/
inductive MatchFunc where
  | stored
  | fast
  | slow
  deriving DecidableEq, Repr, Inhabited

/-- The level parameters of R52: a row of LEVEL_TABLE (R355). -/
structure LevelConfig where
  goodMatch : Nat
  maxLazy : Nat
  niceMatch : Nat
  maxChain : Nat
  func : MatchFunc
  deriving DecidableEq, Repr, Inhabited

/-- The compressor's top-level states (R54, R431). -/
inductive DState where
  | init
  | busy
  | finish
  | done
  deriving DecidableEq, Repr, Inhabited

/-- One entry of the symbol buffer (R54, R364): `dist = 0` is the literal `lc`; otherwise a match of distance
`dist` and length `lc + 3`. -/
structure SymEntry where
  dist : Nat
  lc : Nat
  deriving DecidableEq, Repr, Inhabited

/-- The compressor engine (R52–R54). Window positions that a slide may carry below 0 (`blockStart`, `matchStart`,
`prevMatch`) are integers, as R12 says of all pseudocode arithmetic (log 12). -/
structure Compressor where
  level : Nat
  strategy : Nat
  wBits : Nat
  memLevel : Nat
  config : LevelConfig
  win : Ram Byte
  head : Ram Nat
  prev : Ram Nat
  insH : Nat
  strstart : Nat
  blockStart : Int
  lookahead : Nat
  matchLength : Nat
  prevLength : Nat
  matchStart : Int
  prevMatch : Int
  matchAvailable : Bool
  dstate : DState
  lastFlush : Int
  pending : List Byte
  biBuf : BitVec 16
  biValid : Nat
  sym : Ram SymEntry
  lastLit : Nat
  matchCount : Nat
  lfreq : Ram Nat
  dfreq : Ram Nat
  /-- The model's own: the pending guard of R401 has fired in the running command (log 6). -/
  overflowed : Bool
  deriving DecidableEq, Repr, Inhabited

/-! ## The decompressor (R55–R58) -/

/-- The decompressor's top-level states, in the order of R512. -/
inductive IMode where
  | headerMethod
  | headerFlags
  | dictId
  | waitForDictionary
  | blocks
  | trailerChecksum
  | done
  | bad
  deriving DecidableEq, Repr, Inhabited

/-- The decompressor's block sub-states (R45, R58). -/
inductive BMode where
  | type
  | storedLen
  | storedCopy
  | table
  | btree
  | dtree
  | codesLen
  | codesDist
  | codesCopy
  | wash
  deriving DecidableEq, Repr, Inhabited

/-- The decompressor engine (R55–R58). -/
structure Decompressor where
  wbits : Nat
  iwin : Ram Byte
  wr : Nat
  pend : Nat
  hist : Nat
  check : Word
  mode : IMode
  k : Nat
  method : Byte
  need : Word
  was : Word
  marker : Nat
  err : BitVec 8
  bitb : BitVec 40
  bitk : Nat
  bmode : BMode
  last : Bool
  left : Nat
  nl : Nat
  nd : Nat
  ncl : Nat
  index : Nat
  blens : List Nat
  lens : List Nat
  blcode : List Nat
  lcode : List Nat
  dcode : List Nat
  len : Nat
  dist : Nat
  deriving DecidableEq, Repr, Inhabited

/-- The engine selector and the open engine (R51): at most one engine is active. After reset there is none, and
no engine field has a value (R61). -/
inductive Engine where
  | none
  | deflate (c : Compressor)
  | inflate (d : Decompressor)
  deriving DecidableEq, Repr, Inhabited

/-! ## The host side -/

/-- The registers of the core's register window (R33). -/
inductive Register where
  | cmd
  | status
  | result
  | errcode
  | nextIn
  | availIn
  | totalIn
  | nextOut
  | availOut
  | totalOut
  | adler
  | rval
  | arg0
  | arg1
  | arg2
  | arg3
  | cfg
  | estate
  | id
  /-- Offsets 0x4C to 0x7C: read as 0 and ignore writes (R32). -/
  | reserved
  deriving DecidableEq, Repr, Inhabited

/-- One action of the host (R20, R660). Register accesses name a byte offset of the register window and a width
in bytes, because only aligned 32-bit accesses are defined (R32). -/
inductive HostAction where
  | writeReg (offset width : Nat) (value : Word)
  | readReg (offset width : Nat)
  | writeByte (addr : Nat) (value : Byte)
  | readByte (addr : Nat)
  /-- A hardware reset between commands (R650, R653). -/
  | reset
  deriving DecidableEq, Repr, Inhabited

/-- The stream port: the Stream Context's cursors, totals and running checksum (R38–R41), with the buffer memory
the cursors point into. The engines work on this part of the machine and on their own fields, on nothing else. -/
structure Port where
  nextIn : Word
  availIn : Word
  totalIn : Word
  nextOut : Word
  availOut : Word
  totalOut : Word
  adler : Word
  mem : Memory
  deriving DecidableEq, Repr, Inhabited

/-- The state of the machine. STATUS.ENGINE, CFG and ESTATE are computed from `engine` (log 8); CMD, ID and the
reserved offsets have no storage (R34, R46, R32). -/
structure State where
  /-- STATUS.BUSY (R35). -/
  busy : Bool
  /-- STATUS.OVERRUN (R35, R50). -/
  overrun : Bool
  /-- RESULT (R36), as the status it encodes. -/
  result : Status
  /-- ERRCODE bits 7:0 (R37). -/
  errcode : BitVec 8
  /-- NEXT_IN, AVAIL_IN, TOTAL_IN, NEXT_OUT, AVAIL_OUT, TOTAL_OUT, ADLER (R38–R41) and buffer memory (R72). -/
  port : Port
  /-- RVAL (R42). -/
  rval : Word
  /-- ARG0 (R43). -/
  arg0 : Word
  /-- ARG1 (R43). -/
  arg1 : Word
  /-- ARG2 (R43). -/
  arg2 : Word
  /-- ARG3 (R43). -/
  arg3 : Word
  /-- The open engine (R51). -/
  engine : Engine
  /-- The last buffer-memory address, `MEM_SIZE - 1` (R9, R72); no step writes it (log 2). -/
  memTop : Word
  /-- The host's pending actions, oldest first; the model's own (log 1). -/
  hostQueue : List HostAction
  /-- What the host's last read returned; the model's own (log 16). -/
  readData : Word
  deriving DecidableEq, Repr, Inhabited

/-- `MEM_SIZE` (R9): 1 .. 2^32. -/
def State.memSize (s : State) : Nat := s.memTop.toNat + 1

/-! ## Why a step stops -/

/-- The faults. -/
inductive Fault where
  /-- Raised by DEFLATE and DPARAMS when the pending output overflows (R401, R606). Safe: nothing is claimed after
  it, and the spec gives no state after it. -/
  | pendingOverflow
  /-- Raised by a host access to a buffer address of MEM_SIZE or above. R72 gives the addresses that exist and no outcome
  for such an access. DESIGN CHOICE (log 24): it faults. Safe. -/
  | noSuchAddress
  deriving DecidableEq, Repr

/-- The refusals. -/
inductive Refusal where
  /-- Raised by exec for an instruction that has no meaning yet. Safe. -/
  | notModelled (mnemonic : String)
  /-- Raised by a register access that is not an aligned 32-bit access of the register window (R32, R607). Safe. -/
  | registerAccess
  /-- Raised by a host buffer access while BUSY, for which the atomic model has no move (R607). Safe. -/
  | bufferAccessWhileBusy
  /-- Raised by a hardware reset while BUSY, for which the atomic model has no move (R653). Safe. -/
  | resetWhileBusy
  deriving DecidableEq, Repr

/-! ## Reset -/

/-- The stream port after a hardware reset (R650): cursors and totals 0, ADLER 1, the given buffer memory. -/
def Port.reset (mem : Memory) : Port where
  nextIn := 0#32
  availIn := 0#32
  totalIn := 0#32
  nextOut := 0#32
  availOut := 0#32
  totalOut := 0#32
  adler := 1#32
  mem := mem

/-- The machine right after a hardware reset (R650), for a buffer memory with the given last address (R9), with nothing
in it and no host action pending. -/
def State.resetOf (memTop : Word) : State where
  busy := false
  overrun := false
  result := .ok
  errcode := 0#8
  port := Port.reset []
  rval := 0#32
  arg0 := 0#32
  arg1 := 0#32
  arg2 := 0#32
  arg3 := 0#32
  engine := .none
  memTop := memTop
  hostQueue := []
  readData := 0#32

/-- The machine right after a hardware reset (R650), MEM_SIZE being the open parameter of R9. -/
def State.reset : State := State.resetOf Config.resetMemTop

end Sys2Proof.Machine
end

