-- ==== Sys2Proof/Machine/Sram.lean ====
section
/-!
DEFINITION. Reads and writes of the internal SRAMs (20_memory.md R72, R73). Only the core reaches them. A tree of
values stands for an array: entries that hold the default value need no node, and every operation keeps the form
in which no node is a leaf with the default value, so equal arrays are equal data.
-/

namespace Sys2Proof.Machine

/-- The entry at an index. -/
def Ram.get {α : Type} [Inhabited α] : Ram α → Nat → α
  | .nil, _ => default
  | .node v _ _, 0 => v
  | .node _ l r, k + 1 => if k % 2 = 0 then l.get (k / 2) else r.get (k / 2)

/-- A node, unless it would be a leaf with the default value. -/
def Ram.pack {α : Type} [DecidableEq α] [Inhabited α] (v : α) : Ram α → Ram α → Ram α
  | .nil, .nil => if v = default then .nil else .node v .nil .nil
  | l, r => .node v l r

/-- The value at the root, and the two subtrees. -/
def Ram.root {α : Type} [Inhabited α] : Ram α → α
  | .nil => default
  | .node v _ _ => v

/-- The left subtree. -/
def Ram.left {α : Type} : Ram α → Ram α
  | .nil => .nil
  | .node _ l _ => l

/-- The right subtree. -/
def Ram.right {α : Type} : Ram α → Ram α
  | .nil => .nil
  | .node _ _ r => r

/-- Write value `b` at an index, in a tree of at most the given depth. -/
def Ram.setAt {α : Type} [DecidableEq α] [Inhabited α] (b : α) : Nat → Ram α → Nat → Ram α
  | 0, t, _ => t
  | _ + 1, t, 0 => Ram.pack b t.left t.right
  | d + 1, t, k + 1 =>
    if k % 2 = 0 then Ram.pack t.root (Ram.setAt b d t.left (k / 2)) t.right
    else Ram.pack t.root t.left (Ram.setAt b d t.right (k / 2))

/-- The depth that holds every index of every SRAM of R73: indices below 2^20 - 1. -/
def Ram.depth : Nat := 20

/-- Write an entry. -/
def Ram.set {α : Type} [DecidableEq α] [Inhabited α] (t : Ram α) (k : Nat) (b : α) : Ram α :=
  Ram.setAt b Ram.depth t k

/-- Apply `f` to every entry; `f` keeps the default value. -/
def Ram.map {α : Type} [DecidableEq α] [Inhabited α] (f : α → α) : Ram α → Ram α
  | .nil => .nil
  | .node v l r => Ram.pack (f v) (l.map f) (r.map f)

/-- Write a sequence of entries from an index on. -/
def Ram.setRun {α : Type} [DecidableEq α] [Inhabited α] (t : Ram α) (k : Nat) : List α → Ram α
  | [] => t
  | b :: bs => Ram.setRun (t.set k b) (k + 1) bs

/-- The `n` entries from an index on. -/
def Ram.getRun {α : Type} [Inhabited α] (t : Ram α) (k : Nat) : Nat → List α
  | 0 => []
  | n + 1 => t.get k :: Ram.getRun t (k + 1) n

/-- No node is a leaf with the default value. -/
def Ram.wf {α : Type} [DecidableEq α] [Inhabited α] : Ram α → Bool
  | .nil => true
  | .node v l r => (decide (v ≠ default) || decide (l ≠ .nil) || decide (r ≠ .nil)) && l.wf && r.wf

end Sys2Proof.Machine
end

