-- ==== Sys2Proof/Machine/Ops.lean ====
section
/-!
DEFINITION. The named operations over buffer memory, the stream port and the result registers: byte reads and
writes (00_scope.md R14), consuming input and delivering output (10_state.md R38, R40), and the exception
primitive `raise` with `return` beside it (R15). The core has no trap entry and no return from exception
(60_exceptions.md R692): an error ends the command with a status.
-/

namespace Sys2Proof.Machine

/-! ## Buffer memory -/

/-- The byte at an address (R14). -/
def Memory.read : Memory → Nat → Byte
  | [], _ => Config.unwrittenByte
  | (a', b) :: rest, a => if a = a' then b else Memory.read rest a

/-- A cell in front of a memory, unless it holds the unwritten byte. -/
def Memory.cons (a : Nat) (b : Byte) (rest : Memory) : Memory :=
  if b = Config.unwrittenByte then rest else (a, b) :: rest

/-- Write one byte, keeping the canonical form. -/
def Memory.write : Memory → Nat → Byte → Memory
  | [], a, b => Memory.cons a b []
  | (a', b') :: rest, a, b =>
    if a < a' then Memory.cons a b ((a', b') :: rest)
    else if a = a' then Memory.cons a b rest
    else (a', b') :: Memory.write rest a b

/-- `MemRead(a, n)` (R14). -/
def Memory.readRun (m : Memory) (a : Nat) : Nat → List Byte
  | 0 => []
  | n + 1 => m.read a :: Memory.readRun m (a + 1) n

/-- `MemWrite(a, n, bytes)` (R14). -/
def Memory.writeRun (m : Memory) (a : Nat) : List Byte → Memory
  | [] => m
  | b :: bs => Memory.writeRun (m.write a b) (a + 1) bs

/-! ## The stream port -/

/-- Consume `k` input bytes (R38). -/
def Port.consume (p : Port) (k : Nat) : Port :=
  { p with
    nextIn := p.nextIn + Word.ofNat k
    availIn := p.availIn - Word.ofNat k
    totalIn := p.totalIn + Word.ofNat k }

/-- Deliver bytes to the output (R40). -/
def Port.deliver (p : Port) (bytes : List Byte) : Port :=
  { p with
    mem := p.mem.writeRun p.nextOut.toNat bytes
    nextOut := p.nextOut + Word.ofNat bytes.length
    availOut := p.availOut - Word.ofNat bytes.length
    totalOut := p.totalOut + Word.ofNat bytes.length }

/-- The next `n` input bytes, not yet consumed. -/
def Port.peek (p : Port) (n : Nat) : List Byte := p.mem.readRun p.nextIn.toNat n

/-! ## Ending a command -/

/-- `return S` (R15): RESULT holds the status, ERRCODE keeps its value. -/
def State.ret (s : State) (st : Status) : State := { s with result := st }

/-- `raise Status(S, E)` (R15), at the places where R15 and R603 say that ERRCODE is written: a StreamError of any
command, or a negative status of an engine command. State written before it stays written. -/
def State.raise (s : State) (st : Status) (code : BitVec 8) : State := { s with result := st, errcode := code }

/-- How a command ends: `return S`, or `raise Status(S, E)`. -/
inductive Ending where
  | ret (st : Status)
  | raise (st : Status) (code : BitVec 8)
  deriving DecidableEq, Repr

/-- The status of an ending. -/
def Ending.status : Ending → Status
  | .ret st => st
  | .raise st _ => st

/-- End a command. -/
def State.finish (s : State) : Ending → State
  | .ret st => s.ret st
  | .raise st code => s.raise st code

/-- The entry-check error of every command: StreamError 20, nothing else changed (R604). -/
def State.misuse (s : State) : State := s.raise .streamError 20#8

end Sys2Proof.Machine
end

