-- ==== Sys2Proof/Machine/Operands.lean ====
section
/-!
DEFINITION. Operand ranges and operand arrays: validity and overlap of buffer ranges (20_memory.md R76, R77) and
little-endian u16 arrays (R70).
-/

namespace Sys2Proof.Machine

/-- A buffer range `(a, n)` is valid when `n = 0` or `a + n <= MEM_SIZE`, without wrap-around (R76). -/
def validRange (memSize a n : Nat) : Bool := decide (n = 0) || decide (a + n ≤ memSize)

/-- Two ranges overlap: both are non-empty and share a byte (R77). -/
def overlap (a n b m : Nat) : Bool :=
  decide (n ≠ 0) && decide (m ≠ 0) && decide (a < b + m) && decide (b < a + n)

/-- The range checks of DEFLATE, DPARAMS and INFLATE (R76, R77). -/
def State.streamRangesOk (s : State) : Bool :=
  validRange s.memSize s.port.nextIn.toNat s.port.availIn.toNat
    && validRange s.memSize s.port.nextOut.toNat s.port.availOut.toNat
    && !overlap s.port.nextIn.toNat s.port.availIn.toNat s.port.nextOut.toNat s.port.availOut.toNat

/-- The range check of ISYNC (R76). -/
def State.inputRangeOk (s : State) : Bool :=
  validRange s.memSize s.port.nextIn.toNat s.port.availIn.toNat

/-- The range check of DSETDICT and ISETDICT: `(ARG0, ARG1)` (R76). -/
def State.dictRangeOk (s : State) : Bool := validRange s.memSize s.arg0.toNat s.arg1.toNat

/-- The dictionary of DSETDICT and ISETDICT (R103): the ARG1 bytes at ARG0. -/
def State.dictBytes (s : State) : List Byte := s.port.mem.readRun s.arg0.toNat s.arg1.toNat

/-- The range check of ADLER: `(ARG1, ARG2)` (R76). -/
def State.adlerRangeOk (s : State) : Bool := validRange s.memSize s.arg1.toNat s.arg2.toNat

/-- The range checks of HBUILD: `(ARG0, 2*ARG1)` and `(ARG3, 3*ARG1)`, disjoint (R76, R77). -/
def State.hbuildRangesOk (s : State) : Bool :=
  validRange s.memSize s.arg0.toNat (2 * s.arg1.toNat)
    && validRange s.memSize s.arg3.toNat (3 * s.arg1.toNat)
    && !overlap s.arg0.toNat (2 * s.arg1.toNat) s.arg3.toNat (3 * s.arg1.toNat)

/-- The range checks of HCANON: `(ARG0, ARG1)` and `(ARG2, 2*ARG1)`, disjoint (R76, R77). -/
def State.hcanonRangesOk (s : State) : Bool :=
  validRange s.memSize s.arg0.toNat s.arg1.toNat
    && validRange s.memSize s.arg2.toNat (2 * s.arg1.toNat)
    && !overlap s.arg0.toNat s.arg1.toNat s.arg2.toNat (2 * s.arg1.toNat)

/-- `n` little-endian u16 elements from an address on (R70). -/
def Memory.readU16s (m : Memory) (a : Nat) : Nat → List Nat
  | 0 => []
  | n + 1 => ((m.read a).toNat + 256 * (m.read (a + 1)).toNat) :: Memory.readU16s m (a + 2) n

/-- The bytes of little-endian u16 elements (R70). -/
def u16Bytes : List Nat → List Byte
  | [] => []
  | v :: vs => Byte.ofNat (v % 256) :: Byte.ofNat (v / 256) :: u16Bytes vs

end Sys2Proof.Machine
end

