-- ==== Sys2Proof/Machine/Checksum.lean ====
section
/-!
DEFINITION. The Adler-32 checksum unit and the command ADLER (40_checksum.md R300–R305).
-/

namespace Sys2Proof.Machine

/-- The loop of R300: the low and the high sum after a byte sequence. -/
def adlerSums (a b : Nat) : List Byte → Nat × Nat
  | [] => (a, b)
  | x :: xs => adlerSums ((a + x.toNat) % 65521) ((b + (a + x.toNat) % 65521) % 65521) xs

/-- `adler_update(acc, X)` (R300): the empty sequence leaves the accumulator unchanged, reduced or not (D29). -/
def adlerUpdate (acc : Word) (bytes : List Byte) : Word :=
  match bytes with
  | [] => acc
  | x :: xs =>
    let sums := adlerSums (acc.toNat % 65536) (acc.toNat / 65536) (x :: xs)
    Word.ofNat (sums.2 * 65536 + sums.1)

/-- ADLER (R305): RVAL becomes the checksum of the ARG2 bytes at ARG1, updated from ARG0. -/
def execAdler (s : State) : Host.Outcome State Fault Refusal :=
  if s.adlerRangeOk then
    let data := s.port.mem.readRun s.arg1.toNat s.arg2.toNat
    .next { s.ret .ok with rval := adlerUpdate s.arg0 data }
  else .next s.misuse

end Sys2Proof.Machine
end

