-- ==== Sys2Proof/Machine/Tables.lean ====
section
/-!
DEFINITION. The tables of the wire format (30_encoding.md R117, R119–R122) and of the reference encoder
(42_lz77.md R355, R364, R380).
-/

namespace Sys2Proof.Machine

/-- LEN_BASE: the smallest length of each length code 0..28, symbols 257..285 (R117). -/
def lenBase : List Nat :=
  [3, 4, 5, 6, 7, 8, 9, 10, 11, 13, 15, 17, 19, 23, 27, 31, 35, 43, 51, 59, 67, 83, 99, 115, 131, 163, 195, 227, 258]

/-- LEN_EXTRA: the extra bits of each length code (R117). -/
def lenExtra : List Nat :=
  [0, 0, 0, 0, 0, 0, 0, 0, 1, 1, 1, 1, 2, 2, 2, 2, 3, 3, 3, 3, 4, 4, 4, 4, 5, 5, 5, 5, 0]

/-- DIST_BASE: the smallest distance of each distance code 0..29 (R119). -/
def distBase : List Nat :=
  [1, 2, 3, 4, 5, 7, 9, 13, 17, 25, 33, 49, 65, 97, 129, 193, 257, 385, 513, 769, 1025, 1537, 2049, 3073, 4097, 6145,
   8193, 12289, 16385, 24577]

/-- DIST_EXTRA: the extra bits of each distance code (R119). -/
def distExtra : List Nat :=
  [0, 0, 0, 0, 1, 1, 2, 2, 3, 3, 4, 4, 5, 5, 6, 6, 7, 7, 8, 8, 9, 9, 10, 10, 11, 11, 12, 12, 13, 13]

/-- BL_EXTRA: the extra bits of the code-length symbols 16, 17, 18 (R122, R446). -/
def blExtra : List Nat := [0, 0, 0, 0, 0, 0, 0, 0, 0, 0, 0, 0, 0, 0, 0, 0, 2, 3, 7]

/-- BL_ORDER: the order in which code-length code lengths are sent (R121). -/
def blOrder : List Nat := [16, 17, 18, 0, 8, 7, 9, 6, 10, 5, 11, 4, 12, 3, 13, 2, 14, 1, 15]

/-- An entry of a table; 0 past its end. -/
def tableAt (t : List Nat) (k : Nat) : Nat := t.getD k 0

/-- The number of leading entries of an increasing table that are at most `v`. -/
def rank : List Nat → Nat → Nat
  | [], _ => 0
  | b :: bs, v => if b ≤ v then rank bs v + 1 else 0

/-- `length_code(lc)`, `lc = length - 3`: the largest k with `LEN_BASE[k] - 3 <= lc` (R380). -/
def lengthCode (lc : Nat) : Nat := rank lenBase (lc + 3) - 1

/-- `dist_code(d)`, `d = distance - 1`: the largest k with `DIST_BASE[k] - 1 <= d` (R380). R380 has d up to 32767. A stale match
(log 28) can lie further back; DESIGN CHOICE (log 32): the same rule gives code 29. -/
def distCode (d : Nat) : Nat := rank distBase (d + 1) - 1

/-- The fixed literal/length code lengths (R120). -/
def fixedLitLen (s : Nat) : Nat :=
  if s < 144 then 8 else if s < 256 then 9 else if s < 280 then 7 else 8

/-- The fixed distance code length (R120). -/
def fixedDistLen (_ : Nat) : Nat := 5

/-- LEVEL_TABLE (R355): good, lazy, nice, chain, func. A level above 9 never reaches it (R440, R457). -/
def levelTable (level : Nat) : LevelConfig :=
  match level with
  | 0 => ⟨0, 0, 0, 0, .stored⟩
  | 1 => ⟨4, 4, 8, 4, .fast⟩
  | 2 => ⟨4, 5, 16, 8, .fast⟩
  | 3 => ⟨4, 6, 32, 32, .fast⟩
  | 4 => ⟨4, 4, 16, 16, .slow⟩
  | 5 => ⟨8, 16, 32, 32, .slow⟩
  | 6 => ⟨8, 16, 128, 128, .slow⟩
  | 7 => ⟨8, 32, 128, 256, .slow⟩
  | 8 => ⟨32, 128, 258, 1024, .slow⟩
  | _ => ⟨32, 258, 258, 4096, .slow⟩

/-- TRUNC_MASK (R9, R364). -/
def truncMask : Nat := 0x1FFF

/-- TOO_FAR (R367): a length-3 match farther than this is discarded. -/
def tooFar : Nat := 4096

end Sys2Proof.Machine
end

