-- ==== Sys2Proof/Machine/Huffman.lean ====
section
/-!
DEFINITION. The Huffman tree builder and the canonical codes (46_huffman.md R610–R633): length-limited trees over
symbol frequencies, canonical assignment, the Kraft verdict, canonical decoding, and the commands HBUILD and
HCANON (R640, R641).
-/

namespace Sys2Proof.Machine

/-! ## Length-limited tree construction (R610–R615) -/

/-- The builder's scratch (R610): the heap with its two ends, and per-node frequency, depth and parent. -/
structure Builder where
  heap : Ram Nat
  heapLen : Nat
  heapMax : Nat
  freq : Ram Nat
  depth : Ram Nat
  dad : Ram Nat
  maxCode : Int
  dOpt : Int
  dStatic : Int

/-- What a tree is built for (R610): the alphabet size, the length limit, the extra bits of each symbol, and the
fixed code's lengths where the caller has one. -/
structure TreeKind where
  elems : Nat
  maxLength : Nat
  extra : Nat → Nat
  fixedLen : Option (Nat → Nat)

/-- `stree.len[n]`, 0 where there is no fixed code. -/
def TreeKind.staticLen (t : TreeKind) (n : Nat) : Nat :=
  match t.fixedLen with
  | none => 0
  | some f => f n

/-- HEAP_SIZE (R610): 573, the room for the nodes of 286 leaves; larger alphabets (HBUILD with n of 287 or 288) get
the room R612 needs, one entry per node. DESIGN CHOICE (log 9). -/
def heapSize (elems : Nat) : Nat := max 573 (2 * elems + 1)

/-- The builder's start (R610): every symbol with a nonzero frequency is put on the heap. -/
def Builder.start (freq : Ram Nat) (elems : Nat) : Builder :=
  (List.range elems).foldl
    (fun b n =>
      if b.freq.get n ≠ 0 then
        { b with heapLen := b.heapLen + 1, heap := b.heap.set (b.heapLen + 1) n, maxCode := n }
      else b)
    { heap := .nil, heapLen := 0, heapMax := heapSize elems, freq := freq, depth := .nil, dad := .nil,
      maxCode := -1, dOpt := 0, dStatic := 0 }

/-- Force one leaf (R610): the next symbol while `max_code < 2`, else symbol 0. -/
def Builder.force (kind : TreeKind) (b : Builder) : Builder :=
  let node := if b.maxCode < 2 then (b.maxCode + 1).toNat else 0
  { b with
    maxCode := if b.maxCode < 2 then b.maxCode + 1 else b.maxCode
    heapLen := b.heapLen + 1
    heap := b.heap.set (b.heapLen + 1) node
    freq := b.freq.set node 1
    depth := b.depth.set node 0
    dOpt := b.dOpt - 1
    dStatic := b.dStatic - kind.staticLen node }

/-- Force at least two leaves (R610). -/
def Builder.forceTwo (kind : TreeKind) (b : Builder) : Builder :=
  if b.heapLen = 0 then (b.force kind).force kind else if b.heapLen = 1 then b.force kind else b

/-- `smaller(n, m)` (R611). -/
def Builder.smaller (b : Builder) (n m : Nat) : Bool :=
  decide (b.freq.get n < b.freq.get m)
    || (decide (b.freq.get n = b.freq.get m) && decide (b.depth.get n ≤ b.depth.get m))

/-- The child of a heap position to compare with (R611): the smaller of positions `j` and `j + 1`. -/
def Builder.child (b : Builder) (j : Nat) : Nat :=
  if decide (j < b.heapLen) && b.smaller (b.heap.get (j + 1)) (b.heap.get j) then j + 1 else j

/-- The loop of `pqdownheap` (R611): node `v` sinks from position `k`, whose first child is `j`. -/
def Builder.sink (v : Nat) : Nat → Builder → Nat → Nat → Builder
  | 0, b, k, _ => { b with heap := b.heap.set k v }
  | fuel + 1, b, k, j =>
    if j ≤ b.heapLen then
      if b.smaller v (b.heap.get (b.child j)) then { b with heap := b.heap.set k v }
      else Builder.sink v fuel { b with heap := b.heap.set k (b.heap.get (b.child j)) } (b.child j) (2 * b.child j)
    else { b with heap := b.heap.set k v }

/-- `pqdownheap(k)` (R611). -/
def Builder.pqdownheap (b : Builder) (k : Nat) : Builder := Builder.sink (b.heap.get k) (b.heapLen + 1) b k (2 * k)

/-- Order the heap: `pqdownheap(k)` for k from `n` down to 1 (R611). -/
def Builder.heapify : Nat → Builder → Builder
  | 0, b => b
  | k + 1, b => Builder.heapify k (b.pqdownheap (k + 1))

/-- Remove the least node (R612): the last heap node takes position 1 and sinks. -/
def Builder.removeLeast (b : Builder) : Builder :=
  Builder.pqdownheap { b with heap := b.heap.set 1 (b.heap.get b.heapLen), heapLen := b.heapLen - 1 } 1

/-- Join the two least nodes `n` and `m` under the new node (R612). -/
def Builder.join (b : Builder) (n m node : Nat) : Builder :=
  Builder.pqdownheap
    { b with
      heap := ((b.heap.set (b.heapMax - 1) n).set (b.heapMax - 2) m).set 1 node
      heapMax := b.heapMax - 2
      freq := b.freq.set node (b.freq.get n + b.freq.get m)
      depth := b.depth.set node (max (b.depth.get n) (b.depth.get m) + 1)
      dad := (b.dad.set n node).set m node } 1

/-- The merge loop (R612), `node` the next internal node; it ends with the root on the upper end. -/
def Builder.merge : Nat → Nat → Builder → Builder
  | 0, _, b => b
  | fuel + 1, node, b =>
    let n := b.heap.get 1
    let b1 := b.removeLeast
    let b2 := b1.join n (b1.heap.get 1) node
    if b2.heapLen < 2 then { b2 with heap := b2.heap.set (b2.heapMax - 1) (b2.heap.get 1), heapMax := b2.heapMax - 1 }
    else Builder.merge fuel (node + 1) b2

/-- The lengths under construction (R613): per-node lengths, the count of each length, clipped nodes, cost
deltas. -/
structure Lengths where
  len : Ram Nat
  blCount : Ram Nat
  overflow : Int
  dOpt : Int
  dStatic : Int

/-- One node of `gen_bitlen` (R613): one more than its parent's length, clipped to the limit. -/
def Lengths.assign (kind : TreeKind) (b : Builder) (x : Lengths) (n : Nat) : Lengths :=
  let raw := x.len.get (b.dad.get n) + 1
  let bits := min raw kind.maxLength
  let x1 := { x with len := x.len.set n bits, overflow := if kind.maxLength < raw then x.overflow + 1 else x.overflow }
  if b.maxCode < n then x1
  else
    { x1 with
      blCount := x1.blCount.set bits (x1.blCount.get bits + 1)
      dOpt := x1.dOpt + b.freq.get n * (bits + kind.extra n)
      dStatic := x1.dStatic + (if kind.fixedLen.isSome then b.freq.get n * (kind.staticLen n + kind.extra n) else 0) }

/-- `gen_bitlen` (R613): the nodes after the root, in the order of the heap's upper end. -/
def genBitlen (kind : TreeKind) (b : Builder) : Lengths :=
  ((b.heap.getRun (b.heapMax + 1) (heapSize kind.elems - (b.heapMax + 1)))).foldl (Lengths.assign kind b)
    { len := (Ram.nil : Ram Nat).set (b.heap.get b.heapMax) 0, blCount := .nil, overflow := 0,
      dOpt := b.dOpt, dStatic := b.dStatic }

/-- The largest length below the limit that some leaf has (R614): the first nonzero count from `bits` down. -/
def lastUsed (blCount : Ram Nat) : Nat → Nat
  | 0 => 0
  | bits + 1 => if blCount.get (bits + 1) = 0 then lastUsed blCount bits else bits + 1

/-- Move one leaf down a level (R614). -/
def moveLeafDown (maxLength : Nat) (blCount : Ram Nat) : Ram Nat :=
  let bits := lastUsed blCount (maxLength - 1)
  let c1 := blCount.set bits (blCount.get bits - 1)
  let c2 := c1.set (bits + 1) (c1.get (bits + 1) + 2)
  c2.set maxLength (c2.get maxLength - 1)

/-- The count loop of the overflow fix (R614): a leaf moves down for every two clipped nodes. -/
def fixCounts (maxLength : Nat) : Nat → Int → Ram Nat → Ram Nat
  | 0, _, c => c
  | fuel + 1, overflow, c =>
    if overflow - 2 ≤ 0 then moveLeafDown maxLength c
    else fixCounts maxLength fuel (overflow - 2) (moveLeafDown maxLength c)

/-- Reassign lengths (R614): walking the nodes from the end of the heap, leaves only, the first `blCount[bits]`
leaves get length `bits`, from the limit down. -/
def reassign (b : Builder) (blCount : Ram Nat) : Nat → Nat → Nat → Lengths → Lengths
  | 0, _, _, x => x
  | h + 1, bits, c, x =>
    match c with
    | 0 => x
    | c' + 1 =>
      let m := b.heap.get h
      if b.maxCode < m then reassign b blCount h bits (c' + 1) x
      else
        let x1 :=
          if x.len.get m = bits then x
          else { x with dOpt := x.dOpt + (bits - x.len.get m) * b.freq.get m, len := x.len.set m bits }
        match c' with
        | 0 => reassign b blCount h (lastUsed blCount (bits - 1)) (blCount.get (lastUsed blCount (bits - 1))) x1
        | _ + 1 => reassign b blCount h bits c' x1

/-- The overflow fix (R614), run only when some node was clipped. -/
def fixOverflow (kind : TreeKind) (b : Builder) (x : Lengths) : Lengths :=
  if x.overflow ≤ 0 then x
  else
    let counts := fixCounts kind.maxLength x.overflow.toNat x.overflow x.blCount
    let top := lastUsed counts kind.maxLength
    reassign b counts (heapSize kind.elems) top (counts.get top) x

/-! ## Canonical codes (R620–R623) -/

/-- `bi_reverse(v, n)` (R16): the low n bits of v in reverse order. -/
def biReverse (v : Nat) : Nat → Nat
  | 0 => 0
  | n + 1 => (v % 2) * 2 ^ n + biReverse (v / 2) n

/-- `bl_count[b]` of a length array, for b of 1 or more (R620). -/
def lengthCount (lens : List Nat) (b : Nat) : Nat := lens.countP (fun l => l == b)

/-- The counts `bl_count[0..15]` of a length array, `bl_count[0] = 0` (R620). -/
def lengthCounts (lens : List Nat) : Ram Nat :=
  lens.foldl (fun c l => if l = 0 then c else c.set l (c.get l + 1)) .nil

/-- `next_code[b]` for b from 1 on (R620): `code <- (code + bl_count[b-1]) << 1`. -/
def firstCodes (counts : Ram Nat) : Nat → Nat → Nat → Ram Nat → Ram Nat
  | 0, _, _, next => next
  | fuel + 1, b, code, next =>
    firstCodes counts fuel (b + 1) (2 * (code + counts.get (b - 1))) (next.set b (2 * (code + counts.get (b - 1))))

/-- The codes of a length array in symbol order (R620), `next` the next code of each length. -/
def assignCodes (next : Ram Nat) : List Nat → List Nat
  | [] => []
  | l :: ls => if l = 0 then 0 :: assignCodes next ls else next.get l :: assignCodes (next.set l (next.get l + 1)) ls

/-- Canonical assignment (R620): `canon[s]` for every symbol, 0 where the length is 0. -/
def canonCodes (lens : List Nat) : List Nat :=
  assignCodes (firstCodes (lengthCounts lens) 15 1 0 .nil) lens

/-- The Kraft verdict (R621). -/
inductive Verdict where
  | empty
  | oversubscribed
  | incomplete
  | complete
  deriving DecidableEq, Repr

/-- The loop of R621 over lengths b.., `left` codes left at length b - 1. -/
def kraftLoop (counts : Ram Nat) : Nat → Nat → Nat → Verdict
  | 0, _, left => if left = 0 then .complete else .incomplete
  | fuel + 1, b, left =>
    if 2 * left < counts.get b then .oversubscribed else kraftLoop counts fuel (b + 1) (2 * left - counts.get b)

/-- The Kraft verdict of a length array (R621, R632). -/
def verdict (lens : List Nat) : Verdict :=
  if lens.all (fun l => l == 0) then .empty else kraftLoop (lengthCounts lens) 15 1 1

/-- The largest length of a length array. -/
def maxLen (lens : List Nat) : Nat := lens.foldl max 0

/-- The largest symbol with a nonzero length, given the index of the array's first symbol; `best` if none. -/
def lastCoded : List Nat → Nat → Nat → Nat
  | [], _, best => best
  | l :: ls, s, best => lastCoded ls (s + 1) (if l = 0 then best else s)

/-! ## The tree builder -/

/-- A code as the encoder uses it (R610, R622): lengths, and codes reversed in their lengths. -/
structure PrefixCode where
  len : Ram Nat
  code : Ram Nat

/-- The encoder's code of a length array (R620, R622). -/
def PrefixCode.ofLengths (lens : List Nat) : PrefixCode where
  len := Ram.setRun .nil 0 lens
  code := Ram.setRun .nil 0 (List.zipWith biReverse (canonCodes lens) lens)

/-- What `build_tree` gives (R610): the lengths of the alphabet's symbols, the code, `max_code` and the cost deltas
of R615. -/
structure Tree where
  lens : List Nat
  code : PrefixCode
  maxCode : Nat
  dOpt : Int
  dStatic : Int

/-- The heap ordered and merged (R610–R612). -/
def Builder.build (kind : TreeKind) (freq : Ram Nat) : Builder :=
  let b := (Builder.start freq kind.elems).forceTwo kind
  Builder.merge kind.elems kind.elems (Builder.heapify (b.heapLen / 2) b)

/-- `build_tree` (R610–R615, R622). The array that R613 and R614 leave holds the lengths of internal nodes too; the
tree's lengths are those of the leaves, and a symbol that is no leaf has length 0. -/
def buildTree (kind : TreeKind) (freq : Ram Nat) : Tree :=
  let b := Builder.build kind freq
  let x := fixOverflow kind b (genBitlen kind b)
  let lens := x.len.getRun 0 kind.elems
  { lens := lens, code := PrefixCode.ofLengths lens, maxCode := b.maxCode.toNat, dOpt := x.dOpt, dStatic := x.dStatic }

/-! ## Decoding a canonical code (R630, R631) -/

/-- The result of `canon_decode` (R631). -/
inductive DecodeResult where
  | sym (s n : Nat)
  | needMoreBits
  | undefined
  deriving DecidableEq, Repr

/-- The symbols of one length, in increasing order, `s` the first symbol's number. With `lengthCount` they are the
slice of R631's `sorted` that holds that length. -/
def symbolsOfLength (l : Nat) : List Nat → Nat → List Nat
  | [], _ => []
  | x :: xs, s => if x = l then s :: symbolsOfLength l xs (s + 1) else symbolsOfLength l xs (s + 1)

/-- The loop of R631 at length `l`: `c` the code bits so far, `first` the first code of this length. -/
def canonLoop (lens : List Nat) (bits bitk : Nat) : Nat → Nat → Nat → Nat → DecodeResult
  | 0, _, _, _ => .undefined
  | fuel + 1, l, c, first =>
    if bitk < l then .needMoreBits
    else
      let c1 := c + (bits >>> (l - 1)) % 2
      let count := lengthCount lens l
      if c1 < first + count then
        match (symbolsOfLength l lens 0)[c1 - first]? with
        | some s => .sym s l
        | none => .undefined
      else canonLoop lens bits bitk fuel (l + 1) (2 * c1) (2 * (first + count))

/-- `canon_decode(code, bitb, bitk)` (R631) for a code given by its length array. -/
def canonDecode (lens : List Nat) (bits bitk : Nat) : DecodeResult :=
  canonLoop lens bits bitk (maxLen lens) 1 0 0

/-! ## HBUILD and HCANON -/

/-- The tree kind of HBUILD (R640): no extra bits, no fixed code. -/
def hbuildKind (n maxLength : Nat) : TreeKind := ⟨n, maxLength, fun _ => 0, none⟩

/-- The number of leaves HBUILD's code needs: at least two (R640, R610). -/
def leafCount (freqs : List Nat) : Nat := max 2 (freqs.countP (fun f => f != 0))

/-- HBUILD's result (R640): the lengths, then the bit-reversed codes as u16, and RVAL = max_code. -/
def State.hbuildResult (s : State) : State :=
  let n := s.arg1.toNat
  let freqs := s.port.mem.readU16s s.arg0.toNat n
  let tree := buildTree (hbuildKind n s.arg2.toNat) (Ram.setRun .nil 0 freqs)
  let mem1 := s.port.mem.writeRun s.arg3.toNat (tree.lens.map Byte.ofNat)
  let mem2 := mem1.writeRun (s.arg3.toNat + n) (u16Bytes (tree.code.code.getRun 0 n))
  { s.ret .ok with rval := Word.ofNat tree.maxCode, port := { s.port with mem := mem2 } }

/-- HBUILD (R640). -/
def execHbuild (s : State) : Host.Outcome State Fault Refusal :=
  if s.arg1.toNat < 3 ∨ 288 < s.arg1.toNat ∨ s.arg2.toNat < 1 ∨ 15 < s.arg2.toNat then .next s.misuse
  else if !s.hbuildRangesOk then .next s.misuse
  else if 2 ^ s.arg2.toNat < leafCount (s.port.mem.readU16s s.arg0.toNat s.arg1.toNat) then .next s.misuse
  else .next s.hbuildResult

/-- HCANON's result for acceptable lengths (R641): nothing is written when the code is over-subscribed; RVAL is the
largest length in every case. ERRCODE keeps its value (R603). -/
def State.hcanonResult (s : State) (lens : List Nat) : State :=
  let s1 := { s with rval := Word.ofNat (maxLen lens) }
  let written :=
    { s1 with port := { s.port with mem := s.port.mem.writeRun s.arg2.toNat (u16Bytes (canonCodes lens)) } }
  match verdict lens with
  | .oversubscribed => s1.ret .dataError
  | .complete => written.ret .ok
  | .incomplete => written.ret .bufError
  | .empty => written.ret .bufError

/-- HCANON (R641). -/
def execHcanon (s : State) : Host.Outcome State Fault Refusal :=
  if s.arg1.toNat < 1 ∨ 320 < s.arg1.toNat then .next s.misuse
  else if !s.hcanonRangesOk then .next s.misuse
  else
    let lens := (s.port.mem.readRun s.arg0.toNat s.arg1.toNat).map BitVec.toNat
    if lens.any (fun l => decide (15 < l)) then .next s.misuse
    else .next (s.hcanonResult lens)

end Sys2Proof.Machine
end

