-- ==== Sys2Proof/Machine/Packer.lean ====
section
/-!
DEFINITION. The compressor's derived sizes (10_state.md R52), its working pair of stream port and engine, the bit
packer (43_bitstream.md R400–R405) and the hand-over of pending bytes (R406).
-/

namespace Sys2Proof.Machine

/-! ## Derived sizes (R52) -/

/-- `w_size = 2^w_bits`. -/
def Compressor.wSize (c : Compressor) : Nat := 2 ^ c.wBits

/-- `w_mask = w_size - 1`. -/
def Compressor.wMask (c : Compressor) : Nat := c.wSize - 1

/-- `window_size = 2 * w_size`. -/
def Compressor.windowSize (c : Compressor) : Nat := 2 * c.wSize

/-- `hash_bits = memLevel + 7`. -/
def Compressor.hashBits (c : Compressor) : Nat := c.memLevel + 7

/-- `hash_size = 2^hash_bits`. -/
def Compressor.hashSize (c : Compressor) : Nat := 2 ^ c.hashBits

/-- `hash_mask = hash_size - 1`. -/
def Compressor.hashMask (c : Compressor) : Nat := c.hashSize - 1

/-- `hash_shift = (hash_bits + 2) div 3`. -/
def Compressor.hashShift (c : Compressor) : Nat := (c.hashBits + 2) / 3

/-- `lit_bufsize = 2^(memLevel + 6)`. -/
def Compressor.litBufsize (c : Compressor) : Nat := 2 ^ (c.memLevel + 6)

/-- `pending_buf_size = 4 * lit_bufsize`. -/
def Compressor.pendingBufSize (c : Compressor) : Nat := 4 * c.litBufsize

/-- `MAX_DIST = w_size - 262`. -/
def Compressor.maxDist (c : Compressor) : Nat := c.wSize - 262

/-! ## The working pair -/

/-- What a compressor command works on: the stream port and the engine. -/
structure DRun where
  port : Port
  c : Compressor
  deriving DecidableEq, Repr

/-! ## The bit packer (R400–R405) -/

/-- `put_byte(b)` (R401). When `Pending` is full the byte is not appended and the guard is recorded; the command
then ends in the fault (log 6). -/
def Compressor.putByte (c : Compressor) (b : Byte) : Compressor :=
  if c.pending.length < c.pendingBufSize then { c with pending := c.pending ++ [b] } else { c with overflowed := true }

/-- `put_byte` of each byte in turn (R401). -/
def Compressor.putBytes (c : Compressor) : List Byte → Compressor
  | [] => c
  | b :: bs => (c.putByte b).putBytes bs

/-- `put_short(w)` (R401): least significant byte first. -/
def Compressor.putShort (c : Compressor) (w : Nat) : Compressor :=
  (c.putByte (Byte.ofNat (w % 256))).putByte (Byte.ofNat (w / 256))

/-- `put_short_msb(w)` (R401): most significant byte first. -/
def Compressor.putShortMsb (c : Compressor) (w : Nat) : Compressor :=
  (c.putByte (Byte.ofNat (w / 256))).putByte (Byte.ofNat (w % 256))

/-- A 32-bit value, most significant byte first, as two `put_short_msb` (R435, R437). -/
def Compressor.putWordMsb (c : Compressor) (w : Word) : Compressor :=
  (c.putShortMsb (w.toNat / 65536)).putShortMsb (w.toNat % 65536)

/-- The accumulator with a value added above its valid bits, as the unbounded `bi_buf | (value << bi_valid)`
(R402). -/
def Compressor.biWith (c : Compressor) (value : Nat) : Nat := c.biBuf.toNat ||| (value <<< c.biValid)

/-- `send_bits(value, length)` (R402). -/
def Compressor.sendBits (c : Compressor) (value length : Nat) : Compressor :=
  if 16 - length < c.biValid then
    let c1 := c.putShort (c.biWith value % 65536)
    { c1 with biBuf := BitVec.ofNat 16 (value >>> (16 - c.biValid)), biValid := c.biValid + length - 16 }
  else { c with biBuf := BitVec.ofNat 16 (c.biWith value), biValid := c.biValid + length }

/-- `send_code(s, tree)` (R403). -/
def Compressor.sendCode (c : Compressor) (tree : PrefixCode) (s : Nat) : Compressor :=
  c.sendBits (tree.code.get s) (tree.len.get s)

/-- `bi_flush()` (R404): complete bytes leave the accumulator, without padding. No rule of the command procedures
calls it (C13 removed the unaligned PartialFlush that did). -/
def Compressor.biFlush (c : Compressor) : Compressor :=
  if c.biValid = 16 then { c.putShort c.biBuf.toNat with biBuf := 0#16, biValid := 0 }
  else if 8 ≤ c.biValid then
    { c.putByte (Byte.ofNat (c.biBuf.toNat % 256)) with
      biBuf := BitVec.ofNat 16 (c.biBuf.toNat / 256), biValid := c.biValid - 8 }
  else c

/-- `bi_windup()` (R405): pad with 0 bits to the next byte boundary. -/
def Compressor.biWindup (c : Compressor) : Compressor :=
  if 8 < c.biValid then { c.putShort c.biBuf.toNat with biBuf := 0#16, biValid := 0 }
  else if 0 < c.biValid then { c.putByte (Byte.ofNat (c.biBuf.toNat % 256)) with biBuf := 0#16, biValid := 0 }
  else { c with biBuf := 0#16, biValid := 0 }

/-- `flush_pending()` (R406). -/
def DRun.flushPending (r : DRun) : DRun :=
  let n := min r.c.pending.length r.port.availOut.toNat
  if n = 0 then r
  else { port := r.port.deliver (r.c.pending.take n), c := { r.c with pending := r.c.pending.drop n } }

end Sys2Proof.Machine
end

