-- ==== Sys2Proof/Machine/Window.lean ====
section
/-!
DEFINITION. The compressor's sliding-window controller (41_window.md R320–R326).
-/

namespace Sys2Proof.Machine

/-- `ins_h` re-seeded from the two bytes at a position: `((Win[p] << hash_shift) ^ Win[p+1]) & hash_mask` (R322,
R366, R452). -/
def Compressor.seedHash (c : Compressor) (p : Nat) : Nat :=
  (((c.win.get p).toNat <<< c.hashShift) ^^^ (c.win.get (p + 1)).toNat) &&& c.hashMask

/-- A position after a slide by `w`: lower, or NIL when it slid out (R323). -/
def slidePos (w p : Nat) : Nat := if w ≤ p then p - w else 0

/-- `slide()` (R323): the upper half of the window moves down, every position is renumbered. -/
def Compressor.slide (c : Compressor) : Compressor :=
  { c with
    win := c.win.setRun 0 (c.win.getRun c.wSize c.wSize)
    matchStart := c.matchStart - c.wSize
    strstart := c.strstart - c.wSize
    blockStart := c.blockStart - c.wSize
    head := c.head.map (slidePos c.wSize)
    prev := c.prev.map (slidePos c.wSize) }

/-- The number of bytes `read_buf(pos, size)` copies (R324). -/
def DRun.readCount (r : DRun) (size : Nat) : Nat := min r.port.availIn.toNat size

/-- `read_buf(pos, size)` (R324): copy input into the window and checksum it. -/
def DRun.readBuf (r : DRun) (pos size : Nat) : DRun :=
  let n := r.readCount size
  if n = 0 then r
  else
    let data := r.port.peek n
    { port := { r.port.consume n with adler := adlerUpdate r.port.adler data }
      c := { r.c with win := r.c.win.setRun pos data } }

/-- The free bytes above the data (R322). In a state that breaks R321 (a), which no run reaches, R12's integers are below 0
and this is 0 (DEDUCED, log 12). -/
def Compressor.more (c : Compressor) : Nat := c.windowSize - c.lookahead - c.strstart

/-- The slide that `fill_window` makes first when strstart is far enough up (R322). -/
def Compressor.slideIfHigh (c : Compressor) : Compressor :=
  if c.wSize + c.maxDist ≤ c.strstart then c.slide else c

/-- The `more` of one round of `fill_window`: computed before the slide, `w_size` more after one (R322). -/
def Compressor.moreAfterSlide (c : Compressor) : Nat :=
  if c.wSize + c.maxDist ≤ c.strstart then c.more + c.wSize else c.more

/-- After a read of `n` bytes: the lookahead grows, and the hash is seeded once three bytes are there (R322). -/
def Compressor.afterRead (c : Compressor) (n : Nat) : Compressor :=
  let c1 := { c with lookahead := c.lookahead + n }
  if 3 ≤ c1.lookahead then { c1 with insH := c1.seedHash c1.strstart } else c1

/-- The read of one round of `fill_window` (R322). -/
def DRun.fillOnce (r : DRun) (more : Nat) : DRun :=
  let r1 := r.readBuf (r.c.strstart + r.c.lookahead) more
  { r1 with c := r1.c.afterRead (r.readCount more) }

/-- The rounds of `fill_window` (R322). A round that goes on has consumed at least one byte (log 10). -/
def DRun.fillLoop : Nat → DRun → DRun
  | 0, r => r
  | fuel + 1, r =>
    let r1 := { r with c := r.c.slideIfHigh }
    if r1.port.availIn = 0#32 then r1
    else
      let r2 := r1.fillOnce r.c.moreAfterSlide
      if r2.c.lookahead < 262 ∧ r2.port.availIn ≠ 0#32 then DRun.fillLoop fuel r2 else r2

/-- `fill_window()` (R322). -/
def DRun.fillWindow (r : DRun) : DRun := DRun.fillLoop (r.port.availIn.toNat + 1) r

end Sys2Proof.Machine
end

