-- ==== Sys2Proof/Machine/Framer.lean ====
section
/-!
DEFINITION. The block framer (44_deflate.md R444–R453): block start, the choice among stored, fixed and dynamic
forms, and the emitters.
-/

namespace Sys2Proof.Machine

/-- `init_block()` (R444). -/
def Compressor.initBlock (c : Compressor) : Compressor :=
  { c with lfreq := (Ram.nil : Ram Nat).set 256 1, dfreq := .nil, lastLit := 0, matchCount := 0 }

/-- The fixed literal/length code as the encoder uses it (R623). -/
def fixedLitCode : PrefixCode := PrefixCode.ofLengths ((List.range 288).map fixedLitLen)

/-- The fixed distance code as the encoder uses it (R623): 30 lengths of 5. -/
def fixedDistCode : PrefixCode := PrefixCode.ofLengths (List.replicate 30 5)

/-- The literal/length tree's kind (R446): 286 symbols, limit 15, LEN_EXTRA from symbol 257 on. -/
def litKind : TreeKind := ⟨286, 15, fun n => if 257 ≤ n then tableAt lenExtra (n - 257) else 0, some fixedLitLen⟩

/-- The distance tree's kind (R446): 30 symbols, limit 15, DIST_EXTRA. -/
def distKind : TreeKind := ⟨30, 15, tableAt distExtra, some fixedDistLen⟩

/-- The code-length tree's kind (R446): 19 symbols, limit 7, BL_EXTRA, no fixed code. -/
def blKind : TreeKind := ⟨19, 7, tableAt blExtra, none⟩

/-! ## Code-length runs (R450, R451) -/

/-- One code-length item of `scan_tree` and `send_tree`: a length sent as itself, or a repeat with its count. -/
inductive LenItem where
  | plain (len : Nat)
  | copyPrev (count : Nat)
  | zerosShort (count : Nat)
  | zerosLong (count : Nat)
  deriving DecidableEq, Repr

/-- The items a finished run of `count` equal lengths is sent as (R451; R450 counts the same ones). -/
def runItems (curlen count minCount : Nat) (prevlen : Option Nat) : List LenItem :=
  if count < minCount then List.replicate count (.plain curlen)
  else if curlen ≠ 0 then
    if prevlen ≠ some curlen then [.plain curlen, .copyPrev (count - 1)] else [.copyPrev count]
  else if count ≤ 10 then [.zerosShort count]
  else [.zerosLong count]

/-- `(max_count, min_count)` for the next run (R450): `same` says that it continues the length just sent. -/
def runLimits (nextlen : Nat) (same : Bool) : Nat × Nat :=
  if nextlen = 0 then (138, 3) else if same then (6, 3) else (7, 4)

/-- The walk of R450 and R451 over `len[0 .. max_code]`. The guard length 0xFFFF after the last one ends its run. -/
def lenItems (curlen : Nat) (prevlen : Option Nat) (count maxCount minCount : Nat) : List Nat → List LenItem
  | [] => []
  | nextlen :: rest =>
    if count + 1 < maxCount ∧ curlen = nextlen then lenItems nextlen prevlen (count + 1) maxCount minCount rest
    else
      let limits := runLimits nextlen (curlen == nextlen)
      runItems curlen (count + 1) minCount prevlen ++ lenItems nextlen (some curlen) 0 limits.1 limits.2 rest

/-- The items of a tree's lengths up to its `max_code` (R450, R451). -/
def treeItems (tree : Tree) : List LenItem :=
  match tree.lens.take (tree.maxCode + 1) with
  | [] => []
  | l :: ls =>
    let limits := runLimits l false
    lenItems l none 0 limits.1 limits.2 (ls ++ [0xFFFF])

/-- The code-length symbol of an item (R122). -/
def LenItem.symbol : LenItem → Nat
  | .plain len => len
  | .copyPrev _ => 16
  | .zerosShort _ => 17
  | .zerosLong _ => 18

/-- `scan_tree` (R450): count the symbols of a tree's items. -/
def scanTree (freq : Ram Nat) (items : List LenItem) : Ram Nat :=
  items.foldl (fun f i => f.set i.symbol (f.get i.symbol + 1)) freq

/-- Send one item (R451): its symbol's code, then the repeat count. -/
def Compressor.sendItem (bt : PrefixCode) (c : Compressor) (i : LenItem) : Compressor :=
  match i with
  | .plain _ => c.sendCode bt i.symbol
  | .copyPrev count => (c.sendCode bt i.symbol).sendBits (count - 3) 2
  | .zerosShort count => (c.sendCode bt i.symbol).sendBits (count - 3) 3
  | .zerosLong count => (c.sendCode bt i.symbol).sendBits (count - 11) 7

/-- `send_tree` (R451). -/
def Compressor.sendTree (bt : PrefixCode) (c : Compressor) (items : List LenItem) : Compressor :=
  items.foldl (Compressor.sendItem bt) c

/-! ## Emitters -/

/-- `stored_block(buf, stored_len, eof)` (R453). -/
def Compressor.storedBlock (c : Compressor) (buf : List Byte) (eof : Bool) : Compressor :=
  let c1 := (c.sendBits eof.toNat 3).biWindup
  let c2 := (c1.putShort (buf.length % 65536)).putShort (65535 - buf.length % 65536)
  c2.putBytes buf

/-- One symbol of `compress_block` (R447). A distance above 32768 has an extra value of more than code 29's 13 bits, against
R402's precondition; DESIGN CHOICE (log 32): `send_bits` takes it by its own procedure, the excess bits running into the
next ones. -/
def Compressor.sendSymbol (lt dt : PrefixCode) (c : Compressor) (e : SymEntry) : Compressor :=
  if e.dist = 0 then c.sendCode lt e.lc
  else
    let k := lengthCode e.lc
    let c1 := c.sendCode lt (257 + k)
    let c2 := if 0 < tableAt lenExtra k then c1.sendBits (e.lc - (tableAt lenBase k - 3)) (tableAt lenExtra k) else c1
    let kd := distCode (e.dist - 1)
    let c3 := c2.sendCode dt kd
    if 0 < tableAt distExtra kd then
      c3.sendBits (e.dist - 1 - (tableAt distBase kd - 1)) (tableAt distExtra kd)
    else c3

/-- `compress_block(ltree, dtree)` (R447). -/
def Compressor.compressBlock (c : Compressor) (lt dt : PrefixCode) : Compressor :=
  ((c.sym.getRun 0 c.lastLit).foldl (Compressor.sendSymbol lt dt) c).sendCode lt 256

/-- The trees of a block and their cost (R446). -/
structure BlockTrees where
  lt : Tree
  dt : Tree
  bt : Tree
  litItems : List LenItem
  distItems : List LenItem
  maxBlindex : Nat
  optLen : Int
  staticLen : Int

/-- The largest rank, 3 or more when started so, whose code-length code has a nonzero length (R446). -/
def lastRank (lens : List Nat) : Nat → Nat
  | 0 => 0
  | r + 1 => if 3 ≤ r + 1 ∧ tableAt lens (tableAt blOrder (r + 1)) = 0 then lastRank lens r else r + 1

/-- The trees and the bit counts of the dynamic and the fixed form (R446). -/
def Compressor.blockTrees (c : Compressor) : BlockTrees :=
  let lt := buildTree litKind c.lfreq
  let dt := buildTree distKind c.dfreq
  let litItems := treeItems lt
  let distItems := treeItems dt
  let bt := buildTree blKind (scanTree (scanTree .nil litItems) distItems)
  let maxBlindex := lastRank bt.lens 18
  { lt := lt, dt := dt, bt := bt, litItems := litItems, distItems := distItems, maxBlindex := maxBlindex,
    optLen := lt.dOpt + dt.dOpt + bt.dOpt + (3 * (maxBlindex + 1) + 5 + 5 + 4),
    staticLen := lt.dStatic + dt.dStatic }

/-- `send_all_trees` (R448), the dynamic block header after the 3 type bits. -/
def Compressor.sendAllTrees (c : Compressor) (t : BlockTrees) : Compressor :=
  let c1 := ((c.sendBits (t.lt.maxCode + 1 - 257) 5).sendBits (t.dt.maxCode + 1 - 1) 5).sendBits (t.maxBlindex + 1 - 4) 4
  let c2 := (blOrder.take (t.maxBlindex + 1)).foldl (fun c s => c.sendBits (tableAt t.bt.lens s) 3) c1
  (c2.sendTree t.bt.code t.litItems).sendTree t.bt.code t.distItems

/-- `stored_len` (R446). -/
def Compressor.storedLen (c : Compressor) : Nat := (c.strstart - c.blockStart).toNat

/-- The block's bytes in the window, `Win[block_start .. strstart-1]` (R446). -/
def Compressor.blockBytes (c : Compressor) : List Byte := c.win.getRun c.blockStart.toNat c.storedLen

/-- `static_lenb` and the smaller of it and `opt_lenb` (R446). -/
def BlockTrees.lenb (t : BlockTrees) : Int × Int :=
  let opt := (t.optLen + 3 + 7) / 8
  let static := (t.staticLen + 3 + 7) / 8
  (static, if static ≤ opt then static else opt)

/-- The block in its cheapest form above level 0 (R446): ties go to stored, then to fixed. -/
def Compressor.emitCoded (c : Compressor) (eof : Bool) : Compressor :=
  let t := c.blockTrees
  if ((c.storedLen : Int) + 4 ≤ t.lenb.2) ∧ 0 ≤ c.blockStart then c.storedBlock c.blockBytes eof
  else if t.lenb.1 = t.lenb.2 then
    (c.sendBits (2 + eof.toNat) 3).compressBlock fixedLitCode fixedDistCode
  else
    ((c.sendBits (4 + eof.toNat) 3).sendAllTrees t).compressBlock t.lt.code t.dt.code

/-- The block at level 0 (R446): stored, or in the fixed form if its bytes have left the window. -/
def Compressor.emitStored (c : Compressor) (eof : Bool) : Compressor :=
  if 0 ≤ c.blockStart then c.storedBlock c.blockBytes eof
  else (c.sendBits (2 + eof.toNat) 3).compressBlock fixedLitCode fixedDistCode

/-- `flush_block(eof)` (R446). -/
def Compressor.flushBlock (c : Compressor) (eof : Bool) : Compressor :=
  let c1 := if 0 < c.level then c.emitCoded eof else c.emitStored eof
  if eof then c1.initBlock.biWindup else c1.initBlock

/-- `FLUSH_BLOCK_ONLY(eof)` (R445). -/
def DRun.flushBlockOnly (r : DRun) (eof : Bool) : DRun :=
  let c1 := r.c.flushBlock eof
  DRun.flushPending { r with c := { c1 with blockStart := c1.strstart } }

end Sys2Proof.Machine
end

