-- ==== Sys2Proof/Machine/Lz77.lean ====
section
/-!
DEFINITION. The LZ77 matcher (42_lz77.md R350–R369): hash chains, longest match, the symbol buffer and the three
strategy functions.
-/

namespace Sys2Proof.Machine

/-! ## Hash table and chains -/

/-- `UPDATE_HASH(c)` (R350). -/
def Compressor.updateHash (c : Compressor) (b : Byte) : Compressor :=
  { c with insH := ((c.insH <<< c.hashShift) ^^^ b.toNat) &&& c.hashMask }

/-- `insert_string(pos)` (R351); the previous head of the bucket is `insertedHead`. -/
def Compressor.insertString (c : Compressor) (pos : Nat) : Compressor :=
  let c1 := c.updateHash (c.win.get (pos + 2))
  { c1 with prev := c1.prev.set (pos &&& c1.wMask) (c1.head.get c1.insH), head := c1.head.set c1.insH pos }

/-- The value `insert_string(pos)` returns (R351): the head of the bucket before the insertion. -/
def Compressor.insertedHead (c : Compressor) (pos : Nat) : Nat :=
  c.head.get (c.updateHash (c.win.get (pos + 2))).insH

/-- `insert_string` at each of `n` positions from `pos` on (R452). -/
def Compressor.insertRun (c : Compressor) (pos : Nat) : Nat → Compressor
  | 0 => c
  | n + 1 => (c.insertString pos).insertRun (pos + 1) n

/-- `set_config(level)` (R356). -/
def Compressor.setConfig (c : Compressor) (level : Nat) : Compressor := { c with config := levelTable level }

/-! ## Longest match (R360) -/

/-- The compare loop of R360 from offset `i` on: the first offset above `i` whose bytes differ, or 258. -/
def compareLen (win : Ram Byte) (scan cand : Nat) : Nat → Nat → Nat
  | 0, i => i
  | fuel + 1, i =>
    if win.get (scan + (i + 1)) = win.get (cand + (i + 1)) then compareLen win scan cand fuel (i + 1) else i + 1

/-- The raw match length of a candidate (R360): 3 .. 258. Offset 2 is not compared (R350). -/
def rawMatchLen (win : Ram Byte) (scan cand : Nat) : Nat := compareLen win scan cand 256 2

/-- The window byte just below position `pos`, which R360 and R367 read. At position 0 there is none: R360 has strstart 1 or
more there, and a run gets to 0 only where R368 moves strstart back in the corner of logs 27 and 31. DESIGN CHOICE (log 33):
it is 0, as at every index outside an SRAM (log 11). -/
def byteBelow (win : Ram Byte) (pos : Nat) : Byte := if pos = 0 then 0#8 else win.get (pos - 1)

/-- The four-byte pre-check of R360. -/
def quickMatch (win : Ram Byte) (scan cand best : Nat) : Bool :=
  decide (win.get (cand + best) = win.get (scan + best))
    && decide (byteBelow win (cand + best) = byteBelow win (scan + best))
    && decide (win.get cand = win.get scan)
    && decide (win.get (cand + 1) = win.get (scan + 1))

/-- The best match so far: its length and where it starts. -/
structure Best where
  len : Nat
  start : Int
  deriving DecidableEq, Repr

/-- The best match after looking at one candidate (R360). -/
def Best.consider (b : Best) (win : Ram Byte) (scan cand : Nat) : Best :=
  if quickMatch win scan cand b.len then
    if b.len < rawMatchLen win scan cand then { len := rawMatchLen win scan cand, start := cand } else b
  else b

/-- The chain walk of R360: `chain` candidates at most, every later one above `limit`, ended by a nice match. -/
def chainWalk (c : Compressor) (nice limit : Nat) : Nat → Nat → Best → Best
  | 0, _, b => b
  | chain + 1, cand, b =>
    let b1 := b.consider c.win c.strstart cand
    if b.len < b1.len ∧ nice ≤ b1.len then b1
    else if limit < c.prev.get (cand &&& c.wMask) then chainWalk c nice limit chain (c.prev.get (cand &&& c.wMask)) b1
    else b1

/-- The chain budget (R360): a quarter once the previous match is good enough. -/
def Compressor.chainBudget (c : Compressor) : Nat :=
  if c.config.goodMatch ≤ c.prevLength then c.config.maxChain / 4 else c.config.maxChain

/-- The distance limit of later candidates (R360). -/
def Compressor.matchLimit (c : Compressor) : Nat := c.strstart - c.maxDist

/-- `longest_match(cur_match)` (R360): the match length and start; the length returned is at most `lookahead`. -/
def Compressor.longestMatch (c : Compressor) (curMatch : Nat) : Best :=
  let b := chainWalk c (min c.config.niceMatch c.lookahead) c.matchLimit c.chainBudget curMatch
    { len := c.prevLength, start := c.matchStart }
  { b with len := min b.len c.lookahead }

/-! ## Symbol buffer (R364) -/

/-- The symbol buffer and the counters after an entry (R364). R364's distances are 0, for a literal, or 1 to 32768: for one
below 1 see `matchDist` (log 31), for one above 32768 `distCode` (log 32). -/
def Compressor.record (c : Compressor) (dist lc : Nat) : Compressor :=
  let c1 := { c with sym := c.sym.set c.lastLit ⟨dist, lc⟩, lastLit := c.lastLit + 1 }
  if dist = 0 then { c1 with lfreq := c1.lfreq.set lc (c1.lfreq.get lc + 1) }
  else
    let ls := 257 + lengthCode lc
    let ds := distCode (dist - 1)
    { c1 with
      matchCount := c1.matchCount + 1
      lfreq := c1.lfreq.set ls (c1.lfreq.get ls + 1)
      dfreq := c1.dfreq.set ds (c1.dfreq.get ds + 1) }

/-- The distance from position `pos` back to a match at `start`. A stale start can lie at or above `pos` (DPARAMS to level 0
mid-block when TOTAL_IN has wrapped to 0 lets R368 move strstart back, and a switch to another level follows): R12's integers
give a distance below 1, which R364 has not. DESIGN CHOICE (log 31): it is 0, so that R364's procedure records a literal. -/
def matchDist (pos start : Int) : Nat := (pos - start).toNat

/-- The estimated bits of the block's distances (R364). -/
def Compressor.distBits (c : Compressor) : Nat :=
  ((List.range 30).map (fun dc => c.dfreq.get dc * (5 + tableAt distExtra dc))).sum

/-- The ratio heuristic (R364), after the entry is recorded. -/
def Compressor.poorRatio (c : Compressor) : Bool :=
  let outLength := (c.lastLit * 8 + c.distBits) / 8
  let inLength := (c.strstart : Int) - c.blockStart
  decide (c.matchCount < c.lastLit / 2) && decide ((outLength : Int) < inLength / 2)

/-- Whether `tally` ends the block (R364), after the entry is recorded. -/
def Compressor.blockFull (c : Compressor) : Bool :=
  (decide (c.lastLit &&& truncMask = 0) && decide (2 < c.level) && c.poorRatio)
    || decide (c.lastLit = c.litBufsize - 1)

/-! ## Strategy functions (R365–R369) -/

/-- The outcomes of a strategy function (R365). -/
inductive BState where
  | needMore
  | blockDone
  | finishStarted
  | finishDone
  deriving DecidableEq, Repr

/-- A strategy function between two turns of its loop: the run, and the local `hash_head`. -/
structure Scan where
  run : DRun
  hashHead : Nat
  deriving DecidableEq, Repr

/-- What one turn of a strategy loop leads to. -/
inductive Turn where
  /-- The loop goes on. -/
  | again (x : Scan)
  /-- The strategy function returns from inside the loop. -/
  | leave (b : BState) (r : DRun)
  /-- The loop exits because the input is exhausted. -/
  | exit (r : DRun)
  deriving DecidableEq, Repr

/-- `FLUSH_BLOCK(0)` inside a loop (R445): emit the block, and return need_more if the output is full. -/
def Scan.flushAndGo (x : Scan) : Turn :=
  let r := x.run.flushBlockOnly false
  if r.port.availOut = 0#32 then .leave .needMore r else .again { x with run := r }

/-- The end of every strategy function: `FLUSH_BLOCK(flush = Finish)`, then finish_done or block_done (R365). -/
def DRun.endBlock (r : DRun) (flush : Nat) : BState × DRun :=
  let r1 := r.flushBlockOnly (flush == 4)
  if r1.port.availOut = 0#32 then (if flush = 4 then .finishStarted else .needMore, r1)
  else (if flush = 4 then .finishDone else .blockDone, r1)

/-- The turns of a strategy loop, then its end `close`. Every loop is given turns enough to end by its own condition
(log 10). -/
def runTurns (turn : Scan → Turn) (close : DRun → BState × DRun) : Nat → Scan → BState × DRun
  | 0, x => (.needMore, x.run)
  | fuel + 1, x =>
    match turn x with
    | .again x' => runTurns turn close fuel x'
    | .leave b r => (b, r)
    | .exit r => close r

/-- The turns of a matching loop that are enough (R656, log 10): one that goes on has taken at least one byte of lookahead
or input. -/
def DRun.turnBound (r : DRun) : Nat := r.c.lookahead + r.port.availIn.toNat + 2

/-- The head of a matching turn (R366, R367): refill the window below 262 bytes of lookahead. -/
def DRun.refill (r : DRun) : DRun := if r.c.lookahead < 262 then r.fillWindow else r

/-- `if lookahead >= 3: hash_head <- insert_string(strstart)` (R366, R367). -/
def Scan.insertHere (x : Scan) : Scan :=
  if 3 ≤ x.run.c.lookahead then
    { run := { x.run with c := x.run.c.insertString x.run.c.strstart }
      hashHead := x.run.c.insertedHead x.run.c.strstart }
  else x

/-- The candidate is eligible (R361): not NIL, and within MAX_DIST. -/
def Scan.eligible (x : Scan) : Bool :=
  decide (x.hashHead ≠ 0) && decide (x.run.c.strstart - x.hashHead ≤ x.run.c.maxDist)

/-- Insert every covered position after a short match (R366): `n` more positions. -/
def Scan.insertCovered : Nat → Scan → Scan
  | 0, x => x
  | n + 1, x =>
    let p := x.run.c.strstart + 1
    let c1 := { x.run.c with strstart := p }
    Scan.insertCovered n { run := { x.run with c := c1.insertString p }, hashHead := c1.insertedHead p }

/-- The search of `deflate_fast` (R366). -/
def Scan.fastSearch (x : Scan) : Scan :=
  if x.eligible && decide (x.run.c.strategy ≠ 2) then
    let b := x.run.c.longestMatch x.hashHead
    { x with run := { x.run with c := { x.run.c with matchLength := b.len, matchStart := b.start } } }
  else x

/-- `deflate_fast` records its match (R366). -/
def Compressor.recordMatch (c : Compressor) : Compressor := c.record (matchDist c.strstart c.matchStart) (c.matchLength - 3)

/-- `deflate_fast` emits its match (R366) and advances over it. A stale match can be longer than the lookahead (DPARAMS
switching mid lazy match when TOTAL_IN has wrapped to 0). R12's integers then give a lookahead below 0, R53 none. DESIGN
CHOICE (log 28): the lookahead is 0. -/
def Scan.fastMatch (x : Scan) : Scan :=
  let c := x.run.c
  let c1 := c.recordMatch
  let c2 := { c1 with lookahead := c1.lookahead - c1.matchLength }
  if c2.matchLength ≤ c2.config.maxLazy ∧ 3 ≤ c2.lookahead then
    let y := Scan.insertCovered (c2.matchLength - 1) { x with run := { x.run with c := c2 } }
    { y with run := { y.run with c := { y.run.c with strstart := y.run.c.strstart + 1, matchLength := 0 } } }
  else
    let c3 := { c2 with strstart := c2.strstart + c2.matchLength, matchLength := 0 }
    { x with run := { x.run with c := { c3 with insH := c3.seedHash c3.strstart } } }

/-- A literal at strstart (R366). -/
def Compressor.recordLiteral (c : Compressor) : Compressor := c.record 0 (c.win.get c.strstart).toNat

/-- Advance over one byte (R366, R367). -/
def Compressor.advance (c : Compressor) : Compressor :=
  { c with lookahead := c.lookahead - 1, strstart := c.strstart + 1 }

/-- Whether the turn's `tally` ended the block, for a match or a literal of `deflate_fast` (R366). -/
def Scan.fastFull (x : Scan) : Bool :=
  let c := x.run.c
  if 3 ≤ c.matchLength then c.recordMatch.blockFull
  else c.recordLiteral.blockFull

/-- The emission of one turn of `deflate_fast` (R366): a match, or a literal. -/
def Scan.fastEmit (x : Scan) : Scan :=
  if 3 ≤ x.run.c.matchLength then x.fastMatch
  else { x with run := { x.run with c := x.run.c.recordLiteral.advance } }

/-- One turn of `deflate_fast(flush)` (R366). -/
def fastTurn (flush : Nat) (x : Scan) : Turn :=
  let r := x.run.refill
  if r.c.lookahead < 262 ∧ flush = 0 then .leave .needMore r
  else if r.c.lookahead = 0 then .exit r
  else
    let y := ({ x with run := r } : Scan).insertHere.fastSearch
    if y.fastFull then y.fastEmit.flushAndGo else .again y.fastEmit

/-- `deflate_fast(flush)` (R366). -/
def deflateFast (flush : Nat) (r : DRun) : BState × DRun :=
  runTurns (fastTurn flush) (fun r => r.endBlock flush) r.turnBound ⟨r, 0⟩

/-- The search of `deflate_slow` (R367): the match of the last position becomes the previous match, then a longer one
is sought, and a short or far-and-short result is discarded. -/
def Scan.slowSearch (x : Scan) : Scan :=
  let c0 := x.run.c
  let c := { c0 with prevLength := c0.matchLength, prevMatch := c0.matchStart, matchLength := 2 }
  if x.eligible && decide (c.prevLength < c.config.maxLazy) then
    let b : Best := if c.strategy ≠ 2 then c.longestMatch x.hashHead else ⟨2, c.matchStart⟩
    let discard : Bool :=
      decide (b.len ≤ 5)
        && (decide (c.strategy = 1) || (decide (b.len = 3) && decide ((tooFar : Int) < (c.strstart : Int) - b.start)))
    { x with run := { x.run with c := { c with matchLength := if discard then 2 else b.len, matchStart := b.start } } }
  else { x with run := { x.run with c := c } }

/-- Insert the positions a lazy match covers (R367): `n` positions, those above `maxInsert` only stepped over. -/
def Scan.insertUpTo (maxInsert : Int) : Nat → Scan → Scan
  | 0, x => x
  | n + 1, x =>
    let p := x.run.c.strstart + 1
    let c1 := { x.run.c with strstart := p }
    if (p : Int) ≤ maxInsert then
      Scan.insertUpTo maxInsert n { run := { x.run with c := c1.insertString p }, hashHead := c1.insertedHead p }
    else Scan.insertUpTo maxInsert n { x with run := { x.run with c := c1 } }

/-- `deflate_slow` records the previous position's match (R367). -/
def Compressor.recordPrevMatch (c : Compressor) : Compressor :=
  c.record (matchDist ((c.strstart : Int) - 1) c.prevMatch) (c.prevLength - 3)

/-- `deflate_slow` emits the previous position's match (R367) and advances over it. A stale match longer than the lookahead
leaves a lookahead of 0 (DESIGN CHOICE, log 28). -/
def Scan.slowMatch (x : Scan) : Scan :=
  let c := x.run.c
  let maxInsert : Int := (c.strstart : Int) + c.lookahead - 3
  let c1 := c.recordPrevMatch
  let c2 := { c1 with lookahead := c1.lookahead - (c1.prevLength - 1) }
  let y := Scan.insertUpTo maxInsert (c2.prevLength - 2) { x with run := { x.run with c := c2 } }
  { y with
    run := { y.run with
      c := { y.run.c with
        prevLength := 0, matchAvailable := false, matchLength := 2, strstart := y.run.c.strstart + 1 } } }

/-- A literal at the position before strstart (R367). -/
def Compressor.recordBehind (c : Compressor) : Compressor := c.record 0 (byteBelow c.win c.strstart).toNat

/-- The previous position's byte becomes a literal (R367): `FLUSH_BLOCK_ONLY(0)` if the block is full, then one byte
further. -/
def Scan.slowLiteral (x : Scan) : Scan :=
  let r := { x.run with c := x.run.c.recordBehind }
  let r1 := if r.c.blockFull then r.flushBlockOnly false else r
  { x with run := { r1 with c := r1.c.advance } }

/-- The emission of one turn of `deflate_slow` (R367). -/
def Scan.slowEmit (x : Scan) : Turn :=
  let c := x.run.c
  if 3 ≤ c.prevLength ∧ c.matchLength ≤ c.prevLength then
    if c.recordPrevMatch.blockFull then x.slowMatch.flushAndGo else .again x.slowMatch
  else if c.matchAvailable then
    let y := x.slowLiteral
    if y.run.port.availOut = 0#32 then .leave .needMore y.run else .again y
  else .again { x with run := { x.run with c := { c.advance with matchAvailable := true } } }

/-- One turn of `deflate_slow(flush)` (R367). -/
def slowTurn (flush : Nat) (x : Scan) : Turn :=
  let r := x.run.refill
  if r.c.lookahead < 262 ∧ flush = 0 then .leave .needMore r
  else if r.c.lookahead = 0 then .exit r
  else ({ x with run := r } : Scan).insertHere.slowSearch.slowEmit

/-- The end of `deflate_slow` (R367): a held-back literal is recorded first. -/
def DRun.slowClose (flush : Nat) (r : DRun) : BState × DRun :=
  if r.c.matchAvailable then
    DRun.endBlock { r with c := { r.c.recordBehind with matchAvailable := false } } flush
  else r.endBlock flush

/-- `deflate_slow(flush)` (R367). -/
def deflateSlow (flush : Nat) (r : DRun) : BState × DRun :=
  runTurns (slowTurn flush) (DRun.slowClose flush) r.turnBound ⟨r, 0⟩

/-- `max_block` (R368). -/
def Compressor.maxBlock (c : Compressor) : Nat := min 0xFFFF (c.pendingBufSize - 5)

/-- The lookahead is taken into the block; what passes `max_block` stays lookahead (R368). A block begun more than
`max_block` before the window (DPARAMS to level 0 mid-block when TOTAL_IN has wrapped to 0) would give a strstart below 0
by R12's integers, where R53 has none. DESIGN CHOICE (log 27): strstart is 0, and all the data stays lookahead, as
41_window.md R321 (a) asks. -/
def Compressor.takeStored (c : Compressor) : Compressor :=
  let top := c.strstart + c.lookahead
  let maxStart := c.blockStart + c.maxBlock
  if maxStart ≤ top then { c with strstart := maxStart.toNat, lookahead := top - maxStart.toNat }
  else { c with strstart := top, lookahead := 0 }

/-- The block reached `max_block` (R368). -/
def Compressor.storedFull (c : Compressor) : Bool :=
  decide (c.blockStart + c.maxBlock ≤ ((c.strstart + c.lookahead : Nat) : Int))

/-- The second flush of a `deflate_stored` turn (R368): the block is about to leave the window. -/
def Scan.storedSlide (x : Scan) : Turn :=
  if (x.run.c.maxDist : Int) ≤ (x.run.c.strstart : Int) - x.run.c.blockStart then x.flushAndGo else .again x

/-- One turn of `deflate_stored(flush)` (R368). -/
def storedTurn (flush : Nat) (x : Scan) : Turn :=
  let r := if x.run.c.lookahead ≤ 1 then x.run.fillWindow else x.run
  if r.c.lookahead = 0 ∧ flush = 0 then .leave .needMore r
  else if r.c.lookahead = 0 then .exit r
  else
    let y : Scan := { x with run := { r with c := r.c.takeStored } }
    if r.c.storedFull then
      match y.flushAndGo with
      | .again z => z.storedSlide
      | .leave b r' => .leave b r'
      | .exit r' => .exit r'
    else y.storedSlide

/-- The bytes from the start of the block to the end of the input: in the window, in the lookahead, on offer. -/
def DRun.blockReach (r : DRun) : Nat :=
  ((r.c.strstart : Int) + r.c.lookahead + r.port.availIn.toNat - r.c.blockStart).toNat

/-- The turns of `deflate_stored` that are enough (R656, log 10): one that goes on has emitted at least one byte of the
block's reach, or has taken input or the rest of the lookahead. The reach counts the window too, because a block may begin
further back than `max_block` (a switch of DPARAMS when TOTAL_IN has wrapped to 0), and then its emission gives bytes
back to the lookahead. -/
def DRun.storedBound (r : DRun) : Nat := 2 * r.blockReach + r.turnBound

/-- `deflate_stored(flush)` (R368). -/
def deflateStored (flush : Nat) (r : DRun) : BState × DRun :=
  runTurns (storedTurn flush) (fun r => r.endBlock flush) r.storedBound ⟨r, 0⟩

/-- The strategy function of the level (R369). -/
def DRun.runFunc (r : DRun) (flush : Nat) : BState × DRun :=
  match r.c.config.func with
  | .stored => deflateStored flush r
  | .fast => deflateFast flush r
  | .slow => deflateSlow flush r

end Sys2Proof.Machine
end

