-- ==== Sys2Proof/Machine/Deflate.lean ====
section
/-!
DEFINITION. The compressor commands DINIT, DSETDICT, DEFLATE, DPARAMS, DRESET and DEND (44_deflate.md R430–R459).
-/

namespace Sys2Proof.Machine

/-! ## Reset state (R440, R441) -/

/-- The engine part of `deflate_reset()` (R441). `Win` and `Prev` keep their entries. -/
def Compressor.deflateReset (c : Compressor) : Compressor :=
  let c1 :=
    { c with
      pending := [], dstate := .init, lastFlush := 0, biBuf := 0#16, biValid := 0, head := .nil,
      strstart := 0, blockStart := 0, lookahead := 0, matchLength := 2, prevLength := 2, matchAvailable := false,
      matchStart := 0, prevMatch := 0, insH := 0, overflowed := false }
  c1.initBlock.setConfig c.level

/-- The register part of `deflate_reset()` and of `inflate_reset(false)` (R441, R511): totals 0, ADLER 1. -/
def Port.streamReset (p : Port) : Port := { p with totalIn := 0#32, totalOut := 0#32, adler := 1#32 }

/-- A compressor just opened (R440). `Win` and `Prev` are zero; the symbol buffer's entries, which DINIT does not
set, are zero too and are never read before they are written (log 7). -/
def Compressor.opened (level wbits memLevel strategy : Nat) : Compressor :=
  Compressor.deflateReset
    { level := level, strategy := strategy, wBits := wbits, memLevel := memLevel, config := levelTable level,
      win := .nil, head := .nil, prev := .nil, insH := 0, strstart := 0, blockStart := 0, lookahead := 0,
      matchLength := 2, prevLength := 2, matchStart := 0, prevMatch := 0, matchAvailable := false, dstate := .init,
      lastFlush := 0, pending := [], biBuf := 0#16, biValid := 0, sym := .nil, lastLit := 0, matchCount := 0,
      lfreq := .nil, dfreq := .nil, overflowed := false }

/-- Some engine is open. -/
def Engine.isOpen : Engine → Bool
  | .none => false
  | .deflate _ => true
  | .inflate _ => true

/-- The field ranges of DINIT (R440). -/
def dinitFieldsOk (level wbits memLevel strategy : Nat) : Bool :=
  decide (level ≤ 9) && decide (9 ≤ wbits) && decide (wbits ≤ 15) && decide (1 ≤ memLevel) && decide (memLevel ≤ 9)
    && decide (strategy ≤ 2)

/-- DINIT (R440). -/
def execDinit (level wbits memLevel strategy : Nat) (s : State) : Host.Outcome State Fault Refusal :=
  if s.engine.isOpen then .next s.misuse
  else if !dinitFieldsOk level wbits memLevel strategy then .next s.misuse
  else if Config.hwMaxWbits < wbits ∨ Config.hwMaxMemLevel < memLevel then .next (s.raise .memError 23#8)
  else
    .next { s with
      result := .ok, errcode := 0#8, port := s.port.streamReset,
      engine := .deflate (Compressor.opened level wbits memLevel strategy) }

/-! ## DSETDICT (R452) -/

/-- The part of the dictionary that is kept (R452): its last MAX_DIST bytes. -/
def Compressor.dictTail (c : Compressor) (dict : List Byte) : List Byte := dict.drop (dict.length - c.maxDist)

/-- The window and hash table primed with the kept bytes (R452). -/
def Compressor.prime (c : Compressor) (kept : List Byte) : Compressor :=
  let c1 := { c with win := c.win.setRun 0 kept, strstart := kept.length, blockStart := kept.length }
  let c2 := { c1 with insH := c1.seedHash 0 }
  c2.insertRun 0 (kept.length - 2)

/-- DSETDICT once its checks have passed (R452): a dictionary of fewer than 3 bytes only changes ADLER. -/
def State.setDict (s : State) (c : Compressor) : State :=
  let dict := s.dictBytes
  let s1 := { s.ret .ok with port := { s.port with adler := adlerUpdate s.port.adler dict } }
  if dict.length < 3 then s1 else { s1 with engine := .deflate (c.prime (c.dictTail dict)) }

/-- DSETDICT (R452). -/
def execDsetdict (s : State) : Host.Outcome State Fault Refusal :=
  match s.engine with
  | .deflate c =>
    if c.dstate ≠ .init ∨ c.strstart ≠ 0 ∨ s.port.adler ≠ 1#32 then .next s.misuse
    else if !s.dictRangeOk then .next s.misuse
    else .next (s.setDict c)
  | .none => .next s.misuse
  | .inflate _ => .next s.misuse

/-! ## The header (R435) -/

/-- FLEVEL (R435): `min(3, ((level - 1) & 0xFF) >> 1)`. -/
def levelFlags (level : Nat) : Nat := min 3 (((level + 255) % 256) / 2)

/-- The header before FCHECK (R435). -/
def headerBase (wBits level : Nat) (dict : Bool) : Nat :=
  (8 + 16 * (wBits - 8)) * 256 + 64 * levelFlags level + (if dict then 32 else 0)

/-- The header value (R435): FCHECK makes it a multiple of 31, and is 31 where the base already is one. -/
def headerValue (wBits level : Nat) (dict : Bool) : Nat :=
  headerBase wBits level dict + 31 - headerBase wBits level dict % 31

/-- `emit_header()` (R435): header, dictionary identifier if a dictionary was set, ADLER back to 1. -/
def DRun.emitHeader (r : DRun) : DRun :=
  let c1 := r.c.putShortMsb (headerValue r.c.wBits r.c.level (r.c.strstart ≠ 0))
  let c2 := if r.c.strstart ≠ 0 then c1.putWordMsb r.port.adler else c1
  { port := { r.port with adler := 1#32 }, c := c2 }

/-! ## DEFLATE (R430) -/

/-- The strategy function is to run (R432). -/
def DRun.hasWork (r : DRun) (flush : Nat) : Bool :=
  decide (r.port.availIn ≠ 0#32) || decide (r.c.lookahead ≠ 0)
    || (decide (flush ≠ 0) && decide (r.c.dstate = .busy))

/-- The output is full: `last_flush <- -1` (R430, R433). -/
def DRun.markFull (r : DRun) : DRun :=
  if r.port.availOut = 0#32 then { r with c := { r.c with lastFlush := -1 } } else r

/-- The marker of a completed flush (R430, R453–R455): an empty stored block; FullFlush clears Head. -/
def DRun.emitMarker (r : DRun) (flush : Nat) : DRun :=
  let c1 := r.c.storedBlock [] false
  DRun.flushPending { r with c := if flush = 3 then { c1 with head := .nil } else c1 }

/-- The tail of DEFLATE (R430, R437): the trailer, once, for Finish. -/
def DRun.trailer (r : DRun) (flush : Nat) : DRun × Ending :=
  if flush ≠ 4 then (r, .ret .ok)
  else if r.c.dstate = .done then (r, .ret .streamEnd)
  else
    let r1 := DRun.flushPending { r with c := r.c.putWordMsb r.port.adler }
    ({ r1 with c := { r1.c with dstate := .done } }, .ret (if r1.c.pending = [] then .streamEnd else .ok))

/-- The engine enters FINISH once the final block is emitted (R430, R431). -/
def Compressor.noteFinish (c : Compressor) (b : BState) : Compressor :=
  match b with
  | .finishStarted => { c with dstate := .finish }
  | .finishDone => { c with dstate := .finish }
  | .needMore => c
  | .blockDone => c

/-- DEFLATE after its strategy function has returned (R430). -/
def DRun.afterFunc (r : DRun) (flush : Nat) (b : BState) : DRun × Ending :=
  let r1 := { r with c := r.c.noteFinish b }
  match b with
  | .needMore => (r1.markFull, .ret .ok)
  | .finishStarted => (r1.markFull, .ret .ok)
  | .blockDone =>
    let r2 := r1.emitMarker flush
    if r2.port.availOut = 0#32 then (r2.markFull, .ret .ok) else r2.trailer flush
  | .finishDone => r1.trailer flush

/-- DEFLATE once earlier pending bytes have been handed over (R430). -/
def DRun.work (r : DRun) (flush : Nat) : DRun × Ending :=
  if r.hasWork flush then
    let out := r.runFunc flush
    out.2.afterFunc flush out.1
  else r.trailer flush

/-- DEFLATE after the header (R430): hand over pending bytes, or refuse when there is nothing new to do. -/
def DRun.proceed (r : DRun) (flush : Nat) (oldFlush : Int) : DRun × Ending :=
  if r.c.pending ≠ [] then
    let r1 := r.flushPending
    if r1.port.availOut = 0#32 then (r1.markFull, .ret .ok) else r1.work flush
  else if r.port.availIn = 0#32 ∧ (flush : Int) ≤ oldFlush ∧ flush ≠ 4 then (r, .raise .bufError 21#8)
  else r.work flush

/-- The header on the first DEFLATE (R430). -/
def DRun.start (r : DRun) : DRun :=
  if r.c.dstate = .init then
    let r1 := r.emitHeader
    { r1 with c := { r1.c with dstate := .busy } }
  else r

/-- The engine is in FINISH or DONE (R431). -/
def Compressor.finishing (c : Compressor) : Bool := decide (c.dstate = .finish) || decide (c.dstate = .done)

/-- DEFLATE from the FINISH/DONE checks on (R430): the engine, FLUSH and range checks have passed. -/
def DRun.deflate (r : DRun) (flush : Nat) : DRun × Ending :=
  if r.c.finishing ∧ (flush ≠ 4 ∨ r.port.availIn ≠ 0#32) then (r, .raise .streamError 20#8)
  else if r.port.availOut = 0#32 then (r, .raise .bufError 21#8)
  else DRun.proceed (DRun.start { r with c := { r.c with lastFlush := flush } }) flush r.c.lastFlush

/-- The state after a compressor run: the port and the engine it left. -/
def State.withDRun (s : State) (r : DRun) : State := { s with port := r.port, engine := .deflate r.c }

/-- DEFLATE (R430). -/
def execDeflate (flush : Nat) (s : State) : Host.Outcome State Fault Refusal :=
  match s.engine with
  | .deflate c =>
    if 4 < flush then .next s.misuse
    else if !s.streamRangesOk then .next s.misuse
    else
      let out := DRun.deflate ⟨s.port, c⟩ flush
      if out.1.c.overflowed then .fault .pendingOverflow else .next ((s.withDRun out.1).finish out.2)
  | .none => .next s.misuse
  | .inflate _ => .next s.misuse

/-! ## DPARAMS (R457) -/

/-- DPARAMS needs its internal flush (R457). -/
def DRun.needsFlush (r : DRun) (level : Nat) : Bool :=
  decide ((levelTable r.c.level).func ≠ (levelTable level).func) && decide (r.port.totalIn ≠ 0#32)

/-- The engine is at a block boundary (R457): all the input consumed is in blocks. -/
def Compressor.atBoundary (c : Compressor) : Bool :=
  decide (c.lookahead = 0) && !c.matchAvailable && decide ((c.strstart : Int) = c.blockStart)

/-- The block boundary is not reached, or input is left (R457). -/
def DRun.offBoundary (r : DRun) : Bool := decide (r.port.availIn ≠ 0#32) || !r.c.atBoundary

/-- The switch itself (R457): level, level parameters, strategy. -/
def Compressor.switch (c : Compressor) (level strategy : Nat) : Compressor :=
  let c1 := if level ≠ c.level then ({ c with level := level } : Compressor).setConfig level else c
  { c1 with strategy := strategy }

/-- The end of DPARAMS after a flush that ended with `e` (R457): no switch after a StreamError or off the boundary. -/
def DRun.afterFlush (r : DRun) (level strategy : Nat) (e : Ending) : DRun × Ending :=
  if e.status = .streamError then (r, e)
  else if r.offBoundary then (r, .raise .bufError 21#8)
  else ({ r with c := r.c.switch level strategy }, e)

/-- DPARAMS once its checks have passed (R457). The internal flush is DEFLATE PartialFlush with its effects and its
status, its ERRCODE included. In FINISH and DONE without that flush, R431's list of accepted commands leaves DPARAMS out,
while its reason (the internal flush) and R457's procedure do not apply. DESIGN CHOICE (log 25): R457's procedure, which
switches at once. -/
def DRun.params (r : DRun) (level strategy : Nat) : DRun × Ending :=
  if r.needsFlush level then
    let out := r.deflate 1
    out.1.afterFlush level strategy out.2
  else ({ r with c := r.c.switch level strategy }, .ret .ok)

/-- DPARAMS (R457). -/
def execDparams (level strategy : Nat) (s : State) : Host.Outcome State Fault Refusal :=
  match s.engine with
  | .deflate c =>
    if 9 < level ∨ 2 < strategy then .next s.misuse
    else if !s.streamRangesOk then .next s.misuse
    else
      let out := DRun.params ⟨s.port, c⟩ level strategy
      if out.1.c.overflowed then .fault .pendingOverflow else .next ((s.withDRun out.1).finish out.2)
  | .none => .next s.misuse
  | .inflate _ => .next s.misuse

/-! ## DRESET and DEND -/

/-- DRESET (R458). -/
def execDreset (s : State) : Host.Outcome State Fault Refusal :=
  match s.engine with
  | .deflate c =>
    .next { s with
      result := .ok, errcode := 0#8, port := s.port.streamReset, engine := .deflate c.deflateReset }
  | .none => .next s.misuse
  | .inflate _ => .next s.misuse

/-- DEND (R459): the engine is closed in every state; closing it mid-stream is DataError 22. -/
def execDend (s : State) : Host.Outcome State Fault Refusal :=
  match s.engine with
  | .deflate c =>
    if c.dstate = .busy then .next ({ s with engine := .none }.raise .dataError 22#8)
    else .next { s with engine := .none, errcode := 0#8, result := .ok }
  | .none => .next s.misuse
  | .inflate _ => .next s.misuse

end Sys2Proof.Machine
end

