-- ==== Sys2Proof/Machine/Inflate.lean ====
section
/-!
DEFINITION. The decompressor: its window (41_window.md R340–R344), bit parser (43_bitstream.md R410–R414), steps
(45_inflate.md R520–R542) and commands IINIT, ISETDICT, INFLATE, ISYNC, IRESET and IEND (R510–R563).
-/

namespace Sys2Proof.Machine

/-- What a decompressor command works on: the stream port and the engine. -/
structure IRun where
  port : Port
  d : Decompressor
  deriving DecidableEq, Repr

/-- The run with another engine state. -/
def IRun.withD (r : IRun) (d : Decompressor) : IRun := { r with d := d }

/-! ## The window (R340–R342) -/

/-- `W = 2 * 2^wbits` (R340). -/
def Decompressor.windowLen (d : Decompressor) : Nat := 2 * 2 ^ d.wbits

/-- `space()` (R341): room for one more byte. -/
def Decompressor.space (d : Decompressor) : Bool := decide (d.pend < d.windowLen)

/-- `put(b)` (R341). -/
def Decompressor.put (d : Decompressor) (b : Byte) : Decompressor :=
  { d with
    iwin := d.iwin.set d.wr b
    wr := (d.wr + 1) % d.windowLen
    pend := d.pend + 1
    hist := min (d.hist + 1) (2 ^ d.wbits) }

/-- The window position `back` bytes before the write cursor (R340, R342). -/
def Decompressor.behind (d : Decompressor) (back : Nat) : Nat := (d.wr + (d.windowLen - back)) % d.windowLen

/-- `n` window bytes from a position on, wrapping around (R341). -/
def Decompressor.windowRun (d : Decompressor) (pos : Nat) : Nat → List Byte
  | 0 => []
  | n + 1 => d.iwin.get pos :: d.windowRun ((pos + 1) % d.windowLen) n

/-- `drain()` (R341): deliver what fits, and checksum it. -/
def IRun.drain (r : IRun) : IRun :=
  let n := min r.d.pend r.port.availOut.toNat
  if n = 0 then r
  else
    let out := r.d.windowRun (r.d.behind r.d.pend) n
    let check := adlerUpdate r.d.check out
    { port := { r.port.deliver out with adler := check }, d := { r.d with pend := r.d.pend - n, check := check } }

/-! ## The bit parser (R410, R414) -/

/-- `take_byte()` (R410); none when it must block for input. -/
def IRun.takeByte (r : IRun) : Option (Byte × IRun) :=
  if r.port.availIn = 0#32 then none
  else some (r.port.mem.read r.port.nextIn.toNat, { r with port := r.port.consume 1 })

/-- A byte enters `bitb` above the valid bits (R410). -/
def Decompressor.pushByte (d : Decompressor) (b : Byte) : Decompressor :=
  { d with bitb := d.bitb ||| (b.setWidth 40 <<< d.bitk), bitk := d.bitk + 8 }

/-- A run that has what it needs, or has blocked for input keeping the bytes it took (R410). -/
inductive Fetch where
  | got (r : IRun)
  | blocked (r : IRun)
  deriving DecidableEq, Repr

/-- The loop of `need_bits(n)` (R410). -/
def IRun.needLoop (n : Nat) : Nat → IRun → Fetch
  | 0, r => .got r
  | fuel + 1, r =>
    if n ≤ r.d.bitk then .got r
    else
      match r.takeByte with
      | none => .blocked r
      | some (b, r1) => IRun.needLoop n fuel (r1.withD (r1.d.pushByte b))

/-- `need_bits(n)` (R410). Each turn adds 8 bits, so `n` turns are enough. -/
def IRun.needBits (r : IRun) (n : Nat) : Fetch := IRun.needLoop n n r

/-- The low `n` bits of the accumulator, once they are valid (R410). -/
def Decompressor.peekBits (d : Decompressor) (n : Nat) : Nat := d.bitb.toNat % 2 ^ n

/-- `drop_bits(n)` (R410). -/
def Decompressor.dropBits (d : Decompressor) (n : Nat) : Decompressor :=
  { d with bitb := d.bitb >>> n, bitk := d.bitk - n }

/-- The result of decoding one symbol (R414): the symbol and its code's bits, which are not dropped yet. -/
inductive Symbol where
  | sym (s n : Nat) (r : IRun)
  | undefined (r : IRun)
  | blocked (r : IRun)
  deriving DecidableEq, Repr

/-- The loop of `decode(code)` (R414). -/
def IRun.decodeLoop (code : List Nat) : Nat → IRun → Symbol
  | 0, r => .undefined r
  | fuel + 1, r =>
    match canonDecode code r.d.bitb.toNat r.d.bitk with
    | .sym s n => .sym s n r
    | .undefined => .undefined r
    | .needMoreBits =>
      match r.takeByte with
      | none => .blocked r
      | some (b, r1) => IRun.decodeLoop code fuel (r1.withD (r1.d.pushByte b))

/-- `decode(code)` (R414). A code has at most 15 bits, so two bytes are enough to decide; the bound is generous. -/
def IRun.decode (r : IRun) (code : List Nat) : Symbol := IRun.decodeLoop code (maxLen code + 1) r

/-! ## Steps -/

/-- What one step does (45_inflate.md, introduction): it completes, blocks, or ends the command with a status. -/
inductive IStep where
  | go (r : IRun)
  | blocked (r : IRun)
  | ended (r : IRun) (st : Status)
  deriving DecidableEq, Repr

/-- Enter BAD with a saved cause and a marker count (R531, R537, R542, R608). -/
def Decompressor.toBad (d : Decompressor) (err : BitVec 8) (marker : Nat) : Decompressor :=
  { d with mode := .bad, err := err, marker := marker }

/-- `bad(e)` (R531). -/
def IRun.bad (r : IRun) (err : BitVec 8) : IStep := .ended (r.withD (r.d.toBad err 0)) .dataError

/-- A header or trailer error (R542, R537): marker 5, resync is impossible. -/
def IRun.badFinal (r : IRun) (err : BitVec 8) : IStep := .ended (r.withD (r.d.toBad err 5)) .dataError

/-- Go on with another engine state. -/
def IRun.go (r : IRun) (d : Decompressor) : IStep := .go (r.withD d)

/-- Step HEADER_METHOD (R542). -/
def IRun.stepMethod (r : IRun) : IStep :=
  match r.takeByte with
  | none => .blocked r
  | some (b, r0) =>
    let r1 := r0.withD { r0.d with method := b }
    if b.toNat % 16 ≠ 8 then r1.badFinal 15#8
    else if r1.d.wbits < b.toNat / 16 + 8 then r1.badFinal 16#8
    else r1.go { r1.d with mode := .headerFlags }

/-- Step HEADER_FLAGS (R542). -/
def IRun.stepFlags (r : IRun) : IStep :=
  match r.takeByte with
  | none => .blocked r
  | some (b, r1) =>
    if (256 * r1.d.method.toNat + b.toNat) % 31 ≠ 0 then r1.badFinal 17#8
    else r1.go { r1.d with mode := if b.toNat / 32 % 2 = 1 then .dictId else .blocks, k := 0 }

/-- A byte of a most-significant-first 32-bit field: the first one starts the field (R537, R542). -/
def Decompressor.shiftNeed (d : Decompressor) (b : Byte) : Decompressor :=
  { d with
    need := if d.k = 0 then Word.ofNat b.toNat else Word.ofNat (256 * d.need.toNat + b.toNat)
    k := d.k + 1 }

/-- Step DICT_ID (R542); the fourth byte enters the dictionary wait (R520). -/
def IRun.stepDictId (r : IRun) : IStep :=
  match r.takeByte with
  | none => .blocked r
  | some (b, r0) =>
    let r1 := r0.withD (r0.d.shiftNeed b)
    if r1.d.k = 4 then
      .ended { port := { r1.port with adler := r1.d.need }, d := { r1.d with k := 0, mode := .waitForDictionary } }
        .needDictionary
    else .go r1

/-- ADLER when the engine leaves the dictionary wait for BAD: the checksum of the bytes delivered, because the register
holds the identifier only while a dictionary is awaited (10_state.md R41). R520 and R560 name no write of ADLER there
(log 26). -/
def Port.leaveWait (p : Port) (d : Decompressor) : Port :=
  if d.mode = .waitForDictionary then { p with adler := d.check } else p

/-- A step while a dictionary is awaited (R520): the host broke the protocol. -/
def IRun.stepWait (r : IRun) : IStep :=
  .ended { port := r.port.leaveWait r.d, d := r.d.toBad 19#8 0 } .streamError

/-- The sub-state after a block (R531, R532, R534): WASH after the final block. -/
def Decompressor.afterBlock (d : Decompressor) : BMode := if d.last then .wash else .type

/-- The fixed literal/length code of the decoder (R120, R530): 288 lengths. -/
def fixedLitLens : List Nat := (List.range 288).map fixedLitLen

/-- The fixed distance code of the decoder (R120, R530): 32 lengths of 5; codes 30 and 31 decode and are invalid. -/
def fixedDistLens : List Nat := List.replicate 32 5

/-- Step TYPE (R531). -/
def IRun.stepType (r : IRun) : IStep :=
  match r.needBits 3 with
  | .blocked r1 => .blocked r1
  | .got r1 =>
    let t := r1.d.peekBits 3
    let d := { r1.d.dropBits 3 with last := t % 2 == 1 }
    match t / 2 with
    | 0 => r1.go { d.dropBits d.bitk with bmode := .storedLen }
    | 1 => r1.go { d with lcode := fixedLitLens, dcode := fixedDistLens, bmode := .codesLen }
    | 2 => r1.go { d with bmode := .table }
    | _ => (r1.withD d).bad 1#8

/-- Step STORED_LEN (R532). -/
def IRun.stepStoredLen (r : IRun) : IStep :=
  match r.needBits 32 with
  | .blocked r1 => .blocked r1
  | .got r1 =>
    let v := r1.d.peekBits 32
    if 65535 - v / 65536 ≠ v % 65536 then r1.bad 2#8
    else
      let d := { r1.d.dropBits 32 with left := v % 65536 }
      r1.go { d with bmode := if d.left ≠ 0 then .storedCopy else d.afterBlock }

/-- Step STORED_COPY (R532), once per byte. -/
def IRun.stepStoredCopy (r : IRun) : IStep :=
  if !r.d.space then .blocked r
  else
    match r.takeByte with
    | none => .blocked r
    | some (b, r1) =>
      let d := { r1.d.put b with left := r1.d.left - 1 }
      r1.go (if d.left = 0 then { d with bmode := d.afterBlock } else d)

/-- Step TABLE (R533). -/
def IRun.stepTable (r : IRun) : IStep :=
  match r.needBits 14 with
  | .blocked r1 => .blocked r1
  | .got r1 =>
    let t := r1.d.peekBits 14
    if 29 < t % 32 ∨ 29 < t / 32 % 32 then r1.bad 3#8
    else
      r1.go { r1.d.dropBits 14 with
        nl := 257 + t % 32, nd := 1 + t / 32 % 32, ncl := 4 + t / 1024,
        blens := List.replicate 19 0, index := 0, bmode := .btree }

/-- Step BTREE with a length still to read (R533). -/
def IRun.stepBtreeRead (r : IRun) : IStep :=
  match r.needBits 3 with
  | .blocked r1 => .blocked r1
  | .got r1 =>
    r1.go { r1.d.dropBits 3 with
      blens := r1.d.blens.set (tableAt blOrder r1.d.index) (r1.d.peekBits 3), index := r1.d.index + 1 }

/-- Step BTREE once all lengths are read (R533): the verdict on the code-length code. -/
def IRun.stepBtreeCheck (r : IRun) : IStep :=
  let accept := r.go { r.d with blcode := r.d.blens, lens := [], bmode := .dtree }
  match verdict r.d.blens with
  | .oversubscribed => r.bad 4#8
  | .empty => r.bad 5#8
  | .incomplete => if maxLen r.d.blens ≠ 1 then r.bad 5#8 else accept
  | .complete => accept

/-- Step BTREE (R533). -/
def IRun.stepBtree (r : IRun) : IStep := if r.d.index < r.d.ncl then r.stepBtreeRead else r.stepBtreeCheck

/-- `total = nl + nd` (R533). -/
def Decompressor.total (d : Decompressor) : Nat := d.nl + d.nd

/-- The extra bits and the smallest count of a repeat symbol (R122, R533). -/
def repeatShape (c : Nat) : Nat × Nat := if c = 16 then (2, 3) else if c = 17 then (3, 3) else (7, 11)

/-- The lengths with a repeat appended (R533): copies of the last length for 16, zeros for 17 and 18. -/
def appendRepeat (lens : List Nat) (c count : Nat) : List Nat :=
  lens ++ List.replicate count (if c = 16 then lens.getLastD 0 else 0)

/-- Step DTREE on a repeat symbol whose code has `n` bits (R533). -/
def IRun.stepRepeat (r : IRun) (c n : Nat) : IStep :=
  let i := (repeatShape c).1
  match r.needBits (n + i) with
  | .blocked r1 => .blocked r1
  | .got r1 =>
    let count := (repeatShape c).2 + (r1.d.bitb.toNat >>> n) % 2 ^ i
    if r1.d.total < r1.d.lens.length + count ∨ (c = 16 ∧ r1.d.lens = []) then r1.bad 6#8
    else r1.go { r1.d.dropBits (n + i) with lens := appendRepeat r1.d.lens c count }

/-- Step DTREE with a length still to read (R533). -/
def IRun.stepDtreeRead (r : IRun) : IStep :=
  match r.decode r.d.blcode with
  | .blocked r1 => .blocked r1
  | .undefined r1 => r1.bad 24#8
  | .sym c n r1 =>
    if c < 16 then r1.go { r1.d.dropBits n with lens := r1.d.lens ++ [c] } else r1.stepRepeat c n

/-- The verdict on a literal/length code (R533): the error, if any. -/
def litError (ll : List Nat) : Option (BitVec 8) :=
  match verdict ll with
  | .oversubscribed => some 7#8
  | .empty => some 8#8
  | .incomplete => if maxLen ll ≠ 1 then some 8#8 else none
  | .complete => none

/-- The verdict on a distance code (R533): the error, if any. -/
def distError (dl : List Nat) (nl : Nat) : Option (BitVec 8) :=
  match verdict dl with
  | .oversubscribed => some 9#8
  | .incomplete => if maxLen dl ≠ 1 then some 10#8 else none
  | .empty => if 257 < nl then some 11#8 else none
  | .complete => none

/-- Step DTREE once all lengths are read (R533). -/
def IRun.stepDtreeCheck (r : IRun) : IStep :=
  let ll := r.d.lens.take r.d.nl
  let dl := (r.d.lens.drop r.d.nl).take r.d.nd
  match litError ll with
  | some e => r.bad e
  | none =>
    match distError dl r.d.nl with
    | some e => r.bad e
    | none => r.go { r.d with lcode := ll, dcode := dl, bmode := .codesLen }

/-- Step DTREE (R533). -/
def IRun.stepDtree (r : IRun) : IStep :=
  if r.d.lens.length < r.d.total then r.stepDtreeRead else r.stepDtreeCheck

/-- Step CODES_LEN on a length symbol whose code has `n` bits (R534). -/
def IRun.stepLength (r : IRun) (k n : Nat) : IStep :=
  let e := tableAt lenExtra k
  match r.needBits (n + e) with
  | .blocked r1 => .blocked r1
  | .got r1 =>
    r1.go { r1.d.dropBits (n + e) with
      len := tableAt lenBase k + (r1.d.bitb.toNat >>> n) % 2 ^ e, bmode := .codesDist }

/-- Step CODES_LEN (R534). -/
def IRun.stepCodesLen (r : IRun) : IStep :=
  if !r.d.space then .blocked r
  else
    match r.decode r.d.lcode with
    | .blocked r1 => .blocked r1
    | .undefined r1 => r1.bad 12#8
    | .sym c n r1 =>
      if c < 256 then r1.go ((r1.d.dropBits n).put (Byte.ofNat c))
      else if c = 256 then r1.go { r1.d.dropBits n with bmode := r1.d.afterBlock }
      else if 285 < c then r1.bad 12#8
      else r1.stepLength (c - 257) n

/-- Step CODES_DIST on a distance symbol whose code has `n` bits (R535). -/
def IRun.stepDistance (r : IRun) (c n : Nat) : IStep :=
  let e := tableAt distExtra c
  match r.needBits (n + e) with
  | .blocked r1 => .blocked r1
  | .got r1 =>
    let dist := tableAt distBase c + (r1.d.bitb.toNat >>> n) % 2 ^ e
    if r1.d.hist < dist then r1.bad 14#8
    else r1.go { r1.d.dropBits (n + e) with dist := dist, bmode := .codesCopy }

/-- Step CODES_DIST (R535). -/
def IRun.stepCodesDist (r : IRun) : IStep :=
  match r.decode r.d.dcode with
  | .blocked r1 => .blocked r1
  | .undefined r1 => r1.bad 13#8
  | .sym c n r1 => if 29 < c then r1.bad 13#8 else r1.stepDistance c n

/-- Step CODES_COPY (R536), once per byte. -/
def IRun.stepCodesCopy (r : IRun) : IStep :=
  if !r.d.space then .blocked r
  else
    let d := { r.d.put (r.d.iwin.get (r.d.behind r.d.dist)) with len := r.d.len - 1 }
    r.go (if d.len = 0 then { d with bmode := .codesLen } else d)

/-- Step WASH (R537): the padding is dropped; all output is delivered first. -/
def IRun.stepWash (r : IRun) : IStep :=
  let r1 := r.withD (r.d.dropBits r.d.bitk)
  if r1.d.pend ≠ 0 then .blocked r1
  else r1.go { r1.d with was := r1.d.check, mode := .trailerChecksum, k := 0 }

/-- Step TRAILER_CHECKSUM (R537), once per byte. -/
def IRun.stepTrailer (r : IRun) : IStep :=
  match r.takeByte with
  | none => .blocked r
  | some (b, r0) =>
    let r1 := r0.withD (r0.d.shiftNeed b)
    if r1.d.k = 4 then
      if r1.d.need ≠ r1.d.was then r1.badFinal 18#8 else r1.go { r1.d with mode := .done, k := 0 }
    else .go r1

/-- The step of a block sub-state (R541). -/
def IRun.stepBlock (r : IRun) : IStep :=
  match r.d.bmode with
  | .type => r.stepType
  | .storedLen => r.stepStoredLen
  | .storedCopy => r.stepStoredCopy
  | .table => r.stepTable
  | .btree => r.stepBtree
  | .dtree => r.stepDtree
  | .codesLen => r.stepCodesLen
  | .codesDist => r.stepCodesDist
  | .codesCopy => r.stepCodesCopy
  | .wash => r.stepWash

/-- The step to run (R541); the terminal states end the command and change nothing (R538). -/
def IRun.step (r : IRun) : IStep :=
  match r.d.mode with
  | .headerMethod => r.stepMethod
  | .headerFlags => r.stepFlags
  | .dictId => r.stepDictId
  | .waitForDictionary => r.stepWait
  | .blocks => r.stepBlock
  | .trailerChecksum => r.stepTrailer
  | .done => .ended r .streamEnd
  | .bad => .ended r .dataError

/-! ## INFLATE (R540) -/

/-- The loop of INFLATE (R540): drain, then one step, until a step blocks or ends the command. -/
def IRun.loop : Nat → IRun → IRun × Option Status
  | 0, r => (r, none)
  | fuel + 1, r =>
    match r.drain.step with
    | .go r1 => IRun.loop fuel r1
    | .blocked r1 => (r1, none)
    | .ended r1 st => (r1, some st)

/-- Steps that are enough for INFLATE (R656, log 10): each completed step consumes a bit or a byte, writes a window
byte, or moves on to a sub-state that does. -/
def IRun.stepBound (r : IRun) : Nat :=
  4 * (8 * r.port.availIn.toNat + r.d.bitk) + 2 * (r.d.windowLen + r.port.availOut.toNat) + 8

/-- INFLATE's loop and its last drain (R540). -/
def IRun.inflate (r : IRun) : IRun × Option Status :=
  let out := IRun.loop r.stepBound r
  (out.1.drain, out.2)

/-- A step's status as an ending: a negative one raises the saved cause (R540, R538). -/
def Decompressor.ending (d : Decompressor) (st : Status) : Ending :=
  match st with
  | .dataError => .raise .dataError d.err
  | .streamError => .raise .streamError d.err
  | _ => .ret st

/-- INFLATE's return rule (R540): the status of the step that ended the command; else BufError 21 under Finish or
when nothing moved, and Ok otherwise. -/
def inflateEnding (flush : Nat) (start : Port) (out : IRun × Option Status) : Ending :=
  match out.2 with
  | some st => out.1.d.ending st
  | none =>
    if flush = 4 then .raise .bufError 21#8
    else if out.1.port.availIn ≠ start.availIn ∨ out.1.port.availOut ≠ start.availOut then .ret .ok
    else .raise .bufError 21#8

/-- The state after a decompressor run. -/
def State.withIRun (s : State) (r : IRun) : State := { s with port := r.port, engine := .inflate r.d }

/-- INFLATE (R540). -/
def execInflate (flush : Nat) (s : State) : Host.Outcome State Fault Refusal :=
  match s.engine with
  | .inflate d =>
    if 4 < flush then .next s.misuse
    else if !s.streamRangesOk then .next s.misuse
    else
      let out := IRun.inflate ⟨s.port, d⟩
      .next ((s.withIRun out.1).finish (inflateEnding flush s.port out))
  | .none => .next s.misuse
  | .deflate _ => .next s.misuse

/-! ## IINIT, IRESET, IEND -/

/-- The engine part of `inflate_reset` (R511). -/
def Decompressor.inflateReset (d : Decompressor) : Decompressor :=
  { d with
    err := 0#8, mode := .headerMethod, k := 0, marker := 0, bmode := .type, bitb := 0#40, bitk := 0,
    wr := 0, pend := 0, hist := 0, check := 1#32 }

/-- A decompressor just opened (R510, R511). The fields that `inflate_reset` does not set are 0 or empty; each is
written before it is read (log 7). -/
def Decompressor.opened (wbits : Nat) : Decompressor :=
  { wbits := wbits, iwin := .nil, wr := 0, pend := 0, hist := 0, check := 1#32, mode := .headerMethod, k := 0,
    method := 0#8, need := 0#32, was := 0#32, marker := 0, err := 0#8, bitb := 0#40, bitk := 0, bmode := .type,
    last := false, left := 0, nl := 0, nd := 0, ncl := 0, index := 0, blens := [], lens := [], blcode := [],
    lcode := [], dcode := [], len := 0, dist := 0 }

/-- IINIT (R510). -/
def execIinit (wbits : Nat) (s : State) : Host.Outcome State Fault Refusal :=
  if s.engine.isOpen then .next s.misuse
  else if wbits < 8 ∨ 15 < wbits then .next s.misuse
  else if Config.hwMaxWbits < wbits then .next (s.raise .memError 23#8)
  else
    .next { s with
      result := .ok, errcode := 0#8, port := s.port.streamReset,
      engine := .inflate (Decompressor.opened wbits) }

/-- IRESET (R562). -/
def execIreset (s : State) : Host.Outcome State Fault Refusal :=
  match s.engine with
  | .inflate d =>
    .next { s with
      result := .ok, errcode := 0#8, port := s.port.streamReset, engine := .inflate d.inflateReset }
  | .none => .next s.misuse
  | .deflate _ => .next s.misuse

/-- IEND (R563). -/
def execIend (s : State) : Host.Outcome State Fault Refusal :=
  match s.engine with
  | .inflate _ => .next { s with engine := .none, errcode := 0#8, result := .ok }
  | .none => .next s.misuse
  | .deflate _ => .next s.misuse

/-! ## ISETDICT (R550) -/

/-- The part of the dictionary that is kept (R550): its last `2^wbits - 1` bytes when it has `2^wbits` or more. -/
def Decompressor.dictTail (d : Decompressor) (dict : List Byte) : List Byte :=
  if 2 ^ d.wbits ≤ dict.length then dict.drop (dict.length - (2 ^ d.wbits - 1)) else dict

/-- Write dictionary bytes at the write cursor (R550, R344). -/
def Decompressor.preload (d : Decompressor) : List Byte → Decompressor
  | [] => d
  | b :: bs => Decompressor.preload { d with iwin := d.iwin.set d.wr b, wr := (d.wr + 1) % d.windowLen } bs

/-- ISETDICT with the matching dictionary (R550). -/
def State.supplyDict (s : State) (d : Decompressor) : State :=
  let kept := d.dictTail s.dictBytes
  { s with
    result := .ok, port := { s.port with adler := 1#32 },
    engine := .inflate { d.preload kept with hist := kept.length, mode := .blocks } }

/-- ISETDICT (R550). -/
def execIsetdict (s : State) : Host.Outcome State Fault Refusal :=
  match s.engine with
  | .inflate d =>
    if d.mode ≠ .waitForDictionary then .next s.misuse
    else if !s.dictRangeOk then .next s.misuse
    else if adlerUpdate 1#32 s.dictBytes ≠ s.port.adler then .next (s.raise .dataError 26#8)
    else .next (s.supplyDict d)
  | .none => .next s.misuse
  | .deflate _ => .next s.misuse

/-! ## ISYNC (R560) -/

/-- The marker `00 00 FF FF` (R123, R560). -/
def markerBytes : List Byte := [0x00#8, 0x00#8, 0xFF#8, 0xFF#8]

/-- The marker progress after a byte (R560). -/
def markerNext (m : Nat) (b : Byte) : Nat :=
  if markerBytes[m]? = some b then m + 1 else if b ≠ 0#8 then 0 else 4 - m

/-- The scan of ISYNC (R560): bytes are consumed until the marker is complete or the input is exhausted. -/
def syncScan : Nat → Port → Nat → Port × Nat
  | 0, p, m => (p, m)
  | fuel + 1, p, m =>
    if p.availIn ≠ 0#32 ∧ m < 4 then syncScan fuel (p.consume 1) (markerNext m (p.mem.read p.nextIn.toNat))
    else (p, m)

/-- ISYNC enters BAD first, from any other state (R560, D42). -/
def Decompressor.enterBad (d : Decompressor) : Decompressor :=
  if d.mode ≠ .bad then d.toBad 28#8 0 else d

/-- The state once ISYNC has put the engine in BAD (R560, R41). -/
def State.enterBad (s : State) (d : Decompressor) : State :=
  { s with port := s.port.leaveWait d, engine := .inflate d.enterBad }

/-- ISYNC with input (R560): resume at a block when the marker is found (R561, R511), else DataError 28. -/
def State.resync (s : State) (d : Decompressor) : State :=
  let out := syncScan s.port.availIn.toNat s.port d.marker
  if out.2 = 4 then
    { s with
      result := .ok, port := { out.1 with adler := 1#32 },
      engine := .inflate { d.inflateReset with mode := .blocks } }
  else { s with port := out.1, engine := .inflate { d with marker := out.2 } }.raise .dataError 28#8

/-- ISYNC (R560). -/
def execIsync (s : State) : Host.Outcome State Fault Refusal :=
  match s.engine with
  | .inflate d =>
    if !s.inputRangeOk then .next s.misuse
    else if s.port.availIn = 0#32 then .next ((s.enterBad d).raise .bufError 21#8)
    else .next ((s.enterBad d).resync d.enterBad)
  | .none => .next s.misuse
  | .deflate _ => .next s.misuse

end Sys2Proof.Machine
end

