-- ==== Sys2Proof/Machine/Dispatch.lean ====
section
/-!
DEFINITION. One arm per command: each calls the command's meaning.
-/

namespace Sys2Proof.Machine

def exec (i : Instr) (s : State) : Host.Outcome State Fault Refusal :=
  match i with
  | .dinit level wbits memLevel strategy => Sys2Proof.Machine.execDinit level wbits memLevel strategy s
  | .dsetdict => Sys2Proof.Machine.execDsetdict s
  | .deflate flush => Sys2Proof.Machine.execDeflate flush s
  | .dparams level strategy => Sys2Proof.Machine.execDparams level strategy s
  | .dreset => Sys2Proof.Machine.execDreset s
  | .dend => Sys2Proof.Machine.execDend s
  | .iinit wbits => Sys2Proof.Machine.execIinit wbits s
  | .isetdict => Sys2Proof.Machine.execIsetdict s
  | .inflate flush => Sys2Proof.Machine.execInflate flush s
  | .isync => Sys2Proof.Machine.execIsync s
  | .ireset => Sys2Proof.Machine.execIreset s
  | .iend => Sys2Proof.Machine.execIend s
  | .adler => Sys2Proof.Machine.execAdler s
  | .hbuild => Sys2Proof.Machine.execHbuild s
  | .hcanon => Sys2Proof.Machine.execHcanon s

end Sys2Proof.Machine
end

