-- ==== Sys2Proof/Machine/Flags.lean ====
section
/-!
DEFINITION. The views of the machine that are flags and fields of registers: RESULT's sign-extended code
(10_state.md R36, 60_exceptions.md R600), STATUS (R35), CFG (R44) and ESTATE (R45, 45_inflate.md R512). There is
no condition-code register (R47).
-/

namespace Sys2Proof.Machine

/-- The 8-bit two's-complement status code (R600). -/
def Status.code : Status → BitVec 8
  | .ok => 0x00#8
  | .streamEnd => 0x01#8
  | .needDictionary => 0x02#8
  | .streamError => 0xFE#8
  | .dataError => 0xFD#8
  | .memError => 0xFC#8
  | .bufError => 0xFB#8

/-- RESULT as read: bits 31:8 are copies of bit 7 (R36). -/
def Status.resultWord (st : Status) : Word := st.code.signExtend 32

/-- The status is an error: its code is negative (R47, R600). -/
def Status.negative (st : Status) : Bool := st.code.msb

/-- STATUS.ENGINE (R35): 0 none, 1 compressor, 2 decompressor. -/
def Engine.selector : Engine → Nat
  | .none => 0
  | .deflate _ => 1
  | .inflate _ => 2

/-- STATUS as read (R35): BUSY bit 0, ENGINE bits 2:1, OVERRUN bit 3, the rest 0. -/
def State.statusWord (s : State) : Word :=
  Word.ofNat (s.busy.toNat + 2 * s.engine.selector + 8 * s.overrun.toNat)

/-- CFG as read (R44): LEVEL 3:0, WBITS 7:4, MEMLEVEL 11:8, STRATEGY 13:12; 0 when no engine is open. -/
def Engine.cfgWord : Engine → Word
  | .none => 0#32
  | .deflate c => Word.ofNat (c.level + 16 * c.wBits + 256 * c.memLevel + 4096 * c.strategy)
  | .inflate d => Word.ofNat (16 * d.wbits)

/-- ESTATE.TOP of the compressor (R45). -/
def DState.top : DState → Nat
  | .init => 0x01
  | .busy => 0x02
  | .finish => 0x03
  | .done => 0x04

/-- ESTATE.TOP of the decompressor (R45, R512). -/
def IMode.top : IMode → Nat
  | .headerMethod => 0x10
  | .headerFlags => 0x11
  | .dictId => 0x12
  | .waitForDictionary => 0x13
  | .blocks => 0x14
  | .trailerChecksum => 0x15
  | .done => 0x16
  | .bad => 0x17

/-- The code of a block sub-state (R45). -/
def BMode.sub : BMode → Nat
  | .type => 0x01
  | .storedLen => 0x02
  | .storedCopy => 0x03
  | .table => 0x04
  | .btree => 0x05
  | .dtree => 0x06
  | .codesLen => 0x07
  | .codesDist => 0x08
  | .codesCopy => 0x09
  | .wash => 0x0A

/-- ESTATE.SUB of the decompressor: the block sub-state in BLOCKS, else 0 (R512). -/
def Decompressor.subCode (d : Decompressor) : Nat :=
  match d.mode with
  | .blocks => d.bmode.sub
  | _ => 0

/-- ESTATE.K: the bytes already read in DICT_ID and TRAILER_CHECKSUM, else 0 (R512). -/
def Decompressor.kCode (d : Decompressor) : Nat :=
  match d.mode with
  | .dictId => d.k
  | .trailerChecksum => d.k
  | _ => 0

/-- ESTATE as read (R45): TOP 7:0, SUB 15:8, K 23:16. -/
def Engine.estateWord : Engine → Word
  | .none => 0#32
  | .deflate c => Word.ofNat c.dstate.top
  | .inflate d => Word.ofNat (d.mode.top + 256 * d.subCode + 65536 * d.kCode)

end Sys2Proof.Machine
end

