-- ==== Sys2Proof/Machine/HostPort.lean ====
section
/-!
DEFINITION. The host's side of the machine (00_scope.md R20, 10_state.md R32–R50, 70_reset_and_hazards.md R650,
R660): register reads and writes, buffer accesses, hardware reset, and a command word written to CMD.
-/

namespace Sys2Proof.Machine

/-- The register at an offset of the register window (R33); none for an offset that is misaligned or outside it. -/
def registerAt (offset : Nat) : Option Register :=
  if offset % 4 ≠ 0 then none
  else
    match offset / 4 with
    | 0 => some .cmd
    | 1 => some .status
    | 2 => some .result
    | 3 => some .errcode
    | 4 => some .nextIn
    | 5 => some .availIn
    | 6 => some .totalIn
    | 7 => some .nextOut
    | 8 => some .availOut
    | 9 => some .totalOut
    | 10 => some .adler
    | 11 => some .rval
    | 12 => some .arg0
    | 13 => some .arg1
    | 14 => some .arg2
    | 15 => some .arg3
    | 16 => some .cfg
    | 17 => some .estate
    | 18 => some .id
    | n => if n < 32 then some .reserved else none

/-- A register access as the core defines it: aligned, 32 bits wide, inside the window (R32). -/
def registerAccess (offset width : Nat) : Option Register := if width = 4 then registerAt offset else none

/-- The value a register reads as (R33–R46). Reads have no side effect. -/
def State.readRegister (s : State) : Register → Word
  | .cmd => 0#32
  | .status => s.statusWord
  | .result => s.result.resultWord
  | .errcode => s.errcode.setWidth 32
  | .nextIn => s.port.nextIn
  | .availIn => s.port.availIn
  | .totalIn => s.port.totalIn
  | .nextOut => s.port.nextOut
  | .availOut => s.port.availOut
  | .totalOut => s.port.totalOut
  | .adler => s.port.adler
  | .rval => s.rval
  | .arg0 => s.arg0
  | .arg1 => s.arg1
  | .arg2 => s.arg2
  | .arg3 => s.arg3
  | .cfg => s.engine.cfgWord
  | .estate => s.engine.estateWord
  | .id => Config.coreId
  | .reserved => 0#32

/-- A host write to a register other than CMD, while the core is idle (R33, R48): STATUS is write-1-to-clear in
bit 3 (R35), and writes to read-only and reserved registers are ignored. -/
def State.writeRegister (s : State) (v : Word) : Register → State
  | .status => if v.getLsbD 3 then { s with overrun := false } else s
  | .nextIn => { s with port := { s.port with nextIn := v } }
  | .availIn => { s with port := { s.port with availIn := v } }
  | .nextOut => { s with port := { s.port with nextOut := v } }
  | .availOut => { s with port := { s.port with availOut := v } }
  | .arg0 => { s with arg0 := v }
  | .arg1 => { s with arg1 := v }
  | .arg2 => { s with arg2 := v }
  | .arg3 => { s with arg3 := v }
  | .cmd => s
  | .result => s
  | .errcode => s
  | .totalIn => s
  | .totalOut => s
  | .adler => s
  | .rval => s
  | .cfg => s
  | .estate => s
  | .id => s
  | .reserved => s

/-- A command word written to CMD (R34): a legal word runs its command to completion; an illegal OPC ends with
StreamError 25 (R107), a reserved or unused bit set with StreamError 20 (R101), and nothing else changes. -/
def runCommand (w : Word) (s : State) : Host.Outcome State Fault Refusal :=
  match decode w with
  | .command i => exec i s
  | .rejected .illegalOpc => .next (s.raise .streamError 25#8)
  | .rejected .reservedBits => .next s.misuse

/-- A host register write (R34, R48, R50): while BUSY it is dropped and sets OVERRUN; a write to CMD runs a command. -/
def hostWriteReg (offset width : Nat) (v : Word) (s : State) : Host.Outcome State Fault Refusal :=
  match registerAccess offset width with
  | none => .refused .registerAccess
  | some reg =>
    if s.busy then .next { s with overrun := true }
    else
      match reg with
      | .cmd => runCommand v s
      | _ => .next (s.writeRegister v reg)

/-- A host register read (R32, R33). -/
def hostReadReg (offset width : Nat) (s : State) : Host.Outcome State Fault Refusal :=
  match registerAccess offset width with
  | none => .refused .registerAccess
  | some reg => .next { s with readData := s.readRegister reg }

/-- A host write of one buffer byte, between commands (R660). R72 gives the addresses that exist; that an access at
MEM_SIZE or above faults is the model's choice (DESIGN CHOICE, log 24). -/
def hostWriteByte (a : Nat) (b : Byte) (s : State) : Host.Outcome State Fault Refusal :=
  if s.busy then .refused .bufferAccessWhileBusy
  else if s.memSize ≤ a then .fault .noSuchAddress
  else .next { s with port := { s.port with mem := s.port.mem.write a b } }

/-- A host read of one buffer byte, between commands (R660). R72 gives the addresses that exist; that an access at
MEM_SIZE or above faults is the model's choice (DESIGN CHOICE, log 24). -/
def hostReadByte (a : Nat) (s : State) : Host.Outcome State Fault Refusal :=
  if s.busy then .refused .bufferAccessWhileBusy
  else if s.memSize ≤ a then .fault .noSuchAddress
  else .next { s with readData := (s.port.mem.read a).setWidth 32 }

/-- A hardware reset between commands (R650, R653): the registers take their reset values and no engine is open;
buffer memory and its size are not part of the core and keep theirs, and so do the host's own fields. -/
def State.hardReset (s : State) : State :=
  { State.reset with
    port := Port.reset s.port.mem, memTop := s.memTop, hostQueue := s.hostQueue, readData := s.readData }

/-- A hardware reset as the host applies it (R653): only between commands. -/
def hostReset (s : State) : Host.Outcome State Fault Refusal :=
  if s.busy then .refused .resetWhileBusy else .next s.hardReset

/-- One action of the host (R20, R660). -/
def hostAct (a : HostAction) (s : State) : Host.Outcome State Fault Refusal :=
  match a with
  | .writeReg offset width v => hostWriteReg offset width v s
  | .readReg offset width => hostReadReg offset width s
  | .writeByte addr b => hostWriteByte addr b s
  | .readByte addr => hostReadByte addr s
  | .reset => hostReset s

/-- The host action that writes a command word to CMD (R34). -/
def cmdWrite (w : Word) : HostAction := .writeReg 0 4 w

end Sys2Proof.Machine
end

