-- ==== Sys2Proof/Machine/Step.lean ====
section
/-!
DEFINITION. One step of the machine: the host's oldest pending action is performed, a command running to completion
within it (00_scope.md R20). With nothing pending the core is idle (70_reset_and_hazards.md R652) and nothing
changes.
-/

namespace Sys2Proof.Machine

/-- One step (R20). The core fetches no instructions (R31): command words come from the host, through CMD. -/
def step (s : State) : Host.Outcome State Fault Refusal :=
  match s.hostQueue with
  | [] => .next s
  | a :: rest => hostAct a { s with hostQueue := rest }

/-- `s` with the command word written to CMD as the host's next action, the core being idle, so that the very next
step runs that command (log 1). -/
def State.withFetchWord (s : State) (nbits w : Nat) : State :=
  { s with busy := false, hostQueue := cmdWrite (tableWord nbits w) :: s.hostQueue }

end Sys2Proof.Machine
end

