-- ==== Sys2Proof/Machine/AnyProfile.lean ====
section
/-!
DEFINITION. The machine under either encoder profile (00_scope.md R9, R22): `ExecUnder` and `StepUnder` take
ENCODER_PROFILE as an argument. Under `Reference` they are `exec` and `step`. Under `Any` what a DEFLATE call consumes and
writes is a draw within 44_deflate.md R434, stated over the history of the stream with the model's own decoder, and
everything else is a function of that draw (log 13).
-/

namespace Sys2Proof.Machine

/-! ## What a byte sequence decodes to -/

/-- A scratch stream port: the input bytes at address 0, then `room` bytes of output space. -/
def Port.scratch (input : List Byte) (room : Nat) : Port :=
  { Port.reset (Memory.writeRun [] 0 input) with
    availIn := Word.ofNat input.length, nextOut := Word.ofNat input.length, availOut := Word.ofNat room }

/-- Limits on the matches of a stream (R434 (a), (c)): the largest distance, and the flush points that later matches
do not reach across. -/
structure MatchLimits where
  maxDist : Nat
  floors : List Nat
  deriving DecidableEq, Repr

/-- A match byte copied at output position `p` with distance `dist` keeps the limits. -/
def MatchLimits.allow (l : MatchLimits) (p dist : Nat) : Bool :=
  decide (dist ≤ l.maxDist) && l.floors.all (fun f => decide (p < f) || decide (f + dist ≤ p))

/-- A decoder run is about to copy a match byte (R536). -/
def IRun.copying (r : IRun) : Bool := r.d.mode == .blocks && r.d.bmode == .codesCopy

/-- The output position of a decoder run whose command began at output position `base`. -/
def IRun.position (base : Nat) (r : IRun) : Nat := base + r.port.totalOut.toNat + r.d.pend

/-- The padding of a stored block's header that step TYPE is about to drop is 0 (R111, R123, R405). -/
def IRun.storedPadZero (r : IRun) : Bool :=
  match r.needBits 3 with
  | .got r1 => decide (r1.d.peekBits 3 / 2 ≠ 0) || decide (r1.d.peekBits r1.d.bitk < 8)
  | .blocked _ => true

/-- Step CODES_LEN is not about to read length 258 as symbol 284 with the extra bits 31 (R118). -/
def IRun.codesMaxAs285 (r : IRun) : Bool :=
  match r.decode r.d.lcode with
  | .sym c n r1 =>
    match r1.needBits (n + 5) with
    | .got r2 => decide (c ≠ 284) || decide ((r2.d.bitb.toNat >>> n) % 32 ≠ 31)
    | .blocked _ => true
  | .undefined _ => true
  | .blocked _ => true

/-- The step to come meets what the format says of the compressor in every stream: padding bits are 0 (R111, R123), and
length 258 is symbol 285 (R118). DESIGN CHOICE (log 29): R434 (a)'s format includes these two. -/
def IRun.asWritten (r : IRun) : Bool :=
  if r.d.mode ≠ .blocks then true
  else if r.d.bmode = .type then r.storedPadZero
  else if r.d.bmode = .codesLen then r.codesMaxAs285
  else if r.d.bmode = .wash then decide (r.d.peekBits r.d.bitk = 0)
  else true

/-- Where a block begins: the bits before it, how many of these had left the packer for `Pending`, and its BFINAL. -/
structure BlockStart where
  first : Nat
  handed : Nat
  final : Bool
  deriving DecidableEq, Repr

/-- What a decoder run tells of the packer that wrote its input: `base` output bytes and `taken` input bytes before the
command; the positions in bits at which the packer's accumulator was empty because a byte was put or the stream was padded;
and the starts of the blocks met; each list with the last one first. -/
structure Trace where
  base : Nat
  taken : Nat
  aligned : List Nat
  blocks : List BlockStart
  deriving DecidableEq, Repr

/-- Nothing is read yet. -/
def Trace.start : Trace := ⟨0, 0, [0], []⟩

/-- The stream position of a decoder run, in bits. -/
def Trace.position (t : Trace) (r : IRun) : Nat := 8 * (t.taken + r.port.totalIn.toNat) - r.d.bitk

/-- The bits the accumulator holds `n` bits after it was empty (R402): it goes out in whole 16-bit words, once it
overflows. -/
def heldBits (n : Nat) : Nat := if n = 0 then 0 else (n - 1) % 16 + 1

/-- The bits the accumulator holds at a stream position (R402). -/
def Trace.accAt (t : Trace) (pos : Nat) : Nat := heldBits (pos - (t.aligned.find? (fun a => a ≤ pos)).getD 0)

/-- What the step from `r` to `r'` read was written by `put_byte`, or ended with a `bi_windup`: the header, the trailer,
the stored form from its padding on, the padding of the final block (R401, R405, R435, R437, R446, R453). Either leaves the
accumulator empty. -/
def IRun.bytewise (r r' : IRun) : Bool :=
  r.d.mode != .blocks || r.d.bmode == .storedLen || r.d.bmode == .storedCopy || r.d.bmode == .wash
    || (r.d.bmode == .type && r'.d.bmode == .storedLen)

/-- The step from `r` to `r'` has met the first bit of a block (R115). -/
def IRun.beginsBlock (r r' : IRun) : Bool :=
  r.d.mode == .blocks && r.d.bmode == .type && (r'.d.bmode != .type || decide (0 < r'.d.bitk))

/-- BFINAL of the block that the run has just begun (R115). -/
def IRun.finalBit (r' : IRun) : Bool := if r'.d.bmode = .type then decide (r'.d.peekBits 1 = 1) else r'.d.last

/-- The trace after the step from `r` to `r'`. -/
def Trace.after (t : Trace) (r r' : IRun) : Trace :=
  let pos := t.position r
  { t with
    aligned := if r.bytewise r' then t.position r' :: t.aligned else t.aligned
    blocks := if r.beginsBlock r' then ⟨pos, pos - t.accAt pos, r'.finalBit⟩ :: t.blocks else t.blocks }

/-- The trace when a command that started with it has ended in `r'`. -/
def Trace.next (t : Trace) (r' : IRun) : Trace :=
  { t with base := t.base + r'.port.totalOut.toNat, taken := t.taken + r'.port.totalIn.toNat }

/-- INFLATE's loop (R540) as long as every step meets the format as written and every match byte it copies keeps the
limits: the trace it ends with. -/
def IRun.properLoop (limits : MatchLimits) : Nat → Trace → IRun → Option Trace
  | 0, t, _ => some t
  | fuel + 1, t, r =>
    let x := r.drain
    if (x.copying && !limits.allow (x.position t.base) x.d.dist) || !x.asWritten then none
    else
      match x.step with
      | .go r1 => IRun.properLoop limits fuel (t.after x r1) r1
      | .blocked r1 => some (t.after x r1)
      | .ended r1 _ => some (t.after x r1)

/-- INFLATE from a run and a trace, every step proper, its input used up, and without an error: the trace it ends with. -/
def IRun.cleanly (limits : MatchLimits) (t : Trace) (r : IRun) : Option Trace :=
  let out := r.inflate
  if out.1.port.availIn = 0#32 ∧ out.2 ≠ some .dataError ∧ out.2 ≠ some .streamError then
    (IRun.properLoop limits r.stepBound t r).map (fun t' => t'.next out.1)
  else none

/-- Decoding, call by call (R544: the calls' sizes do not matter): decoder `d`, with trace `t`, reads `input` to its end,
delivers `output` and becomes `d'` with trace `t'`, every match within the limits. `dict` is the dictionary supplied if the
stream asks for one. -/
inductive Decodes (limits : MatchLimits) (dict : List Byte) :
    Trace → Decompressor → List Byte → List Byte → Trace → Decompressor → Prop where
  | stop (t : Trace) (d : Decompressor) : Decodes limits dict t d [] [] t d
  | call (t t1 t' : Trace) (room : Nat) (d d' : Decompressor) (chunk input output : List Byte)
      (fits : chunk.length + room < 2 ^ 32)
      (clean : IRun.cleanly limits t ⟨Port.scratch chunk room, d⟩ = some t1)
      (rest : Decodes limits dict t1 (IRun.inflate ⟨Port.scratch chunk room, d⟩).1.d input output t' d') :
      Decodes limits dict t d (chunk ++ input)
        ((IRun.inflate ⟨Port.scratch chunk room, d⟩).1.port.mem.readRun chunk.length
          (IRun.inflate ⟨Port.scratch chunk room, d⟩).1.port.totalOut.toNat ++ output) t' d'
  | dictionary (t t' : Trace) (d d' : Decompressor) (input output : List Byte)
      (waits : d.mode = .waitForDictionary) (known : adlerUpdate 1#32 dict = d.need)
      (rest : Decodes limits dict t
        { d.preload (d.dictTail dict) with hist := (d.dictTail dict).length, mode := .blocks } input output t' d') :
      Decodes limits dict t d input output t' d'

/-! ## The history of a compressed stream -/

/-- A stream since DINIT or DRESET (R434): its window size, the level its header shows, its preset dictionary if one of 3
bytes or more was set (R435: FDICT), the input consumed, the output written, what that output decodes to, and the flush
points of its completed FullFlushes. -/
structure History where
  wBits : Nat
  level : Nat
  dict : Option (List Byte)
  consumed : List Byte
  written : List Byte
  decoded : List Byte
  floors : List Nat
  deriving DecidableEq, Repr

/-- The history of a stream that DINIT or DRESET begins (R440, R458). -/
def History.start (wBits level : Nat) : History := ⟨wBits, level, none, [], [], [], []⟩

/-- The history after DSETDICT (R452): a dictionary of fewer than 3 bytes leaves the stream without one. -/
def History.withDict (h : History) (dict : List Byte) : History :=
  { h with dict := if dict.length < 3 then none else some dict }

/-- The stream's match limits (R434 (a), (c)). -/
def History.limits (h : History) : MatchLimits := ⟨2 ^ h.wBits - 262, h.floors⟩

/-- `bytes` decode to `out`, from a decoder whose window has `2^w` bytes, all of it delivered, and leave a trace. -/
def History.traces (h : History) (w : Nat) (bytes out : List Byte) (t : Trace) (d : Decompressor) : Prop :=
  Decodes h.limits (h.dict.getD []) Trace.start (Decompressor.opened w) bytes out t d ∧ d.pend = 0

/-- `bytes` decode to `out`, from a decoder whose window has `2^w` bytes, all of it delivered. -/
def History.reads (h : History) (w : Nat) (bytes out : List Byte) (d : Decompressor) : Prop :=
  ∃ t, h.traces w bytes out t d

/-- A 32-bit value as four bytes, most significant first (R435, R437). -/
def wordBytes (w : Word) : List Byte :=
  [Byte.ofNat (w.toNat / 16777216), Byte.ofNat (w.toNat / 65536), Byte.ofNat (w.toNat / 256), Byte.ofNat w.toNat]

/-- The header (R435): two bytes, and the dictionary's identifier if there is one. -/
def History.header (h : History) : List Byte :=
  [Byte.ofNat (headerValue h.wBits h.level h.dict.isSome / 256),
    Byte.ofNat (headerValue h.wBits h.level h.dict.isSome % 256)]
    ++ (match h.dict with
      | none => []
      | some dict => wordBytes (adlerUpdate 1#32 dict))

/-- The bytes produced: those written, then those still pending (R400). -/
def History.produced (h : History) (pending : List Byte) : List Byte := h.written ++ pending

/-- The bits of a byte in stream order (R110). -/
def Byte.bits (b : Byte) : List Bool := (List.range 8).map b.toNat.testBit

/-- The bits in the accumulator (R400). -/
def Compressor.accBits (c : Compressor) : List Bool := (List.range c.biValid).map c.biBuf.toNat.testBit

/-- The bits produced and not written: `Pending`, then the accumulator (R400). -/
def Compressor.bits (c : Compressor) : List Bool := c.pending.flatMap Byte.bits ++ c.accBits

/-- The bits of the accumulator and then the marker, as bytes (R453). -/
def Compressor.sealing (c : Compressor) : List Byte := (({ c with pending := [] } : Compressor).storedBlock [] false).pending

/-- Validity (R434 (a)): the bytes produced begin with R435's header, and with the accumulator's bits they begin a stream
that decodes to its end; and `decoded` is what the output written so far decodes to. What the format is here, of all that
30_encoding.md Part B says, is log 29 (DESIGN CHOICE): `IRun.asWritten`. -/
def History.valid (h : History) (c : Compressor) : Prop :=
  h.header <+: h.produced c.pending
    ∧ (∃ more out d, c.accBits <+: more.flatMap Byte.bits
        ∧ h.reads h.wBits (h.produced c.pending ++ more) out d ∧ d.mode = .done)
    ∧ ∃ d, h.reads h.wBits h.written h.decoded d

/-- The number of bits produced: written, pending and in the accumulator. -/
def History.bitCount (h : History) (c : Compressor) : Nat := 8 * (h.produced c.pending).length + c.biValid

/-- All bits produced are read, those in the accumulator completed to bytes with some continuation of theirs. -/
def History.readsAll (h : History) (c : Compressor) (t : Trace) (d : Decompressor) : Prop :=
  ∃ tail out, c.accBits <+: tail.flatMap Byte.bits ∧ 8 * tail.length < c.biValid + 8
    ∧ h.traces h.wBits (h.produced c.pending ++ tail) out t d

/-- The engine state that the first `bits` bits show (R430, R431, R437): FINISH once the final block has begun, DONE once the
whole trailer follows it, BUSY before. A part of the trailer is never produced alone. -/
def Trace.shows (t : Trace) (bits : Nat) (d : Decompressor) : Option DState :=
  if t.blocks.any (fun b => decide (b.first < bits) && b.final) then
    if d.mode = .done then some .done
    else if d.mode = .blocks ∨ (d.mode = .trailerChecksum ∧ d.k = 0) then some .finish
    else none
  else some .busy

/-- Every block among the first `bits` bits began while the output had space (R445: a strategy function returns once
AVAIL_OUT is 0): fewer bytes had left the packer than are written. -/
def Trace.inSpace (t : Trace) (bits written : Nat) : Prop := ∀ b ∈ t.blocks, b.first < bits → b.handed < 8 * written

/-- What the bits produced settle, whichever continuation is read: how many of them the accumulator holds (R402), the engine
state, and, if the output is full, that no block began after that. -/
def History.settles (h : History) (c : Compressor) (full : Bool) : Prop :=
  ∃ t d, h.readsAll c t d ∧ c.biValid = t.accAt (h.bitCount c) ∧ t.shows (h.bitCount c) d = some c.dstate
    ∧ (full = true → t.inSpace (h.bitCount c) h.written.length)

/-- Round trip (R434 (b)): with a window of at least `w_bits` the finished stream decodes to the bytes consumed, and it
ends with their Adler-32. -/
def History.complete (h : History) (pending : List Byte) : Prop :=
  (∀ w, h.wBits ≤ w → w ≤ 15 → ∃ d, h.reads w (h.produced pending) h.consumed d ∧ d.mode = .done)
    ∧ wordBytes (adlerUpdate 1#32 h.consumed) <:+ h.produced pending

/-- The decoder has read the header of a stored block with BFINAL 0, padding included, and awaits its LEN (R116). -/
def Decompressor.awaitsLength (d : Decompressor) : Bool :=
  d.mode == .blocks && d.bmode == .storedLen && d.bitk == 0 && !d.last

/-- Bytes that decode to all the bytes consumed and then end with R123's marker, an empty stored block. -/
def History.marked (h : History) (bytes : List Byte) : Prop :=
  ∃ before d, bytes = before ++ markerBytes ∧ h.reads h.wBits before h.consumed d ∧ d.awaitsLength = true

/-- A completed flush (R434 (c)): the output ends with the marker and decodes to the bytes consumed. -/
def History.flushed (h : History) : Prop := h.marked h.written ∧ h.decoded = h.consumed

/-- The history when a call begins: the call that emits the header shows the level as it stands (R435). -/
def History.atCall (h : History) (c : Compressor) : History :=
  if c.dstate = .init then { h with level := c.level } else h

/-- The history after a call that consumes `data` and writes `bytes`, which then decode to `decoded`. -/
def History.grow (h : History) (data bytes decoded : List Byte) : History :=
  { h with consumed := h.consumed ++ data, written := h.written ++ bytes, decoded := decoded }

/-- A completed FullFlush sets a flush point (R434 (c)). -/
def History.fence (h : History) (full : Bool) : History :=
  if full then { h with floors := h.consumed.length :: h.floors } else h

/-- The bytes pending and offered (R434 (d)). DESIGN CHOICE (log 13): pending are the input bytes consumed that the output
does not give back yet. -/
def History.due (h : History) (offered : Nat) : Nat := h.consumed.length - h.decoded.length + offered

/-- The output space is generous (R434 (d)): at least `1 + 1.002 * due + 12 + 6`. -/
def roomy (availOut due : Nat) : Prop := 19 * 1000 + 1002 * due ≤ 1000 * availOut

/-! ## DEFLATE under `Any` -/

/-- The checks of DEFLATE that no draw touches (R430): FINISH and DONE, no output space, nothing new to do. The answer is
what the command leaves and how it ends. -/
def DRun.refusal (r : DRun) (flush : Nat) : Option (DRun × Ending) :=
  if r.c.finishing ∧ (flush ≠ 4 ∨ r.port.availIn ≠ 0#32) then some (r, .raise .streamError 20#8)
  else if r.port.availOut = 0#32 then some (r, .raise .bufError 21#8)
  else if r.c.dstate ≠ .init ∧ r.c.pending = [] ∧ r.port.availIn = 0#32 ∧ (flush : Int) ≤ r.c.lastFlush ∧ flush ≠ 4 then
    some ({ r with c := { r.c with lastFlush := flush } }, .raise .bufError 21#8)
  else none

/-- The port after a call that consumes the next `k` input bytes and writes `bytes` (R434 (e), R436): the cursors move
by these counts, ADLER covers the bytes consumed, from 1 on the call that emits the header. -/
def Port.drawn (p : Port) (first : Bool) (k : Nat) (bytes : List Byte) : Port :=
  let acc := if first then 1#32 else p.adler
  Port.deliver { p.consume k with adler := adlerUpdate acc (p.peek k) } bytes

/-- The output is full after the call. -/
def DRun.full (r : DRun) : Bool := decide (r.port.availOut = 0#32)

/-- `last_flush` after a drawn call (R430, R433): -1 when the call ended because the output was full, without a trailer. -/
def DState.lastFlushAfter (d' : DState) (flush : Nat) (full : Bool) : Int := if full ∧ d' ≠ .done then -1 else flush

/-- The status of a drawn call (R430): StreamEnd when Finish has delivered everything, the trailer included. -/
def Compressor.statusAfter (c' : Compressor) (flush : Nat) : Status :=
  if flush = 4 ∧ c'.dstate = .done ∧ c'.pending = [] then .streamEnd else .ok

/-- The early return of DEFLATE, which no draw touches (R430): bytes already pending, or the header on the call that emits
it, fill the output before the strategy function runs. -/
def DRun.held (r : DRun) (flush : Nat) : Option DRun :=
  let r1 := DRun.start { r with c := { r.c with lastFlush := flush } }
  if r1.c.pending ≠ [] ∧ r1.flushPending.port.availOut = 0#32 then some r1.flushPending.markFull else none

/-- What the early return writes (R406). -/
def DRun.heldBytes (r : DRun) : List Byte := r.start.c.pending.take r.port.availOut.toNat

/-- Generous output space lets the call finish (R434 (d), second sentence). DESIGN CHOICE (log 30): the bound holds for every
draw, where R434 also says that the reference encoder conforms, which passes it at small memLevel. -/
def DRun.unhindered (r r' : DRun) (flush : Nat) (e : Ending) (due : Nat) : Prop :=
  roomy r.port.availOut.toNat due → e = .ret .ok → r'.port.availIn = 0#32 ∧ flush ≠ 4

/-- A call completed a flush other than Finish (R434 (c)). -/
def DRun.completes (r' : DRun) (flush : Nat) (e : Ending) : Prop :=
  (flush = 1 ∨ flush = 2 ∨ flush = 3) ∧ e = .ret .ok ∧ r'.full = false

/-- A call whose strategy function may run, under `Any` (R434): it takes the stream from history `h` to `h'` and the run
from `r` to `r'`, and ends with `e`. What is drawn is the input consumed, the bits produced (written, pending and in the
accumulator), and the encoder's other private state; the engine state, `last_flush`, the status and whether DPARAMS finds a
block boundary are functions of these. -/
structure DrawnCall (flush : Nat) (r r' : DRun) (e : Ending) (h h' : History) : Prop where
  /-- The counts, and what follows from them: cursors, totals, ADLER, the history (R434 (e)). What was produced before the
  call and not written comes first among what is written and left (R54: a FIFO). -/
  counts : ∃ k bytes decoded,
    k ≤ r.port.availIn.toNat ∧ bytes.length ≤ r.port.availOut.toNat
      ∧ r.c.pending <+: bytes ++ r'.c.pending ∧ r.c.bits <+: bytes.flatMap Byte.bits ++ r'.c.bits
      ∧ r'.port = r.port.drawn (r.c.dstate == .init) k bytes
      ∧ h' = ((h.atCall r.c).grow (r.port.peek k) bytes decoded).fence
          (flush == 3 && e == .ret .ok && !r'.full)
  /-- The parameters are not drawn. -/
  parameters : r'.c.level = r.c.level ∧ r'.c.strategy = r.c.strategy ∧ r'.c.wBits = r.c.wBits
    ∧ r'.c.memLevel = r.c.memLevel ∧ r'.c.config = r.c.config ∧ r'.c.overflowed = false
  /-- The accumulator holds at most 16 bits, and 0 above them (R400, R402). -/
  accumulator : r'.c.biValid ≤ 16 ∧ r'.c.biBuf.toNat < 2 ^ r'.c.biValid
  /-- Bytes stay pending only when the output is full (R406). -/
  pending : r'.c.pending ≠ [] → r'.full = true
  /-- The bits produced settle what of them is in the accumulator (R402) and the engine state (R431, R437), and no block
  begins once the output is full (R445). -/
  settled : h'.settles r'.c r'.full
  /-- Only Finish ends the stream, once all input is consumed (R438, R430). -/
  finishing : r'.c.dstate ≠ .busy → flush = 4 ∧ r'.port.availIn = 0#32
  /-- A Finish that leaves output space has run to its end (R430). -/
  finished : flush = 4 → r'.full = false → r'.c.dstate = .done
  /-- The trailer is appended once everything before it is delivered, with output space for its first byte (R430, R437). -/
  trailer : r'.c.dstate = .done → r'.c.pending.length ≤ 3
  /-- The engine is at a block boundary (R457) exactly where the bits produced are whole blocks that give back all the input
  consumed: where the marker, appended now, would complete a flush. -/
  boundary : r'.c.dstate = .busy →
    (r'.c.atBoundary = true ↔ h'.marked (h'.produced r'.c.pending ++ r'.c.sealing))
  /-- R433 -/
  lastFlush : r'.c.lastFlush = r'.c.dstate.lastFlushAfter flush r'.full
  /-- The status (R430). -/
  ending : e = .ret (r'.c.statusAfter flush)
  /-- (a) -/
  valid : h'.valid r'.c
  /-- (b), from the trailer on, which is ADLER (R437). -/
  complete : r'.c.dstate = .done → h'.complete r'.c.pending
  /-- (c); all input is consumed, and DPARAMS finds the block boundary there (R457). -/
  flushed : r'.completes flush e → h'.flushed ∧ r'.offBoundary = false
  /-- (d), first sentence, except where R430 itself answers Ok to a NoFlush with nothing on offer right after a call that
  filled the output (log 13). -/
  moves : e = .ret .ok →
    r'.port.availIn ≠ r.port.availIn ∨ r'.port.availOut ≠ r.port.availOut ∨ r'.c.dstate ≠ r.c.dstate
      ∨ (flush = 0 ∧ r.port.availIn = 0#32 ∧ r.c.lastFlush = -1)
  /-- (d), second sentence. -/
  ample : r.unhindered r' flush e (h.due r.port.availIn.toNat)

/-- The early return of DEFLATE under `Any` (R430): its bytes and its state are no draw, only the history grows. -/
def HeldCall (flush : Nat) (r r' : DRun) (e : Ending) (h h' : History) : Prop :=
  e = .ret .ok
    ∧ (∃ decoded d, h' = (h.atCall r.c).grow [] r.heldBytes decoded ∧ h'.reads h'.wBits h'.written decoded d)
    ∧ r.unhindered r' flush e (h.due r.port.availIn.toNat)

/-- One call, by itself, within R434: refused, held, or drawn. -/
def Permitted (flush : Nat) (r r' : DRun) (e : Ending) (h h' : History) : Prop :=
  match r.refusal flush with
  | some out => (r', e) = out ∧ h' = h
  | none =>
    match r.held flush with
    | some out => r' = out ∧ HeldCall flush r r' e h h'
    | none => DrawnCall flush r r' e h h'

/-- Before the header, ADLER holds the identifier of the stream's dictionary (R436). -/
def History.identified (h : History) (c : Compressor) (p : Port) : Prop :=
  c.dstate = .init → ∀ dict, h.dict = some dict → p.adler = adlerUpdate 1#32 dict

/-- A conforming encoder (R22, R434), as the set of its states and histories: it has an answer within R434 to every DEFLATE
whose checks pass, and to a new level and strategy, and it stays in the set. -/
def Conforming (states : Compressor → History → Prop) : Prop :=
  ∀ c h, states c h →
    (∀ level strategy, states (c.switch level strategy) h)
      ∧ ∀ (flush : Nat) (s : State), flush ≤ 4 → s.engine = .deflate c → s.streamRangesOk = true →
        h.identified c s.port → ∃ r' e h', Permitted flush ⟨s.port, c⟩ r' e h h' ∧ states r'.c h'

/-- Some conforming encoder is in this state with this history. -/
def Viable (c : Compressor) (h : History) : Prop := ∃ states, Conforming states ∧ states c h

/-- DEFLATE under `Any`, once its engine, FLUSH and range checks have passed (R430, R434): a permitted call that does not leave
the conforming encoders, so that every later call has an answer too (R22: commands are total). -/
def AnyDeflate (flush : Nat) (r r' : DRun) (e : Ending) (h h' : History) : Prop :=
  Permitted flush r r' e h h' ∧ (Viable r.c h → Viable r'.c h')

/-- DPARAMS under `Any`, once its checks have passed (R457): its internal PartialFlush is a DEFLATE under `Any`. -/
def AnyParams (level strategy : Nat) (r r' : DRun) (e : Ending) (h h' : History) : Prop :=
  if r.needsFlush level then
    ∃ r1 e1, AnyDeflate 1 r r1 e1 h h' ∧ (r', e) = r1.afterFlush level strategy e1
  else (r', e) = r.params level strategy ∧ h' = h

/-! ## Commands and steps under a profile -/

/-- A command of the open compressor on its streams: the engine check, the field check `fields`, the range checks (R430,
R457), then `call`. -/
def State.streamCall (s t : State) (h h' : History) (fields : Bool) (call : DRun → DRun → Ending → Prop) : Prop :=
  match s.engine with
  | .deflate c =>
    if fields && s.streamRangesOk then
      ∃ r' e, call ⟨s.port, c⟩ r' e ∧ t = (s.withDRun r').finish e
    else t = s.misuse ∧ h' = h
  | .none => t = s.misuse ∧ h' = h
  | .inflate _ => t = s.misuse ∧ h' = h

/-- The history after a DINIT, DSETDICT or DRESET that left the machine in `t`. -/
def History.reopened (h : History) (t : State) (began : Compressor → History) : History :=
  match t.engine with
  | .deflate c => if t.result = .ok then began c else h
  | .none => h
  | .inflate _ => h

/-- What a command may do under a profile (R9, R22): from state `s` and history `h` to `t` and `h'`. -/
def ExecUnder (p : EncoderProfile) (i : Instr) (s : State) (h : History) (t : State) (h' : History) : Prop :=
  match p with
  | .reference => exec i s = .next t ∧ h' = h
  | .any =>
    match i with
    | .deflate flush => s.streamCall t h h' (decide (flush ≤ 4)) (fun r r' e => AnyDeflate flush r r' e h h')
    | .dparams level strategy =>
      s.streamCall t h h' (decide (level ≤ 9) && decide (strategy ≤ 2))
        (fun r r' e => AnyParams level strategy r r' e h h')
    | .dinit level wbits memLevel strategy =>
      exec (.dinit level wbits memLevel strategy) s = .next t
        ∧ h' = h.reopened t (fun c => History.start c.wBits c.level)
    | .dreset => exec .dreset s = .next t ∧ h' = h.reopened t (fun c => History.start c.wBits c.level)
    | .dsetdict => exec .dsetdict s = .next t ∧ h' = h.reopened t (fun _ => h.withDict s.dictBytes)
    | .dend => exec .dend s = .next t ∧ h' = h
    | .iinit wbits => exec (.iinit wbits) s = .next t ∧ h' = h
    | .isetdict => exec .isetdict s = .next t ∧ h' = h
    | .inflate flush => exec (.inflate flush) s = .next t ∧ h' = h
    | .isync => exec .isync s = .next t ∧ h' = h
    | .ireset => exec .ireset s = .next t ∧ h' = h
    | .iend => exec .iend s = .next t ∧ h' = h
    | .adler => exec .adler s = .next t ∧ h' = h
    | .hbuild => exec .hbuild s = .next t ∧ h' = h
    | .hcanon => exec .hcanon s = .next t ∧ h' = h

/-- The command that a host action runs, if any: a legal word written to CMD while the core is idle (R34). -/
def HostAction.command? (a : HostAction) (s : State) : Option Instr :=
  match a with
  | .writeReg offset width w =>
    if s.busy then none
    else
      match registerAccess offset width, decode w with
      | some .cmd, .command i => some i
      | _, _ => none
  | .readReg _ _ => none
  | .writeByte _ _ => none
  | .readByte _ => none
  | .reset => none

/-- What a step may do under a profile: a command as `ExecUnder` says, every other host action as it is. -/
def StepUnder (p : EncoderProfile) (s : State) (h : History) (t : State) (h' : History) : Prop :=
  match s.hostQueue with
  | [] => t = s ∧ h' = h
  | a :: rest =>
    match a.command? { s with hostQueue := rest } with
    | some i => ExecUnder p i { s with hostQueue := rest } h t h'
    | none => hostAct a { s with hostQueue := rest } = .next t ∧ h' = h

end Sys2Proof.Machine
end

