-- ==== Sys2Proof/Safety.lean ====
section
/-!
DEFINITION. What counts as a safe run, in the terms that statements use: a run of host actions none of which stops
the machine, and the conditions on the host that rule out every stop but the pending guard of 43_bitstream.md R401.
-/

namespace Sys2Proof.Machine

/-- An outcome that is a next state. -/
def outcomeNext {σ φ ρ : Type} : Host.Outcome σ φ ρ → Option σ
  | .next s => some s
  | .fault _ => none
  | .refused _ => none

/-- `k` steps from `s` all answer a next state: no fault, no refusal. -/
def State.safe : Nat → State → Prop
  | 0, _ => True
  | k + 1, s => ∃ t, step s = .next t ∧ State.safe k t

/-- A host action that keeps the host's duties (70_reset_and_hazards.md R660): register accesses are aligned and 32
bits wide (10_state.md R32), and buffer accesses are inside MEM_SIZE (20_memory.md R72). -/
def HostAction.dutiful (memSize : Nat) : HostAction → Bool
  | .writeReg offset width _ => (registerAccess offset width).isSome
  | .readReg offset width => (registerAccess offset width).isSome
  | .writeByte a _ => decide (a < memSize)
  | .readByte a => decide (a < memSize)
  | .reset => true

/-- A command whose meaning can reach the pending guard (R401). -/
def Instr.packs : Instr → Bool
  | .dinit _ _ _ _ => false
  | .dsetdict => false
  | .deflate _ => true
  | .dparams _ _ => true
  | .dreset => false
  | .dend => false
  | .iinit _ => false
  | .isetdict => false
  | .inflate _ => false
  | .isync => false
  | .ireset => false
  | .iend => false
  | .adler => false
  | .hbuild => false
  | .hcanon => false

end Sys2Proof.Machine
end

