-- ==== Sys2Proof/Certificates/Slice0/Obligations.lean ====
section
/-!
DEFINITION. The statements for the provers, and the vocabulary they are written in: `Claims` says the spec's terms
(a valid range, an overlap, the bits of a stream, a Kraft sum) in plain arithmetic, beside the model's own functions.
-/

namespace Sys2Proof.Claims

open Sys2Proof.Machine

/-! ## Vocabulary -/

/-- A buffer range that is not valid (20_memory.md R76): not empty, and reaching past MEM_SIZE. -/
def outside (s : State) (a n : Nat) : Prop := n ≠ 0 ∧ s.memSize < a + n

/-- Two ranges share a byte (R77). -/
def clash (a n b m : Nat) : Prop := ∃ x, (a ≤ x ∧ x < a + n) ∧ (b ≤ x ∧ x < b + m)

/-- The stream ranges of DEFLATE, DPARAMS and INFLATE are bad (R76, R77). -/
def badStream (s : State) : Prop :=
  outside s s.port.nextIn.toNat s.port.availIn.toNat ∨ outside s s.port.nextOut.toNat s.port.availOut.toNat
    ∨ clash s.port.nextIn.toNat s.port.availIn.toNat s.port.nextOut.toNat s.port.availOut.toNat

/-- The ranges a command checks, by the tables of R76 and R77, are bad. -/
def badRange (i : Instr) (s : State) : Prop :=
  match i with
  | .deflate _ => badStream s
  | .dparams _ _ => badStream s
  | .inflate _ => badStream s
  | .isync => outside s s.port.nextIn.toNat s.port.availIn.toNat
  | .dsetdict => outside s s.arg0.toNat s.arg1.toNat
  | .isetdict => outside s s.arg0.toNat s.arg1.toNat
  | .adler => outside s s.arg1.toNat s.arg2.toNat
  | .hbuild =>
    outside s s.arg0.toNat (2 * s.arg1.toNat) ∨ outside s s.arg3.toNat (3 * s.arg1.toNat)
      ∨ clash s.arg0.toNat (2 * s.arg1.toNat) s.arg3.toNat (3 * s.arg1.toNat)
  | .hcanon =>
    outside s s.arg0.toNat s.arg1.toNat ∨ outside s s.arg2.toNat (2 * s.arg1.toNat)
      ∨ clash s.arg0.toNat s.arg1.toNat s.arg2.toNat (2 * s.arg1.toNat)
  | .dinit _ _ _ _ => False
  | .dreset => False
  | .dend => False
  | .iinit _ => False
  | .ireset => False
  | .iend => False

/-- A StreamError with code 20 and no other effect (60_exceptions.md R604). -/
def refusedBy20 (s : State) : State := { s with result := .streamError, errcode := 20#8 }

/-- Nothing of the host's side changed but the named registers: STATUS's stored bits, MEM_SIZE, ARG0..ARG3 and the
model's own host fields. -/
def hostSideKept (s t : State) : Prop :=
  t.busy = s.busy ∧ t.overrun = s.overrun ∧ t.memTop = s.memTop ∧ t.hostQueue = s.hostQueue
    ∧ t.readData = s.readData ∧ t.arg0 = s.arg0 ∧ t.arg1 = s.arg1 ∧ t.arg2 = s.arg2 ∧ t.arg3 = s.arg3

/-- From `s` to `t` the input cursors moved by the bytes consumed (10_state.md R38). -/
def consumed (s t : State) : Prop :=
  t.port.availIn.toNat ≤ s.port.availIn.toNat
    ∧ t.port.nextIn = s.port.nextIn + Word.ofNat (s.port.availIn.toNat - t.port.availIn.toNat)
    ∧ t.port.totalIn = s.port.totalIn + Word.ofNat (s.port.availIn.toNat - t.port.availIn.toNat)

/-- From `s` to `t` the output cursors moved by the bytes delivered (R40), and every byte outside the delivered ones,
which start at NEXT_OUT, reads as before (R80). -/
def delivered (s t : State) : Prop :=
  t.port.availOut.toNat ≤ s.port.availOut.toNat
    ∧ t.port.nextOut = s.port.nextOut + Word.ofNat (s.port.availOut.toNat - t.port.availOut.toNat)
    ∧ t.port.totalOut = s.port.totalOut + Word.ofNat (s.port.availOut.toNat - t.port.availOut.toNat)
    ∧ ∀ a, a < s.port.nextOut.toNat
        ∨ s.port.nextOut.toNat + (s.port.availOut.toNat - t.port.availOut.toNat) ≤ a →
        t.port.mem.read a = s.port.mem.read a

/-- A compressor as `deflate_reset()` leaves it (44_deflate.md R441, R444), whatever its parameters, `Win` and
`Prev`. -/
def freshCompressor (c : Compressor) : Prop :=
  c.dstate = .init ∧ c.lastFlush = 0 ∧ c.pending = [] ∧ c.biBuf = 0#16 ∧ c.biValid = 0
    ∧ (∀ k, c.lfreq.get k = if k = 256 then 1 else 0) ∧ (∀ k, c.dfreq.get k = 0) ∧ c.lastLit = 0 ∧ c.matchCount = 0
    ∧ (∀ k, c.head.get k = 0) ∧ c.config = levelTable c.level ∧ c.strstart = 0 ∧ c.blockStart = 0 ∧ c.lookahead = 0
    ∧ c.matchLength = 2 ∧ c.prevLength = 2 ∧ c.matchAvailable = false ∧ c.matchStart = 0 ∧ c.prevMatch = 0
    ∧ c.insH = 0 ∧ c.overflowed = false

/-- A decompressor as `inflate_reset` leaves it (45_inflate.md R511), whatever its windowBits and `IWin`. -/
def freshDecompressor (d : Decompressor) : Prop :=
  d.err = 0#8 ∧ d.mode = .headerMethod ∧ d.k = 0 ∧ d.marker = 0 ∧ d.bmode = .type ∧ d.bitb = 0#40 ∧ d.bitk = 0
    ∧ d.wr = 0 ∧ d.pend = 0 ∧ d.hist = 0 ∧ d.check = 1#32

/-- The registers DINIT, DRESET, IINIT and IRESET write, written (70_reset_and_hazards.md R655). -/
def restarted (s : State) (e : Engine) : State :=
  { s with
    result := .ok, errcode := 0#8, engine := e,
    port := { s.port with totalIn := 0#32, totalOut := 0#32, adler := 1#32 } }

/-- The three-byte hash of the window bytes at a position (42_lz77.md R350). -/
def hash3 (c : Compressor) (p : Nat) : Nat :=
  (((c.win.get p).toNat <<< (2 * c.hashShift)) ^^^ ((c.win.get (p + 1)).toNat <<< c.hashShift)
    ^^^ (c.win.get (p + 2)).toNat) &&& c.hashMask

/-- The 16-bit header of R435, as its pseudocode computes it. -/
def header (wBits level : Nat) (dict : Bool) : Nat :=
  let flags := min 3 (((level + 255) &&& 0xFF) >>> 1)
  let base := (((8 + ((wBits - 8) <<< 4)) <<< 8) ||| (flags <<< 6)) ||| (if dict then 0x20 else 0)
  base + 31 - base % 31

/-- The header bytes of R435: the header, most significant byte first, then the dictionary identifier if any. -/
def headerBytes (c : Compressor) (dictId : Word) : List Byte :=
  [Byte.ofNat (header c.wBits c.level (c.strstart ≠ 0) / 256), Byte.ofNat (header c.wBits c.level (c.strstart ≠ 0))]
    ++ if c.strstart ≠ 0 then
        [Byte.ofNat (dictId.toNat / 16777216), Byte.ofNat (dictId.toNat / 65536), Byte.ofNat (dictId.toNat / 256),
          Byte.ofNat dictId.toNat]
      else []

/-- The Kraft sum of a length array, times 2^15 (00_scope.md R19). -/
def kraft (lens : List Nat) : Nat := (lens.map (fun l => if l = 0 then 0 else 2 ^ (15 - l))).sum

/-- The first canonical code of length `l`: every shorter code takes `2^(l - j)` of the values below it
(46_huffman.md R620). -/
def firstCode (lens : List Nat) (l : Nat) : Nat :=
  ((List.range l).map (fun j => if j = 0 then 0 else lens.count j * 2 ^ (l - j))).sum

/-- The `n` low bits of a value, least significant first (43_bitstream.md R402). -/
def bitsOf (v n : Nat) : List Bool := (List.range n).map v.testBit

/-- The bits of bytes in stream order (30_encoding.md R110). -/
def byteBits (bytes : List Byte) : List Bool := bytes.flatMap (fun b => bitsOf b.toNat 8)

/-- The bits a compressor has produced and not delivered: `Pending`, then the accumulator (R400). -/
def streamBits (c : Compressor) : List Bool := byteBits c.pending ++ bitsOf c.biBuf.toNat c.biValid

/-- The accumulator holds at most 16 bits and zeros above them (R400, R405). -/
def packerClean (c : Compressor) : Prop := c.biValid ≤ 16 ∧ c.biBuf.toNat < 2 ^ c.biValid

/-- The parameters a compressor can have (10_state.md R52). -/
def legalParameters (c : Compressor) : Prop :=
  c.level ≤ 9 ∧ c.strategy ≤ 2 ∧ 9 ≤ c.wBits ∧ c.wBits ≤ 15 ∧ 1 ≤ c.memLevel ∧ c.memLevel ≤ 9

/-- The compressor of a state keeps its ranges (R52, R54, 43_bitstream.md R401, R402): legal parameters, the level's
own row of LEVEL_TABLE, `Pending` within its capacity, at most 16 bits in the accumulator, no guard fired. -/
def compressorLegal (s : State) : Prop :=
  ∀ c, s.engine = .deflate c →
    legalParameters c ∧ c.config = levelTable c.level ∧ c.pending.length ≤ c.pendingBufSize ∧ c.biValid ≤ 16
      ∧ c.overflowed = false

/-- The decompressor of a state keeps its ranges (R55–R58, 41_window.md R340): the window's cursors and counts, the bit
count of the accumulator, the marker counter, and code lengths of at most 15. -/
def decompressorLegal (s : State) : Prop :=
  ∀ d, s.engine = .inflate d →
    8 ≤ d.wbits ∧ d.wbits ≤ 15 ∧ d.wr < d.windowLen ∧ d.pend ≤ d.windowLen ∧ d.hist ≤ 2 ^ d.wbits ∧ d.bitk ≤ 39
      ∧ d.marker ≤ 5 ∧ (∀ l ∈ d.blens, l ≤ 15) ∧ (∀ l ∈ d.lens, l ≤ 15) ∧ (∀ l ∈ d.blcode, l ≤ 15)
      ∧ (∀ l ∈ d.lcode, l ≤ 15) ∧ (∀ l ∈ d.dcode, l ≤ 15)

/-- The RESULT register of each status: its code as a signed 32-bit number (R36, 60_exceptions.md R600). -/
def resultValue : Status → Word
  | .ok => 0#32
  | .streamEnd => 1#32
  | .needDictionary => 2#32
  | .streamError => 0xFFFFFFFE#32
  | .dataError => 0xFFFFFFFD#32
  | .memError => 0xFFFFFFFC#32
  | .bufError => 0xFFFFFFFB#32

/-- The CFG register of each engine (R44). -/
def cfgValue : Engine → Word
  | .none => 0#32
  | .deflate c => Word.ofNat (c.level + c.wBits * 2 ^ 4 + c.memLevel * 2 ^ 8 + c.strategy * 2 ^ 12)
  | .inflate d => Word.ofNat (d.wbits * 2 ^ 4)

/-- The modes of the decompressor in the order of R512. -/
def modes : List IMode :=
  [.headerMethod, .headerFlags, .dictId, .waitForDictionary, .blocks, .trailerChecksum, .done, .bad]

/-- The block sub-states in the order of their codes, which begin at 1 (R45). -/
def subStates : List BMode :=
  [.type, .storedLen, .storedCopy, .table, .btree, .dtree, .codesLen, .codesDist, .codesCopy, .wash]

/-- The ESTATE register of each engine (R45, R512). -/
def estateValue : Engine → Word
  | .none => 0#32
  | .deflate c => Word.ofNat (1 + [DState.init, DState.busy, DState.finish, DState.done].idxOf c.dstate)
  | .inflate d =>
    Word.ofNat
      (16 + modes.idxOf d.mode + (if d.mode = .blocks then (1 + subStates.idxOf d.bmode) * 2 ^ 8 else 0)
        + (if d.mode = .dictId ∨ d.mode = .trailerChecksum then d.k * 2 ^ 16 else 0))

/-- The registers of R33 that a state holds, by offset, but for STATUS. -/
def registerValues (s : State) : List (Nat × Word) :=
  [(0x00, 0#32), (0x08, resultValue s.result), (0x0C, s.errcode.setWidth 32), (0x10, s.port.nextIn),
    (0x14, s.port.availIn), (0x18, s.port.totalIn), (0x1C, s.port.nextOut), (0x20, s.port.availOut),
    (0x24, s.port.totalOut), (0x28, s.port.adler), (0x2C, s.rval), (0x30, s.arg0), (0x34, s.arg1), (0x38, s.arg2),
    (0x3C, s.arg3), (0x40, cfgValue s.engine), (0x44, estateValue s.engine), (0x48, Config.coreId)]

/-- The register values of R650. -/
def resetRegisters (t : State) : Prop :=
  t.readRegister .cmd = 0#32 ∧ t.readRegister .status = 0#32 ∧ t.readRegister .result = 0#32
    ∧ t.readRegister .errcode = 0#32 ∧ t.readRegister .nextIn = 0#32 ∧ t.readRegister .availIn = 0#32
    ∧ t.readRegister .totalIn = 0#32 ∧ t.readRegister .nextOut = 0#32 ∧ t.readRegister .availOut = 0#32
    ∧ t.readRegister .totalOut = 0#32 ∧ t.readRegister .adler = 1#32 ∧ t.readRegister .rval = 0#32
    ∧ t.readRegister .arg0 = 0#32 ∧ t.readRegister .arg1 = 0#32 ∧ t.readRegister .arg2 = 0#32
    ∧ t.readRegister .arg3 = 0#32 ∧ t.readRegister .cfg = 0#32 ∧ t.readRegister .estate = 0#32
    ∧ t.readRegister .id = Config.coreId ∧ t.readRegister .reserved = 0#32

/-- The commands that consume input (R38); DPARAMS consumes through its internal DEFLATE (44_deflate.md R457). -/
def consumes : Instr → Bool
  | .deflate _ => true
  | .dparams _ _ => true
  | .inflate _ => true
  | .isync => true
  | .dinit _ _ _ _ => false
  | .dsetdict => false
  | .dreset => false
  | .dend => false
  | .iinit _ => false
  | .isetdict => false
  | .ireset => false
  | .iend => false
  | .adler => false
  | .hbuild => false
  | .hcanon => false

/-- The commands of an open compressor. -/
def needsCompressor : Instr → Bool
  | .dsetdict => true
  | .deflate _ => true
  | .dparams _ _ => true
  | .dreset => true
  | .dend => true
  | .dinit _ _ _ _ => false
  | .iinit _ => false
  | .isetdict => false
  | .inflate _ => false
  | .isync => false
  | .ireset => false
  | .iend => false
  | .adler => false
  | .hbuild => false
  | .hcanon => false

/-- The commands of an open decompressor. -/
def needsDecompressor : Instr → Bool
  | .isetdict => true
  | .inflate _ => true
  | .isync => true
  | .ireset => true
  | .iend => true
  | .dinit _ _ _ _ => false
  | .dsetdict => false
  | .deflate _ => false
  | .dparams _ _ => false
  | .dreset => false
  | .dend => false
  | .iinit _ => false
  | .adler => false
  | .hbuild => false
  | .hcanon => false

/-- The statuses a command can end with (60_exceptions.md R601). MemError is missing: code 23 cannot happen with the
decided parameters (44_deflate.md R440), and code 27 is the fault of R606. -/
def statuses : Instr → List Status
  | .dinit _ _ _ _ => [.ok, .streamError]
  | .dsetdict => [.ok, .streamError]
  | .deflate _ => [.ok, .streamEnd, .streamError, .bufError]
  | .dparams _ _ => [.ok, .streamError, .bufError]
  | .dreset => [.ok, .streamError]
  | .dend => [.ok, .streamError, .dataError]
  | .iinit _ => [.ok, .streamError]
  | .isetdict => [.ok, .streamError, .dataError]
  | .inflate _ => [.ok, .streamEnd, .needDictionary, .streamError, .dataError, .bufError]
  | .isync => [.ok, .streamError, .dataError, .bufError]
  | .ireset => [.ok, .streamError]
  | .iend => [.ok, .streamError]
  | .adler => [.ok, .streamError]
  | .hbuild => [.ok, .streamError]
  | .hcanon => [.ok, .streamError, .dataError, .bufError]

/-- The decompressor after a successful resync (45_inflate.md R560, R511, R561). -/
def resynced (d : Decompressor) : Decompressor :=
  { d with
    err := 0#8, mode := .blocks, k := 0, marker := 0, bmode := .type, bitb := 0#40, bitk := 0, wr := 0, pend := 0,
    hist := 0, check := 1#32 }

/-- A run's next `n` bytes to deliver: the window from the read cursor on, wrapping around (41_window.md R341). -/
def nextOutput (d : Decompressor) (n : Nat) : List Byte :=
  (List.range n).map (fun j => d.iwin.get ((d.wr + (d.windowLen - d.pend) + j) % d.windowLen))

/-- The four bytes of a checksum, most significant first (44_deflate.md R437). -/
def trailerBytes (a : Word) : List Byte :=
  [Byte.ofNat (a.toNat / 16777216), Byte.ofNat (a.toNat / 65536), Byte.ofNat (a.toNat / 256), Byte.ofNat a.toNat]

/-- A run with another amount of input on offer. -/
def withInput (r : IRun) (n : Nat) : IRun := { r with port := { r.port with availIn := Word.ofNat n } }

end Sys2Proof.Claims

open Sys2Proof Sys2Proof.Machine Sys2Proof.Claims

/-! ## Command words -/

/-- R102, R104: decoding the word of any well-formed command gives the command, every operand at every value. -/
def Obligations.DecodeOfEncode : Prop := ∀ i : Instr, i.wellFormed = true → decode (encode i) = .command i

/-- R100, R102: a word that is a command is the word of that command, and the command is well formed: no bit of the
word is dropped. -/
def Obligations.EncodeOfDecode : Prop :=
  ∀ (w : Word) (i : Instr), decode w = .command i → encode i = w ∧ i.wellFormed = true

/-- R101, R107: a word written to CMD is checked in this order: an OPC outside the opcode map is StreamError 25, then a
1 in a reserved or unused bit is StreamError 20, both with no other effect; any other word is its command. -/
def Obligations.CommandWordChecking : Prop :=
  ∀ (s : State) (w : Word), s.busy = false →
    ((fieldOpc w = 0 ∨ (0x07 ≤ fieldOpc w ∧ fieldOpc w ≤ 0x10) ∨ (0x17 ≤ fieldOpc w ∧ fieldOpc w ≤ 0x20)
        ∨ 0x24 ≤ fieldOpc w) →
      hostWriteReg 0 4 w s = .next { s with result := .streamError, errcode := 25#8 })
    ∧ (∀ row ∈ opcodeMap, fieldOpc w = row.opc → w &&& row.mask ≠ row.pattern →
        hostWriteReg 0 4 w s = .next { s with result := .streamError, errcode := 20#8 })
    ∧ (∀ row ∈ opcodeMap, w &&& row.mask = row.pattern →
        ∃ i, commandOf row.opc w = some i ∧ hostWriteReg 0 4 w s = exec i s)

/-- R102, R104 and the words of 95_test_vectors.md: some words decode to the commands they stand for; R107 and R101: a word
with an illegal OPC and one with a reserved bit set are rejected. -/
def Obligations.SpecWordsDecode : Prop :=
  decode 0x008F6001#32 = .command (.dinit 6 15 8 0) ∧ decode 0x00000403#32 = .command (.deflate 4)
    ∧ decode 0x000F0011#32 = .command (.iinit 15) ∧ decode 0x00000004#32 = .command (.dparams 0 0)
    ∧ decode 0x00000021#32 = .command .adler ∧ decode 0x00000000#32 = .rejected .illegalOpc
    ∧ decode 0x00000803#32 = .rejected .reservedBits

/-- R20, R34: when the host's next action writes a command word to CMD and the core is idle, the step is exactly the
command's meaning, the action taken off the host's list (log 1). -/
def Obligations.StepRunsTheCommand : Prop :=
  ∀ (s : State) (rest : List HostAction) (w : Word) (i : Instr),
    s.busy = false → s.hostQueue = .writeReg 0 4 w :: rest → decode w = .command i →
      step s = exec i { s with hostQueue := rest }

/-! ## The host's side -/

/-- R650: a hardware reset gives every register its reset value, closes the engine and keeps buffer memory; the model's
start state has the same register values. -/
def Obligations.HardwareResetValues : Prop :=
  (∀ s : State, s.busy = false →
    ∃ t, hostAct .reset s = .next t ∧ resetRegisters t ∧ t.engine = .none ∧ t.port.mem = s.port.mem)
  ∧ resetRegisters State.reset ∧ State.reset.engine = .none

/-- R35: the fields of STATUS, its reset value, its write-1-to-clear bit; BUSY is never seen set, because no step sets
it; and a write while BUSY is dropped and sets OVERRUN (R50; log 5). -/
def Obligations.StatusRegister : Prop :=
  (∀ s : State,
    (s.readRegister .status).getLsbD 0 = s.busy
      ∧ ((s.readRegister .status).extractLsb' 1 2).toNat
          = (match s.engine with | .none => 0 | .deflate _ => 1 | .inflate _ => 2)
      ∧ (s.readRegister .status).getLsbD 3 = s.overrun
      ∧ (s.readRegister .status).extractLsb' 4 28 = 0#28)
  ∧ (∀ (s : State) (v : Word), s.busy = false →
      hostWriteReg 0x04 4 v s = .next (if v.getLsbD 3 then { s with overrun := false } else s))
  ∧ (∀ (s : State) (v : Word) (offset : Nat), s.busy = true → offset % 4 = 0 → offset ≤ 0x7C →
      hostWriteReg offset 4 v s = .next { s with overrun := true })
  ∧ State.reset.readRegister .status = 0#32
  ∧ (∀ s t : State, s.busy = false → step s = .next t → t.busy = false)

/-- R48: the host writes NEXT_IN, AVAIL_IN, NEXT_OUT, AVAIL_OUT and ARG0..ARG3 while the core is idle, nothing checking
the value; writes to read-only registers are ignored. -/
def Obligations.RegisterWrites : Prop :=
  ∀ (s : State) (v : Word), s.busy = false →
    hostWriteReg 0x10 4 v s = .next { s with port := { s.port with nextIn := v } }
    ∧ hostWriteReg 0x14 4 v s = .next { s with port := { s.port with availIn := v } }
    ∧ hostWriteReg 0x1C 4 v s = .next { s with port := { s.port with nextOut := v } }
    ∧ hostWriteReg 0x20 4 v s = .next { s with port := { s.port with availOut := v } }
    ∧ hostWriteReg 0x30 4 v s = .next { s with arg0 := v }
    ∧ hostWriteReg 0x34 4 v s = .next { s with arg1 := v }
    ∧ hostWriteReg 0x38 4 v s = .next { s with arg2 := v }
    ∧ hostWriteReg 0x3C 4 v s = .next { s with arg3 := v }
    ∧ ∀ offset ∈ [0x08, 0x0C, 0x18, 0x24, 0x28, 0x2C, 0x40, 0x44, 0x48], hostWriteReg offset 4 v s = .next s

/-- R32, R33: only aligned 32-bit accesses are defined, every other one is refused; a read of a defined offset gives the
register's value, with no other effect: RESULT the sign-extended status code (R36, R600), CFG and ESTATE the engine's
fields (R44, R45, R512); reserved offsets read 0 and ignore writes. -/
def Obligations.RegisterAccessForms : Prop :=
  ∀ (s : State) (v : Word) (offset width : Nat),
    (width ≠ 4 ∨ offset % 4 ≠ 0 →
      hostReadReg offset width s = .refused .registerAccess
        ∧ hostWriteReg offset width v s = .refused .registerAccess)
    ∧ (offset % 4 = 0 → 0x4C ≤ offset → offset ≤ 0x7C →
      hostReadReg offset 4 s = .next { s with readData := 0#32 }
        ∧ (s.busy = false → hostWriteReg offset 4 v s = .next s))
    ∧ (∀ x ∈ registerValues s, hostReadReg x.1 4 s = .next { s with readData := x.2 })
    ∧ hostReadReg 0x04 4 s = .next { s with readData := s.readRegister .status }

/-- R72, R660: between commands the host reads and writes any buffer byte; a write changes that byte and nothing else.
That an access at MEM_SIZE or above faults is the model's choice (DESIGN CHOICE, log 24): R72 says that no such address
exists, and no rule says what such an access does. -/
def Obligations.HostBufferAccess : Prop :=
  ∀ (s : State) (a : Nat) (b : Byte), s.busy = false → Memory.wf s.port.mem = true →
    (a < s.memSize →
      (∃ m, hostWriteByte a b s = .next { s with port := { s.port with mem := m } }
        ∧ ∀ x, Memory.read m x = if x = a then b else s.port.mem.read x)
      ∧ hostReadByte a s = .next { s with readData := (s.port.mem.read a).setWidth 32 })
    ∧ (s.memSize ≤ a → hostWriteByte a b s = .fault .noSuchAddress ∧ hostReadByte a s = .fault .noSuchAddress)

/-! ## Rules of the whole machine -/

/-- R43: ARG0..ARG3 are read-write registers with reset value 0 that commands read and never write. -/
def Obligations.CommandsNeverWriteArguments : Prop :=
  (∀ (i : Instr) (s t : State), exec i s = .next t →
    t.arg0 = s.arg0 ∧ t.arg1 = s.arg1 ∧ t.arg2 = s.arg2 ∧ t.arg3 = s.arg3)
  ∧ (State.reset.arg0 = 0#32 ∧ State.reset.arg1 = 0#32 ∧ State.reset.arg2 = 0#32 ∧ State.reset.arg3 = 0#32)
  ∧ (∀ (s : State) (v : Word), s.busy = false →
      hostWriteReg 0x30 4 v s = .next { s with arg0 := v } ∧ hostWriteReg 0x34 4 v s = .next { s with arg1 := v }
        ∧ hostWriteReg 0x38 4 v s = .next { s with arg2 := v } ∧ hostWriteReg 0x3C 4 v s = .next { s with arg3 := v })

/-- R38: the commands that consume input move NEXT_IN, AVAIL_IN and TOTAL_IN by the bytes consumed; no other command
writes NEXT_IN or AVAIL_IN. -/
def Obligations.InputCursors : Prop :=
  ∀ (i : Instr) (s t : State), exec i s = .next t →
    (consumes i = true → consumed s t)
    ∧ (consumes i = false → t.port.nextIn = s.port.nextIn ∧ t.port.availIn = s.port.availIn)

/-- R601: the statuses each command can end with. -/
def Obligations.StatusesOfCommands : Prop :=
  ∀ (i : Instr) (s t : State), exec i s = .next t → t.result ∈ statuses i

/-- R604, R51: a command whose engine is not the open one, and an opening command while an engine is open, end with
StreamError 20 and change nothing else. -/
def Obligations.WrongEngineHasNoEffect : Prop :=
  ∀ (i : Instr) (s : State),
    (needsCompressor i = true → (∀ c, s.engine ≠ .deflate c) → exec i s = .next (refusedBy20 s))
    ∧ (needsDecompressor i = true → (∀ d, s.engine ≠ .inflate d) → exec i s = .next (refusedBy20 s))
    ∧ (∀ level wbits memLevel strategy, i = .dinit level wbits memLevel strategy → s.engine ≠ .none →
        exec i s = .next (refusedBy20 s))
    ∧ (∀ wbits, i = .iinit wbits → s.engine ≠ .none → exec i s = .next (refusedBy20 s))

/-- R76, R77: a range that is not valid, or an overlapping pair, ends the command with StreamError 20, and nothing else
changes. -/
def Obligations.BadRangesHaveNoEffect : Prop :=
  ∀ (i : Instr) (s : State), badRange i s → exec i s = .next (refusedBy20 s)

/-- R604: the state and field checks at the head of the commands, each StreamError 20 with no other effect: DSETDICT after
the header or a second time (R452), ISETDICT when no dictionary is awaited (R550), FLUSH above 4 (R105), the operands of
HBUILD (R640) and HCANON (R641). R430: DEFLATE without output space, or with nothing new to do, is BufError 21. -/
def Obligations.EntryChecksHaveNoEffect : Prop :=
  ∀ s : State,
    (∀ c, s.engine = .deflate c → (c.dstate ≠ .init ∨ c.strstart ≠ 0 ∨ s.port.adler ≠ 1#32) →
      exec .dsetdict s = .next (refusedBy20 s))
    ∧ (∀ d, s.engine = .inflate d → d.mode ≠ .waitForDictionary → exec .isetdict s = .next (refusedBy20 s))
    ∧ (∀ flush, 4 < flush →
      exec (.deflate flush) s = .next (refusedBy20 s) ∧ exec (.inflate flush) s = .next (refusedBy20 s))
    ∧ ((s.arg1.toNat < 3 ∨ 288 < s.arg1.toNat ∨ s.arg2.toNat < 1 ∨ 15 < s.arg2.toNat
        ∨ 2 ^ s.arg2.toNat
            < max 2 ((s.port.mem.readU16s s.arg0.toNat s.arg1.toNat).countP (fun f => f != 0))) →
      exec .hbuild s = .next (refusedBy20 s))
    ∧ ((s.arg1.toNat < 1 ∨ 320 < s.arg1.toNat
        ∨ ∃ l ∈ s.port.mem.readRun s.arg0.toNat s.arg1.toNat, 15 < l.toNat) →
      exec .hcanon s = .next (refusedBy20 s))
    ∧ (∀ c (flush : Nat), s.engine = .deflate c → c.overflowed = false → flush ≤ 4 → ¬ badStream s →
      (c.dstate = .finish ∨ c.dstate = .done → flush = 4 ∧ s.port.availIn = 0#32) → s.port.availOut = 0#32 →
      exec (.deflate flush) s = .next { s with result := .bufError, errcode := 21#8 })
    ∧ (∀ c (flush : Nat), s.engine = .deflate c → c.overflowed = false → flush < 4 → ¬ badStream s → c.dstate = .busy →
      c.pending = [] → s.port.availIn = 0#32 → s.port.availOut ≠ 0#32 → (flush : Int) ≤ c.lastFlush →
      exec (.deflate flush) s
        = .next { s with
            result := .bufError, errcode := 21#8, engine := .deflate { c with lastFlush := flush } })

/-- R51: only DINIT, IINIT, DEND and IEND change which engine is open. -/
def Obligations.EngineSelector : Prop :=
  ∀ (i : Instr) (s t : State), exec i s = .next t →
    match i with
    | .dinit _ _ _ _ =>
      (t.result = .ok → s.engine.selector = 0 ∧ t.engine.selector = 1)
        ∧ (t.result ≠ .ok → t.engine = s.engine)
    | .iinit _ =>
      (t.result = .ok → s.engine.selector = 0 ∧ t.engine.selector = 2)
        ∧ (t.result ≠ .ok → t.engine = s.engine)
    | .dend => if s.engine.selector = 1 then t.engine = .none else t.engine = s.engine
    | .iend => if s.engine.selector = 2 then t.engine = .none else t.engine = s.engine
    | _ => t.engine.selector = s.engine.selector

/-- R538, R608: only ISYNC, IRESET and IEND leave BAD, and the saved cause stays until then. -/
def Obligations.BadIsTerminal : Prop :=
  ∀ (i : Instr) (s t : State) (d : Decompressor), s.engine = .inflate d → d.mode = .bad →
    i ≠ .isync → i ≠ .ireset → i ≠ .iend → exec i s = .next t →
    ∃ d', t.engine = .inflate d' ∧ d'.mode = .bad ∧ d'.err = d.err

/-! ## Frames -/

/-- R80, R40, R38, R603: what DEFLATE and DPARAMS leave unchanged, under either encoder profile (R9, R22, R434 (e)): every
byte outside those delivered at NEXT_OUT, RVAL, the argument registers, the parameters of the compressor (DPARAMS may
change level and strategy), ERRCODE on a status that is no error; the cursors move by the bytes consumed and delivered;
with another engine open, or none, everything but RESULT and ERRCODE stays. Under `Reference`, `ExecUnder` is `exec`. -/
def Obligations.CompressFrame : Prop :=
  ∀ (p : EncoderProfile) (i : Instr) (s t : State) (h h' : History),
    ((∃ flush, i = .deflate flush) ∨ ∃ level strategy, i = .dparams level strategy) → ExecUnder p i s h t h' →
    consumed s t ∧ delivered s t ∧ hostSideKept s t ∧ t.rval = s.rval
    ∧ (t.result.negative = false → t.errcode = s.errcode)
    ∧ ((∀ c, s.engine ≠ .deflate c) → t.engine = s.engine ∧ t.port = s.port)
    ∧ ∀ c, s.engine = .deflate c → ∃ c', t.engine = .deflate c' ∧ c'.wBits = c.wBits ∧ c'.memLevel = c.memLevel
        ∧ ((∃ flush, i = .deflate flush) →
            c'.level = c.level ∧ c'.strategy = c.strategy ∧ c'.config = c.config)

/-- R80, R40, R603: what INFLATE leaves unchanged: every byte outside those delivered at NEXT_OUT, RVAL, the argument
registers, windowBits, ERRCODE on a status that is no error. -/
def Obligations.InflateFrame : Prop :=
  ∀ (flush : Nat) (s t : State), exec (.inflate flush) s = .next t →
    delivered s t ∧ hostSideKept s t ∧ t.rval = s.rval ∧ (t.result.negative = false → t.errcode = s.errcode)
    ∧ ((∀ d, s.engine ≠ .inflate d) → t.engine = s.engine ∧ t.port = s.port)
    ∧ ∀ d, s.engine = .inflate d → ∃ d', t.engine = .inflate d' ∧ d'.wbits = d.wbits

/-- R80, R655: DINIT, DSETDICT, DRESET, DEND, IINIT, ISETDICT, IRESET and IEND store nothing and keep the cursors, RVAL
and the argument registers; the closing and the dictionary commands keep the totals, the closing ones ADLER too. -/
def Obligations.OpenAndCloseFrame : Prop :=
  ∀ (i : Instr) (s t : State),
    ((∃ level wbits memLevel strategy, i = .dinit level wbits memLevel strategy) ∨ i = .dsetdict ∨ i = .dreset
      ∨ i = .dend ∨ (∃ wbits, i = .iinit wbits) ∨ i = .isetdict ∨ i = .ireset ∨ i = .iend) →
    exec i s = .next t →
    hostSideKept s t ∧ t.rval = s.rval ∧ t.port.mem = s.port.mem
    ∧ t.port.nextIn = s.port.nextIn ∧ t.port.availIn = s.port.availIn ∧ t.port.nextOut = s.port.nextOut
    ∧ t.port.availOut = s.port.availOut
    ∧ (i = .dsetdict ∨ i = .isetdict ∨ i = .dend ∨ i = .iend →
        t.port.totalIn = s.port.totalIn ∧ t.port.totalOut = s.port.totalOut)
    ∧ (i = .dend ∨ i = .iend → t.port.adler = s.port.adler)

/-- R80, R59, R603: ADLER, HBUILD and HCANON change no engine state, no cursor, no total, not ADLER; ERRCODE only on a
StreamError; ADLER stores nothing, HBUILD stores into the `3*ARG1` bytes at ARG3, HCANON into the `2*ARG1` bytes at
ARG2, and only on Ok and BufError. -/
def Obligations.UtilityFrame : Prop :=
  ∀ (i : Instr) (s t : State), (i = .adler ∨ i = .hbuild ∨ i = .hcanon) → exec i s = .next t →
    hostSideKept s t ∧ t.engine = s.engine ∧ t.port = { s.port with mem := t.port.mem }
    ∧ (t.result ≠ .streamError → t.errcode = s.errcode)
    ∧ (t.result = .streamError → t.rval = s.rval ∧ t.port.mem = s.port.mem)
    ∧ (i = .adler → t.port.mem = s.port.mem)
    ∧ (i = .hbuild → ∀ a, a < s.arg3.toNat ∨ s.arg3.toNat + 3 * s.arg1.toNat ≤ a →
        t.port.mem.read a = s.port.mem.read a)
    ∧ (i = .hcanon → ∀ a, a < s.arg2.toNat ∨ s.arg2.toNat + 2 * s.arg1.toNat ≤ a →
        t.port.mem.read a = s.port.mem.read a)
    ∧ (i = .hcanon → t.result = .dataError → t.port.mem = s.port.mem)

/-- R80, R560: ISYNC stores nothing; it keeps the output cursors, RVAL, the argument registers and windowBits. -/
def Obligations.ResyncFrame : Prop :=
  ∀ s t : State, exec .isync s = .next t →
    hostSideKept s t ∧ t.rval = s.rval ∧ t.port.mem = s.port.mem ∧ t.port.nextOut = s.port.nextOut
    ∧ t.port.availOut = s.port.availOut ∧ t.port.totalOut = s.port.totalOut
    ∧ (t.result = .ok → t.errcode = s.errcode)
    ∧ ∀ d, s.engine = .inflate d → ∃ d', t.engine = .inflate d' ∧ d'.wbits = d.wbits ∧ d'.iwin = d.iwin

/-! ## Opening, restarting and closing the engines -/

/-- R440, R441: DINIT opens a compressor with the given parameters, zero windows and the reset state, and sets CFG and
ESTATE; with an engine open or a field out of range it is StreamError 20. -/
def Obligations.DinitOpensCompressor : Prop :=
  ∀ (level wbits memLevel strategy : Nat) (s : State),
    (s.engine = .none → level ≤ 9 → 9 ≤ wbits → wbits ≤ 15 → 1 ≤ memLevel → memLevel ≤ 9 → strategy ≤ 2 →
      ∃ c, exec (.dinit level wbits memLevel strategy) s = .next (restarted s (.deflate c))
        ∧ freshCompressor c ∧ c.level = level ∧ c.wBits = wbits ∧ c.memLevel = memLevel ∧ c.strategy = strategy
        ∧ (∀ k, c.win.get k = 0#8) ∧ (∀ k, c.prev.get k = 0)
        ∧ (restarted s (.deflate c)).readRegister .cfg
            = Word.ofNat (level + wbits * 2 ^ 4 + memLevel * 2 ^ 8 + strategy * 2 ^ 12)
        ∧ (restarted s (.deflate c)).readRegister .estate = 0x01#32)
    ∧ (s.engine ≠ .none ∨ 9 < level ∨ wbits < 9 ∨ 15 < wbits ∨ memLevel < 1 ∨ 9 < memLevel ∨ 2 < strategy →
      exec (.dinit level wbits memLevel strategy) s = .next (refusedBy20 s))

/-- R458, R441: DRESET restarts the open compressor with its parameters; `Win` and `Prev` keep their entries. -/
def Obligations.DresetRestartsCompressor : Prop :=
  ∀ s : State,
    (∀ c, s.engine = .deflate c →
      ∃ c', exec .dreset s = .next (restarted s (.deflate c'))
        ∧ freshCompressor c' ∧ c'.level = c.level ∧ c'.wBits = c.wBits ∧ c'.memLevel = c.memLevel
        ∧ c'.strategy = c.strategy ∧ c'.win = c.win ∧ c'.prev = c.prev)
    ∧ ((∀ c, s.engine ≠ .deflate c) → exec .dreset s = .next (refusedBy20 s))

/-- R459: DEND closes the compressor, with DataError 22 when the stream was unfinished (BUSY) and Ok otherwise; totals,
ADLER and cursors keep their values. -/
def Obligations.DendClosesCompressor : Prop :=
  ∀ s : State,
    (∀ c, s.engine = .deflate c → c.dstate ≠ .busy →
      exec .dend s = .next { s with engine := .none, result := .ok, errcode := 0#8 })
    ∧ (∀ c, s.engine = .deflate c → c.dstate = .busy →
      exec .dend s = .next { s with engine := .none, result := .dataError, errcode := 22#8 })
    ∧ ((∀ c, s.engine ≠ .deflate c) → exec .dend s = .next (refusedBy20 s))

/-- R510, R511: IINIT opens a decompressor with a zero window and the reset state, and sets CFG and ESTATE; with an
engine open or windowBits out of range it is StreamError 20. -/
def Obligations.IinitOpensDecompressor : Prop :=
  ∀ (wbits : Nat) (s : State),
    (s.engine = .none → 8 ≤ wbits → wbits ≤ 15 →
      ∃ d, exec (.iinit wbits) s = .next (restarted s (.inflate d))
        ∧ freshDecompressor d ∧ d.wbits = wbits ∧ (∀ k, d.iwin.get k = 0#8)
        ∧ (restarted s (.inflate d)).readRegister .cfg = Word.ofNat (wbits * 2 ^ 4)
        ∧ (restarted s (.inflate d)).readRegister .estate = 0x10#32)
    ∧ (s.engine ≠ .none ∨ wbits < 8 ∨ 15 < wbits → exec (.iinit wbits) s = .next (refusedBy20 s))

/-- R562, R511: IRESET restarts the open decompressor from every state with its windowBits; `IWin` keeps its bytes. -/
def Obligations.IresetRestartsDecompressor : Prop :=
  ∀ s : State,
    (∀ d, s.engine = .inflate d →
      ∃ d', exec .ireset s = .next (restarted s (.inflate d'))
        ∧ freshDecompressor d' ∧ d'.wbits = d.wbits ∧ d'.iwin = d.iwin)
    ∧ ((∀ d, s.engine ≠ .inflate d) → exec .ireset s = .next (refusedBy20 s))

/-- R563: IEND closes the decompressor in every state; totals, ADLER and cursors keep their values. -/
def Obligations.IendClosesDecompressor : Prop :=
  ∀ s : State,
    (∀ d, s.engine = .inflate d → exec .iend s = .next { s with engine := .none, result := .ok, errcode := 0#8 })
    ∧ ((∀ d, s.engine ≠ .inflate d) → exec .iend s = .next (refusedBy20 s))

/-! ## Dictionaries -/

/-- R452, R350, R351: DSETDICT right after DINIT or DRESET sets ADLER to the dictionary's checksum; a dictionary of 3
bytes or more is placed, its last MAX_DIST bytes at most, at the window's start with strstart and block_start behind it,
and the hash table finds the last position inserted by its three bytes. -/
def Obligations.DsetdictPrimesWindow : Prop :=
  ∀ (s : State) (c : Compressor), s.engine = .deflate c → c.dstate = .init → c.strstart = 0 → s.port.adler = 1#32 →
    legalParameters c → ¬ outside s s.arg0.toNat s.arg1.toNat →
    ∃ c', exec .dsetdict s
        = .next { s with
            result := .ok, engine := .deflate c',
            port := { s.port with adler := adlerUpdate 1#32 (s.port.mem.readRun s.arg0.toNat s.arg1.toNat) } }
      ∧ (s.arg1.toNat < 3 → c' = c)
      ∧ (3 ≤ s.arg1.toNat →
          c' = { c with
            win := c'.win, head := c'.head, prev := c'.prev, insH := c'.insH, strstart := c'.strstart,
            blockStart := c'.blockStart }
          ∧ c'.strstart = min s.arg1.toNat c.maxDist ∧ c'.blockStart = (c'.strstart : Int)
          ∧ (∀ k, c'.win.get k
              = if k < c'.strstart then s.port.mem.read (s.arg0.toNat + (s.arg1.toNat - c'.strstart) + k)
                else c.win.get k)
          ∧ c'.head.get (hash3 c' (c'.strstart - 3)) = c'.strstart - 3)

/-- R550, R344: ISETDICT while a dictionary is awaited compares the dictionary's checksum with ADLER: DataError 26 with no
effect when they differ; otherwise the last `2^wbits - 1` bytes at most enter the window at the write cursor, `hist`
counts them, `pend` does not, and decoding goes on. -/
def Obligations.IsetdictSuppliesDictionary : Prop :=
  ∀ (s : State) (d : Decompressor), s.engine = .inflate d → d.mode = .waitForDictionary →
    ¬ outside s s.arg0.toNat s.arg1.toNat → 8 ≤ d.wbits → d.wbits ≤ 15 → d.wr < d.windowLen →
    (adlerUpdate 1#32 (s.port.mem.readRun s.arg0.toNat s.arg1.toNat) ≠ s.port.adler →
      exec .isetdict s = .next { s with result := .dataError, errcode := 26#8 })
    ∧ (adlerUpdate 1#32 (s.port.mem.readRun s.arg0.toNat s.arg1.toNat) = s.port.adler →
      ∃ d', exec .isetdict s
          = .next { s with result := .ok, engine := .inflate d', port := { s.port with adler := 1#32 } }
        ∧ d' = { d with iwin := d'.iwin, wr := d'.wr, hist := d'.hist, mode := .blocks }
        ∧ d'.hist = (if 2 ^ d.wbits ≤ s.arg1.toNat then 2 ^ d.wbits - 1 else s.arg1.toNat)
        ∧ d'.wr = (d.wr + d'.hist) % d.windowLen
        ∧ ∀ k, k < d'.hist → d'.iwin.get ((d.wr + k) % d.windowLen)
            = s.port.mem.read (s.arg0.toNat + (s.arg1.toNat - d'.hist) + k))

/-! ## DEFLATE and DPARAMS -/

/-- R430, R435, R406: the first DEFLATE, in every flush mode and with any input on offer, writes the header (and the
dictionary identifier if a dictionary was set) and sets ADLER to 1; here the output has room for the header at most, so
the command ends with Ok, the rest of the header pending. -/
def Obligations.DeflateWritesHeader : Prop :=
  ∀ (flush : Nat) (s : State) (c : Compressor), s.engine = .deflate c → flush ≤ 4 → ¬ badStream s →
    c.dstate = .init → c.pending = [] → c.overflowed = false → legalParameters c →
    0 < s.port.availOut.toNat → s.port.availOut.toNat ≤ (headerBytes c s.port.adler).length →
    ∃ m, exec (.deflate flush) s
        = .next { s with
            result := .ok,
            engine := .deflate { c with
              dstate := .busy, lastFlush := -1,
              pending := (headerBytes c s.port.adler).drop s.port.availOut.toNat },
            port := { s.port with
              mem := m, adler := 1#32, nextOut := s.port.nextOut + s.port.availOut, availOut := 0#32,
              totalOut := s.port.totalOut + s.port.availOut } }
      ∧ (Memory.wf s.port.mem = true →
          Memory.readRun m s.port.nextOut.toNat s.port.availOut.toNat
            = (headerBytes c s.port.adler).take s.port.availOut.toNat)

/-- R430, R438, R322, R324: under NoFlush a compressor of level 1 to 9 with less than 262 bytes of lookahead in all only
accumulates: the whole input enters the window behind the lookahead and the checksum, nothing is written. -/
def Obligations.DeflateAccumulates : Prop :=
  ∀ (s : State) (c : Compressor), s.engine = .deflate c → ¬ badStream s → c.dstate = .busy → c.pending = [] →
    c.overflowed = false → legalParameters c → c.config = levelTable c.level → c.level ≠ 0 →
    s.port.availOut ≠ 0#32 → s.port.availIn ≠ 0#32 → c.lookahead + s.port.availIn.toNat < 262 →
    c.strstart < c.wSize + c.maxDist →
    ∃ c', exec (.deflate 0) s
        = .next { s with
            result := .ok, engine := .deflate c',
            port := { s.port with
              nextIn := s.port.nextIn + s.port.availIn, availIn := 0#32, totalIn := s.port.totalIn + s.port.availIn,
              adler := adlerUpdate s.port.adler (s.port.mem.readRun s.port.nextIn.toNat s.port.availIn.toNat) } }
      ∧ c' = { c with win := c'.win, insH := c'.insH, lookahead := c.lookahead + s.port.availIn.toNat, lastFlush := 0 }
      ∧ ∀ k, c'.win.get k
          = if c.strstart + c.lookahead ≤ k ∧ k < c.strstart + c.lookahead + s.port.availIn.toNat
            then s.port.mem.read (s.port.nextIn.toNat + (k - (c.strstart + c.lookahead))) else c.win.get k

/-- R430, R431, R437: in FINISH and DONE, DEFLATE with another mode than Finish or with input is StreamError 20 with no
other effect; in FINISH, once everything else is delivered, Finish appends the trailer, ADLER most significant byte first,
and enters DONE, with StreamEnd if all four bytes fit and Ok otherwise; in DONE, once everything is delivered, Finish
returns StreamEnd again. -/
def Obligations.FinishedStream : Prop :=
  ∀ (flush : Nat) (s : State) (c : Compressor), s.engine = .deflate c → c.overflowed = false →
    (c.dstate = .finish ∨ c.dstate = .done →
      (flush ≠ 4 ∨ s.port.availIn ≠ 0#32) → exec (.deflate flush) s = .next (refusedBy20 s))
    ∧ (∀ n, n = min 4 s.port.availOut.toNat → c.dstate = .finish → flush = 4 → ¬ badStream s → legalParameters c →
      c.pending = [] → c.lookahead = 0 → s.port.availIn = 0#32 → s.port.availOut ≠ 0#32 →
      ∃ m, exec (.deflate flush) s
          = .next { s with
              result := if 4 ≤ s.port.availOut.toNat then .streamEnd else .ok,
              engine := .deflate { c with
                dstate := .done, lastFlush := 4, pending := (trailerBytes s.port.adler).drop n },
              port := { s.port with
                mem := m, nextOut := s.port.nextOut + Word.ofNat n, availOut := s.port.availOut - Word.ofNat n,
                totalOut := s.port.totalOut + Word.ofNat n } }
        ∧ (Memory.wf s.port.mem = true →
            Memory.readRun m s.port.nextOut.toNat n = (trailerBytes s.port.adler).take n))
    ∧ (c.dstate = .done → flush = 4 → ¬ badStream s → c.pending = [] → c.lookahead = 0 → s.port.availIn = 0#32 →
      s.port.availOut ≠ 0#32 →
      exec (.deflate flush) s = .next { s with result := .streamEnd, engine := .deflate { c with lastFlush := 4 } })

/-- R457: with the same strategy function, or before any input has been consumed, DPARAMS switches level and strategy at
once and writes nothing; fields out of range are StreamError 20. Of a compressor in FINISH or DONE this is the model's
choice (DESIGN CHOICE, log 25): R457's procedure says so, and R431's list of the commands accepted there leaves DPARAMS
out. -/
def Obligations.DparamsSwitchesAtOnce : Prop :=
  ∀ (level strategy : Nat) (s : State) (c : Compressor), s.engine = .deflate c → c.overflowed = false →
    (level ≤ 9 → strategy ≤ 2 → ¬ badStream s →
      ((levelTable c.level).func = (levelTable level).func ∨ s.port.totalIn = 0#32) →
      exec (.dparams level strategy) s
        = .next { s with
            result := .ok,
            engine := .deflate { c with
              level := level, strategy := strategy,
              config := if level = c.level then c.config else levelTable level } })
    ∧ (9 < level ∨ 2 < strategy → exec (.dparams level strategy) s = .next (refusedBy20 s))

/-! ## INFLATE and ISYNC -/

/-- R542, R540: INFLATE with one byte of input reads the stream's first header byte: a method other than 8 is DataError
15, a window larger than the engine's DataError 16, both with marker 5; otherwise the engine waits for the second byte,
with Ok, or BufError 21 under Finish. -/
def Obligations.InflateReadsMethod : Prop :=
  ∀ (flush : Nat) (s : State) (d : Decompressor) (b : Byte), s.engine = .inflate d → flush ≤ 4 → ¬ badStream s →
    d.mode = .headerMethod → d.pend = 0 → s.port.availIn = 1#32 → b = s.port.mem.read s.port.nextIn.toNat →
    exec (.inflate flush) s
      = .next
          (let p := { s.port with
             nextIn := s.port.nextIn + 1#32, availIn := 0#32, totalIn := s.port.totalIn + 1#32 }
           if b &&& 0x0F#8 ≠ 8#8 then
             { s with
               result := .dataError, errcode := 15#8, port := p,
               engine := .inflate { d with method := b, mode := .bad, err := 15#8, marker := 5 } }
           else if d.wbits < b.toNat / 16 + 8 then
             { s with
               result := .dataError, errcode := 16#8, port := p,
               engine := .inflate { d with method := b, mode := .bad, err := 16#8, marker := 5 } }
           else if flush = 4 then
             { s with
               result := .bufError, errcode := 21#8, port := p,
               engine := .inflate { d with method := b, mode := .headerFlags } }
           else
             { s with
               result := .ok, port := p, engine := .inflate { d with method := b, mode := .headerFlags } })

/-- R538, R520, R541: in DONE and BAD, INFLATE delivers pending output and returns StreamEnd, or DataError with the saved
cause; while a dictionary is awaited it is StreamError 19 and the engine enters BAD. ADLER is then the checksum of the delivered
bytes: the model's reading of 10_state.md R41 (DEDUCED, log 26), of which R520 says nothing. `DrainDelivers` says what `IRun.drain` delivers. -/
def Obligations.InflateInTerminalStates : Prop :=
  ∀ (flush : Nat) (s : State) (d : Decompressor), s.engine = .inflate d → flush ≤ 4 → ¬ badStream s →
    (d.mode = .done →
      exec (.inflate flush) s
        = .next { s with
            result := .streamEnd, port := (IRun.drain ⟨s.port, d⟩).port,
            engine := .inflate (IRun.drain ⟨s.port, d⟩).d })
    ∧ (d.mode = .bad →
      exec (.inflate flush) s
        = .next { s with
            result := .dataError, errcode := d.err, port := (IRun.drain ⟨s.port, d⟩).port,
            engine := .inflate (IRun.drain ⟨s.port, d⟩).d })
    ∧ (d.mode = .waitForDictionary →
      exec (.inflate flush) s
        = .next { s with
            result := .streamError, errcode := 19#8,
            port := { (IRun.drain ⟨s.port, d⟩).port with adler := (IRun.drain ⟨s.port, d⟩).d.check },
            engine := .inflate { (IRun.drain ⟨s.port, d⟩).d with mode := .bad, err := 19#8, marker := 0 } })

/-- R341: `drain` delivers `min(pend, AVAIL_OUT)` bytes: the window bytes from the read cursor on, wrapping around, appear at
NEXT_OUT; the cursors move and `pend` falls by their number, and the checksum is updated over them and copied to ADLER.
With none to deliver it changes nothing. -/
def Obligations.DrainDelivers : Prop :=
  ∀ (r : IRun) (n : Nat) (out : List Byte), Memory.wf r.port.mem = true →
    r.port.nextOut.toNat + r.port.availOut.toNat ≤ 2 ^ 32 → r.d.pend ≤ r.d.windowLen →
    n = min r.d.pend r.port.availOut.toNat → out = nextOutput r.d n →
    r.drain
        = ⟨{ r.port with
              mem := r.drain.port.mem, nextOut := r.port.nextOut + Word.ofNat n,
              availOut := r.port.availOut - Word.ofNat n, totalOut := r.port.totalOut + Word.ofNat n,
              adler := if n = 0 then r.port.adler else adlerUpdate r.d.check out },
            { r.d with pend := r.d.pend - n, check := adlerUpdate r.d.check out }⟩
      ∧ r.drain.port.mem.readRun r.port.nextOut.toNat n = out
      ∧ ∀ a, a < r.port.nextOut.toNat ∨ r.port.nextOut.toNat + n ≤ a →
          r.drain.port.mem.read a = r.port.mem.read a

/-- R532, R540, R341: inside a stored block, INFLATE copies its input to its output byte for byte: here with less input
than the block has left and room for all of it. -/
def Obligations.InflateCopiesStoredBytes : Prop :=
  ∀ (flush m : Nat) (s : State) (d : Decompressor), s.engine = .inflate d → flush < 4 → ¬ badStream s →
    Memory.wf s.port.mem = true → d.mode = .blocks → d.bmode = .storedCopy → d.pend = 0 → 8 ≤ d.wbits →
    d.wbits ≤ 15 → d.wr < d.windowLen → s.port.availIn.toNat = m → 0 < m → m < d.left → m ≤ s.port.availOut.toNat →
    ∃ t d', exec (.inflate flush) s = .next t ∧ t.result = .ok ∧ t.errcode = s.errcode ∧ t.engine = .inflate d'
      ∧ t.port.availIn = 0#32 ∧ t.port.nextIn = s.port.nextIn + Word.ofNat m
      ∧ t.port.totalIn = s.port.totalIn + Word.ofNat m
      ∧ t.port.nextOut = s.port.nextOut + Word.ofNat m ∧ t.port.availOut.toNat = s.port.availOut.toNat - m
      ∧ t.port.totalOut = s.port.totalOut + Word.ofNat m
      ∧ t.port.mem.readRun s.port.nextOut.toNat m = s.port.mem.readRun s.port.nextIn.toNat m
      ∧ t.port.adler = adlerUpdate d.check (s.port.mem.readRun s.port.nextIn.toNat m)
      ∧ d'.check = t.port.adler ∧ d'.left = d.left - m ∧ d'.mode = .blocks ∧ d'.bmode = .storedCopy ∧ d'.pend = 0
      ∧ d'.hist = min (d.hist + m) (2 ^ d.wbits)

/-- R560, R561: ISYNC without input is BufError 21, in BAD. With input it stops right behind the FIRST `00 00 FF FF` and
resumes decoding there with Ok, ERRCODE kept; the bytes of a marker progress carried over from an earlier call (0 to 3 of
them, in BAD) count as standing before the input. With no marker it consumes all of the input and ends with DataError 28,
in BAD. With the marker count 5 (after a header or trailer error) it is DataError 28 and consumes nothing. On the path from
the dictionary wait to BAD, ADLER becomes the checksum of the delivered bytes: the model's reading of 10_state.md R41
(DEDUCED, log 26), of which R560 says nothing. -/
def Obligations.ResyncFindsFirstMarker : Prop :=
  ∀ (s : State) (d : Decompressor) (adler : Word), s.engine = .inflate d →
    ¬ outside s s.port.nextIn.toNat s.port.availIn.toNat →
    adler = (if d.mode = .waitForDictionary then d.check else s.port.adler) →
    (s.port.availIn = 0#32 →
      exec .isync s
        = .next { s with
            result := .bufError, errcode := 21#8, port := { s.port with adler := adler },
            engine := .inflate { d with
              mode := .bad, err := if d.mode = .bad then d.err else 28#8,
              marker := if d.mode = .bad then d.marker else 0 } })
    ∧ (d.mode = .bad → d.marker = 5 → s.port.availIn ≠ 0#32 →
      exec .isync s = .next { s with result := .dataError, errcode := 28#8 })
    ∧ ∀ (m0 : Nat) (carried input : List Byte), s.port.availIn ≠ 0#32 →
      m0 = (if d.mode = .bad then d.marker else 0) → m0 ≤ 3 → carried = [0x00#8, 0x00#8, 0xFF#8, 0xFF#8].take m0 →
      input = s.port.mem.readRun s.port.nextIn.toNat s.port.availIn.toNat →
      (∀ k, k ≤ input.length → [0x00#8, 0x00#8, 0xFF#8, 0xFF#8] <:+ carried ++ input.take k →
        (∀ j, j < k → ¬ [0x00#8, 0x00#8, 0xFF#8, 0xFF#8] <:+ carried ++ input.take j) →
        exec .isync s
          = .next { s with
              result := .ok, engine := .inflate (resynced d),
              port := { s.port with
                nextIn := s.port.nextIn + Word.ofNat k, availIn := s.port.availIn - Word.ofNat k,
                totalIn := s.port.totalIn + Word.ofNat k, adler := 1#32 } })
      ∧ ((∀ j, j ≤ input.length → ¬ [0x00#8, 0x00#8, 0xFF#8, 0xFF#8] <:+ carried ++ input.take j) →
        ∃ m, m < 4 ∧ exec .isync s
          = .next { s with
              result := .dataError, errcode := 28#8,
              engine := .inflate { d with
                mode := .bad, err := if d.mode = .bad then d.err else 28#8, marker := m },
              port := { s.port with
                nextIn := s.port.nextIn + s.port.availIn, availIn := 0#32,
                totalIn := s.port.totalIn + s.port.availIn, adler := adler } })

/-! ## Checksums and Huffman codes -/

/-- R305: ADLER sets RVAL to the checksum of the bytes at ARG1, updated from ARG0, and returns Ok; a range that is not
valid is StreamError 20; no bytes leave the checksum unchanged, reduced or not; the rule's two worked values. -/
def Obligations.AdlerCommand : Prop :=
  (∀ s : State,
    (¬ outside s s.arg1.toNat s.arg2.toNat →
      exec .adler s
        = .next { s with result := .ok, rval := adlerUpdate s.arg0 (s.port.mem.readRun s.arg1.toNat s.arg2.toNat) })
    ∧ (outside s s.arg1.toNat s.arg2.toNat → exec .adler s = .next (refusedBy20 s)))
  ∧ (∀ acc : Word, adlerUpdate acc [] = acc)
  ∧ adlerUpdate 0xFFFFFFFF#32 [0x00#8] = 0x001C000E#32
  ∧ adlerUpdate 1#32 [0x61#8, 0x62#8, 0x63#8] = 0x024D0127#32

/-- R301: updating by two byte sequences in turn is updating by both at once, from every accumulator. -/
def Obligations.AdlerSplits : Prop :=
  ∀ (acc : Word) (x y : List Byte), adlerUpdate (adlerUpdate acc x) y = adlerUpdate acc (x ++ y)

/-- R620: the canonical code of a symbol is the first code of its length plus the number of earlier symbols of that
length; a symbol of length 0 has 0. -/
def Obligations.CanonicalCodes : Prop :=
  ∀ lens : List Nat, (∀ l ∈ lens, l ≤ 15) →
    (canonCodes lens).length = lens.length
    ∧ ∀ k, k < lens.length →
        (canonCodes lens).getD k 0
          = if lens.getD k 0 = 0 then 0
            else firstCode lens (lens.getD k 0) + (lens.take k).count (lens.getD k 0)

/-- R631, R620, R621: decoding inverts the canonical assignment: for lengths that are not over-subscribed, an accumulator
that begins with a symbol's code, most significant bit first, decodes to the symbol and its code's length, and asks for
more bits while the code is not complete. -/
def Obligations.DecodingInvertsAssignment : Prop :=
  ∀ (lens : List Nat) (k bits bitk : Nat), (∀ l ∈ lens, l ≤ 15) → kraft lens ≤ 2 ^ 15 → k < lens.length →
    lens.getD k 0 ≠ 0 →
    bits % 2 ^ lens.getD k 0 = biReverse ((canonCodes lens).getD k 0) (lens.getD k 0) →
    (lens.getD k 0 ≤ bitk → canonDecode lens bits bitk = .sym k (lens.getD k 0))
    ∧ (bitk < lens.getD k 0 → canonDecode lens bits bitk = .needMoreBits)

/-- R640, R616, R622: HBUILD on acceptable operands stores one length of at most ARG2 for each of its ARG1 symbols, a
complete code (Kraft sum 1), then their canonical codes bit-reversed, and ends with Ok; with two or more nonzero
frequencies a symbol has a nonzero length exactly when its frequency is nonzero, and RVAL is the last such symbol. For
ARG1 of 287 and 288 this rests on the model's enlarged heap (DESIGN CHOICE, log 9). -/
def Obligations.HbuildStoresCode : Prop :=
  ∀ (s : State) (n ml : Nat) (freqs : List Nat), s.arg1.toNat = n → s.arg2.toNat = ml → 3 ≤ n → n ≤ 288 → 1 ≤ ml →
    ml ≤ 15 → ¬ badRange .hbuild s → Memory.wf s.port.mem = true → freqs = s.port.mem.readU16s s.arg0.toNat n →
    max 2 (freqs.countP (fun f => f != 0)) ≤ 2 ^ ml →
    ∃ m v lens, exec .hbuild s = .next { s with result := .ok, rval := v, port := { s.port with mem := m } }
      ∧ lens.length = n ∧ (∀ l ∈ lens, l ≤ ml) ∧ kraft lens = 2 ^ 15
      ∧ Memory.readRun m s.arg3.toNat n = lens.map Byte.ofNat
      ∧ Memory.readU16s m (s.arg3.toNat + n) n = List.zipWith biReverse (canonCodes lens) lens
      ∧ (2 ≤ freqs.countP (fun f => f != 0) →
          (∀ k, k < n → (lens.getD k 0 ≠ 0 ↔ freqs.getD k 0 ≠ 0))
          ∧ ∀ k, k < n → freqs.getD k 0 ≠ 0 → (∀ j, k < j → freqs.getD j 0 = 0) → v = Word.ofNat k)

/-- R641, R621: HCANON on acceptable operands sets RVAL to the largest length and tells the code's Kraft sum by its status:
above 1 DataError with nothing stored, 1 Ok, below 1 BufError, both with the canonical codes stored at ARG2. -/
def Obligations.HcanonStoresCodes : Prop :=
  ∀ (s : State) (n : Nat) (lens : List Nat), s.arg1.toNat = n → 1 ≤ n → n ≤ 320 → ¬ badRange .hcanon s →
    Memory.wf s.port.mem = true → lens = (s.port.mem.readRun s.arg0.toNat n).map BitVec.toNat →
    (∀ l ∈ lens, l ≤ 15) →
    ∃ m v st, exec .hcanon s
        = .next { s with result := st, rval := Word.ofNat v, port := { s.port with mem := m } }
      ∧ v ∈ lens ∧ (∀ l ∈ lens, l ≤ v)
      ∧ (2 ^ 15 < kraft lens → st = .dataError ∧ m = s.port.mem)
      ∧ (kraft lens = 2 ^ 15 → st = .ok) ∧ (kraft lens < 2 ^ 15 → st = .bufError)
      ∧ (kraft lens ≤ 2 ^ 15 → Memory.readU16s m s.arg2.toNat n = canonCodes lens)

/-- R117, R119, R380: the length code of every match length 3..258 and the distance code of every distance 1..32768 give
the value back as base plus an extra value that fits the code's extra bits. -/
def Obligations.CodeTablesCover : Prop :=
  (∀ lc, lc ≤ 255 →
    lengthCode lc ≤ 28 ∧ tableAt lenBase (lengthCode lc) ≤ lc + 3
      ∧ lc + 3 - tableAt lenBase (lengthCode lc) < 2 ^ tableAt lenExtra (lengthCode lc))
  ∧ (∀ dist, 1 ≤ dist → dist ≤ 32768 →
    distCode (dist - 1) ≤ 29 ∧ tableAt distBase (distCode (dist - 1)) ≤ dist
      ∧ dist - tableAt distBase (distCode (dist - 1)) < 2 ^ tableAt distExtra (distCode (dist - 1)))

/-! ## The compressor's units -/

/-- R402: `send_bits` appends exactly the `length` low bits of its value to the stream, least significant first; the
accumulator is written out as a whole 16-bit word only when it overflows, and holds at most 16 bits afterwards, zeros
above them. -/
def Obligations.SendBitsAppends : Prop :=
  ∀ (c : Compressor) (value length : Nat), packerClean c → 1 ≤ length → length ≤ 16 → value < 2 ^ length →
    c.pending.length + 2 ≤ c.pendingBufSize →
    streamBits (c.sendBits value length) = streamBits c ++ bitsOf value length
      ∧ packerClean (c.sendBits value length)
      ∧ (c.biValid ≤ 16 - length → (c.sendBits value length).pending = c.pending
          ∧ (c.sendBits value length).biValid = c.biValid + length)
      ∧ (16 - length < c.biValid → (c.sendBits value length).pending.length = c.pending.length + 2
          ∧ (c.sendBits value length).biValid = c.biValid + length - 16)
      ∧ c.sendBits value length
          = { c with
              pending := (c.sendBits value length).pending, biBuf := (c.sendBits value length).biBuf,
              biValid := (c.sendBits value length).biValid }

/-- R453, R405: `stored_block` appends the 3 header bits, 0 bits up to the byte boundary, LEN and its complement with the
least significant byte first, and the bytes; with no bytes it ends with the marker `00 00 FF FF`. -/
def Obligations.StoredBlockLayout : Prop :=
  (∀ (c : Compressor) (buf : List Byte) (eof : Bool), packerClean c → buf.length ≤ 65535 →
    c.pending.length + buf.length + 8 ≤ c.pendingBufSize →
    streamBits (c.storedBlock buf eof)
      = streamBits c ++ [eof, false, false] ++ List.replicate ((8 - (c.biValid + 3) % 8) % 8) false
          ++ byteBits
              ([Byte.ofNat buf.length, Byte.ofNat (buf.length / 256), ~~~(Byte.ofNat buf.length),
                ~~~(Byte.ofNat (buf.length / 256))] ++ buf))
  ∧ (∀ (c : Compressor) (eof : Bool), packerClean c → c.pending.length + 8 ≤ c.pendingBufSize →
    [0x00#8, 0x00#8, 0xFF#8, 0xFF#8] <:+ (c.storedBlock [] eof).pending ∧ (c.storedBlock [] eof).biValid = 0)

/-- R406: `flush_pending` delivers `min(|Pending|, AVAIL_OUT)` bytes: the first pending bytes appear at NEXT_OUT, leave
`Pending`, and the cursors move by their number; the bits in the accumulator stay. -/
def Obligations.FlushPendingDelivers : Prop :=
  ∀ (r : DRun) (n : Nat), Memory.wf r.port.mem = true → r.port.nextOut.toNat + r.port.availOut.toNat ≤ 2 ^ 32 →
    n = min r.c.pending.length r.port.availOut.toNat →
    r.flushPending
        = ⟨{ r.port with
              mem := r.flushPending.port.mem, nextOut := r.port.nextOut + Word.ofNat n,
              availOut := r.port.availOut - Word.ofNat n, totalOut := r.port.totalOut + Word.ofNat n },
            { r.c with pending := r.c.pending.drop n }⟩
      ∧ r.flushPending.port.mem.readRun r.port.nextOut.toNat n = r.c.pending.take n
      ∧ ∀ a, a < r.port.nextOut.toNat ∨ r.port.nextOut.toNat + n ≤ a →
          r.flushPending.port.mem.read a = r.port.mem.read a

/-- R322, R321 (a), (d): `fill_window` reads until the lookahead is at least 262 or the input is exhausted, keeps the data
inside the window, loses no byte, and leaves strstart at most `window_size - 263`. -/
def Obligations.FillWindow : Prop :=
  ∀ r : DRun, 9 ≤ r.c.wBits → r.c.wBits ≤ 15 → r.c.strstart + r.c.lookahead ≤ r.c.windowSize →
    (262 ≤ r.fillWindow.c.lookahead ∨ r.fillWindow.port.availIn = 0#32)
      ∧ r.fillWindow.c.strstart + r.fillWindow.c.lookahead ≤ r.fillWindow.c.windowSize
      ∧ r.fillWindow.c.strstart + 263 ≤ r.fillWindow.c.windowSize
      ∧ r.fillWindow.c.lookahead + r.fillWindow.port.availIn.toNat = r.c.lookahead + r.port.availIn.toNat

/-- R323: `slide` moves the upper half of the window down, keeps the upper half's bytes, and renumbers every position:
lower by `w_size`, or NIL when it slid out. -/
def Obligations.SlideRenumbers : Prop :=
  ∀ c : Compressor, c.wBits ≤ 15 →
    (∀ k, c.slide.win.get k = if k < c.wSize then c.win.get (c.wSize + k) else c.win.get k)
      ∧ c.slide.matchStart = c.matchStart - c.wSize ∧ c.slide.strstart = c.strstart - c.wSize
      ∧ c.slide.blockStart = c.blockStart - c.wSize
      ∧ (∀ k, c.slide.head.get k = if c.wSize ≤ c.head.get k then c.head.get k - c.wSize else 0)
      ∧ (∀ k, c.slide.prev.get k = if c.wSize ≤ c.prev.get k then c.prev.get k - c.wSize else 0)
      ∧ c.slide
          = { c with
              win := c.slide.win, head := c.slide.head, prev := c.slide.prev, matchStart := c.slide.matchStart,
              strstart := c.slide.strstart, blockStart := c.slide.blockStart }

/-- R360: when `longest_match` improves on the previous length, the window bytes at strstart and at the match start agree
for the whole length (offset 2 is not compared: the hash vouches for it), the length is at most 258 and at most the
lookahead, and the match starts within MAX_DIST if the first candidate does. -/
def Obligations.LongestMatchAgrees : Prop :=
  ∀ (c : Compressor) (cand : Nat), c.prevLength < (c.longestMatch cand).len →
    ∃ start : Nat, (c.longestMatch cand).start = (start : Int)
      ∧ (c.longestMatch cand).len ≤ 258 ∧ (c.longestMatch cand).len ≤ c.lookahead
      ∧ (∀ j, j < (c.longestMatch cand).len → j ≠ 2 → c.win.get (c.strstart + j) = c.win.get (start + j))
      ∧ (c.strstart ≤ cand + c.maxDist → c.strstart ≤ start + c.maxDist)

/-! ## Termination and resumability -/

/-- R656: INFLATE terminates: from every state, the loop of R540 ends within `stepBound` steps; more steps change nothing.
R656 fixes no bound: `stepBound`, in AVAIL_IN, AVAIL_OUT and the window size, is the model's own (DEDUCED, log 10). -/
def Obligations.InflateTerminates : Prop :=
  ∀ (r : IRun) (extra : Nat), IRun.loop (r.stepBound + extra) r = IRun.loop r.stepBound r

/-- R656, R366, R367, R368: the loops of deflate_fast and deflate_slow end within `turnBound` turns, the loop of
deflate_stored within `storedBound` turns; more turns change nothing. R656 fixes no bounds: these, in the lookahead,
AVAIL_IN and, for deflate_stored, the block's extent in the window, are the model's own (DEDUCED, log 10). -/
def Obligations.MatchersTerminate : Prop :=
  ∀ (flush head extra : Nat) (r : DRun) (close : DRun → BState × DRun),
    runTurns (fastTurn flush) close (r.turnBound + extra) ⟨r, head⟩
        = runTurns (fastTurn flush) close r.turnBound ⟨r, head⟩
      ∧ runTurns (slowTurn flush) close (r.turnBound + extra) ⟨r, head⟩
        = runTurns (slowTurn flush) close r.turnBound ⟨r, head⟩
      ∧ (legalParameters r.c → r.c.strstart + r.c.lookahead ≤ r.c.windowSize → r.c.blockStart ≤ r.c.strstart →
        runTurns (storedTurn flush) close (r.storedBound + extra) ⟨r, head⟩
          = runTurns (storedTurn flush) close r.storedBound ⟨r, head⟩)

/-- R544: splitting the input of INFLATE into two calls changes nothing: if the first part leaves the stream unfinished,
the second call ends where one call over both parts ends, with the same status, delivered bytes and engine state; if the
first part ends the stream or fails, so does one call, leaving the second part unread. Splitting the output space, of
which R544 speaks too, is left out here. -/
def Obligations.InflateResumes : Prop :=
  ∀ (r : IRun) (k m : Nat), k + m < 2 ^ 32 →
    ((IRun.inflate (withInput r k)).2 = none →
      IRun.inflate (withInput (IRun.inflate (withInput r k)).1
          ((IRun.inflate (withInput r k)).1.port.availIn.toNat + m))
        = IRun.inflate (withInput r (k + m)))
    ∧ (∀ st, (IRun.inflate (withInput r k)).2 = some st →
      IRun.inflate (withInput r (k + m))
        = (withInput (IRun.inflate (withInput r k)).1 ((IRun.inflate (withInput r k)).1.port.availIn.toNat + m),
            some st))

/-! ## Invariants -/

/-- R72, with the model's canonical form of buffer memory (DESIGN CHOICE: log 4 for what an unwritten byte reads as, log 22
for the form): every step keeps it. -/
def Obligations.MemoryFormKept : Prop :=
  ∀ s t : State, Memory.wf s.port.mem = true → step s = .next t → Memory.wf t.port.mem = true

/-- R52, R54, R401, R402: every step keeps the compressor's ranges: legal parameters, the level's own row of LEVEL_TABLE,
`Pending` within its capacity, at most 16 bits in the accumulator. -/
def Obligations.CompressorRangesKept : Prop :=
  ∀ s t : State, compressorLegal s → step s = .next t → compressorLegal t

/-- R55–R58, R340: every step keeps the decompressor's ranges: the write cursor inside the window, at most a window of
undelivered bytes, at most `2^wbits` bytes of history, at most 39 bits in the accumulator. -/
def Obligations.DecompressorRangesKept : Prop :=
  ∀ s t : State, decompressorLegal s → step s = .next t → decompressorLegal t

/-- R650: the three invariants hold right after reset. -/
def Obligations.InvariantsAtReset : Prop :=
  Memory.wf State.reset.port.mem = true ∧ compressorLegal State.reset ∧ decompressorLegal State.reset
end

