-- ==== Sys2Proof/Laws/Memory.lean ====
section
/-!
SUPPORT. Buffer memory: what a read gives after a write, and that every operation keeps the canonical form.
-/

namespace Sys2Proof.Machine

/-! ## One byte -/

@[simp] theorem Memory.read_nil (a : Nat) : Memory.read [] a = Config.unwrittenByte := rfl

/-- Putting a cell in front changes what its own address reads as, at most. -/
theorem Memory.read_cons_ne (m : Memory) (a x : Nat) (b : Byte) (h : x ≠ a) :
    (Memory.cons a b m).read x = m.read x := by
  unfold Memory.cons
  split
  · rfl
  · simp [Memory.read, h]

/-- Every other address reads as before a write, in canonical form or not. -/
theorem Memory.read_write_ne (m : Memory) (a x : Nat) (b : Byte) (h : x ≠ a) : (m.write a b).read x = m.read x := by
  induction m with
  | nil => exact Memory.read_cons_ne [] a x b h
  | cons c rest ih =>
    obtain ⟨a', b'⟩ := c
    simp only [Memory.write]
    split
    · exact Memory.read_cons_ne _ a x b h
    · split
      · rename_i _ heq
        subst heq
        rw [Memory.read_cons_ne _ _ _ _ h]
        simp [Memory.read, h]
      · simp only [Memory.read]
        split
        · rfl
        · exact ih

/-- In canonical form above `low`, an address below `low` is unlisted. -/
theorem Memory.read_below (m : Memory) (low a : Nat) (hm : Memory.wfFrom low m = true) (h : a < low) :
    m.read a = Config.unwrittenByte := by
  induction m generalizing low with
  | nil => rfl
  | cons c rest ih =>
    obtain ⟨a', b'⟩ := c
    simp only [Memory.wfFrom, Bool.and_eq_true, decide_eq_true_eq] at hm
    have hne : a ≠ a' := by omega
    simp only [Memory.read, if_neg hne]
    exact ih (a' + 1) hm.2 (by omega)

/-- The canonical form above a smaller bound. -/
theorem Memory.wfFrom_mono (m : Memory) (low low' : Nat) (hm : Memory.wfFrom low m = true) (h : low' ≤ low) :
    Memory.wfFrom low' m = true := by
  cases m with
  | nil => rfl
  | cons c rest =>
    obtain ⟨a, b⟩ := c
    simp only [Memory.wfFrom, Bool.and_eq_true, decide_eq_true_eq] at hm ⊢
    exact ⟨⟨by omega, hm.1.2⟩, hm.2⟩

/-- Putting a cell in front reads back, when its address is below every listed one. -/
theorem Memory.read_cons_same (m : Memory) (a : Nat) (b : Byte) (hm : Memory.wfFrom (a + 1) m = true) :
    (Memory.cons a b m).read a = b := by
  unfold Memory.cons
  split
  · rename_i hb
    rw [Memory.read_below m (a + 1) a hm (by omega), hb]
  · simp [Memory.read]

/-- A written byte reads back, in canonical form. -/
theorem Memory.read_write_same (m : Memory) (low a : Nat) (b : Byte) (hm : Memory.wfFrom low m = true) :
    (m.write a b).read a = b := by
  induction m generalizing low with
  | nil => exact Memory.read_cons_same [] a b rfl
  | cons c rest ih =>
    obtain ⟨a', b'⟩ := c
    simp only [Memory.wfFrom, Bool.and_eq_true, decide_eq_true_eq] at hm
    simp only [Memory.write]
    split
    · exact Memory.read_cons_same _ a b (by simp [Memory.wfFrom, hm]; omega)
    · split
      · rename_i _ heq
        subst heq
        exact Memory.read_cons_same rest a b hm.2
      · rename_i hne
        simp only [Memory.read, if_neg hne]
        exact ih (a' + 1) hm.2

/-- Putting a cell in front keeps the canonical form. -/
theorem Memory.wfFrom_cons (m : Memory) (low a : Nat) (b : Byte) (ha : low ≤ a)
    (hm : Memory.wfFrom (a + 1) m = true) : Memory.wfFrom low (Memory.cons a b m) = true := by
  unfold Memory.cons
  split
  · exact Memory.wfFrom_mono m (a + 1) low hm (by omega)
  · rename_i hb
    simp [Memory.wfFrom, ha, hb, hm]

/-- A write keeps the canonical form above `low`, at or above `low`. -/
theorem Memory.wfFrom_write (m : Memory) (low a : Nat) (b : Byte) (ha : low ≤ a) (hm : Memory.wfFrom low m = true) :
    Memory.wfFrom low (m.write a b) = true := by
  induction m generalizing low with
  | nil => exact Memory.wfFrom_cons [] low a b ha rfl
  | cons c rest ih =>
    obtain ⟨a', b'⟩ := c
    simp only [Memory.wfFrom, Bool.and_eq_true, decide_eq_true_eq] at hm
    simp only [Memory.write]
    split
    · exact Memory.wfFrom_cons _ low a b ha (by simp [Memory.wfFrom, hm]; omega)
    · split
      · rename_i _ heq
        subst heq
        exact Memory.wfFrom_cons rest low a b ha hm.2
      · simp only [Memory.wfFrom, Bool.and_eq_true, decide_eq_true_eq]
        exact ⟨hm.1, ih (a' + 1) (by omega) hm.2⟩

/-- A write keeps the canonical form. -/
@[simp] theorem Memory.wf_write (m : Memory) (a : Nat) (b : Byte) (hm : m.wf = true) : (m.write a b).wf = true :=
  Memory.wfFrom_write m 0 a b (Nat.zero_le a) hm

/-- What every address reads as after a write, in canonical form. -/
theorem Memory.read_write (m : Memory) (a x : Nat) (b : Byte) (hm : m.wf = true) :
    (m.write a b).read x = if x = a then b else m.read x := by
  split
  · rename_i h
    subst h
    exact Memory.read_write_same m 0 x b hm
  · rename_i h
    exact Memory.read_write_ne m a x b h

/-! ## Runs of bytes -/

@[simp] theorem Memory.readRun_length (m : Memory) (a n : Nat) : (m.readRun a n).length = n := by
  induction n generalizing a with
  | zero => rfl
  | succ n ih => simp [Memory.readRun, ih]

/-- The bytes of a run. -/
theorem Memory.readRun_get (m : Memory) (a n k : Nat) (h : k < n) : (m.readRun a n)[k]? = some (m.read (a + k)) := by
  induction n generalizing a k with
  | zero => omega
  | succ n ih =>
    cases k with
    | zero => rfl
    | succ k =>
      simp only [Memory.readRun, List.getElem?_cons_succ]
      rw [ih (a + 1) k (by omega)]
      congr 2
      omega

/-- A run is its first part, then the rest. -/
theorem Memory.readRun_add (m : Memory) (a n k : Nat) :
    m.readRun a (n + k) = m.readRun a n ++ m.readRun (a + n) k := by
  induction n generalizing a with
  | zero => simp [Memory.readRun]
  | succ n ih =>
    rw [Nat.add_right_comm n 1 k]
    simp only [Memory.readRun, List.cons_append, ih (a + 1)]
    rw [Nat.add_right_comm a 1 n, Nat.add_assoc a n 1]

/-- Two memories that agree on a run give the same run. -/
theorem Memory.readRun_congr (m m' : Memory) (a n : Nat) (h : ∀ x, a ≤ x → x < a + n → m.read x = m'.read x) :
    m.readRun a n = m'.readRun a n := by
  induction n generalizing a with
  | zero => rfl
  | succ n ih =>
    simp only [Memory.readRun]
    rw [h a (by omega) (by omega), ih (a + 1) (fun x hx hx' => h x (by omega) (by omega))]

/-- A run of writes changes no address outside the run. -/
theorem Memory.read_writeRun_outside (m : Memory) (a x : Nat) (bytes : List Byte)
    (h : x < a ∨ a + bytes.length ≤ x) : (m.writeRun a bytes).read x = m.read x := by
  induction bytes generalizing m a with
  | nil => rfl
  | cons b bs ih =>
    simp only [List.length_cons] at h
    simp only [Memory.writeRun]
    rw [ih (m.write a b) (a + 1) (by omega), Memory.read_write_ne m a x b (by omega)]

/-- A run of writes keeps the canonical form. -/
@[simp] theorem Memory.wf_writeRun (m : Memory) (a : Nat) (bytes : List Byte) (hm : m.wf = true) :
    (m.writeRun a bytes).wf = true := by
  induction bytes generalizing m a with
  | nil => exact hm
  | cons b bs ih => exact ih _ (a + 1) (Memory.wf_write m a b hm)

/-- A run of writes reads back, in canonical form. -/
theorem Memory.readRun_writeRun (m : Memory) (a : Nat) (bytes : List Byte) (hm : m.wf = true) :
    (m.writeRun a bytes).readRun a bytes.length = bytes := by
  induction bytes generalizing m a with
  | nil => rfl
  | cons b bs ih =>
    simp only [List.length_cons, Memory.readRun, Memory.writeRun]
    rw [ih _ (a + 1) (Memory.wf_write m a b hm), Memory.read_writeRun_outside _ (a + 1) a bs (by omega),
      Memory.read_write_same m 0 a b hm]

/-- Two runs of writes in a row are one. -/
theorem Memory.writeRun_append (m : Memory) (a : Nat) (x y : List Byte) :
    m.writeRun a (x ++ y) = (m.writeRun a x).writeRun (a + x.length) y := by
  induction x generalizing m a with
  | nil => rfl
  | cons b bs ih =>
    simp only [List.cons_append, Memory.writeRun, ih, List.length_cons]
    rw [Nat.add_right_comm a 1 bs.length, Nat.add_assoc a bs.length 1]

/-! ## u16 arrays -/

@[simp] theorem Memory.readU16s_length (m : Memory) (a n : Nat) : (m.readU16s a n).length = n := by
  induction n generalizing a with
  | zero => rfl
  | succ n ih => simp [Memory.readU16s, ih]

@[simp] theorem u16Bytes_length (vs : List Nat) : (u16Bytes vs).length = 2 * vs.length := by
  induction vs with
  | nil => rfl
  | cons v vs ih => simp [u16Bytes, ih]; omega

/-- u16 elements written as bytes read back. -/
theorem Memory.readU16s_writeRun (m : Memory) (a : Nat) (vs : List Nat) (hm : m.wf = true)
    (hv : ∀ v ∈ vs, v < 65536) : (m.writeRun a (u16Bytes vs)).readU16s a vs.length = vs := by
  induction vs generalizing m a with
  | nil => rfl
  | cons v vs ih =>
    have hlt := hv v (by simp)
    simp only [u16Bytes, Memory.writeRun, List.length_cons, Memory.readU16s]
    rw [ih _ (a + 1 + 1) (Memory.wf_write _ _ _ (Memory.wf_write _ _ _ hm)) (fun w hw => hv w (by simp [hw])),
      Memory.read_writeRun_outside _ _ _ _ (by omega), Memory.read_writeRun_outside _ _ _ _ (by omega),
      Memory.read_write _ _ _ _ (Memory.wf_write _ _ _ hm), Memory.read_write _ _ _ _ (Memory.wf_write _ _ _ hm),
      Memory.read_write _ _ _ _ hm]
    simp
    omega

/-! ## Reset -/

/-- Reset memory lists nothing. -/
@[simp] theorem Memory.wf_reset : Memory.wf State.reset.port.mem = true := rfl

end Sys2Proof.Machine
end

