-- ==== Sys2Proof/Laws/State.lean ====
section
/-!
SUPPORT. What each update of the state, of the stream port and of the working pairs leaves in each field: one lemma
per field per update, so that no proof unfolds a record update.
-/

namespace Sys2Proof.Machine

/-! ## `return S` -/

@[simp] theorem State.ret_busy (s : State) (st : Status) :
    (s.ret st).busy = s.busy := rfl

@[simp] theorem State.ret_overrun (s : State) (st : Status) :
    (s.ret st).overrun = s.overrun := rfl

@[simp] theorem State.ret_result (s : State) (st : Status) :
    (s.ret st).result = st := rfl

@[simp] theorem State.ret_errcode (s : State) (st : Status) :
    (s.ret st).errcode = s.errcode := rfl

@[simp] theorem State.ret_port (s : State) (st : Status) :
    (s.ret st).port = s.port := rfl

@[simp] theorem State.ret_rval (s : State) (st : Status) :
    (s.ret st).rval = s.rval := rfl

@[simp] theorem State.ret_arg0 (s : State) (st : Status) :
    (s.ret st).arg0 = s.arg0 := rfl

@[simp] theorem State.ret_arg1 (s : State) (st : Status) :
    (s.ret st).arg1 = s.arg1 := rfl

@[simp] theorem State.ret_arg2 (s : State) (st : Status) :
    (s.ret st).arg2 = s.arg2 := rfl

@[simp] theorem State.ret_arg3 (s : State) (st : Status) :
    (s.ret st).arg3 = s.arg3 := rfl

@[simp] theorem State.ret_engine (s : State) (st : Status) :
    (s.ret st).engine = s.engine := rfl

@[simp] theorem State.ret_memTop (s : State) (st : Status) :
    (s.ret st).memTop = s.memTop := rfl

@[simp] theorem State.ret_hostQueue (s : State) (st : Status) :
    (s.ret st).hostQueue = s.hostQueue := rfl

@[simp] theorem State.ret_readData (s : State) (st : Status) :
    (s.ret st).readData = s.readData := rfl

/-! ## `raise Status(S, E)` -/

@[simp] theorem State.raise_busy (s : State) (st : Status) (code : BitVec 8) :
    (s.raise st code).busy = s.busy := rfl

@[simp] theorem State.raise_overrun (s : State) (st : Status) (code : BitVec 8) :
    (s.raise st code).overrun = s.overrun := rfl

@[simp] theorem State.raise_result (s : State) (st : Status) (code : BitVec 8) :
    (s.raise st code).result = st := rfl

@[simp] theorem State.raise_errcode (s : State) (st : Status) (code : BitVec 8) :
    (s.raise st code).errcode = code := rfl

@[simp] theorem State.raise_port (s : State) (st : Status) (code : BitVec 8) :
    (s.raise st code).port = s.port := rfl

@[simp] theorem State.raise_rval (s : State) (st : Status) (code : BitVec 8) :
    (s.raise st code).rval = s.rval := rfl

@[simp] theorem State.raise_arg0 (s : State) (st : Status) (code : BitVec 8) :
    (s.raise st code).arg0 = s.arg0 := rfl

@[simp] theorem State.raise_arg1 (s : State) (st : Status) (code : BitVec 8) :
    (s.raise st code).arg1 = s.arg1 := rfl

@[simp] theorem State.raise_arg2 (s : State) (st : Status) (code : BitVec 8) :
    (s.raise st code).arg2 = s.arg2 := rfl

@[simp] theorem State.raise_arg3 (s : State) (st : Status) (code : BitVec 8) :
    (s.raise st code).arg3 = s.arg3 := rfl

@[simp] theorem State.raise_engine (s : State) (st : Status) (code : BitVec 8) :
    (s.raise st code).engine = s.engine := rfl

@[simp] theorem State.raise_memTop (s : State) (st : Status) (code : BitVec 8) :
    (s.raise st code).memTop = s.memTop := rfl

@[simp] theorem State.raise_hostQueue (s : State) (st : Status) (code : BitVec 8) :
    (s.raise st code).hostQueue = s.hostQueue := rfl

@[simp] theorem State.raise_readData (s : State) (st : Status) (code : BitVec 8) :
    (s.raise st code).readData = s.readData := rfl

/-! ## The entry-check error -/

@[simp] theorem State.misuse_busy (s : State) :
    (s.misuse).busy = s.busy := rfl

@[simp] theorem State.misuse_overrun (s : State) :
    (s.misuse).overrun = s.overrun := rfl

@[simp] theorem State.misuse_result (s : State) :
    (s.misuse).result = .streamError := rfl

@[simp] theorem State.misuse_errcode (s : State) :
    (s.misuse).errcode = 20#8 := rfl

@[simp] theorem State.misuse_port (s : State) :
    (s.misuse).port = s.port := rfl

@[simp] theorem State.misuse_rval (s : State) :
    (s.misuse).rval = s.rval := rfl

@[simp] theorem State.misuse_arg0 (s : State) :
    (s.misuse).arg0 = s.arg0 := rfl

@[simp] theorem State.misuse_arg1 (s : State) :
    (s.misuse).arg1 = s.arg1 := rfl

@[simp] theorem State.misuse_arg2 (s : State) :
    (s.misuse).arg2 = s.arg2 := rfl

@[simp] theorem State.misuse_arg3 (s : State) :
    (s.misuse).arg3 = s.arg3 := rfl

@[simp] theorem State.misuse_engine (s : State) :
    (s.misuse).engine = s.engine := rfl

@[simp] theorem State.misuse_memTop (s : State) :
    (s.misuse).memTop = s.memTop := rfl

@[simp] theorem State.misuse_hostQueue (s : State) :
    (s.misuse).hostQueue = s.hostQueue := rfl

@[simp] theorem State.misuse_readData (s : State) :
    (s.misuse).readData = s.readData := rfl

/-! ## The state after a compressor run -/

@[simp] theorem State.withDRun_busy (s : State) (r : DRun) :
    (s.withDRun r).busy = s.busy := rfl

@[simp] theorem State.withDRun_overrun (s : State) (r : DRun) :
    (s.withDRun r).overrun = s.overrun := rfl

@[simp] theorem State.withDRun_result (s : State) (r : DRun) :
    (s.withDRun r).result = s.result := rfl

@[simp] theorem State.withDRun_errcode (s : State) (r : DRun) :
    (s.withDRun r).errcode = s.errcode := rfl

@[simp] theorem State.withDRun_port (s : State) (r : DRun) :
    (s.withDRun r).port = r.port := rfl

@[simp] theorem State.withDRun_rval (s : State) (r : DRun) :
    (s.withDRun r).rval = s.rval := rfl

@[simp] theorem State.withDRun_arg0 (s : State) (r : DRun) :
    (s.withDRun r).arg0 = s.arg0 := rfl

@[simp] theorem State.withDRun_arg1 (s : State) (r : DRun) :
    (s.withDRun r).arg1 = s.arg1 := rfl

@[simp] theorem State.withDRun_arg2 (s : State) (r : DRun) :
    (s.withDRun r).arg2 = s.arg2 := rfl

@[simp] theorem State.withDRun_arg3 (s : State) (r : DRun) :
    (s.withDRun r).arg3 = s.arg3 := rfl

@[simp] theorem State.withDRun_engine (s : State) (r : DRun) :
    (s.withDRun r).engine = .deflate r.c := rfl

@[simp] theorem State.withDRun_memTop (s : State) (r : DRun) :
    (s.withDRun r).memTop = s.memTop := rfl

@[simp] theorem State.withDRun_hostQueue (s : State) (r : DRun) :
    (s.withDRun r).hostQueue = s.hostQueue := rfl

@[simp] theorem State.withDRun_readData (s : State) (r : DRun) :
    (s.withDRun r).readData = s.readData := rfl

/-! ## The state after a decompressor run -/

@[simp] theorem State.withIRun_busy (s : State) (r : IRun) :
    (s.withIRun r).busy = s.busy := rfl

@[simp] theorem State.withIRun_overrun (s : State) (r : IRun) :
    (s.withIRun r).overrun = s.overrun := rfl

@[simp] theorem State.withIRun_result (s : State) (r : IRun) :
    (s.withIRun r).result = s.result := rfl

@[simp] theorem State.withIRun_errcode (s : State) (r : IRun) :
    (s.withIRun r).errcode = s.errcode := rfl

@[simp] theorem State.withIRun_port (s : State) (r : IRun) :
    (s.withIRun r).port = r.port := rfl

@[simp] theorem State.withIRun_rval (s : State) (r : IRun) :
    (s.withIRun r).rval = s.rval := rfl

@[simp] theorem State.withIRun_arg0 (s : State) (r : IRun) :
    (s.withIRun r).arg0 = s.arg0 := rfl

@[simp] theorem State.withIRun_arg1 (s : State) (r : IRun) :
    (s.withIRun r).arg1 = s.arg1 := rfl

@[simp] theorem State.withIRun_arg2 (s : State) (r : IRun) :
    (s.withIRun r).arg2 = s.arg2 := rfl

@[simp] theorem State.withIRun_arg3 (s : State) (r : IRun) :
    (s.withIRun r).arg3 = s.arg3 := rfl

@[simp] theorem State.withIRun_engine (s : State) (r : IRun) :
    (s.withIRun r).engine = .inflate r.d := rfl

@[simp] theorem State.withIRun_memTop (s : State) (r : IRun) :
    (s.withIRun r).memTop = s.memTop := rfl

@[simp] theorem State.withIRun_hostQueue (s : State) (r : IRun) :
    (s.withIRun r).hostQueue = s.hostQueue := rfl

@[simp] theorem State.withIRun_readData (s : State) (r : IRun) :
    (s.withIRun r).readData = s.readData := rfl

/-! ## The hardware reset -/

@[simp] theorem State.hardReset_busy (s : State) :
    (s.hardReset).busy = false := rfl

@[simp] theorem State.hardReset_overrun (s : State) :
    (s.hardReset).overrun = false := rfl

@[simp] theorem State.hardReset_result (s : State) :
    (s.hardReset).result = .ok := rfl

@[simp] theorem State.hardReset_errcode (s : State) :
    (s.hardReset).errcode = 0#8 := rfl

@[simp] theorem State.hardReset_port (s : State) :
    (s.hardReset).port = Port.reset s.port.mem := rfl

@[simp] theorem State.hardReset_rval (s : State) :
    (s.hardReset).rval = 0#32 := rfl

@[simp] theorem State.hardReset_arg0 (s : State) :
    (s.hardReset).arg0 = 0#32 := rfl

@[simp] theorem State.hardReset_arg1 (s : State) :
    (s.hardReset).arg1 = 0#32 := rfl

@[simp] theorem State.hardReset_arg2 (s : State) :
    (s.hardReset).arg2 = 0#32 := rfl

@[simp] theorem State.hardReset_arg3 (s : State) :
    (s.hardReset).arg3 = 0#32 := rfl

@[simp] theorem State.hardReset_engine (s : State) :
    (s.hardReset).engine = .none := rfl

@[simp] theorem State.hardReset_memTop (s : State) :
    (s.hardReset).memTop = s.memTop := rfl

@[simp] theorem State.hardReset_hostQueue (s : State) :
    (s.hardReset).hostQueue = s.hostQueue := rfl

@[simp] theorem State.hardReset_readData (s : State) :
    (s.hardReset).readData = s.readData := rfl

/-! ## Consuming input -/

@[simp] theorem Port.consume_nextIn (p : Port) (k : Nat) :
    (p.consume k).nextIn = p.nextIn + Word.ofNat k := rfl

@[simp] theorem Port.consume_availIn (p : Port) (k : Nat) :
    (p.consume k).availIn = p.availIn - Word.ofNat k := rfl

@[simp] theorem Port.consume_totalIn (p : Port) (k : Nat) :
    (p.consume k).totalIn = p.totalIn + Word.ofNat k := rfl

@[simp] theorem Port.consume_nextOut (p : Port) (k : Nat) :
    (p.consume k).nextOut = p.nextOut := rfl

@[simp] theorem Port.consume_availOut (p : Port) (k : Nat) :
    (p.consume k).availOut = p.availOut := rfl

@[simp] theorem Port.consume_totalOut (p : Port) (k : Nat) :
    (p.consume k).totalOut = p.totalOut := rfl

@[simp] theorem Port.consume_adler (p : Port) (k : Nat) :
    (p.consume k).adler = p.adler := rfl

@[simp] theorem Port.consume_mem (p : Port) (k : Nat) :
    (p.consume k).mem = p.mem := rfl

/-! ## Delivering output -/

@[simp] theorem Port.deliver_nextIn (p : Port) (bytes : List Byte) :
    (p.deliver bytes).nextIn = p.nextIn := rfl

@[simp] theorem Port.deliver_availIn (p : Port) (bytes : List Byte) :
    (p.deliver bytes).availIn = p.availIn := rfl

@[simp] theorem Port.deliver_totalIn (p : Port) (bytes : List Byte) :
    (p.deliver bytes).totalIn = p.totalIn := rfl

@[simp] theorem Port.deliver_nextOut (p : Port) (bytes : List Byte) :
    (p.deliver bytes).nextOut = p.nextOut + Word.ofNat bytes.length := rfl

@[simp] theorem Port.deliver_availOut (p : Port) (bytes : List Byte) :
    (p.deliver bytes).availOut = p.availOut - Word.ofNat bytes.length := rfl

@[simp] theorem Port.deliver_totalOut (p : Port) (bytes : List Byte) :
    (p.deliver bytes).totalOut = p.totalOut + Word.ofNat bytes.length := rfl

@[simp] theorem Port.deliver_adler (p : Port) (bytes : List Byte) :
    (p.deliver bytes).adler = p.adler := rfl

@[simp] theorem Port.deliver_mem (p : Port) (bytes : List Byte) :
    (p.deliver bytes).mem = p.mem.writeRun p.nextOut.toNat bytes := rfl

/-! ## The register part of a stream reset -/

@[simp] theorem Port.streamReset_nextIn (p : Port) :
    (p.streamReset).nextIn = p.nextIn := rfl

@[simp] theorem Port.streamReset_availIn (p : Port) :
    (p.streamReset).availIn = p.availIn := rfl

@[simp] theorem Port.streamReset_totalIn (p : Port) :
    (p.streamReset).totalIn = 0#32 := rfl

@[simp] theorem Port.streamReset_nextOut (p : Port) :
    (p.streamReset).nextOut = p.nextOut := rfl

@[simp] theorem Port.streamReset_availOut (p : Port) :
    (p.streamReset).availOut = p.availOut := rfl

@[simp] theorem Port.streamReset_totalOut (p : Port) :
    (p.streamReset).totalOut = 0#32 := rfl

@[simp] theorem Port.streamReset_adler (p : Port) :
    (p.streamReset).adler = 1#32 := rfl

@[simp] theorem Port.streamReset_mem (p : Port) :
    (p.streamReset).mem = p.mem := rfl

/-! ## The register part of a hardware reset -/

@[simp] theorem Port.reset_nextIn (m : Memory) :
    (Port.reset m).nextIn = 0#32 := rfl

@[simp] theorem Port.reset_availIn (m : Memory) :
    (Port.reset m).availIn = 0#32 := rfl

@[simp] theorem Port.reset_totalIn (m : Memory) :
    (Port.reset m).totalIn = 0#32 := rfl

@[simp] theorem Port.reset_nextOut (m : Memory) :
    (Port.reset m).nextOut = 0#32 := rfl

@[simp] theorem Port.reset_availOut (m : Memory) :
    (Port.reset m).availOut = 0#32 := rfl

@[simp] theorem Port.reset_totalOut (m : Memory) :
    (Port.reset m).totalOut = 0#32 := rfl

@[simp] theorem Port.reset_adler (m : Memory) :
    (Port.reset m).adler = 1#32 := rfl

@[simp] theorem Port.reset_mem (m : Memory) :
    (Port.reset m).mem = m := rfl

/-! ## Ends of a command, and the decompressor's run -/

@[simp] theorem State.finish_ret (s : State) (st : Status) : s.finish (.ret st) = s.ret st := rfl

@[simp] theorem State.finish_raise (s : State) (st : Status) (code : BitVec 8) :
    s.finish (.raise st code) = s.raise st code := rfl

/-- The end of a command writes RESULT, and ERRCODE at most. -/
theorem State.finish_eq (s : State) (e : Ending) :
    s.finish e = { s with result := e.status, errcode := (s.finish e).errcode } := by
  cases e <;> rfl

@[simp] theorem State.finish_result (s : State) (e : Ending) : (s.finish e).result = e.status := by cases e <;> rfl

@[simp] theorem State.finish_port (s : State) (e : Ending) : (s.finish e).port = s.port := by cases e <;> rfl

@[simp] theorem State.finish_engine (s : State) (e : Ending) : (s.finish e).engine = s.engine := by cases e <;> rfl

@[simp] theorem IRun.withD_port (r : IRun) (d : Decompressor) : (r.withD d).port = r.port := rfl

@[simp] theorem IRun.withD_d (r : IRun) (d : Decompressor) : (r.withD d).d = d := rfl

@[simp] theorem IRun.go_eq (r : IRun) (d : Decompressor) : r.go d = .go (r.withD d) := rfl

@[simp] theorem IRun.bad_eq (r : IRun) (e : BitVec 8) : r.bad e = .ended (r.withD (r.d.toBad e 0)) .dataError := rfl

@[simp] theorem IRun.badFinal_eq (r : IRun) (e : BitVec 8) :
    r.badFinal e = .ended (r.withD (r.d.toBad e 5)) .dataError := rfl

/-! ## Updates of the compressor that leave what the port and the parameters show -/

@[simp] theorem Compressor.initBlock_level (c : Compressor) :
    (c.initBlock).level = c.level := rfl

@[simp] theorem Compressor.initBlock_strategy (c : Compressor) :
    (c.initBlock).strategy = c.strategy := rfl

@[simp] theorem Compressor.initBlock_wBits (c : Compressor) :
    (c.initBlock).wBits = c.wBits := rfl

@[simp] theorem Compressor.initBlock_memLevel (c : Compressor) :
    (c.initBlock).memLevel = c.memLevel := rfl

@[simp] theorem Compressor.initBlock_config (c : Compressor) :
    (c.initBlock).config = c.config := rfl

@[simp] theorem Compressor.initBlock_win (c : Compressor) :
    (c.initBlock).win = c.win := rfl

@[simp] theorem Compressor.initBlock_head (c : Compressor) :
    (c.initBlock).head = c.head := rfl

@[simp] theorem Compressor.initBlock_prev (c : Compressor) :
    (c.initBlock).prev = c.prev := rfl

@[simp] theorem Compressor.initBlock_insH (c : Compressor) :
    (c.initBlock).insH = c.insH := rfl

@[simp] theorem Compressor.initBlock_strstart (c : Compressor) :
    (c.initBlock).strstart = c.strstart := rfl

@[simp] theorem Compressor.initBlock_blockStart (c : Compressor) :
    (c.initBlock).blockStart = c.blockStart := rfl

@[simp] theorem Compressor.initBlock_lookahead (c : Compressor) :
    (c.initBlock).lookahead = c.lookahead := rfl

@[simp] theorem Compressor.initBlock_matchLength (c : Compressor) :
    (c.initBlock).matchLength = c.matchLength := rfl

@[simp] theorem Compressor.initBlock_prevLength (c : Compressor) :
    (c.initBlock).prevLength = c.prevLength := rfl

@[simp] theorem Compressor.initBlock_matchStart (c : Compressor) :
    (c.initBlock).matchStart = c.matchStart := rfl

@[simp] theorem Compressor.initBlock_prevMatch (c : Compressor) :
    (c.initBlock).prevMatch = c.prevMatch := rfl

@[simp] theorem Compressor.initBlock_matchAvailable (c : Compressor) :
    (c.initBlock).matchAvailable = c.matchAvailable := rfl

@[simp] theorem Compressor.initBlock_dstate (c : Compressor) :
    (c.initBlock).dstate = c.dstate := rfl

@[simp] theorem Compressor.initBlock_lastFlush (c : Compressor) :
    (c.initBlock).lastFlush = c.lastFlush := rfl

@[simp] theorem Compressor.initBlock_pending (c : Compressor) :
    (c.initBlock).pending = c.pending := rfl

@[simp] theorem Compressor.initBlock_biBuf (c : Compressor) :
    (c.initBlock).biBuf = c.biBuf := rfl

@[simp] theorem Compressor.initBlock_biValid (c : Compressor) :
    (c.initBlock).biValid = c.biValid := rfl

@[simp] theorem Compressor.initBlock_sym (c : Compressor) :
    (c.initBlock).sym = c.sym := rfl

@[simp] theorem Compressor.initBlock_overflowed (c : Compressor) :
    (c.initBlock).overflowed = c.overflowed := rfl

@[simp] theorem Compressor.advance_level (c : Compressor) :
    (c.advance).level = c.level := rfl

@[simp] theorem Compressor.advance_strategy (c : Compressor) :
    (c.advance).strategy = c.strategy := rfl

@[simp] theorem Compressor.advance_wBits (c : Compressor) :
    (c.advance).wBits = c.wBits := rfl

@[simp] theorem Compressor.advance_memLevel (c : Compressor) :
    (c.advance).memLevel = c.memLevel := rfl

@[simp] theorem Compressor.advance_config (c : Compressor) :
    (c.advance).config = c.config := rfl

@[simp] theorem Compressor.advance_win (c : Compressor) :
    (c.advance).win = c.win := rfl

@[simp] theorem Compressor.advance_head (c : Compressor) :
    (c.advance).head = c.head := rfl

@[simp] theorem Compressor.advance_prev (c : Compressor) :
    (c.advance).prev = c.prev := rfl

@[simp] theorem Compressor.advance_insH (c : Compressor) :
    (c.advance).insH = c.insH := rfl

@[simp] theorem Compressor.advance_blockStart (c : Compressor) :
    (c.advance).blockStart = c.blockStart := rfl

@[simp] theorem Compressor.advance_matchLength (c : Compressor) :
    (c.advance).matchLength = c.matchLength := rfl

@[simp] theorem Compressor.advance_prevLength (c : Compressor) :
    (c.advance).prevLength = c.prevLength := rfl

@[simp] theorem Compressor.advance_matchStart (c : Compressor) :
    (c.advance).matchStart = c.matchStart := rfl

@[simp] theorem Compressor.advance_prevMatch (c : Compressor) :
    (c.advance).prevMatch = c.prevMatch := rfl

@[simp] theorem Compressor.advance_matchAvailable (c : Compressor) :
    (c.advance).matchAvailable = c.matchAvailable := rfl

@[simp] theorem Compressor.advance_dstate (c : Compressor) :
    (c.advance).dstate = c.dstate := rfl

@[simp] theorem Compressor.advance_lastFlush (c : Compressor) :
    (c.advance).lastFlush = c.lastFlush := rfl

@[simp] theorem Compressor.advance_pending (c : Compressor) :
    (c.advance).pending = c.pending := rfl

@[simp] theorem Compressor.advance_biBuf (c : Compressor) :
    (c.advance).biBuf = c.biBuf := rfl

@[simp] theorem Compressor.advance_biValid (c : Compressor) :
    (c.advance).biValid = c.biValid := rfl

@[simp] theorem Compressor.advance_sym (c : Compressor) :
    (c.advance).sym = c.sym := rfl

@[simp] theorem Compressor.advance_lastLit (c : Compressor) :
    (c.advance).lastLit = c.lastLit := rfl

@[simp] theorem Compressor.advance_matchCount (c : Compressor) :
    (c.advance).matchCount = c.matchCount := rfl

@[simp] theorem Compressor.advance_lfreq (c : Compressor) :
    (c.advance).lfreq = c.lfreq := rfl

@[simp] theorem Compressor.advance_dfreq (c : Compressor) :
    (c.advance).dfreq = c.dfreq := rfl

@[simp] theorem Compressor.advance_overflowed (c : Compressor) :
    (c.advance).overflowed = c.overflowed := rfl

@[simp] theorem Compressor.insertString_level (c : Compressor) (pos : Nat) :
    (c.insertString pos).level = c.level := rfl

@[simp] theorem Compressor.insertString_strategy (c : Compressor) (pos : Nat) :
    (c.insertString pos).strategy = c.strategy := rfl

@[simp] theorem Compressor.insertString_wBits (c : Compressor) (pos : Nat) :
    (c.insertString pos).wBits = c.wBits := rfl

@[simp] theorem Compressor.insertString_memLevel (c : Compressor) (pos : Nat) :
    (c.insertString pos).memLevel = c.memLevel := rfl

@[simp] theorem Compressor.insertString_config (c : Compressor) (pos : Nat) :
    (c.insertString pos).config = c.config := rfl

@[simp] theorem Compressor.insertString_win (c : Compressor) (pos : Nat) :
    (c.insertString pos).win = c.win := rfl

@[simp] theorem Compressor.insertString_strstart (c : Compressor) (pos : Nat) :
    (c.insertString pos).strstart = c.strstart := rfl

@[simp] theorem Compressor.insertString_blockStart (c : Compressor) (pos : Nat) :
    (c.insertString pos).blockStart = c.blockStart := rfl

@[simp] theorem Compressor.insertString_lookahead (c : Compressor) (pos : Nat) :
    (c.insertString pos).lookahead = c.lookahead := rfl

@[simp] theorem Compressor.insertString_matchLength (c : Compressor) (pos : Nat) :
    (c.insertString pos).matchLength = c.matchLength := rfl

@[simp] theorem Compressor.insertString_prevLength (c : Compressor) (pos : Nat) :
    (c.insertString pos).prevLength = c.prevLength := rfl

@[simp] theorem Compressor.insertString_matchStart (c : Compressor) (pos : Nat) :
    (c.insertString pos).matchStart = c.matchStart := rfl

@[simp] theorem Compressor.insertString_prevMatch (c : Compressor) (pos : Nat) :
    (c.insertString pos).prevMatch = c.prevMatch := rfl

@[simp] theorem Compressor.insertString_matchAvailable (c : Compressor) (pos : Nat) :
    (c.insertString pos).matchAvailable = c.matchAvailable := rfl

@[simp] theorem Compressor.insertString_dstate (c : Compressor) (pos : Nat) :
    (c.insertString pos).dstate = c.dstate := rfl

@[simp] theorem Compressor.insertString_lastFlush (c : Compressor) (pos : Nat) :
    (c.insertString pos).lastFlush = c.lastFlush := rfl

@[simp] theorem Compressor.insertString_pending (c : Compressor) (pos : Nat) :
    (c.insertString pos).pending = c.pending := rfl

@[simp] theorem Compressor.insertString_biBuf (c : Compressor) (pos : Nat) :
    (c.insertString pos).biBuf = c.biBuf := rfl

@[simp] theorem Compressor.insertString_biValid (c : Compressor) (pos : Nat) :
    (c.insertString pos).biValid = c.biValid := rfl

@[simp] theorem Compressor.insertString_sym (c : Compressor) (pos : Nat) :
    (c.insertString pos).sym = c.sym := rfl

@[simp] theorem Compressor.insertString_lastLit (c : Compressor) (pos : Nat) :
    (c.insertString pos).lastLit = c.lastLit := rfl

@[simp] theorem Compressor.insertString_matchCount (c : Compressor) (pos : Nat) :
    (c.insertString pos).matchCount = c.matchCount := rfl

@[simp] theorem Compressor.insertString_lfreq (c : Compressor) (pos : Nat) :
    (c.insertString pos).lfreq = c.lfreq := rfl

@[simp] theorem Compressor.insertString_dfreq (c : Compressor) (pos : Nat) :
    (c.insertString pos).dfreq = c.dfreq := rfl

@[simp] theorem Compressor.insertString_overflowed (c : Compressor) (pos : Nat) :
    (c.insertString pos).overflowed = c.overflowed := rfl

/-! ## Leaving the dictionary wait -/

/-- Leaving the dictionary wait touches ADLER only (R41). -/
theorem Port.leaveWait_eq (p : Port) (d : Decompressor) :
    p.leaveWait d = { p with adler := if d.mode = .waitForDictionary then d.check else p.adler } := by
  unfold Port.leaveWait
  split <;> rfl

@[simp] theorem Port.leaveWait_mem (p : Port) (d : Decompressor) : (p.leaveWait d).mem = p.mem := by
  rw [Port.leaveWait_eq]

@[simp] theorem Port.leaveWait_nextIn (p : Port) (d : Decompressor) : (p.leaveWait d).nextIn = p.nextIn := by
  rw [Port.leaveWait_eq]

@[simp] theorem Port.leaveWait_availIn (p : Port) (d : Decompressor) : (p.leaveWait d).availIn = p.availIn := by
  rw [Port.leaveWait_eq]

@[simp] theorem Port.leaveWait_totalIn (p : Port) (d : Decompressor) : (p.leaveWait d).totalIn = p.totalIn := by
  rw [Port.leaveWait_eq]

@[simp] theorem Port.leaveWait_nextOut (p : Port) (d : Decompressor) : (p.leaveWait d).nextOut = p.nextOut := by
  rw [Port.leaveWait_eq]

@[simp] theorem Port.leaveWait_availOut (p : Port) (d : Decompressor) : (p.leaveWait d).availOut = p.availOut := by
  rw [Port.leaveWait_eq]

@[simp] theorem Port.leaveWait_totalOut (p : Port) (d : Decompressor) : (p.leaveWait d).totalOut = p.totalOut := by
  rw [Port.leaveWait_eq]

@[simp] theorem State.enterBad_port (s : State) (d : Decompressor) : (s.enterBad d).port = s.port.leaveWait d := rfl
@[simp] theorem State.enterBad_engine (s : State) (d : Decompressor) :
    (s.enterBad d).engine = .inflate d.enterBad := rfl
@[simp] theorem State.enterBad_rval (s : State) (d : Decompressor) : (s.enterBad d).rval = s.rval := rfl
@[simp] theorem State.enterBad_errcode (s : State) (d : Decompressor) : (s.enterBad d).errcode = s.errcode := rfl

end Sys2Proof.Machine
end

