-- ==== Sys2Proof/Laws/Operands.lean ====
section
/-!
SUPPORT. The range checks in plain arithmetic, and the stream port under two moves in a row.
-/

namespace Sys2Proof.Machine

/-- Validity of a range in plain arithmetic (R76). -/
theorem validRange_iff (memSize a n : Nat) : validRange memSize a n = true ↔ (n = 0 ∨ a + n ≤ memSize) := by
  simp [validRange]

/-- Overlap of two ranges in plain arithmetic (R77): they share an address. -/
theorem overlap_iff (a n b m : Nat) :
    overlap a n b m = true ↔ ∃ x, (a ≤ x ∧ x < a + n) ∧ (b ≤ x ∧ x < b + m) := by
  simp only [overlap, Bool.and_eq_true, decide_eq_true_eq]
  constructor
  · rintro ⟨⟨⟨hn, hm⟩, h1⟩, h2⟩
    exact ⟨max a b, by omega, by omega⟩
  · rintro ⟨x, ⟨h1, h2⟩, h3, h4⟩
    omega

/-- The stream range checks, in parts. -/
theorem State.streamRangesOk_iff (s : State) :
    s.streamRangesOk = true
      ↔ validRange s.memSize s.port.nextIn.toNat s.port.availIn.toNat = true
        ∧ validRange s.memSize s.port.nextOut.toNat s.port.availOut.toNat = true
        ∧ overlap s.port.nextIn.toNat s.port.availIn.toNat s.port.nextOut.toNat s.port.availOut.toNat = false := by
  simp [State.streamRangesOk, and_assoc]

/-- MEM_SIZE is between 1 and 2^32 (R9). -/
theorem State.memSize_bounds (s : State) : 1 ≤ s.memSize ∧ s.memSize ≤ 2 ^ 32 := by
  unfold State.memSize
  have := s.memTop.isLt
  omega

/-- Consuming in two parts is consuming at once. -/
theorem Port.consume_consume (p : Port) (j k : Nat) : (p.consume j).consume k = p.consume (j + k) := by
  simp only [Port.consume, Word.ofNat]
  congr 1
  · rw [BitVec.add_assoc, BitVec.ofNat_add]
  · rw [BitVec.sub_sub, BitVec.ofNat_add]
  · rw [BitVec.add_assoc, BitVec.ofNat_add]

@[simp] theorem Port.consume_zero (p : Port) : p.consume 0 = p := by
  simp [Port.consume, Word.ofNat]

@[simp] theorem Port.deliver_nil (p : Port) : p.deliver [] = p := by
  simp [Port.deliver, Word.ofNat, Memory.writeRun]

/-- Delivering in two parts is delivering at once, when the output range does not wrap around. -/
theorem Port.deliver_deliver (p : Port) (x y : List Byte) (h : p.nextOut.toNat + x.length < 2 ^ 32) :
    (p.deliver x).deliver y = p.deliver (x ++ y) := by
  have hn : (p.nextOut + Word.ofNat x.length).toNat = p.nextOut.toNat + x.length := by
    simp only [Word.ofNat, BitVec.toNat_add, BitVec.toNat_ofNat]
    omega
  simp only [Port.deliver, hn, Memory.writeRun_append, List.length_append, Word.ofNat, BitVec.ofNat_add]
  congr 1
  · rw [BitVec.add_assoc]
  · rw [BitVec.sub_sub]
  · rw [BitVec.add_assoc]

/-- Delivering keeps the canonical form of buffer memory. -/
@[simp] theorem Port.deliver_wf (p : Port) (bytes : List Byte) (h : Memory.wf p.mem = true) :
    Memory.wf (p.deliver bytes).mem = true := Memory.wf_writeRun _ _ _ h

/-! ## Register offsets -/

/-- Only offset 0 is CMD. -/
theorem registerAt_cmd (offset : Nat) (h : registerAt offset = some .cmd) : offset = 0 := by
  unfold registerAt at h
  split at h
  · cases h
  · rename_i hm
    split at h <;> (try cases h) <;> (try omega)
    split at h <;> cases h

/-- An aligned offset inside the window is some register. -/
theorem registerAt_isSome (offset : Nat) (h : offset % 4 = 0) (h' : offset ≤ 0x7C) :
    (registerAt offset).isSome = true := by
  unfold registerAt
  rw [if_neg (by omega)]
  split <;> try rfl
  rw [if_pos (by omega)]
  rfl

end Sys2Proof.Machine
end

