-- ==== Sys2Proof/Laws/Exec.lean ====
section
/-!
SUPPORT. Everything a command can answer, and everything a step can do: one inversion lemma per command and one per
host action, so that no later proof unfolds a meaning.
-/

namespace Sys2Proof.Machine

/-- DINIT (R440). -/
theorem execDinit_cases {level wbits memLevel strategy : Nat} {s t : State}
    (h : execDinit level wbits memLevel strategy s = .next t) :
    t = s.misuse
      ∨ (s.engine.isOpen = false ∧ dinitFieldsOk level wbits memLevel strategy = true
          ∧ t = s.raise .memError 23#8)
      ∨ (s.engine.isOpen = false ∧ dinitFieldsOk level wbits memLevel strategy = true
          ∧ t = { s with
                result := .ok, errcode := 0#8, port := s.port.streamReset,
                engine := .deflate (Compressor.opened level wbits memLevel strategy) }) := by
  unfold execDinit at h
  split at h
  · cases h; exact .inl rfl
  · split at h
    · cases h; exact .inl rfl
    · split at h <;> (cases h; simp_all)

/-- With the decided parameters, DINIT's MemError cannot happen (R440). -/
theorem execDinit_fits {level wbits memLevel strategy : Nat}
    (h : dinitFieldsOk level wbits memLevel strategy = true) :
    ¬ (Config.hwMaxWbits < wbits ∨ Config.hwMaxMemLevel < memLevel) := by
  simp only [dinitFieldsOk, Bool.and_eq_true, decide_eq_true_eq] at h
  simp only [Config.hwMaxWbits, Config.hwMaxMemLevel]
  omega

/-- DSETDICT (R452). -/
theorem execDsetdict_cases {s t : State} (h : execDsetdict s = .next t) :
    t = s.misuse
      ∨ ∃ c, s.engine = .deflate c ∧ c.dstate = .init ∧ c.strstart = 0 ∧ s.port.adler = 1#32
          ∧ s.dictRangeOk = true ∧ t = s.setDict c := by
  unfold execDsetdict at h
  split at h
  · rename_i c hc
    split at h
    · cases h; exact .inl rfl
    · rename_i h1
      split at h
      · cases h; exact .inl rfl
      · rename_i h2
        cases h
        simp only [not_or, Decidable.not_not] at h1
        simp only [Bool.not_eq_true, Bool.not_eq_false'] at h2
        exact .inr ⟨c, hc, h1.1, h1.2.1, h1.2.2, by simpa using h2, rfl⟩
  · cases h; exact .inl rfl
  · cases h; exact .inl rfl

/-- DEFLATE (R430). -/
theorem execDeflate_cases {flush : Nat} {s t : State} (h : execDeflate flush s = .next t) :
    t = s.misuse
      ∨ ∃ c, s.engine = .deflate c ∧ flush ≤ 4 ∧ s.streamRangesOk = true
          ∧ (DRun.deflate ⟨s.port, c⟩ flush).1.c.overflowed = false
          ∧ t = (s.withDRun (DRun.deflate ⟨s.port, c⟩ flush).1).finish (DRun.deflate ⟨s.port, c⟩ flush).2 := by
  unfold execDeflate at h
  split at h
  · rename_i c hc
    split at h
    · cases h; exact .inl rfl
    · rename_i h1
      split at h
      · cases h; exact .inl rfl
      · rename_i h2
        simp only [] at h
        split at h
        · cases h
        · rename_i h3
          cases h
          exact .inr ⟨c, hc, by omega, by simpa using h2, by simpa using h3, rfl⟩
  · cases h; exact .inl rfl
  · cases h; exact .inl rfl

/-- DPARAMS (R457). -/
theorem execDparams_cases {level strategy : Nat} {s t : State} (h : execDparams level strategy s = .next t) :
    t = s.misuse
      ∨ ∃ c, s.engine = .deflate c ∧ level ≤ 9 ∧ strategy ≤ 2 ∧ s.streamRangesOk = true
          ∧ (DRun.params ⟨s.port, c⟩ level strategy).1.c.overflowed = false
          ∧ t = (s.withDRun (DRun.params ⟨s.port, c⟩ level strategy).1).finish
              (DRun.params ⟨s.port, c⟩ level strategy).2 := by
  unfold execDparams at h
  split at h
  · rename_i c hc
    split at h
    · cases h; exact .inl rfl
    · rename_i h1
      split at h
      · cases h; exact .inl rfl
      · rename_i h2
        simp only [] at h
        split at h
        · cases h
        · rename_i h3
          cases h
          exact .inr ⟨c, hc, by omega, by omega, by simpa using h2, by simpa using h3, rfl⟩
  · cases h; exact .inl rfl
  · cases h; exact .inl rfl

/-- DRESET (R458). -/
theorem execDreset_cases {s t : State} (h : execDreset s = .next t) :
    t = s.misuse
      ∨ ∃ c, s.engine = .deflate c
          ∧ t = { s with
                result := .ok, errcode := 0#8, port := s.port.streamReset, engine := .deflate c.deflateReset } := by
  unfold execDreset at h
  split at h
  · rename_i c hc; cases h; exact .inr ⟨c, hc, rfl⟩
  · cases h; exact .inl rfl
  · cases h; exact .inl rfl

/-- DEND (R459). -/
theorem execDend_cases {s t : State} (h : execDend s = .next t) :
    t = s.misuse
      ∨ ∃ c, s.engine = .deflate c
          ∧ ((c.dstate = .busy ∧ t = { s with engine := .none, result := .dataError, errcode := 22#8 })
            ∨ (c.dstate ≠ .busy ∧ t = { s with engine := .none, result := .ok, errcode := 0#8 })) := by
  unfold execDend at h
  split at h
  · rename_i c hc
    split at h
    · rename_i hb; cases h; exact .inr ⟨c, hc, .inl ⟨hb, rfl⟩⟩
    · rename_i hb; cases h; exact .inr ⟨c, hc, .inr ⟨hb, rfl⟩⟩
  · cases h; exact .inl rfl
  · cases h; exact .inl rfl

/-- IINIT (R510). -/
theorem execIinit_cases {wbits : Nat} {s t : State} (h : execIinit wbits s = .next t) :
    t = s.misuse
      ∨ (s.engine.isOpen = false ∧ 8 ≤ wbits ∧ wbits ≤ 15
          ∧ t = { s with
                result := .ok, errcode := 0#8, port := s.port.streamReset,
                engine := .inflate (Decompressor.opened wbits) }) := by
  unfold execIinit at h
  split at h
  · cases h; exact .inl rfl
  · split at h
    · cases h; exact .inl rfl
    · split at h
      · rename_i h1 h2
        simp only [Config.hwMaxWbits] at h2
        omega
      · rename_i h0 h1 _
        cases h
        exact .inr ⟨by simpa using h0, by omega, by omega, rfl⟩

/-- ISETDICT (R550). -/
theorem execIsetdict_cases {s t : State} (h : execIsetdict s = .next t) :
    t = s.misuse
      ∨ ∃ d, s.engine = .inflate d ∧ d.mode = .waitForDictionary ∧ s.dictRangeOk = true
          ∧ ((adlerUpdate 1#32 s.dictBytes ≠ s.port.adler ∧ t = s.raise .dataError 26#8)
            ∨ (adlerUpdate 1#32 s.dictBytes = s.port.adler ∧ t = s.supplyDict d)) := by
  unfold execIsetdict at h
  split at h
  · rename_i d hd
    split at h
    · cases h; exact .inl rfl
    · rename_i h1
      split at h
      · cases h; exact .inl rfl
      · rename_i h2
        split at h
        · rename_i h3
          cases h
          exact .inr ⟨d, hd, by simpa using h1, by simpa using h2, .inl ⟨h3, rfl⟩⟩
        · rename_i h3
          cases h
          exact .inr ⟨d, hd, by simpa using h1, by simpa using h2, .inr ⟨by simpa using h3, rfl⟩⟩
  · cases h; exact .inl rfl
  · cases h; exact .inl rfl

/-- INFLATE (R540). -/
theorem execInflate_cases {flush : Nat} {s t : State} (h : execInflate flush s = .next t) :
    t = s.misuse
      ∨ ∃ d, s.engine = .inflate d ∧ flush ≤ 4 ∧ s.streamRangesOk = true
          ∧ t = (s.withIRun (IRun.inflate ⟨s.port, d⟩).1).finish
              (inflateEnding flush s.port (IRun.inflate ⟨s.port, d⟩)) := by
  unfold execInflate at h
  split at h
  · rename_i d hd
    split at h
    · cases h; exact .inl rfl
    · rename_i h1
      split at h
      · cases h; exact .inl rfl
      · rename_i h2
        cases h
        exact .inr ⟨d, hd, by omega, by simpa using h2, rfl⟩
  · cases h; exact .inl rfl
  · cases h; exact .inl rfl

/-- ISYNC (R560). -/
theorem execIsync_cases {s t : State} (h : execIsync s = .next t) :
    t = s.misuse
      ∨ ∃ d, s.engine = .inflate d ∧ s.inputRangeOk = true
          ∧ ((s.port.availIn = 0#32
                ∧ t = (s.enterBad d).raise .bufError 21#8)
            ∨ (s.port.availIn ≠ 0#32 ∧ t = (s.enterBad d).resync d.enterBad)) := by
  unfold execIsync at h
  split at h
  · rename_i d hd
    split at h
    · cases h; exact .inl rfl
    · rename_i h1
      split at h
      · rename_i h2
        cases h
        exact .inr ⟨d, hd, by simpa using h1, .inl ⟨h2, rfl⟩⟩
      · rename_i h2
        cases h
        exact .inr ⟨d, hd, by simpa using h1, .inr ⟨h2, rfl⟩⟩
  · cases h; exact .inl rfl
  · cases h; exact .inl rfl

/-- IRESET (R562). -/
theorem execIreset_cases {s t : State} (h : execIreset s = .next t) :
    t = s.misuse
      ∨ ∃ d, s.engine = .inflate d
          ∧ t = { s with
                result := .ok, errcode := 0#8, port := s.port.streamReset, engine := .inflate d.inflateReset } := by
  unfold execIreset at h
  split at h
  · rename_i d hd; cases h; exact .inr ⟨d, hd, rfl⟩
  · cases h; exact .inl rfl
  · cases h; exact .inl rfl

/-- IEND (R563). -/
theorem execIend_cases {s t : State} (h : execIend s = .next t) :
    t = s.misuse
      ∨ ∃ d, s.engine = .inflate d ∧ t = { s with engine := .none, errcode := 0#8, result := .ok } := by
  unfold execIend at h
  split at h
  · rename_i d hd; cases h; exact .inr ⟨d, hd, rfl⟩
  · cases h; exact .inl rfl
  · cases h; exact .inl rfl

/-- ADLER (R305). -/
theorem execAdler_cases {s t : State} (h : execAdler s = .next t) :
    t = s.misuse
      ∨ (s.adlerRangeOk = true
          ∧ t = { s.ret .ok with rval := adlerUpdate s.arg0 (s.port.mem.readRun s.arg1.toNat s.arg2.toNat) }) := by
  unfold execAdler at h
  split at h
  · rename_i h1; cases h; exact .inr ⟨h1, rfl⟩
  · cases h; exact .inl rfl

/-- HBUILD (R640). -/
theorem execHbuild_cases {s t : State} (h : execHbuild s = .next t) :
    t = s.misuse
      ∨ (3 ≤ s.arg1.toNat ∧ s.arg1.toNat ≤ 288 ∧ 1 ≤ s.arg2.toNat ∧ s.arg2.toNat ≤ 15 ∧ s.hbuildRangesOk = true
          ∧ leafCount (s.port.mem.readU16s s.arg0.toNat s.arg1.toNat) ≤ 2 ^ s.arg2.toNat
          ∧ t = s.hbuildResult) := by
  unfold execHbuild at h
  split at h
  · cases h; exact .inl rfl
  · rename_i h1
    split at h
    · cases h; exact .inl rfl
    · rename_i h2
      split at h
      · cases h; exact .inl rfl
      · rename_i h3
        cases h
        exact .inr ⟨by omega, by omega, by omega, by omega, by simpa using h2, by omega, rfl⟩

/-- HCANON (R641). -/
theorem execHcanon_cases {s t : State} (h : execHcanon s = .next t) :
    t = s.misuse
      ∨ (1 ≤ s.arg1.toNat ∧ s.arg1.toNat ≤ 320 ∧ s.hcanonRangesOk = true
          ∧ t = s.hcanonResult ((s.port.mem.readRun s.arg0.toNat s.arg1.toNat).map BitVec.toNat)) := by
  unfold execHcanon at h
  split at h
  · cases h; exact .inl rfl
  · rename_i h1
    split at h
    · cases h; exact .inl rfl
    · rename_i h2
      simp only [] at h
      split at h
      · cases h; exact .inl rfl
      · cases h
        exact .inr ⟨by omega, by omega, by simpa using h2, rfl⟩

/-! ## Steps -/

/-- A command word: what writing it to CMD can answer (R34, R101, R107). -/
theorem runCommand_cases {w : Word} {s t : State} (h : runCommand w s = .next t) :
    (∃ i, decode w = .command i ∧ exec i s = .next t)
      ∨ (decode w = .rejected .illegalOpc ∧ t = s.raise .streamError 25#8)
      ∨ (decode w = .rejected .reservedBits ∧ t = s.misuse) := by
  unfold runCommand at h
  split at h
  · rename_i i hi; exact .inl ⟨i, hi, h⟩
  · rename_i hi; cases h; exact .inr (.inl ⟨hi, rfl⟩)
  · rename_i hi; cases h; exact .inr (.inr ⟨hi, rfl⟩)

/-- Everything a host action can do. -/
theorem hostAct_cases {a : HostAction} {s t : State} (h : hostAct a s = .next t) :
    (s.busy = true ∧ t = { s with overrun := true })
      ∨ (∃ w, s.busy = false ∧ runCommand w s = .next t)
      ∨ (∃ v reg, s.busy = false ∧ reg ≠ .cmd ∧ t = s.writeRegister v reg)
      ∨ (∃ v, t = { s with readData := v })
      ∨ (∃ x b, s.busy = false ∧ x < s.memSize
          ∧ t = { s with port := { s.port with mem := s.port.mem.write x b } })
      ∨ (s.busy = false ∧ t = s.hardReset) := by
  cases a with
  | writeReg offset width v =>
    simp only [hostAct, hostWriteReg] at h
    split at h
    · cases h
    · rename_i reg hr
      split at h
      · rename_i hb; cases h; exact .inl ⟨hb, rfl⟩
      · rename_i hb
        have hb' : s.busy = false := by simpa using hb
        split at h
        · exact .inr (.inl ⟨v, hb', h⟩)
        · rename_i hne
          cases h
          exact .inr (.inr (.inl ⟨v, reg, hb', hne, rfl⟩))
  | readReg offset width =>
    simp only [hostAct, hostReadReg] at h
    split at h
    · cases h
    · cases h; exact .inr (.inr (.inr (.inl ⟨_, rfl⟩)))
  | writeByte x b =>
    simp only [hostAct, hostWriteByte] at h
    split at h
    · cases h
    · rename_i hb
      split at h
      · cases h
      · rename_i hx
        cases h
        exact .inr (.inr (.inr (.inr (.inl ⟨x, b, by simpa using hb, by omega, rfl⟩))))
  | readByte x =>
    simp only [hostAct, hostReadByte] at h
    split at h
    · cases h
    · split at h
      · cases h
      · cases h; exact .inr (.inr (.inr (.inl ⟨_, rfl⟩)))
  | reset =>
    simp only [hostAct, hostReset] at h
    split at h
    · cases h
    · rename_i hb; cases h; exact .inr (.inr (.inr (.inr (.inr ⟨by simpa using hb, rfl⟩))))

/-- Everything a step can do: nothing, or the host's next action. -/
theorem step_cases {s t : State} (h : step s = .next t) :
    (s.hostQueue = [] ∧ t = s)
      ∨ ∃ a rest, s.hostQueue = a :: rest ∧ hostAct a { s with hostQueue := rest } = .next t := by
  unfold step at h
  split at h
  · rename_i hq; cases h; exact .inl ⟨hq, rfl⟩
  · rename_i a rest hq; exact .inr ⟨a, rest, hq, h⟩

end Sys2Proof.Machine
end

