-- ==== Sys2Proof/Laws/Packer.lean ====
section
/-!
SUPPORT. The bit packer and the block framer: which fields they can change (`Pending`, the accumulator and the guard
flag, nothing else), and the ranges they keep.
-/

namespace Sys2Proof.Machine

/-- `c'` is `c` but for `Pending`, the accumulator and the guard flag. -/
structure Repacked (c c' : Compressor) : Prop where
  eq : c' = { c with pending := c'.pending, biBuf := c'.biBuf, biValid := c'.biValid, overflowed := c'.overflowed }

theorem Repacked.refl (c : Compressor) : Repacked c c := ⟨rfl⟩

theorem Repacked.accumulator (c : Compressor) (x : BitVec 16) (n : Nat) :
    Repacked c { c with biBuf := x, biValid := n } := ⟨rfl⟩

theorem Repacked.trans {a b c : Compressor} (h : Repacked a b) (h' : Repacked b c) : Repacked a c :=
  ⟨by rw [h'.eq, h.eq]⟩

theorem Compressor.putByte_repacked (c : Compressor) (b : Byte) : Repacked c (c.putByte b) := by
  unfold Compressor.putByte
  split <;> exact ⟨rfl⟩

theorem Compressor.putBytes_repacked (c : Compressor) (bs : List Byte) : Repacked c (c.putBytes bs) := by
  induction bs generalizing c with
  | nil => exact .refl c
  | cons b bs ih => exact (c.putByte_repacked b).trans (ih _)

theorem Compressor.putShort_repacked (c : Compressor) (w : Nat) : Repacked c (c.putShort w) :=
  (c.putByte_repacked _).trans (Compressor.putByte_repacked _ _)

theorem Compressor.putShortMsb_repacked (c : Compressor) (w : Nat) : Repacked c (c.putShortMsb w) :=
  (c.putByte_repacked _).trans (Compressor.putByte_repacked _ _)

theorem Compressor.putWordMsb_repacked (c : Compressor) (w : Word) : Repacked c (c.putWordMsb w) :=
  (c.putShortMsb_repacked _).trans (Compressor.putShortMsb_repacked _ _)

theorem Compressor.sendBits_repacked (c : Compressor) (v n : Nat) : Repacked c (c.sendBits v n) := by
  unfold Compressor.sendBits
  split
  · exact (c.putShort_repacked _).trans (.accumulator _ _ _)
  · exact .accumulator _ _ _

theorem Compressor.sendCode_repacked (c : Compressor) (t : PrefixCode) (k : Nat) : Repacked c (c.sendCode t k) :=
  c.sendBits_repacked _ _

theorem Compressor.biFlush_repacked (c : Compressor) : Repacked c c.biFlush := by
  unfold Compressor.biFlush
  split
  · exact (c.putShort_repacked _).trans (.accumulator _ _ _)
  · split
    · exact (c.putByte_repacked _).trans (.accumulator _ _ _)
    · exact .refl c

theorem Compressor.biWindup_repacked (c : Compressor) : Repacked c c.biWindup := by
  unfold Compressor.biWindup
  split
  · exact (c.putShort_repacked _).trans (.accumulator _ _ _)
  · split
    · exact (c.putByte_repacked _).trans (.accumulator _ _ _)
    · exact .accumulator _ _ _

theorem Compressor.storedBlock_repacked (c : Compressor) (buf : List Byte) (eof : Bool) :
    Repacked c (c.storedBlock buf eof) :=
  (((((c.sendBits_repacked _ _).trans (Compressor.biWindup_repacked _)).trans
    (Compressor.putShort_repacked _ _)).trans (Compressor.putShort_repacked _ _)).trans
    (Compressor.putBytes_repacked _ _))

/-- A fold of steps that only pack only packs. -/
theorem Compressor.foldl_repacked {β : Type} (f : Compressor → β → Compressor) (hf : ∀ c b, Repacked c (f c b))
    (l : List β) (c : Compressor) : Repacked c (l.foldl f c) := by
  induction l generalizing c with
  | nil => exact .refl c
  | cons b l ih => exact (hf c b).trans (ih _)

theorem Compressor.sendItem_repacked (bt : PrefixCode) (c : Compressor) (i : LenItem) :
    Repacked c (c.sendItem bt i) := by
  cases i with
  | plain _ => exact c.sendCode_repacked _ _
  | copyPrev _ => exact (c.sendCode_repacked _ _).trans (Compressor.sendBits_repacked _ _ _)
  | zerosShort _ => exact (c.sendCode_repacked _ _).trans (Compressor.sendBits_repacked _ _ _)
  | zerosLong _ => exact (c.sendCode_repacked _ _).trans (Compressor.sendBits_repacked _ _ _)

theorem Compressor.sendTree_repacked (bt : PrefixCode) (c : Compressor) (items : List LenItem) :
    Repacked c (c.sendTree bt items) := Compressor.foldl_repacked _ (Compressor.sendItem_repacked bt) items c

theorem Compressor.sendSymbol_repacked (lt dt : PrefixCode) (c : Compressor) (e : SymEntry) :
    Repacked c (c.sendSymbol lt dt e) := by
  unfold Compressor.sendSymbol
  split
  · exact c.sendCode_repacked _ _
  · simp only []
    split
    · split
      · exact ((c.sendCode_repacked _ _).trans (Compressor.sendBits_repacked _ _ _)).trans
          ((Compressor.sendCode_repacked _ _ _).trans (Compressor.sendBits_repacked _ _ _))
      · exact (c.sendCode_repacked _ _).trans
          ((Compressor.sendCode_repacked _ _ _).trans (Compressor.sendBits_repacked _ _ _))
    · split
      · exact ((c.sendCode_repacked _ _).trans (Compressor.sendBits_repacked _ _ _)).trans
          (Compressor.sendCode_repacked _ _ _)
      · exact (c.sendCode_repacked _ _).trans (Compressor.sendCode_repacked _ _ _)

theorem Compressor.compressBlock_repacked (c : Compressor) (lt dt : PrefixCode) :
    Repacked c (c.compressBlock lt dt) :=
  (Compressor.foldl_repacked _ (Compressor.sendSymbol_repacked lt dt) _ c).trans
    (Compressor.sendCode_repacked _ _ _)

theorem Compressor.sendAllTrees_repacked (c : Compressor) (t : BlockTrees) : Repacked c (c.sendAllTrees t) :=
  ((((c.sendBits_repacked _ _).trans (Compressor.sendBits_repacked _ _ _)).trans
    (Compressor.sendBits_repacked _ _ _)).trans
    (Compressor.foldl_repacked _ (fun c _ => c.sendBits_repacked _ _) _ _)).trans
    ((Compressor.sendTree_repacked _ _ _).trans (Compressor.sendTree_repacked _ _ _))

theorem Compressor.emitCoded_repacked (c : Compressor) (eof : Bool) : Repacked c (c.emitCoded eof) := by
  unfold Compressor.emitCoded
  simp only []
  split
  · exact c.storedBlock_repacked _ _
  · split
    · exact (c.sendBits_repacked _ _).trans (Compressor.compressBlock_repacked _ _ _)
    · exact ((c.sendBits_repacked _ _).trans (Compressor.sendAllTrees_repacked _ _)).trans
        (Compressor.compressBlock_repacked _ _ _)

theorem Compressor.emitStored_repacked (c : Compressor) (eof : Bool) : Repacked c (c.emitStored eof) := by
  unfold Compressor.emitStored
  split
  · exact c.storedBlock_repacked _ _
  · exact (c.sendBits_repacked _ _).trans (Compressor.compressBlock_repacked _ _ _)

/-- `flush_block` packs, then starts an empty block; nothing else changes (R446). -/
theorem Compressor.flushBlock_eq (c : Compressor) (eof : Bool) :
    c.flushBlock eof
      = { c.initBlock with
          pending := (c.flushBlock eof).pending, biBuf := (c.flushBlock eof).biBuf,
          biValid := (c.flushBlock eof).biValid, overflowed := (c.flushBlock eof).overflowed } := by
  have key : ∀ c1 : Compressor, Repacked c c1 →
      (if eof then c1.initBlock.biWindup else c1.initBlock)
        = { c.initBlock with
            pending := (if eof then c1.initBlock.biWindup else c1.initBlock).pending,
            biBuf := (if eof then c1.initBlock.biWindup else c1.initBlock).biBuf,
            biValid := (if eof then c1.initBlock.biWindup else c1.initBlock).biValid,
            overflowed := (if eof then c1.initBlock.biWindup else c1.initBlock).overflowed } := by
    intro c1 h
    cases eof with
    | true =>
      have h2 := c1.initBlock.biWindup_repacked
      simp only [if_true]
      rw [h2.eq, h.eq]
      rfl
    | false =>
      simp only [Bool.false_eq_true, if_false]
      rw [h.eq]
      rfl
  unfold Compressor.flushBlock
  exact key _ (by split; exacts [c.emitCoded_repacked eof, c.emitStored_repacked eof])

/-! ## Ranges -/

/-- `put_byte` keeps `Pending` within a capacity it is within (R401). -/
theorem Compressor.putByte_pending (c : Compressor) (b : Byte) (h : c.pending.length ≤ c.pendingBufSize) :
    (c.putByte b).pending.length ≤ c.pendingBufSize := by
  unfold Compressor.putByte
  split
  · simp; omega
  · exact h

@[simp] theorem Compressor.putByte_biValid (c : Compressor) (b : Byte) : (c.putByte b).biValid = c.biValid := by
  unfold Compressor.putByte
  split <;> rfl

@[simp] theorem Compressor.putShort_biValid (c : Compressor) (w : Nat) : (c.putShort w).biValid = c.biValid := by
  simp [Compressor.putShort]

/-- At most 16 bits stay in the accumulator after a field of at most 16 bits (R402). -/
theorem Compressor.sendBits_biValid (c : Compressor) (v n : Nat) (h : c.biValid ≤ 16) (hn : n ≤ 16) :
    (c.sendBits v n).biValid ≤ 16 := by
  unfold Compressor.sendBits
  split
  · show c.biValid + n - 16 ≤ 16
    omega
  · show c.biValid + n ≤ 16
    omega

@[simp] theorem Compressor.biWindup_biValid (c : Compressor) : c.biWindup.biValid = 0 := by
  unfold Compressor.biWindup
  split
  · rfl
  · split <;> rfl

/-! ## Handing pending bytes over -/

/-- `flush_pending` in one equation, the case of no byte included (R406). -/
theorem DRun.flushPending_eq (r : DRun) :
    r.flushPending
      = ⟨r.port.deliver (r.c.pending.take (min r.c.pending.length r.port.availOut.toNat)),
          { r.c with pending := r.c.pending.drop (min r.c.pending.length r.port.availOut.toNat) }⟩ := by
  unfold DRun.flushPending
  by_cases h : min r.c.pending.length r.port.availOut.toNat = 0
  · simp only [h, if_true, List.take_zero, List.drop_zero]
    simp [Port.deliver, Memory.writeRun]
  · simp only [h, if_false]

/-- `FLUSH_BLOCK_ONLY` leaves the input cursors and ADLER (R445). -/
theorem DRun.flushBlockOnly_input (r : DRun) (eof : Bool) :
    (r.flushBlockOnly eof).port.nextIn = r.port.nextIn ∧ (r.flushBlockOnly eof).port.availIn = r.port.availIn
      ∧ (r.flushBlockOnly eof).port.totalIn = r.port.totalIn
      ∧ (r.flushBlockOnly eof).port.adler = r.port.adler := by
  unfold DRun.flushBlockOnly
  rw [DRun.flushPending_eq]
  exact ⟨rfl, rfl, rfl, rfl⟩

end Sys2Proof.Machine
end

