-- ==== Sys2Proof/Laws/PerInstr.lean ====
section
/-!
SUPPORT. Statements made per instruction, one lemma per constructor. `Row`: the command word of a well-formed command
has its own OPC and is legal under the opcode map's row of that OPC (30_encoding.md R102).
-/

namespace Sys2Proof.Laws.Row

/-- The OPC of a command, as the table of R102 gives it. -/
def opc : Instr → Nat
  | .dinit _ _ _ _ => 0x01
  | .dsetdict => 0x02
  | .deflate _ => 0x03
  | .dparams _ _ => 0x04
  | .dreset => 0x05
  | .dend => 0x06
  | .iinit _ => 0x11
  | .isetdict => 0x12
  | .inflate _ => 0x13
  | .isync => 0x14
  | .ireset => 0x15
  | .iend => 0x16
  | .adler => 0x21
  | .hbuild => 0x22
  | .hcanon => 0x23

/-- The word of a well-formed command carries the command's OPC, and the opcode map's row of that OPC accepts it. -/
def Statement (i : Instr) : Prop :=
  i.wellFormed = true →
    fieldOpc (encode i) = opc i ∧ ∃ row, opcodeRow? (opc i) = some row ∧ encode i &&& row.mask = row.pattern

/-- A command without operands. -/
theorem fixed {i : Instr} {row : OpcodeRow} (h : fieldOpc (encode i) = opc i)
    (hr : opcodeRow? (opc i) = some row) (hm : encode i &&& row.mask = row.pattern) : Statement i :=
  fun _ => ⟨h, row, hr, hm⟩

/-- A field placed at bit 12 leaves alone what a mask keeps that has no bits there; the cases of each field. -/
theorem level_masked (m : Word) (hm : m &&& 0x0000F000#32 = 0#32) {v : Nat} (h : v < 16) : atBit v 12 &&& m = 0#32 := by
  have key : ∀ v < 16, atBit v 12 = atBit v 12 &&& 0x0000F000#32 := by decide
  rw [key v h, BitVec.and_assoc, BitVec.and_comm _ m, hm, BitVec.and_zero]

theorem wbits_masked (m : Word) (hm : m &&& 0x000F0000#32 = 0#32) {v : Nat} (h : v < 16) : atBit v 16 &&& m = 0#32 := by
  have key : ∀ v < 16, atBit v 16 = atBit v 16 &&& 0x000F0000#32 := by decide
  rw [key v h, BitVec.and_assoc, BitVec.and_comm _ m, hm, BitVec.and_zero]

theorem memLevel_masked (m : Word) (hm : m &&& 0x00F00000#32 = 0#32) {v : Nat} (h : v < 16) :
    atBit v 20 &&& m = 0#32 := by
  have key : ∀ v < 16, atBit v 20 = atBit v 20 &&& 0x00F00000#32 := by decide
  rw [key v h, BitVec.and_assoc, BitVec.and_comm _ m, hm, BitVec.and_zero]

theorem strategy_masked (m : Word) (hm : m &&& 0x03000000#32 = 0#32) {v : Nat} (h : v < 4) :
    atBit v 24 &&& m = 0#32 := by
  have key : ∀ v < 4, atBit v 24 = atBit v 24 &&& 0x03000000#32 := by decide
  rw [key v h, BitVec.and_assoc, BitVec.and_comm _ m, hm, BitVec.and_zero]

/-- The OPC of a word is what the mask 0xFF keeps of it. -/
theorem fieldOpc_eq {w : Word} {n : Nat} (hn : n < 256) (h : w &&& 0xFF#32 = BitVec.ofNat 32 n) : fieldOpc w = n := by
  have h2 := congrArg BitVec.toNat h
  simp only [BitVec.toNat_and, BitVec.toNat_ofNat] at h2
  have h3 : (0xFF % 2 ^ 32 : Nat) = 2 ^ 8 - 1 := by decide
  rw [h3, Nat.and_two_pow_sub_one_eq_mod, Nat.mod_eq_of_lt (show n < 2 ^ 32 by omega)] at h2
  simp only [fieldOpc, BitVec.extractLsb'_toNat, Nat.shiftRight_zero]
  exact h2

/-- A mask distributes over the fields of a word. -/
theorem or_masked (a b m : Word) : (a ||| b) &&& m = (a &&& m) ||| (b &&& m) := by
  ext i
  simp [Bool.and_or_distrib_right]

theorem dinit (level wbits memLevel strategy : Nat) : Statement (.dinit level wbits memLevel strategy) := by
  intro h
  simp only [Instr.wellFormed, Bool.and_eq_true, decide_eq_true_eq] at h
  obtain ⟨⟨⟨hl, hw⟩, hm⟩, hs⟩ := h
  have masked : ∀ m : Word, m &&& 0x0000F000#32 = 0#32 → m &&& 0x000F0000#32 = 0#32 → m &&& 0x00F00000#32 = 0#32 →
      m &&& 0x03000000#32 = 0#32 → encode (.dinit level wbits memLevel strategy) &&& m = 0x01#32 &&& m := by
    intro m h1 h2 h3 h4
    simp only [encode, or_masked, level_masked m h1 hl, wbits_masked m h2 hw,
      memLevel_masked m h3 hm, strategy_masked m h4 hs, BitVec.or_zero]
  refine ⟨fieldOpc_eq (n := 0x01) (by decide) ((masked 0xFF#32 rfl rfl rfl rfl).trans rfl), _, rfl, masked 0xFC000FFF#32 rfl rfl rfl rfl⟩

theorem dparams (level strategy : Nat) : Statement (.dparams level strategy) := by
  intro h
  simp only [Instr.wellFormed, Bool.and_eq_true, decide_eq_true_eq] at h
  have masked : ∀ m : Word, m &&& 0x0000F000#32 = 0#32 → m &&& 0x03000000#32 = 0#32 →
      encode (.dparams level strategy) &&& m = 0x04#32 &&& m := by
    intro m h1 h2
    simp only [encode, or_masked, level_masked m h1 h.1, strategy_masked m h2 h.2, BitVec.or_zero]
  refine ⟨fieldOpc_eq (n := 0x04) (by decide) ((masked 0xFF#32 rfl rfl).trans rfl), _, rfl, masked 0xFCFF0FFF#32 rfl rfl⟩

theorem deflate (flush : Nat) : Statement (.deflate flush) := by
  intro h
  simp only [Instr.wellFormed, decide_eq_true_eq] at h
  have key : ∀ f < 8, fieldOpc (encode (.deflate f)) = 0x03 ∧ encode (.deflate f) &&& 0xFFFFF8FF#32 = 0x03#32 := by
    decide
  exact ⟨(key flush h).1, _, rfl, (key flush h).2⟩

theorem inflate (flush : Nat) : Statement (.inflate flush) := by
  intro h
  simp only [Instr.wellFormed, decide_eq_true_eq] at h
  have key : ∀ f < 8, fieldOpc (encode (.inflate f)) = 0x13 ∧ encode (.inflate f) &&& 0xFFFFF8FF#32 = 0x13#32 := by
    decide
  exact ⟨(key flush h).1, _, rfl, (key flush h).2⟩

theorem iinit (wbits : Nat) : Statement (.iinit wbits) := by
  intro h
  simp only [Instr.wellFormed, decide_eq_true_eq] at h
  have key : ∀ w < 16, fieldOpc (encode (.iinit w)) = 0x11 ∧ encode (.iinit w) &&& 0xFFF0FFFF#32 = 0x11#32 := by
    decide
  exact ⟨(key wbits h).1, _, rfl, (key wbits h).2⟩

theorem dsetdict : Statement .dsetdict := fixed rfl rfl rfl

theorem dreset : Statement .dreset := fixed rfl rfl rfl

theorem dend : Statement .dend := fixed rfl rfl rfl

theorem isetdict : Statement .isetdict := fixed rfl rfl rfl

theorem isync : Statement .isync := fixed rfl rfl rfl

theorem ireset : Statement .ireset := fixed rfl rfl rfl

theorem iend : Statement .iend := fixed rfl rfl rfl

theorem adler : Statement .adler := fixed rfl rfl rfl

theorem hbuild : Statement .hbuild := fixed rfl rfl rfl

theorem hcanon : Statement .hcanon := fixed rfl rfl rfl

end Sys2Proof.Laws.Row
end

