-- ==== Sys2Proof/Laws/Profiles.lean ====
section
/-!
SUPPORT. The two encoder profiles beside each other: under `Reference` a command and a step are `exec` and `step`, and the
checks that no draw touches are the same function under both.
-/

namespace Sys2Proof.Machine

/-- Under `Reference` a command is `exec` (R9). -/
theorem ExecUnder_reference (i : Instr) (s t : State) (h h' : History) :
    ExecUnder .reference i s h t h' ↔ exec i s = .next t ∧ h' = h := Iff.rfl

/-- An action that is a command runs `exec` of it (R34). -/
theorem hostAct_of_command {a : HostAction} {s : State} {i : Instr} (ha : a.command? s = some i) :
    hostAct a s = exec i s := by
  cases a with
  | writeReg offset width w =>
    unfold HostAction.command? at ha
    simp only [] at ha
    split at ha
    · cases ha
    · rename_i hb
      split at ha
      · rename_i hr hd
        simp only [Option.some.injEq] at ha
        subst ha
        simp [hostAct, hostWriteReg, hr, hb, runCommand, hd]
      · cases ha
  | readReg offset width => cases ha
  | writeByte a b => cases ha
  | readByte a => cases ha
  | reset => cases ha

/-- Under `Reference` a step is `step` (R9). -/
theorem StepUnder_reference (s t : State) (h h' : History) :
    StepUnder .reference s h t h' ↔ step s = .next t ∧ h' = h := by
  unfold StepUnder step
  cases s.hostQueue with
  | nil =>
    simp only [Host.Outcome.next.injEq]
    exact ⟨fun hx => ⟨hx.1.symm, hx.2⟩, fun hx => ⟨hx.1.symm, hx.2⟩⟩
  | cons a rest =>
    simp only []
    split
    · rename_i i hi
      rw [ExecUnder_reference, hostAct_of_command hi]
    · exact Iff.rfl

/-- The checks that no draw touches are those of the reference encoder (R430). -/
theorem DRun.deflate_of_refusal {r : DRun} {flush : Nat} {out : DRun × Ending} (h : r.refusal flush = some out) :
    r.deflate flush = out := by
  unfold DRun.refusal at h
  unfold DRun.deflate
  split at h
  · rename_i h1
    rw [if_pos h1]
    exact Option.some.inj h
  · rename_i h1
    rw [if_neg h1]
    split at h
    · rename_i h2
      rw [if_pos h2]
      exact Option.some.inj h
    · rename_i h2
      rw [if_neg h2]
      split at h
      · rename_i h3
        obtain ⟨hd, hp, hi, hf, h4⟩ := h3
        rw [← Option.some.inj h]
        simp [DRun.start, DRun.proceed, hd, hp, hi, hf, h4]
      · cases h

/-- The early return is the reference encoder's (R430). -/
theorem DRun.deflate_of_held {r r' : DRun} {flush : Nat} (hr : r.refusal flush = none) (h : r.held flush = some r') :
    r.deflate flush = (r', .ret .ok) := by
  unfold DRun.refusal at hr
  unfold DRun.held at h
  unfold DRun.deflate
  split at hr
  · cases hr
  · rename_i h1
    rw [if_neg h1]
    split at hr
    · cases hr
    · rename_i h2
      rw [if_neg h2]
      simp only [] at h
      split at h
      · rename_i h3
        simp only [DRun.proceed, h3.1, h3.2, ne_eq, not_false_eq_true, if_true, Option.some.inj h]
      · cases h

/-- Under `Any`, DEFLATE has an answer wherever a conforming encoder can be (R22). -/
theorem AnyDeflate_total {flush : Nat} {s : State} {c : Compressor} {h : History} (hv : Viable c h) (hf : flush ≤ 4)
    (he : s.engine = .deflate c) (hr : s.streamRangesOk = true) (hi : h.identified c s.port) :
    ∃ r' e h', AnyDeflate flush ⟨s.port, c⟩ r' e h h' := by
  obtain ⟨states, hc, hs⟩ := hv
  obtain ⟨r', e, h', hp, hs'⟩ := (hc c h hs).2 flush s hf he hr hi
  exact ⟨r', e, h', hp, fun _ => ⟨states, hc, hs'⟩⟩

/-- The call leaves a conforming encoder in a state of one, after the switch of DPARAMS too. -/
theorem Viable.switch {c : Compressor} {h : History} (hv : Viable c h) (level strategy : Nat) :
    Viable (c.switch level strategy) h :=
  let ⟨states, hc, hs⟩ := hv
  ⟨states, hc, (hc c h hs).1 level strategy⟩

/-- One call decodes its whole input. -/
theorem Decodes.once {limits : MatchLimits} {dict : List Byte} {t : Trace} {room : Nat} {d : Decompressor}
    {chunk out : List Byte} (fits : chunk.length + room < 2 ^ 32)
    (clean : (IRun.cleanly limits t ⟨Port.scratch chunk room, d⟩).isSome = true)
    (gives : (IRun.inflate ⟨Port.scratch chunk room, d⟩).1.port.mem.readRun chunk.length
      (IRun.inflate ⟨Port.scratch chunk room, d⟩).1.port.totalOut.toNat = out) :
    Decodes limits dict t d chunk out ((IRun.cleanly limits t ⟨Port.scratch chunk room, d⟩).get clean)
      (IRun.inflate ⟨Port.scratch chunk room, d⟩).1.d := by
  have h := Decodes.call (limits := limits) (dict := dict) t _ _ room d _ chunk [] [] fits (Option.some_get clean).symm
    (Decodes.stop _ _)
  rwa [List.append_nil, List.append_nil, gives] at h

/-- A draw of nothing changes nothing (R434 (e)). -/
theorem Port.drawn_nothing (p : Port) : p.drawn false 0 [] = p := by
  simp [Port.drawn, Port.consume, Port.deliver, Port.peek, Memory.readRun, Memory.writeRun, adlerUpdate, Word.ofNat]

end Sys2Proof.Machine
end

