-- ==== Sys2Proof/Laws/Sram.lean ====
section
/-!
SUPPORT. Internal SRAMs: what a read gives after each write, at indices below 2^20 - 1 (every SRAM of 20_memory.md R73
is smaller), and that a property of all entries is kept.
-/

namespace Sys2Proof.Machine

variable {α : Type} [Inhabited α]

@[simp] theorem Ram.get_nil (k : Nat) : (Ram.nil : Ram α).get k = default := by cases k <;> rfl

@[simp] theorem Ram.get_left (t : Ram α) (k : Nat) : t.left.get k = t.get (2 * k + 1) := by
  cases t with
  | nil => simp [Ram.left]
  | node v l r => simp [Ram.left, Ram.get]

@[simp] theorem Ram.get_right (t : Ram α) (k : Nat) : t.right.get k = t.get (2 * k + 2) := by
  cases t with
  | nil => simp [Ram.right]
  | node v l r => simp [Ram.right, Ram.get, Nat.mul_add_div]

@[simp] theorem Ram.root_eq (t : Ram α) : t.root = t.get 0 := by cases t <;> rfl

@[simp] theorem Ram.getRun_length (t : Ram α) (k n : Nat) : (t.getRun k n).length = n := by
  induction n generalizing k with
  | zero => rfl
  | succ n ih => simp [Ram.getRun, ih]

/-- The entries of a run. -/
theorem Ram.getRun_get (t : Ram α) (k n i : Nat) (h : i < n) : (t.getRun k n)[i]? = some (t.get (k + i)) := by
  induction n generalizing k i with
  | zero => omega
  | succ n ih =>
    cases i with
    | zero => rfl
    | succ i =>
      simp only [Ram.getRun, List.getElem?_cons_succ]
      rw [ih (k + 1) i (by omega)]
      congr 2
      omega

variable [DecidableEq α]

/-- A packed node reads as the node. -/
@[simp] theorem Ram.get_pack (v : α) (l r : Ram α) (k : Nat) : (Ram.pack v l r).get k = (Ram.node v l r).get k := by
  unfold Ram.pack
  split
  · split
    · rename_i h
      subst h
      cases k with
      | zero => rfl
      | succ k => simp [Ram.get]
    · rfl
  · rfl

/-- An index inside a tree of a depth: below `2^depth - 1`. -/
def Ram.fits (d k : Nat) : Prop := k + 1 < 2 ^ d

theorem Ram.fits_half (d k : Nat) (h : Ram.fits (d + 1) (k + 1)) : Ram.fits d (k / 2) := by
  unfold Ram.fits at *
  rw [Nat.pow_succ] at h
  omega

/-- What every index reads as after a write inside the depth. -/
theorem Ram.get_setAt (b : α) (d : Nat) (t : Ram α) (k x : Nat) (h : Ram.fits d k) :
    (Ram.setAt b d t k).get x = if x = k then b else t.get x := by
  induction d generalizing t k x with
  | zero => simp [Ram.fits] at h
  | succ d ih =>
    cases k with
    | zero =>
      cases x with
      | zero => simp [Ram.setAt, Ram.get]
      | succ x =>
        simp only [Ram.setAt, Ram.get_pack, Ram.get, Ram.get_left, Ram.get_right]
        split <;> (simp; congr 1; omega)
    | succ k =>
      have hh := Ram.fits_half d k h
      cases x with
      | zero => simp only [Ram.setAt]; split <;> simp [Ram.get]
      | succ x =>
        simp only [Ram.setAt]
        split
        · simp only [Ram.get_pack, Ram.get, Ram.get_right]
          split
          · rw [ih t.left (k / 2) (x / 2) hh, Ram.get_left]
            have he : (x / 2 = k / 2) ↔ (x + 1 = k + 1) := by omega
            have h2 : 2 * (x / 2) + 1 = x + 1 := by omega
            simp [he, h2]
          · rw [if_neg (by omega)]; congr 1; omega
        · simp only [Ram.get_pack, Ram.get, Ram.get_left]
          split
          · rw [if_neg (by omega)]; congr 1; omega
          · rw [ih t.right (k / 2) (x / 2) hh, Ram.get_right]
            have he : (x / 2 = k / 2) ↔ (x + 1 = k + 1) := by omega
            have h2 : 2 * (x / 2) + 2 = x + 1 := by omega
            simp [he, h2]

/-- What every index reads as after a write. -/
theorem Ram.get_set (t : Ram α) (k x : Nat) (b : α) (h : k + 1 < 2 ^ 20) :
    (t.set k b).get x = if x = k then b else t.get x :=
  Ram.get_setAt b Ram.depth t k x h

/-- What every index reads as after a run of writes. -/
theorem Ram.get_setRun (t : Ram α) (k x : Nat) (bs : List α) (h : k + bs.length < 2 ^ 20) :
    (t.setRun k bs).get x = if k ≤ x ∧ x < k + bs.length then bs.getD (x - k) default else t.get x := by
  induction bs generalizing t k with
  | nil => simp [Ram.setRun]
  | cons b bs ih =>
    simp only [List.length_cons] at h
    simp only [Ram.setRun]
    rw [ih (t.set k b) (k + 1) (by omega), Ram.get_set t k x b (by omega)]
    by_cases hx : x = k
    · subst hx
      simp
    · by_cases hr : k + 1 ≤ x ∧ x < k + 1 + bs.length
      · have hd : x - k = (x - (k + 1)) + 1 := by omega
        rw [if_pos hr, if_pos (by simp only [List.length_cons]; omega), hd]
        simp
      · rw [if_neg hr, if_neg hx, if_neg (by simp only [List.length_cons]; omega)]

/-- Every index under a map that keeps the default value. -/
theorem Ram.get_map (f : α → α) (hf : f default = default) (t : Ram α) (k : Nat) : (t.map f).get k = f (t.get k) := by
  induction t generalizing k with
  | nil => simp [Ram.map, hf]
  | node v l r ihl ihr =>
    cases k with
    | zero => simp [Ram.map, Ram.get]
    | succ k =>
      simp only [Ram.map, Ram.get_pack, Ram.get]
      split
      · exact ihl (k / 2)
      · exact ihr (k / 2)

/-- A property of every entry is kept by a write of a value that has it, at any index. -/
theorem Ram.forall_setAt (P : α → Prop) (b : α) (hb : P b) (d : Nat) (t : Ram α) (k : Nat)
    (ht : ∀ x, P (t.get x)) : ∀ x, P ((Ram.setAt b d t k).get x) := by
  induction d generalizing t k with
  | zero => exact ht
  | succ d ih =>
    intro x
    cases k with
    | zero =>
      cases x with
      | zero => simpa [Ram.setAt, Ram.get] using hb
      | succ x =>
        simp only [Ram.setAt, Ram.get_pack, Ram.get, Ram.get_left, Ram.get_right]
        split <;> exact ht _
    | succ k =>
      have hl : ∀ y, P (t.left.get y) := fun y => by rw [Ram.get_left]; exact ht _
      have hr : ∀ y, P (t.right.get y) := fun y => by rw [Ram.get_right]; exact ht _
      simp only [Ram.setAt]
      split
      · cases x with
        | zero => simpa [Ram.get] using ht 0
        | succ x =>
          simp only [Ram.get_pack, Ram.get]
          split
          · exact ih t.left _ hl _
          · exact hr _
      · cases x with
        | zero => simpa [Ram.get] using ht 0
        | succ x =>
          simp only [Ram.get_pack, Ram.get]
          split
          · exact hl _
          · exact ih t.right _ hr _

/-- A property of every entry is kept by a write of a value that has it. -/
theorem Ram.forall_set (P : α → Prop) (t : Ram α) (k : Nat) (b : α) (hb : P b)
    (ht : ∀ x, P (t.get x)) : ∀ x, P ((t.set k b).get x) := Ram.forall_setAt P b hb Ram.depth t k ht

/-- A property of every entry is kept by a run of writes of values that have it. -/
theorem Ram.forall_setRun (P : α → Prop) (t : Ram α) (k : Nat) (bs : List α)
    (hb : ∀ b ∈ bs, P b) (ht : ∀ x, P (t.get x)) : ∀ x, P ((t.setRun k bs).get x) := by
  induction bs generalizing t k with
  | nil => exact ht
  | cons b bs ih =>
    exact ih (t.set k b) (k + 1) (fun c hc => hb c (by simp [hc]))
      (Ram.forall_set P t k b (hb b (by simp)) ht)

/-! ## The canonical form -/

/-- A packed node of canonical subtrees is canonical. -/
theorem Ram.wf_pack (v : α) (l r : Ram α) (hl : l.wf = true) (hr : r.wf = true) : (Ram.pack v l r).wf = true := by
  unfold Ram.pack
  split
  · split
    · rfl
    · rename_i h
      simp [Ram.wf, h]
  · rename_i h
    by_cases h1 : l = .nil
    · have h2 : r ≠ .nil := fun h2 => h h1 h2
      simp [Ram.wf, hl, hr, h2]
    · simp [Ram.wf, hl, hr, h1]

theorem Ram.wf_left (t : Ram α) (h : t.wf = true) : t.left.wf = true := by
  cases t with
  | nil => rfl
  | node v l r => simp only [Ram.wf, Bool.and_eq_true] at h; exact h.1.2

theorem Ram.wf_right (t : Ram α) (h : t.wf = true) : t.right.wf = true := by
  cases t with
  | nil => rfl
  | node v l r => simp only [Ram.wf, Bool.and_eq_true] at h; exact h.2

/-- A write keeps the canonical form. -/
theorem Ram.wf_set (t : Ram α) (k : Nat) (b : α) (h : t.wf = true) : (t.set k b).wf = true := by
  unfold Ram.set
  generalize Ram.depth = d
  induction d generalizing t k with
  | zero => exact h
  | succ d ih =>
    cases k with
    | zero => exact Ram.wf_pack _ _ _ (Ram.wf_left t h) (Ram.wf_right t h)
    | succ k =>
      simp only [Ram.setAt]
      split
      · exact Ram.wf_pack _ _ _ (ih _ _ (Ram.wf_left t h)) (Ram.wf_right t h)
      · exact Ram.wf_pack _ _ _ (Ram.wf_left t h) (ih _ _ (Ram.wf_right t h))

/-- A map keeps the canonical form. -/
theorem Ram.wf_map (f : α → α) (t : Ram α) : (t.map f).wf = true := by
  induction t with
  | nil => rfl
  | node v l r ihl ihr => exact Ram.wf_pack _ _ _ ihl ihr

end Sys2Proof.Machine
end

