-- ==== Sys2Proof/Laws/Streams.lean ====
section
/-!
SUPPORT. The operations that move stream bytes, each in one lemma: `read_buf` (41_window.md R324), `drain` (R341), the
bit parser's fetches (43_bitstream.md R410), and the scan of ISYNC (45_inflate.md R560).
-/

namespace Sys2Proof.Machine

/-! ## The compressor's input -/

/-- `read_buf` in one equation, the case of no byte included (R324). -/
theorem DRun.readBuf_eq (r : DRun) (pos size : Nat) :
    r.readBuf pos size
      = ⟨{ r.port.consume (r.readCount size) with
            adler := adlerUpdate r.port.adler (r.port.peek (r.readCount size)) },
          { r.c with win := r.c.win.setRun pos (r.port.peek (r.readCount size)) }⟩ := by
  unfold DRun.readBuf
  by_cases h : r.readCount size = 0
  · simp only [h, if_true]
    simp [Port.peek, Memory.readRun, adlerUpdate, Ram.setRun]
  · simp only [h, if_false]

/-- The bytes `read_buf` takes are on offer. -/
theorem DRun.readCount_le (r : DRun) (size : Nat) :
    r.readCount size ≤ r.port.availIn.toNat ∧ r.readCount size ≤ size := by
  unfold DRun.readCount
  omega

/-- What is left on offer after consuming no more than is on offer. -/
theorem Port.consume_availIn_toNat (p : Port) (k : Nat) (h : k ≤ p.availIn.toNat) :
    (p.consume k).availIn.toNat = p.availIn.toNat - k := by
  have := p.availIn.isLt
  simp only [Port.consume_availIn, Word.ofNat, BitVec.toNat_sub, BitVec.toNat_ofNat]
  omega

/-- What room is left after delivering no more than there is room for. -/
theorem Port.deliver_availOut_toNat (p : Port) (bytes : List Byte) (h : bytes.length ≤ p.availOut.toNat) :
    (p.deliver bytes).availOut.toNat = p.availOut.toNat - bytes.length := by
  have := p.availOut.isLt
  simp only [Port.deliver_availOut, Word.ofNat, BitVec.toNat_sub, BitVec.toNat_ofNat]
  omega

/-! ## The decompressor's output -/

@[simp] theorem Decompressor.windowRun_length (d : Decompressor) (pos n : Nat) :
    (d.windowRun pos n).length = n := by
  induction n generalizing pos with
  | zero => rfl
  | succ n ih => simp [Decompressor.windowRun, ih]

/-- `drain` changes `pend` and `check` of the engine and the output side of the port, nothing else (R341). -/
theorem IRun.drain_engine (r : IRun) :
    r.drain.d = { r.d with pend := r.drain.d.pend, check := r.drain.d.check } := by
  unfold IRun.drain
  simp only []
  split <;> rfl

theorem IRun.drain_input (r : IRun) :
    r.drain.port.nextIn = r.port.nextIn ∧ r.drain.port.availIn = r.port.availIn
      ∧ r.drain.port.totalIn = r.port.totalIn := by
  unfold IRun.drain
  simp only []
  split <;> exact ⟨rfl, rfl, rfl⟩

/-- The counts after `drain`. -/
theorem IRun.drain_counts (r : IRun) :
    r.drain.d.pend = r.d.pend - min r.d.pend r.port.availOut.toNat
      ∧ r.drain.port.availOut.toNat = r.port.availOut.toNat - min r.d.pend r.port.availOut.toNat := by
  unfold IRun.drain
  simp only []
  split
  · rename_i h
    simp [h]
  · refine ⟨rfl, ?_⟩
    have := Port.deliver_availOut_toNat r.port
      (r.d.windowRun (r.d.behind r.d.pend) (min r.d.pend r.port.availOut.toNat)) (by simp)
    simpa using this

/-- After `drain` nothing is pending, or the output is full. -/
theorem IRun.drain_done (r : IRun) : r.drain.d.pend = 0 ∨ r.drain.port.availOut.toNat = 0 := by
  have := r.drain_counts
  omega

/-- With nothing pending, or the output full, `drain` changes nothing. -/
theorem IRun.drain_zero (r : IRun) (h : min r.d.pend r.port.availOut.toNat = 0) : r.drain = r := by
  unfold IRun.drain
  simp only [h, if_true]

/-- Draining again changes nothing. -/
theorem IRun.drain_drain (r : IRun) : r.drain.drain = r.drain := by
  have h := r.drain_done
  exact IRun.drain_zero _ (by omega)

/-- `drain` keeps the canonical form of buffer memory. -/
theorem IRun.drain_wf (r : IRun) (h : Memory.wf r.port.mem = true) : Memory.wf r.drain.port.mem = true := by
  unfold IRun.drain
  simp only []
  split
  · exact h
  · exact Port.deliver_wf _ _ h

/-! ## The bit parser -/

/-- A taken byte was on offer (R410). -/
theorem IRun.takeByte_some {r r' : IRun} {b : Byte} (h : r.takeByte = some (b, r')) :
    r.port.availIn ≠ 0#32 ∧ b = r.port.mem.read r.port.nextIn.toNat
      ∧ r' = { r with port := r.port.consume 1 } := by
  unfold IRun.takeByte at h
  split at h
  · cases h
  · rename_i hne
    simp only [Option.some.injEq, Prod.mk.injEq] at h
    exact ⟨hne, h.1.symm, h.2.symm⟩

/-- `take_byte` blocks only without input (R410). -/
theorem IRun.takeByte_none {r : IRun} : r.takeByte = none ↔ r.port.availIn = 0#32 := by
  unfold IRun.takeByte
  split <;> simp_all

/-- The loop of `need_bits` ends with enough bits, once it has turns for them (R410). -/
theorem IRun.needLoop_got {n fuel : Nat} {r r' : IRun} (hf : n ≤ r.d.bitk + 8 * fuel)
    (h : IRun.needLoop n fuel r = .got r') : n ≤ r'.d.bitk := by
  induction fuel generalizing r with
  | zero =>
    simp only [IRun.needLoop, Fetch.got.injEq] at h
    subst h
    omega
  | succ fuel ih =>
    simp only [IRun.needLoop] at h
    split at h
    · simp only [Fetch.got.injEq] at h
      subst h
      assumption
    · split at h
      · cases h
      · rename_i b r1 ht
        refine ih ?_ h
        have := (IRun.takeByte_some ht).2.2
        subst this
        simp only [IRun.withD_d, Decompressor.pushByte]
        omega

/-- `need_bits(n)` ends with `n` valid bits or more, unless it blocks (R410). -/
theorem IRun.needBits_got {n : Nat} {r r' : IRun} (h : r.needBits n = .got r') : n ≤ r'.d.bitk :=
  IRun.needLoop_got (by omega) h

/-! ## The scan of ISYNC -/

/-- The marker progress stays at most 4 from at most 4 (R560). -/
theorem markerNext_le (m : Nat) (b : Byte) (h : m ≤ 4) : markerNext m b ≤ 4 := by
  unfold markerNext
  split
  · rename_i hm
    have : m < markerBytes.length := by
      by_contra hc
      rw [List.getElem?_eq_none (by omega)] at hm
      cases hm
    simp only [markerBytes, List.length_cons, List.length_nil] at this
    omega
  · split <;> omega

/-- The scan keeps the output side of the port, ADLER and buffer memory (R560, R80). -/
theorem syncScan_frame (fuel : Nat) (p : Port) (m : Nat) :
    (syncScan fuel p m).1
      = { p with
          nextIn := (syncScan fuel p m).1.nextIn, availIn := (syncScan fuel p m).1.availIn,
          totalIn := (syncScan fuel p m).1.totalIn } := by
  induction fuel generalizing p m with
  | zero => rfl
  | succ fuel ih =>
    simp only [syncScan]
    split
    · rw [ih]; rfl
    · rfl

end Sys2Proof.Machine
end

