-- ==== Sys2Proof/Laws/Vocabulary.lean ====
section
/-!
SUPPORT. The statements' own words for ranges (`Claims.outside`, `Claims.clash`, `Claims.badStream`) beside the model's
range checks.
-/

namespace Sys2Proof.Claims

open Sys2Proof.Machine

/-- A range is outside exactly when it is not valid (R76). -/
theorem outside_iff (s : State) (a n : Nat) : outside s a n ↔ validRange s.memSize a n = false := by
  rw [← Bool.not_eq_true, validRange_iff]
  unfold outside
  omega

/-- Two ranges clash exactly when they overlap (R77). -/
theorem clash_iff (a n b m : Nat) : clash a n b m ↔ overlap a n b m = true := (overlap_iff a n b m).symm

/-- The stream ranges are bad exactly when their check fails. -/
theorem badStream_iff (s : State) : badStream s ↔ s.streamRangesOk = false := by
  rw [← Bool.not_eq_true, State.streamRangesOk_iff]
  unfold badStream
  rw [outside_iff, outside_iff, clash_iff]
  generalize validRange s.memSize s.port.nextIn.toNat s.port.availIn.toNat = x
  generalize validRange s.memSize s.port.nextOut.toNat s.port.availOut.toNat = y
  generalize overlap s.port.nextIn.toNat s.port.availIn.toNat s.port.nextOut.toNat s.port.availOut.toNat = z
  cases x <;> cases y <;> cases z <;> simp

theorem not_badStream (s : State) (h : s.streamRangesOk = true) : ¬ badStream s := by
  rw [badStream_iff, h]
  simp

theorem not_outside (s : State) (a n : Nat) (h : validRange s.memSize a n = true) : ¬ outside s a n := by
  rw [outside_iff, h]
  simp

end Sys2Proof.Claims
end

