-- ==== Sys2Proof/Tests/Slice0.lean ====
section
/-!
SUPPORT. Tests on fixed values, each expected value taken from the spec (30_encoding.md, the examples of each command's
rule, 95_test_vectors.md), and a witness for the hypotheses of every statement that has some.
-/

-- One theorem after the other: the kernel evaluations of many tests at once would take a thread, and its stack, each.
set_option Elab.async false

namespace Sys2Proof.Tests

open Sys2Proof.Machine Sys2Proof.Claims

/-! ## Well-formedness: one ill-formed term for each check -/

theorem test_wellFormed_fields :
    (Instr.dinit 15 15 15 3).wellFormed = true ∧ (Instr.deflate 7).wellFormed = true
      ∧ (Instr.dparams 15 3).wellFormed = true ∧ (Instr.iinit 15).wellFormed = true
      ∧ (Instr.inflate 7).wellFormed = true := by decide

theorem test_illFormed_dinit :
    (Instr.dinit 16 15 8 0).wellFormed = false ∧ (Instr.dinit 6 16 8 0).wellFormed = false
      ∧ (Instr.dinit 6 15 16 0).wellFormed = false ∧ (Instr.dinit 6 15 8 4).wellFormed = false := by decide

theorem test_illFormed_others :
    (Instr.deflate 8).wellFormed = false ∧ (Instr.inflate 8).wellFormed = false
      ∧ (Instr.dparams 16 0).wellFormed = false ∧ (Instr.dparams 0 4).wellFormed = false
      ∧ (Instr.iinit 16).wellFormed = false := by decide

/-! ## Decoding: words written out bit by bit from R100 and R102 -/

/-- Bits 31:26 reserved, 25:24 STRATEGY, 23:20 MEMLEVEL, 19:16 WBITS, 15:12 LEVEL, 11 reserved, 10:8 FLUSH, 7:0 OPC. -/
theorem test_decode_compressor :
    decode 0b00000000100011110110000000000001#32 = .command (.dinit 6 15 8 0)
      ∧ decode 0b00000010000110011001000000000001#32 = .command (.dinit 9 9 1 2)
      ∧ decode 0b00000000000000000000000000000010#32 = .command .dsetdict
      ∧ decode 0b00000000000000000000010000000011#32 = .command (.deflate 4)
      ∧ decode 0b00000001000000000010000000000100#32 = .command (.dparams 2 1)
      ∧ decode 0b00000000000000000000000000000101#32 = .command .dreset
      ∧ decode 0b00000000000000000000000000000110#32 = .command .dend := by decide

theorem test_decode_decompressor :
    decode 0b00000000000011110000000000010001#32 = .command (.iinit 15)
      ∧ decode 0b00000000000000000000000000010010#32 = .command .isetdict
      ∧ decode 0b00000000000000000000001000010011#32 = .command (.inflate 2)
      ∧ decode 0b00000000000000000000000000010100#32 = .command .isync
      ∧ decode 0b00000000000000000000000000010101#32 = .command .ireset
      ∧ decode 0b00000000000000000000000000010110#32 = .command .iend := by decide

theorem test_decode_utility :
    decode 0b00000000000000000000000000100001#32 = .command .adler
      ∧ decode 0b00000000000000000000000000100010#32 = .command .hbuild
      ∧ decode 0b00000000000000000000000000100011#32 = .command .hcanon := by decide

/-- R107's gaps, and R101's order: an illegal OPC is reported before any reserved bit. -/
theorem test_decode_illegal :
    decode 0x00000000#32 = .rejected .illegalOpc ∧ decode 0x00000007#32 = .rejected .illegalOpc
      ∧ decode 0x00000010#32 = .rejected .illegalOpc ∧ decode 0x00000017#32 = .rejected .illegalOpc
      ∧ decode 0x00000020#32 = .rejected .illegalOpc ∧ decode 0x00000024#32 = .rejected .illegalOpc
      ∧ decode 0xFFFFFFFF#32 = .rejected .illegalOpc := by decide

/-- R101 step 2: a reserved bit, or a bit of a field the command does not use. -/
theorem test_decode_reserved :
    decode 0x00000805#32 = .rejected .reservedBits ∧ decode 0x04000001#32 = .rejected .reservedBits
      ∧ decode 0x00001003#32 = .rejected .reservedBits ∧ decode 0x00010004#32 = .rejected .reservedBits
      ∧ decode 0x00000111#32 = .rejected .reservedBits ∧ decode 0x01000021#32 = .rejected .reservedBits := by decide

/-- No word is two commands: any two rows of the opcode map differ in a bit that both masks keep. -/
theorem test_opcode_rows_disjoint :
    opcodeMap.Pairwise (fun r q => (r.pattern ^^^ q.pattern) &&& r.mask &&& q.mask ≠ 0#32) := by decide

theorem test_encode_is_R104 :
    encode (.dinit 6 15 8 0) = 0x008F6001#32 ∧ encode (.deflate 4) = 0x00000403#32
      ∧ encode (.dparams 0 0) = 0x00000004#32 ∧ encode (.iinit 15) = 0x000F0011#32 := by decide

/-! ## Small states -/

/-- A state with an engine, some bytes of memory (MEM_SIZE 0x10000, as in 95_test_vectors.md), the stream cursors and the
arguments. -/
def sample (e : Engine) (mem : Memory) (nextIn availIn nextOut availOut : Nat) (args : Word × Word × Word × Word) :
    State :=
  { State.resetOf 0xFFFF#32 with
    engine := e, arg0 := args.1, arg1 := args.2.1, arg2 := args.2.2.1, arg3 := args.2.2.2,
    port := { Port.reset mem with
      nextIn := Word.ofNat nextIn, availIn := Word.ofNat availIn, nextOut := Word.ofNat nextOut,
      availOut := Word.ofNat availOut } }

/-- No arguments. -/
def noArgs : Word × Word × Word × Word := (0#32, 0#32, 0#32, 0#32)

/-- Bytes in memory from an address on. -/
def bytesAt (a : Nat) (bytes : List Byte) : Memory := Memory.writeRun [] a bytes

/-- "hello". -/
def hello : List Byte := [0x68#8, 0x65#8, 0x6C#8, 0x6C#8, 0x6F#8]

/-- The compressor of `DINIT 6, 15, 8, 0`. -/
def comp : Compressor := Compressor.opened 6 15 8 0

/-- The decompressor of `IINIT 15`. -/
def decomp : Decompressor := Decompressor.opened 15

/-- One step of a state with a command word as the host's next action, seen through `view`. -/
def afterWord {α : Type} (s : State) (w : Nat) (view : State → α) : Option α :=
  (outcomeNext (step (s.withFetchWord 32 w))).map view

/-- A register as it reads. -/
def reg (r : Register) (s : State) : Nat := (s.readRegister r).toNat

/-- The outcome is a next state. -/
def answers (i : Instr) (s : State) : Bool := (outcomeNext (exec i s)).isSome

theorem answers_next {i : Instr} {s : State} (h : answers i s = true) : ∃ t, exec i s = .next t := by
  unfold answers at h
  cases hx : exec i s with
  | next t => exact ⟨t, rfl⟩
  | fault r => rw [hx] at h; simp [outcomeNext] at h
  | refused r => rw [hx] at h; simp [outcomeNext] at h

/-! ## One step of each command -/

/-- R440's example. -/
theorem test_dinit :
    afterWord State.reset 0x008F6001 (fun t => (reg .result t, reg .status t, reg .cfg t, reg .estate t, reg .adler t))
      = some (0, 2, 0x8F6, 1, 1) := by decide +kernel

/-- R440: windowBits 8 is refused. -/
theorem test_dinit_wbits8 :
    afterWord State.reset 0x00886001 (fun t => (reg .result t, reg .errcode t, reg .status t))
      = some (0xFFFFFFFE, 20, 0) := by decide +kernel

/-- R452's example. -/
theorem test_dsetdict :
    afterWord (sample (.deflate comp) (bytesAt 0x100 hello) 0 0 0 0 (0x100#32, 5#32, 0#32, 0#32)) 0x02
        (fun t => (reg .result t, reg .adler t, match t.engine with | .deflate c => c.strstart | _ => 99))
      = some (0, 0x062C0215, 5) := by decide +kernel

/-- 95_test_vectors.md §1.2 scenario 1: no input, level 0. -/
theorem test_deflate_empty_level0 :
    afterWord (sample (.deflate (Compressor.opened 0 15 8 0)) [] 0 0 0x200 64 noArgs) 0x403
        (fun t => (reg .result t, reg .totalOut t, reg .estate t, t.port.mem.readRun 0x200 11))
      = some (1, 11, 4,
          [0x78#8, 0xDA#8, 0x01#8, 0x00#8, 0x00#8, 0xFF#8, 0xFF#8, 0x00#8, 0x00#8, 0x00#8, 0x01#8]) := by
  decide +kernel

/-- R457's example, its first step: NoFlush over `FF FF` writes the header only and consumes both bytes. -/
theorem test_deflate_noflush :
    afterWord (sample (.deflate (Compressor.opened 6 15 1 0)) (bytesAt 0x100 [0xFF#8, 0xFF#8]) 0x100 2 0x200 64 noArgs)
        0x03 (fun t => (reg .result t, reg .totalIn t, reg .totalOut t, reg .adler t, t.port.mem.readRun 0x200 2))
      = some (0, 2, 2, 0x02FF01FF, [0x78#8, 0x9C#8]) := by decide +kernel

/-- R457: before any input DPARAMS switches at once; CFG shows it. -/
theorem test_dparams :
    afterWord (sample (.deflate comp) [] 0 0 0 0 noArgs) 0x01002004 (fun t => (reg .result t, reg .cfg t))
      = some (0, 0x18F2) := by decide +kernel

/-- R457: strategy 3 is out of range. -/
theorem test_dparams_strategy3 :
    afterWord (sample (.deflate comp) [] 0 0 0 0 noArgs) 0x03002004 (fun t => (reg .result t, reg .errcode t, reg .cfg t))
      = some (0xFFFFFFFE, 20, 0x8F6) := by decide +kernel

/-- R458, R655: DRESET from DONE. -/
theorem test_dreset :
    afterWord (sample (.deflate { comp with dstate := .done }) [] 0 0 0 0 noArgs) 0x05
        (fun t => (reg .result t, reg .estate t, reg .adler t))
      = some (0, 1, 1) := by decide +kernel

/-- R459: closing an unfinished stream. -/
theorem test_dend :
    afterWord (sample (.deflate { comp with dstate := .busy }) [] 0 0 0 0 noArgs) 0x06
        (fun t => (reg .result t, reg .errcode t, reg .status t))
      = some (0xFFFFFFFD, 22, 0) := by decide +kernel

/-- R510's example. -/
theorem test_iinit :
    afterWord State.reset 0x000F0011 (fun t => (reg .result t, reg .status t, reg .cfg t, reg .estate t, reg .adler t))
      = some (0, 4, 0xF0, 0x10, 1) := by decide +kernel

/-- R550's example: the dictionary "hello" for the identifier 062C0215; then the stream is in BLOCKS, TYPE. -/
theorem test_isetdict :
    afterWord
        (let s := sample (.inflate { decomp with mode := .waitForDictionary }) (bytesAt 0x100 hello) 0 0 0 0
          (0x100#32, 5#32, 0#32, 0#32)
         { s with port := { s.port with adler := 0x062C0215#32 } }) 0x12
        (fun t => (reg .result t, reg .adler t, reg .estate t))
      = some (0, 1, 0x114) := by decide +kernel

/-- R550: another dictionary is DataError 26, and the engine keeps waiting. -/
theorem test_isetdict_mismatch :
    afterWord
        (let s := sample (.inflate { decomp with mode := .waitForDictionary }) (bytesAt 0x100 hello) 0 0 0 0
          (0x100#32, 4#32, 0#32, 0#32)
         { s with port := { s.port with adler := 0x062C0215#32 } }) 0x12
        (fun t => (reg .result t, reg .errcode t, reg .estate t))
      = some (0xFFFFFFFD, 26, 0x13) := by decide +kernel

/-- 95_test_vectors.md §1.2 scenario 1, decompressed. -/
theorem test_inflate_empty :
    afterWord
        (sample (.inflate decomp)
          (bytesAt 0x100 [0x78#8, 0x9C#8, 0x03#8, 0x00#8, 0x00#8, 0x00#8, 0x00#8, 0x01#8]) 0x100 8 0x200 64 noArgs)
        0x13 (fun t => (reg .result t, reg .totalIn t, reg .totalOut t, reg .estate t))
      = some (1, 8, 0, 0x16) := by decide +kernel

/-- R542: a method other than 8 is DataError 15. -/
theorem test_inflate_method :
    afterWord (sample (.inflate decomp) (bytesAt 0x100 [0x77#8]) 0x100 1 0x200 64 noArgs) 0x13
        (fun t => (reg .result t, reg .errcode t, reg .estate t))
      = some (0xFFFFFFFD, 15, 0x17) := by decide +kernel

/-- R560's example, its second step: the marker is 11 bytes on; decoding resumes in BLOCKS, TYPE. -/
theorem test_isync :
    afterWord
        (sample (.inflate { decomp with mode := .bad, err := 1#8 })
          (bytesAt 0x103
            [0x4C#8, 0x4A#8, 0x4E#8, 0x4C#8, 0x4A#8, 0x06#8, 0x00#8, 0x00#8, 0x00#8, 0xFF#8, 0xFF#8, 0xAB#8])
          0x103 12 0 0 noArgs)
        0x14 (fun t => (reg .result t, reg .nextIn t, reg .totalIn t, reg .estate t))
      = some (0, 0x10E, 11, 0x114) := by decide +kernel

/-- 95_test_vectors.md §2.8: the marker progress of `12 34 00 00` is 2. -/
theorem test_isync_partial :
    afterWord
        (sample (.inflate { decomp with mode := .bad, err := 1#8 })
          (bytesAt 0x100 [0x12#8, 0x34#8, 0x00#8, 0x00#8]) 0x100 4 0 0 noArgs) 0x14
        (fun t => (reg .result t, reg .errcode t, match t.engine with | .inflate d => d.marker | _ => 99))
      = some (0xFFFFFFFD, 28, 2) := by decide +kernel

/-- R562's example. -/
theorem test_ireset :
    afterWord (sample (.inflate { decomp with mode := .bad, err := 1#8 }) [] 0 0 0 0 noArgs) 0x15
        (fun t => (reg .result t, reg .estate t, reg .totalIn t, reg .errcode t))
      = some (0, 0x10, 0, 0) := by decide +kernel

/-- R563's example. -/
theorem test_iend :
    afterWord (sample (.inflate { decomp with mode := .done }) [] 0 0 0 0 noArgs) 0x16
        (fun t => (reg .result t, reg .status t, reg .cfg t, reg .estate t))
      = some (0, 0, 0, 0) := by decide +kernel

/-- R305's example. -/
theorem test_adler :
    afterWord (sample .none (bytesAt 0x100 [0x61#8, 0x62#8, 0x63#8]) 0 0 0 0 (1#32, 0x100#32, 3#32, 0#32)) 0x21
        (fun t => (reg .result t, reg .rval t))
      = some (0, 0x024D0127) := by decide +kernel

/-- R306: "Wikipedia". -/
theorem test_adler_wikipedia :
    adlerUpdate 1#32 [0x57#8, 0x69#8, 0x6B#8, 0x69#8, 0x70#8, 0x65#8, 0x64#8, 0x69#8, 0x61#8] = 0x11E60398#32 := by
  decide

/-- R640's example. -/
theorem test_hbuild :
    afterWord
        (sample .none (bytesAt 0x100 (u16Bytes [5, 9, 12, 13, 16, 45])) 0 0 0 0 (0x100#32, 6#32, 15#32, 0x200#32)) 0x22
        (fun t => (reg .result t, reg .rval t, (t.port.mem.readRun 0x200 6).map BitVec.toNat,
          t.port.mem.readU16s 0x206 6))
      = some (0, 5, [4, 4, 3, 3, 3, 1], [0x7, 0xF, 0x1, 0x5, 0x3, 0x0]) := by decide +kernel

/-- R642, second row: the length limit at work. -/
theorem test_hbuild_limit :
    afterWord
        (sample .none (bytesAt 0x100 (u16Bytes [1, 1, 2, 3, 5, 8, 13, 21])) 0 0 0 0 (0x100#32, 8#32, 4#32, 0x200#32))
        0x22 (fun t => (reg .rval t, (t.port.mem.readRun 0x200 8).map BitVec.toNat, t.port.mem.readU16s 0x208 8))
      = some (7, [4, 4, 4, 4, 4, 4, 3, 1], [0x5, 0xD, 0x3, 0xB, 0x7, 0xF, 0x1, 0x0]) := by decide +kernel

/-- R641's examples. -/
theorem test_hcanon :
    afterWord
        (sample .none (bytesAt 0x100 [3#8, 3#8, 3#8, 3#8, 3#8, 2#8, 4#8, 4#8]) 0 0 0 0 (0x100#32, 8#32, 0x200#32, 0#32))
        0x23 (fun t => (reg .result t, reg .rval t, t.port.mem.readU16s 0x200 8))
      = some (0, 4, [2, 3, 4, 5, 6, 0, 14, 15]) := by decide +kernel

theorem test_hcanon_oversubscribed :
    afterWord (sample .none (bytesAt 0x100 [1#8, 1#8, 1#8]) 0 0 0 0 (0x100#32, 3#32, 0x200#32, 0#32)) 0x23
        (fun t => (reg .result t, reg .rval t, reg .errcode t)) = some (0xFFFFFFFD, 1, 0) := by decide +kernel

/-! ## ADLER around the dictionary wait -/

/-- A decompressor that awaits the dictionary of R550's example, its identifier in ADLER. -/
def waiting (availIn : Nat) : State :=
  let s := sample (.inflate { decomp with mode := .waitForDictionary, need := 0x062C0215#32 }) [] 0x100 availIn 0x200 64 noArgs
  { s with port := { s.port with adler := 0x062C0215#32 } }

/-- R520, R41: INFLATE without the dictionary is StreamError 19 in BAD, and nothing has been delivered: ADLER is 1. -/
theorem test_inflate_wait :
    afterWord (waiting 1) 0x13 (fun t => (reg .result t, reg .errcode t, reg .estate t, reg .adler t))
      = some (0xFFFFFFFE, 19, 0x17, 1) := by decide +kernel

/-- R560, R41: the same for an ISYNC that finds no marker. -/
theorem test_isync_wait :
    afterWord (waiting 1) 0x14 (fun t => (reg .result t, reg .errcode t, reg .estate t, reg .adler t))
      = some (0xFFFFFFFD, 28, 0x17, 1) := by decide +kernel

/-! ## Command words that are no command -/

theorem test_illegal_word :
    afterWord State.reset 0x07 (fun t => (reg .result t, reg .errcode t)) = some (0xFFFFFFFE, 25)
      ∧ afterWord State.reset 0x805 (fun t => (reg .result t, reg .errcode t)) = some (0xFFFFFFFE, 20) := by
  decide +kernel

/-- With nothing pending a step changes nothing. -/
theorem test_idle : step State.reset = .next State.reset := rfl

/-! ## R113: header values -/

theorem test_headers :
    headerValue 9 1 false = 0x1819 ∧ headerValue 15 6 false = 0x789C ∧ headerValue 15 0 false = 0x78DA
      ∧ headerValue 15 1 true = 0x783F ∧ headerValue 14 6 true = 0x68BF ∧ headerValue 12 9 true = 0x48E6 := by decide

/-! ## Witnesses: a concrete state and operands that meet the hypotheses of each statement -/

/-- A compressor in the middle of a stream. -/
def compBusy : Compressor := { comp with dstate := .busy }

/-- A busy compressor with two bytes of input and output space. -/
def deflating : State :=
  sample (.deflate compBusy) (bytesAt 0x100 [0xFF#8, 0xFF#8]) 0x100 2 0x200 64 noArgs

/-- A decompressor at the start of a stream with one byte of input. -/
def inflating : State := sample (.inflate decomp) (bytesAt 0x100 [0x78#8]) 0x100 1 0x200 64 noArgs

/-- A decompressor inside a stored block with input and output space. -/
def copying : State :=
  sample (.inflate { decomp with mode := .blocks, bmode := .storedCopy, left := 5, hist := 1 })
    (bytesAt 0x100 hello) 0x100 4 0x200 4 noArgs

/-- Operands of HBUILD: R640's example. -/
def building : State :=
  sample .none (bytesAt 0x100 (u16Bytes [5, 9, 12, 13, 16, 45])) 0 0 0 0 (0x100#32, 6#32, 15#32, 0x200#32)

/-- Operands of HCANON: the given lengths. -/
def assigning (lens : List Byte) : State :=
  sample .none (bytesAt 0x100 lens) 0 0 0 0 (0x100#32, Word.ofNat lens.length, 0x200#32, 0#32)

theorem witness_DecodeOfEncode :
    (Instr.dinit 15 15 15 3).wellFormed = true ∧ (Instr.dinit 0 0 0 0).wellFormed = true
      ∧ (Instr.deflate 7).wellFormed = true ∧ Instr.hcanon.wellFormed = true := by decide

theorem witness_EncodeOfDecode :
    decode 0x03FFF001#32 = .command (.dinit 15 15 15 3) ∧ decode 0x00000713#32 = .command (.inflate 7) := by decide

/-- One word at each end of each gap of the opcode map, one with a bad bit, one legal. -/
theorem witness_CommandWordChecking :
    State.reset.busy = false
      ∧ fieldOpc 0xFFFFFF00#32 = 0 ∧ fieldOpc 0x07#32 = 0x07 ∧ fieldOpc 0x10#32 = 0x10 ∧ fieldOpc 0x17#32 = 0x17
      ∧ fieldOpc 0x20#32 = 0x20 ∧ fieldOpc 0x24#32 = 0x24 ∧ fieldOpc 0xFF#32 = 0xFF
      ∧ (∃ row ∈ opcodeMap, fieldOpc 0x805#32 = row.opc ∧ 0x805#32 &&& row.mask ≠ row.pattern)
      ∧ ∃ row ∈ opcodeMap, 0x403#32 &&& row.mask = row.pattern := by decide

theorem witness_StepRunsTheCommand :
    (State.reset.withFetchWord 32 0x403).busy = false
      ∧ (State.reset.withFetchWord 32 0x403).hostQueue = .writeReg 0 4 0x403#32 :: []
      ∧ decode 0x403#32 = .command (.deflate 4) := by decide

theorem witness_HardwareResetValues : deflating.busy = false := rfl

/-- Both values of BUSY, offsets at both ends of the window, and a step that answers. -/
theorem witness_StatusRegister :
    State.reset.busy = false ∧ ({ State.reset with busy := true } : State).busy = true
      ∧ (0x00 % 4 = 0 ∧ 0x00 ≤ 0x7C) ∧ (0x7C % 4 = 0 ∧ 0x7C ≤ 0x7C) ∧ step State.reset = .next State.reset :=
  ⟨rfl, rfl, by decide, by decide, rfl⟩

theorem witness_RegisterWrites : State.reset.busy = false := rfl

/-- Every defined offset but STATUS is listed, STATUS being 0x04. -/
theorem test_registerValues_offsets :
    (registerValues deflating).map (·.1)
      = [0x00, 0x08, 0x0C, 0x10, 0x14, 0x18, 0x1C, 0x20, 0x24, 0x28, 0x2C, 0x30, 0x34, 0x38, 0x3C, 0x40, 0x44, 0x48] := rfl

theorem witness_RegisterAccessForms :
    ((2 : Nat) ≠ 4 ∨ 0x10 % 4 ≠ 0) ∧ ((4 : Nat) ≠ 4 ∨ 0x12 % 4 ≠ 0)
      ∧ (0x4C % 4 = 0 ∧ 0x4C ≤ 0x4C ∧ 0x4C ≤ 0x7C) ∧ (0x7C % 4 = 0 ∧ 0x4C ≤ 0x7C ∧ 0x7C ≤ 0x7C) := by decide

/-- The last address, and the first that does not exist. -/
theorem witness_HostBufferAccess :
    deflating.busy = false ∧ Memory.wf deflating.port.mem = true ∧ 0xFFFF < deflating.memSize
      ∧ deflating.memSize ≤ 0x10000 := by decide +kernel

/-- Commands of each family answer a next state (with an effect, not only a refusal). -/
theorem witness_commands_answer :
    answers (.deflate 0) deflating = true ∧ answers (.dparams 2 1) deflating = true
      ∧ answers (.inflate 0) inflating = true ∧ answers .isync inflating = true ∧ answers .dend deflating = true
      ∧ answers (.dinit 6 15 8 0) State.reset = true ∧ answers .adler building = true
      ∧ answers .hbuild building = true ∧ answers .hcanon (assigning [1#8, 1#8]) = true := by decide +kernel

theorem witness_CommandsNeverWriteArguments :
    (∃ t, exec .hbuild building = .next t) ∧ State.reset.busy = false :=
  ⟨answers_next witness_commands_answer.2.2.2.2.2.2.2.1, rfl⟩

theorem witness_InputCursors :
    (∃ t, exec (.deflate 0) deflating = .next t) ∧ consumes (.deflate 0) = true
      ∧ (∃ t, exec .dend deflating = .next t) ∧ consumes .dend = false :=
  ⟨answers_next witness_commands_answer.1, rfl, answers_next witness_commands_answer.2.2.2.2.1, rfl⟩

theorem witness_StatusesOfCommands : ∃ t, exec (.inflate 0) inflating = .next t :=
  answers_next witness_commands_answer.2.2.1

theorem witness_WrongEngineHasNoEffect :
    (needsCompressor .dreset = true ∧ ∀ c, inflating.engine ≠ .deflate c)
      ∧ (needsDecompressor .iend = true ∧ ∀ d, deflating.engine ≠ .inflate d)
      ∧ deflating.engine ≠ .none ∧ inflating.engine ≠ .none :=
  ⟨⟨rfl, fun _ h => by cases h⟩, ⟨rfl, fun _ h => by cases h⟩, (fun h => by cases h), (fun h => by cases h)⟩

/-- A range one byte too long, and a pair that shares one byte. -/
theorem witness_BadRangesHaveNoEffect :
    badRange .adler (sample .none [] 0 0 0 0 (0#32, 0xFFFF#32, 2#32, 0#32))
      ∧ badRange (.inflate 0) (sample (.inflate decomp) [] 0x100 2 0x101 1 noArgs)
      ∧ badRange .isync (sample (.inflate decomp) [] 0x10000 1 0 0 noArgs) := by
  refine ⟨?_, .inr (.inr ⟨0x101, ?_⟩), ?_⟩
  · show _ ∧ _
    decide
  · decide
  · show _ ∧ _
    decide

/-- Each check fails at the boundary of its range, on a state that meets its other hypotheses. -/
theorem witness_EntryChecksHaveNoEffect :
    (deflating.engine = .deflate compBusy ∧ compBusy.dstate ≠ .init)
      ∧ (inflating.engine = .inflate decomp ∧ decomp.mode ≠ .waitForDictionary) ∧ (4 : Nat) < 5
      ∧ (let s := sample .none (bytesAt 0x100 (u16Bytes [1, 1, 1])) 0 0 0 0 (0x100#32, 3#32, 1#32, 0x200#32)
         2 ^ s.arg2.toNat < max 2 ((s.port.mem.readU16s s.arg0.toNat s.arg1.toNat).countP (fun f => f != 0)))
      ∧ (sample .none [] 0 0 0 0 (0#32, 2#32, 1#32, 0#32)).arg1.toNat < 3
      ∧ 320 < (sample .none [] 0 0 0 0 (0#32, 321#32, 1#32, 0#32)).arg1.toNat
      ∧ (∃ l ∈ (assigning [1#8, 16#8]).port.mem.readRun (assigning [1#8, 16#8]).arg0.toNat (assigning [1#8, 16#8]).arg1.toNat,
          15 < l.toNat)
      ∧ (let s := sample (.deflate compBusy) [] 0 0 0x200 0 noArgs
         compBusy.overflowed = false ∧ ¬ badStream s ∧ ¬ (compBusy.dstate = .finish ∨ compBusy.dstate = .done)
          ∧ s.port.availOut = 0#32)
      ∧ (let s := sample (.deflate compBusy) [] 0 0 0x200 64 noArgs
         ¬ badStream s ∧ compBusy.dstate = .busy ∧ compBusy.pending = [] ∧ s.port.availIn = 0#32 ∧ s.port.availOut ≠ 0#32
          ∧ ((0 : Nat) : Int) ≤ compBusy.lastFlush) :=
  ⟨⟨rfl, by decide⟩, ⟨rfl, by decide⟩, by decide, by decide +kernel, by decide, by decide, by decide +kernel,
    ⟨rfl, not_badStream _ (by decide +kernel), by decide, rfl⟩,
    ⟨not_badStream _ (by decide +kernel), rfl, rfl, rfl, by decide, by decide⟩⟩

theorem witness_EngineSelector :
    (∃ t, exec (.dinit 6 15 8 0) State.reset = .next t) ∧ ∃ t, exec .dend deflating = .next t :=
  ⟨answers_next witness_commands_answer.2.2.2.2.2.1, answers_next witness_commands_answer.2.2.2.2.1⟩

theorem witness_BadIsTerminal :
    ∃ t, exec (.inflate 0) (sample (.inflate { decomp with mode := .bad, err := 1#8 }) [] 0 0 0 0 noArgs) = .next t :=
  answers_next (by decide +kernel)

/-- The stream of no input (R430's example). -/
def emptyStream : List Byte := [0x78#8, 0x9C#8, 0x03#8, 0x00#8, 0x00#8, 0x00#8, 0x00#8, 0x01#8]

/-- A compressor before its header, with output space. -/
def beginning : State := sample (.deflate comp) [] 0 0 0x200 64 noArgs

/-- The history after the empty stream has been written in one call. -/
def emptyHistory : History := { History.start 15 6 with written := emptyStream }

/-- The empty stream read in one call, with its trace. -/
theorem emptyHistory_traces :
    ∃ t d, emptyHistory.traces 15 emptyStream [] t d ∧ d.mode = .done ∧ t.accAt 64 = 0 ∧ t.shows 64 d = some .done :=
  ⟨_, _, ⟨Decodes.once (room := 0) (by decide) (by decide +kernel) (by decide +kernel), by decide +kernel⟩,
    by decide +kernel, by decide +kernel, by decide +kernel⟩

theorem emptyHistory_reads : ∃ d, emptyHistory.reads 15 emptyStream [] d ∧ d.mode = .done :=
  let ⟨t, d, h, hm, _⟩ := emptyHistory_traces
  ⟨d, ⟨t, h⟩, hm⟩

/-- A compressor in DONE that has delivered everything settles its history. -/
theorem emptyHistory_settles {c : Compressor} {full : Bool} (hd : c.dstate = .done) (hp : c.pending = [])
    (hv : c.biValid = 0) (hf : full = false) : emptyHistory.settles c full := by
  obtain ⟨t, d, h, -, ha, hs⟩ := emptyHistory_traces
  have hb : emptyHistory.bitCount c = 64 := by rw [History.bitCount, hp, hv]; decide
  have hr : emptyHistory.readsAll c t d := by
    refine ⟨[], [], ?_, by rw [hv]; decide, ?_⟩
    · rw [Compressor.accBits, hv]
      exact List.nil_prefix
    · rw [hp]
      exact h
  exact ⟨t, d, hr, by rw [hb, ha, hv], by rw [hb, hs, hd], fun h => absurd h (by rw [hf]; decide)⟩

theorem emptyHistory_valid {c : Compressor} (hp : c.pending = []) (hv : c.biValid = 0) : emptyHistory.valid c := by
  obtain ⟨d, hd, hm⟩ := emptyHistory_reads
  refine ⟨?_, ⟨[], [], d, ?_, ?_, hm⟩, d, hd⟩
  · rw [hp]
    decide +kernel
  · rw [Compressor.accBits, hv]
    exact List.nil_prefix
  · rw [hp]
    exact hd

theorem emptyHistory_complete {pending : List Byte} (hp : pending = []) : emptyHistory.complete pending := by
  subst hp
  refine ⟨fun w h1 h2 => ?_, by decide +kernel⟩
  have hw : w = 15 := Nat.le_antisymm h2 h1
  subst hw
  exact emptyHistory_reads

/-- A fresh decoder on a stream, as `Decodes` runs it. -/
def reading (bytes : List Byte) : IRun := ⟨Port.scratch bytes 300, Decompressor.opened 15⟩

/-- R111: the same stream with its padding set to 1 decodes, and no draw writes it. -/
theorem test_padding_is_zero :
    let r := reading [0x78#8, 0x9C#8, 0x03#8, 0xFC#8, 0x00#8, 0x00#8, 0x00#8, 0x01#8]
    r.inflate.2 = some .streamEnd ∧ r.cleanly ⟨32506, []⟩ Trace.start = none := by decide +kernel

/-- R123: a stored block with padding 0 and with padding 1. -/
theorem test_marker_padding :
    (reading [0x78#8, 0x9C#8, 0x00#8, 0x00#8, 0x00#8, 0xFF#8, 0xFF#8]).cleanly ⟨32506, []⟩ Trace.start ≠ none
      ∧ (reading [0x78#8, 0x9C#8, 0x08#8, 0x00#8, 0x00#8, 0xFF#8, 0xFF#8]).cleanly ⟨32506, []⟩ Trace.start = none := by
  decide +kernel

/-- R123: a marker is an empty stored block: after SYNC over `00 00 FF FF` the decoder must await LEN before the last four
bytes, and inside a stored block of 8 bytes it does not. -/
theorem test_marker_is_a_block :
    (reading [0x78#8, 0x9C#8, 0x00#8]).inflate.1.d.awaitsLength = true
      ∧ (reading [0x78#8, 0x9C#8, 0x00#8, 0x08#8, 0x00#8, 0xF7#8, 0xFF#8]).inflate.1.d.awaitsLength = false := by
  decide +kernel

/-- R445, R402: a stored block leaves the accumulator empty, so with 8 bytes of output space `78 01 00 01 00 FE FF 61` fills
it and the final block, whose first bit is bit 64, cannot begin; after `abc` (R454's example) 10 bits are held, so the marker
begins at bit 98 with 88 bits handed over. -/
theorem test_where_blocks_begin :
    ((reading [0x78#8, 0x01#8, 0x00#8, 0x01#8, 0x00#8, 0xFE#8, 0xFF#8, 0x61#8, 0x03#8, 0x00#8]).cleanly ⟨32506, []⟩
        Trace.start).map Trace.blocks = some [⟨64, 64, true⟩, ⟨16, 16, false⟩]
      ∧ ((reading [0x78#8, 0x9C#8, 0x4A#8, 0x4C#8, 0x4A#8, 0x06#8, 0x00#8, 0x00#8, 0x00#8, 0xFF#8, 0xFF#8, 0x02#8, 0x00#8,
          0x00#8, 0x00#8, 0xFF#8, 0xFF#8]).cleanly ⟨32506, []⟩ Trace.start).map Trace.blocks = some [⟨98, 88, false⟩, ⟨88, 88, false⟩, ⟨50, 48, false⟩, ⟨16, 16, false⟩] := by
  decide +kernel

/-- R118: a literal and length 258 as symbol 284 with extra 31 decode to 259 bytes, and no draw writes them. -/
theorem test_length_258_is_285 :
    let r := reading [0x78#8, 0x9C#8, 0x4B#8, 0x1C#8, 0xF9#8, 0x00#8, 0x00#8]
    r.inflate.1.port.totalOut = 259#32 ∧ r.inflate.1.d.mode = .trailerChecksum ∧ r.cleanly ⟨32506, []⟩ Trace.start = none := by
  decide +kernel

/-- R430: with room for 2 bytes the header fills the output, so the call returns Ok in BUSY before anything is drawn. -/
theorem test_header_holds :
    (DRun.held ⟨{ beginning.port with availOut := 2#32 }, comp⟩ 4).map (fun r => (r.c.dstate, r.c.lastFlush, r.c.pending))
        = some (.busy, -1, [])
      ∧ DRun.held ⟨beginning.port, comp⟩ 4 = none := by decide +kernel

/-- A draw that R434 allows: Finish on no input writes the whole stream at once. -/
theorem drawn_empty :
    DrawnCall 4 ⟨beginning.port, comp⟩
      ⟨beginning.port.drawn true 0 emptyStream, { comp with dstate := .done, lastFlush := 4 }⟩ (.ret .streamEnd)
      (History.start 15 6) emptyHistory where
  counts := ⟨0, emptyStream, [], by decide, by decide +kernel, List.nil_prefix, List.nil_prefix, rfl, rfl⟩
  parameters := ⟨rfl, rfl, rfl, rfl, rfl, rfl⟩
  accumulator := by decide
  pending := fun h => absurd rfl h
  settled := emptyHistory_settles rfl rfl rfl (by decide +kernel)
  finishing := fun _ => ⟨rfl, by decide +kernel⟩
  finished := fun _ _ => rfl
  trailer := fun _ => Nat.zero_le _
  boundary := fun h => by cases h
  lastFlush := by decide +kernel
  ending := by decide +kernel
  valid := emptyHistory_valid rfl rfl
  complete := fun _ => emptyHistory_complete rfl
  flushed := fun h => by obtain ⟨h, -⟩ := h; omega
  moves := fun h => by cases h
  ample := fun _ h => by cases h

/-- The states of an encoder that has delivered the empty stream. -/
def delivered (c : Compressor) (h : History) : Prop :=
  c.dstate = .done ∧ c.pending = [] ∧ c.biValid = 0 ∧ c.biBuf = 0#16 ∧ c.overflowed = false ∧ h = emptyHistory

/-- Finish again: nothing is drawn, and StreamEnd is returned (R430). -/
theorem delivered_again {c : Compressor} (hs : delivered c emptyHistory) (p : Port) (hi : p.availIn = 0#32)
    (ho : p.availOut ≠ 0#32) :
    DrawnCall 4 ⟨p, c⟩ ⟨p, { c with lastFlush := 4 }⟩ (.ret .streamEnd) emptyHistory emptyHistory := by
  obtain ⟨hd, hp, hv, hb, hov, -⟩ := hs
  have hf : DRun.full ⟨p, { c with lastFlush := 4 }⟩ = false := by simp [DRun.full, ho]
  have hini : (c.dstate == .init) = false := by rw [hd]; rfl
  exact
    { counts := ⟨0, [], [], Nat.zero_le _, Nat.zero_le _, by rw [hp]; exact List.nil_prefix,
        by rw [Compressor.bits, Compressor.accBits, hp, hv]; exact List.nil_prefix,
        by rw [hini, Port.drawn_nothing], by rw [History.atCall, if_neg (by rw [hd]; decide)]; rfl⟩
      parameters := ⟨rfl, rfl, rfl, rfl, rfl, hov⟩
      accumulator := ⟨by rw [hv]; decide, by rw [hv, hb]; decide⟩
      pending := fun h => absurd hp h
      settled := emptyHistory_settles hd hp hv hf
      finishing := fun _ => ⟨rfl, hi⟩
      finished := fun _ _ => hd
      trailer := fun _ => by rw [hp]; exact Nat.zero_le _
      boundary := fun h => absurd h (by rw [hd]; decide)
      lastFlush := by simp [DState.lastFlushAfter, hd]
      ending := by simp [Compressor.statusAfter, hd, hp]
      valid := emptyHistory_valid hp hv
      complete := fun _ => emptyHistory_complete hp
      flushed := fun h => by obtain ⟨h, -⟩ := h; omega
      moves := fun h => by cases h
      ample := fun _ h => by cases h }

/-- An encoder conforms from there on: Finish again, and everything else is refused. -/
theorem delivered_conforming : Conforming delivered := by
  intro c h hs
  have hh : h = emptyHistory := hs.2.2.2.2.2
  subst hh
  refine ⟨fun level strategy => ?_, fun flush s _ _ _ _ => ?_⟩
  · unfold Compressor.switch Compressor.setConfig
    split <;> exact hs
  · unfold Permitted
    have hfin : c.finishing = true := by simp [Compressor.finishing, hs.1]
    have hheld : DRun.held ⟨s.port, c⟩ flush = none := by
      simp [DRun.held, DRun.start, hs.1, hs.2.1]
    by_cases h1 : flush ≠ 4 ∨ s.port.availIn ≠ 0#32
    · refine ⟨⟨s.port, c⟩, .raise .streamError 20#8, emptyHistory, ?_, hs⟩
      simp [DRun.refusal, hfin, h1]
    · by_cases h2 : s.port.availOut = 0#32
      · refine ⟨⟨s.port, c⟩, .raise .bufError 21#8, emptyHistory, ?_, hs⟩
        simp [DRun.refusal, h1, h2]
      · have h4 : flush = 4 := by by_contra hn; exact h1 (.inl hn)
        have hi : s.port.availIn = 0#32 := by by_contra hn; exact h1 (.inr hn)
        subst h4
        refine ⟨⟨s.port, { c with lastFlush := 4 }⟩, .ret .streamEnd, emptyHistory, ?_, hs⟩
        have hr : DRun.refusal ⟨s.port, c⟩ 4 = none := by simp [DRun.refusal, hi, h2]
        rw [hr, hheld]
        exact delivered_again hs s.port hi h2

/-- The same call under `Any`: permitted, and an encoder conforms from there on. -/
theorem any_empty :
    AnyDeflate 4 ⟨beginning.port, comp⟩
      ⟨beginning.port.drawn true 0 emptyStream, { comp with dstate := .done, lastFlush := 4 }⟩ (.ret .streamEnd)
      (History.start 15 6) emptyHistory :=
  ⟨drawn_empty, fun _ => ⟨delivered, delivered_conforming, rfl, rfl, rfl, rfl, rfl, rfl⟩⟩

/-- Both profiles, an engine that is open and one that is not. -/
theorem witness_CompressFrame :
    (∃ t, ExecUnder .reference (.deflate 0) deflating emptyHistory t emptyHistory)
      ∧ (∃ t, ExecUnder .reference (.dparams 2 1) deflating emptyHistory t emptyHistory)
      ∧ (∃ t, ExecUnder .any (.deflate 4) beginning (History.start 15 6) t emptyHistory)
      ∧ deflating.engine = .deflate compBusy ∧ ∀ c, inflating.engine ≠ .deflate c :=
  ⟨(answers_next witness_commands_answer.1).imp (fun _ h => ⟨h, rfl⟩),
    (answers_next witness_commands_answer.2.1).imp (fun _ h => ⟨h, rfl⟩), ⟨_, ⟨_, _, any_empty, rfl⟩⟩, rfl,
    fun _ h => by cases h⟩

theorem witness_InflateFrame :
    (∃ t, exec (.inflate 0) inflating = .next t) ∧ inflating.engine = .inflate decomp
      ∧ ∀ d, deflating.engine ≠ .inflate d :=
  ⟨answers_next witness_commands_answer.2.2.1, rfl, fun _ h => by cases h⟩

theorem witness_OpenAndCloseFrame :
    (∃ t, exec (.dinit 6 15 8 0) State.reset = .next t) ∧ ∃ t, exec .dend deflating = .next t :=
  witness_EngineSelector

theorem witness_UtilityFrame :
    (∃ t, exec .adler building = .next t) ∧ (∃ t, exec .hbuild building = .next t)
      ∧ ∃ t, exec .hcanon (assigning [1#8, 1#8]) = .next t :=
  ⟨answers_next witness_commands_answer.2.2.2.2.2.2.1, answers_next witness_commands_answer.2.2.2.2.2.2.2.1,
    answers_next witness_commands_answer.2.2.2.2.2.2.2.2⟩

theorem witness_ResyncFrame : (∃ t, exec .isync inflating = .next t) ∧ inflating.engine = .inflate decomp :=
  ⟨answers_next witness_commands_answer.2.2.2.1, rfl⟩

/-- The smallest and the largest parameters, and one value outside each range. -/
theorem witness_DinitOpensCompressor :
    State.reset.engine = .none ∧ ((0 : Nat) ≤ 9 ∧ (9 : Nat) ≤ 9 ∧ (9 : Nat) ≤ 15 ∧ (1 : Nat) ≤ 1 ∧ (1 : Nat) ≤ 9 ∧ (0 : Nat) ≤ 2)
      ∧ ((9 : Nat) ≤ 9 ∧ (9 : Nat) ≤ 15 ∧ (15 : Nat) ≤ 15 ∧ (1 : Nat) ≤ 9 ∧ (9 : Nat) ≤ 9 ∧ (2 : Nat) ≤ 2)
      ∧ (deflating.engine ≠ .none ∨ (9 : Nat) < 6) ∧ (State.reset.engine ≠ .none ∨ (8 : Nat) < 9) :=
  ⟨rfl, by decide, by decide, .inl (fun h => by cases h), .inr (by decide)⟩

theorem witness_DresetRestartsCompressor :
    deflating.engine = .deflate compBusy ∧ ∀ c, inflating.engine ≠ .deflate c := ⟨rfl, fun _ h => by cases h⟩

theorem witness_DendClosesCompressor :
    (deflating.engine = .deflate compBusy ∧ compBusy.dstate = .busy)
      ∧ ((sample (.deflate comp) [] 0 0 0 0 noArgs).engine = .deflate comp ∧ comp.dstate ≠ .busy)
      ∧ ∀ c, inflating.engine ≠ .deflate c := ⟨⟨rfl, rfl⟩, ⟨rfl, by decide⟩, fun _ h => by cases h⟩

theorem witness_IinitOpensDecompressor :
    (State.reset.engine = .none ∧ (8 : Nat) ≤ 8 ∧ (8 : Nat) ≤ 15) ∧ ((8 : Nat) ≤ 15 ∧ (15 : Nat) ≤ 15)
      ∧ (deflating.engine ≠ .none ∨ (8 : Nat) < 8) ∧ (State.reset.engine ≠ .none ∨ (7 : Nat) < 8) :=
  ⟨⟨rfl, by decide, by decide⟩, by decide, .inl (fun h => by cases h), .inr (by decide)⟩

theorem witness_IresetRestartsDecompressor :
    inflating.engine = .inflate decomp ∧ ∀ d, deflating.engine ≠ .inflate d := ⟨rfl, fun _ h => by cases h⟩

theorem witness_IendClosesDecompressor :
    inflating.engine = .inflate decomp ∧ ∀ d, State.reset.engine ≠ .inflate d := ⟨rfl, fun _ h => by cases h⟩

/-- Dictionaries of 2 and of 3 bytes, on both sides of the limit. -/
theorem witness_DsetdictPrimesWindow :
    (let s := sample (.deflate comp) (bytesAt 0x100 hello) 0 0 0 0 (0x100#32, 2#32, 0#32, 0#32)
     s.engine = .deflate comp ∧ s.port.adler = 1#32 ∧ ¬ outside s s.arg0.toNat s.arg1.toNat ∧ s.arg1.toNat < 3)
    ∧ (let s := sample (.deflate comp) (bytesAt 0x100 hello) 0 0 0 0 (0x100#32, 3#32, 0#32, 0#32)
       s.engine = .deflate comp ∧ s.port.adler = 1#32 ∧ ¬ outside s s.arg0.toNat s.arg1.toNat ∧ 3 ≤ s.arg1.toNat)
    ∧ comp.dstate = .init ∧ comp.strstart = 0 ∧ legalParameters comp :=
  ⟨⟨rfl, rfl, not_outside _ _ _ (by decide), by decide⟩, ⟨rfl, rfl, not_outside _ _ _ (by decide), by decide⟩, rfl, rfl,
    by unfold legalParameters; decide⟩

/-- The matching dictionary, and one that does not match. -/
theorem witness_IsetdictSuppliesDictionary :
    (let d := { decomp with mode := .waitForDictionary }
     let s0 := sample (.inflate d) (bytesAt 0x100 hello) 0 0 0 0 (0x100#32, 5#32, 0#32, 0#32)
     let s : State := { s0 with port := { s0.port with adler := 0x062C0215#32 } }
     (s.engine = .inflate d ∧ d.mode = .waitForDictionary ∧ ¬ outside s s.arg0.toNat s.arg1.toNat
        ∧ 8 ≤ d.wbits ∧ d.wbits ≤ 15 ∧ d.wr < d.windowLen)
      ∧ adlerUpdate 1#32 (s.port.mem.readRun s.arg0.toNat s.arg1.toNat) = s.port.adler
      ∧ adlerUpdate 1#32 (s0.port.mem.readRun s0.arg0.toNat s0.arg1.toNat) ≠ s0.port.adler) :=
  ⟨⟨rfl, rfl, not_outside _ _ _ (by decide), by decide, by decide, by decide⟩, by decide +kernel, by decide +kernel⟩

/-- Room for one byte of the header, and for all of it, with and without a dictionary. -/
theorem witness_DeflateWritesHeader :
    (∀ room : Fin 3, room ≠ 0 →
      let s := sample (.deflate comp) (bytesAt 0x100 hello) 0x100 5 0x200 room noArgs
      s.engine = .deflate comp ∧ s.streamRangesOk = true ∧ 0 < s.port.availOut.toNat
        ∧ s.port.availOut.toNat ≤ (headerBytes comp s.port.adler).length)
    ∧ comp.dstate = .init ∧ comp.pending = [] ∧ comp.overflowed = false ∧ legalParameters comp
    ∧ (headerBytes { comp with strstart := 5 } 0x062C0215#32)
        = [0x78#8, 0xBB#8, 0x06#8, 0x2C#8, 0x02#8, 0x15#8] :=
  ⟨by decide +kernel, rfl, rfl, rfl, by unfold legalParameters; decide, by decide +kernel⟩

/-- One byte of input, and as many as leave the lookahead just short of 262. -/
theorem witness_DeflateAccumulates :
    (deflating.engine = .deflate compBusy ∧ ¬ badStream deflating ∧ deflating.port.availOut ≠ 0#32
      ∧ deflating.port.availIn ≠ 0#32 ∧ compBusy.lookahead + deflating.port.availIn.toNat < 262)
    ∧ (let s := sample (.deflate { compBusy with lookahead := 260 }) [] 0x100 1 0x200 64 noArgs
       ¬ badStream s ∧ 260 + s.port.availIn.toNat < 262)
    ∧ compBusy.dstate = .busy ∧ compBusy.pending = [] ∧ compBusy.overflowed = false ∧ legalParameters compBusy
    ∧ compBusy.config = levelTable compBusy.level ∧ compBusy.level ≠ 0
    ∧ compBusy.strstart < compBusy.wSize + compBusy.maxDist :=
  ⟨⟨rfl, not_badStream _ (by decide +kernel), by decide, by decide, by decide +kernel⟩,
    ⟨not_badStream _ (by decide +kernel), by decide⟩, rfl, rfl, rfl, by unfold legalParameters; decide, rfl, by decide,
    by decide +kernel⟩

/-- A compressor in FINISH or DONE with everything delivered. -/
def ending (d : DState) : Compressor := { comp with dstate := d }

/-- FINISH or DONE with `room` bytes of output space and `offered` bytes of input. -/
def atEnd (d : DState) (offered room : Nat) : State := sample (.deflate (ending d)) [] 0x100 offered 0x200 room noArgs

/-- FINISH and DONE with another mode than Finish and with input; FINISH with room for 3 bytes of the trailer and for all
4; DONE. -/
theorem witness_FinishedStream :
    (∀ x ∈ [DState.finish, .done],
      (atEnd x 0 4).engine = .deflate (ending x) ∧ (atEnd x 1 4).engine = .deflate (ending x)
        ∧ ((ending x).dstate = .finish ∨ (ending x).dstate = .done) ∧ (3 : Nat) ≠ 4 ∧ (atEnd x 1 4).port.availIn ≠ 0#32
        ∧ (ending x).overflowed = false ∧ legalParameters (ending x) ∧ (ending x).pending = []
        ∧ (ending x).lookahead = 0)
    ∧ (∀ room ∈ [3, 4],
      room = min 4 (atEnd .finish 0 room).port.availOut.toNat ∧ (ending .finish).dstate = .finish
        ∧ ¬ badStream (atEnd .finish 0 room) ∧ (atEnd .finish 0 room).port.availIn = 0#32
        ∧ (atEnd .finish 0 room).port.availOut ≠ 0#32)
    ∧ (ending .done).dstate = .done ∧ ¬ badStream (atEnd .done 0 1) ∧ (atEnd .done 0 1).port.availIn = 0#32
    ∧ (atEnd .done 0 1).port.availOut ≠ 0#32 := by
  refine ⟨?_, ?_, rfl, not_badStream _ (by decide +kernel), rfl, by decide⟩
  · intro x hx
    have h : x = .finish ∨ x = .done := by simpa using hx
    obtain rfl | rfl := h
    all_goals exact ⟨rfl, rfl, by decide, by decide, by decide, rfl, by unfold legalParameters; decide, rfl, rfl⟩
  · intro room hr
    obtain rfl | rfl : room = 3 ∨ room = 4 := by simpa using hr
    all_goals exact ⟨by decide, rfl, not_badStream _ (by decide +kernel), rfl, by decide⟩

/-- Nothing, some and all of the pending bytes fit, the window wrapping around. -/
theorem witness_DrainDelivers :
    (let d := { decomp with wr := 1, pend := 3 }
     d.pend ≤ d.windowLen ∧ 0 = min d.pend 0 ∧ 2 = min d.pend 2 ∧ 3 = min d.pend 64
      ∧ nextOutput { d with iwin := d.iwin.set 65534 7#8 } 2 = [7#8, 0#8])
    ∧ Memory.wf ([] : Memory) = true ∧ 0x200 + 64 ≤ 2 ^ 32 := by decide +kernel

theorem witness_DparamsSwitchesAtOnce :
    (deflating.engine = .deflate compBusy ∧ compBusy.overflowed = false ∧ (9 : Nat) ≤ 9 ∧ (2 : Nat) ≤ 2
      ∧ ¬ badStream deflating ∧ (levelTable compBusy.level).func = (levelTable 9).func)
    ∧ deflating.port.totalIn = 0#32 ∧ ((9 : Nat) < 10 ∨ (2 : Nat) < 0) ∧ ((9 : Nat) < 9 ∨ (2 : Nat) < 3) :=
  ⟨⟨rfl, rfl, by decide, by decide, not_badStream _ (by decide +kernel), rfl⟩, rfl, by decide, by decide⟩

theorem witness_InflateReadsMethod :
    inflating.engine = .inflate decomp ∧ ¬ badStream inflating ∧ decomp.mode = .headerMethod ∧ decomp.pend = 0
      ∧ inflating.port.availIn = 1#32 ∧ 0x78#8 = inflating.port.mem.read inflating.port.nextIn.toNat
      ∧ ¬ (0x78#8 &&& 0x0F#8 ≠ 8#8) ∧ ¬ decomp.wbits < (0x78#8 : Byte).toNat / 16 + 8
      ∧ 0x77#8 &&& 0x0F#8 ≠ 8#8 ∧ decomp.wbits < (0x88#8 : Byte).toNat / 16 + 8 :=
  ⟨rfl, not_badStream _ (by decide +kernel), rfl, rfl, rfl, by decide +kernel, by decide, by decide, by decide, by decide⟩

theorem witness_InflateInTerminalStates :
    ∀ m ∈ [IMode.done, IMode.bad, IMode.waitForDictionary],
      (sample (.inflate { decomp with mode := m, pend := 2 }) [] 0 0 0x200 1 noArgs).streamRangesOk = true := by
  decide +kernel

theorem witness_InflateCopiesStoredBytes :
    ∃ d, copying.engine = .inflate d ∧ ¬ badStream copying ∧ Memory.wf copying.port.mem = true ∧ d.mode = .blocks
      ∧ d.bmode = .storedCopy ∧ d.pend = 0 ∧ 8 ≤ d.wbits ∧ d.wbits ≤ 15 ∧ d.wr < d.windowLen
      ∧ copying.port.availIn.toNat = 4 ∧ 4 < d.left ∧ 4 ≤ copying.port.availOut.toNat :=
  ⟨_, rfl, not_badStream _ (by decide +kernel), by decide +kernel, rfl, rfl, rfl, by decide, by decide, by decide, rfl,
    by decide, by decide⟩

/-- A decompressor in BAD with a marker progress, and the input at 0x100. -/
def lost (marker : Nat) (input : List Byte) : State :=
  sample (.inflate { decomp with mode := .bad, err := 26#8, marker := marker }) (bytesAt 0x100 input) 0x100 input.length
    0 0 noArgs

/-- No input; the marker count 5; an input that ends with its first marker, after a progress of 0 and of 2 carried over;
and one without a marker after a progress of 0 and of 3. -/
theorem witness_ResyncFindsFirstMarker :
    (∀ x ∈ [((0 : Nat), [0#8, 0#8, 0#8, 0xFF#8, 0xFF#8], (5 : Nat)), (2, [0xFF#8, 0xFF#8], 2)],
      (lost x.1 x.2.1).port.availIn ≠ 0#32
        ∧ x.2.1 = (lost x.1 x.2.1).port.mem.readRun 0x100 x.2.2
        ∧ markerBytes <:+ markerBytes.take x.1 ++ x.2.1.take x.2.2
        ∧ ∀ j, j < x.2.2 → ¬ markerBytes <:+ markerBytes.take x.1 ++ x.2.1.take j)
    ∧ (∀ x ∈ [((0 : Nat), [7#8]), (3, [7#8, 0xFF#8])], ∀ j, j ≤ x.2.length →
      ¬ markerBytes <:+ markerBytes.take x.1 ++ x.2.take j)
    ∧ (¬ outside (waiting 0) (waiting 0).port.nextIn.toNat (waiting 0).port.availIn.toNat
      ∧ (waiting 0).port.availIn = 0#32)
    ∧ (lost 5 [7#8]).engine = .inflate { decomp with mode := .bad, err := 26#8, marker := 5 }
    ∧ (lost 5 [7#8]).port.availIn ≠ 0#32
    ∧ ∀ x ∈ [((0 : Nat), [0#8, 0#8, 0#8, 0xFF#8, 0xFF#8]), (2, [0xFF#8, 0xFF#8]), (0, [7#8]), (3, [7#8, 0xFF#8]),
        (5, [7#8])],
      ¬ outside (lost x.1 x.2) (lost x.1 x.2).port.nextIn.toNat (lost x.1 x.2).port.availIn.toNat := by
  refine ⟨by decide +kernel, by decide +kernel, ⟨not_outside _ _ _ (by decide), rfl⟩, rfl, by decide, fun x hx => ?_⟩
  simp only [List.mem_cons, List.not_mem_nil, or_false] at hx
  obtain rfl | rfl | rfl | rfl | rfl := hx <;> exact not_outside _ _ _ (by decide)

theorem witness_AdlerCommand :
    (let s := sample .none [] 0 0 0 0 (1#32, 0xFFFF#32, 1#32, 0#32)
     ¬ outside s s.arg1.toNat s.arg2.toNat)
    ∧ (let s := sample .none [] 0 0 0 0 (1#32, 0xFFFF#32, 2#32, 0#32)
       outside s s.arg1.toNat s.arg2.toNat) :=
  ⟨not_outside _ _ _ (by decide), (outside_iff _ _ _).2 (by decide)⟩

theorem witness_CanonicalCodes :
    (∀ l ∈ [3, 3, 3, 3, 3, 2, 4, 4, 0, 15], l ≤ 15) ∧ ([3, 0] : List Nat).getD 1 0 = 0 ∧ ([3, 0] : List Nat).getD 0 0 ≠ 0 := by
  decide

/-- R641's code: symbol 5 has the code 00, symbol 7 the code 1111. -/
theorem witness_DecodingInvertsAssignment :
    (let lens := [3, 3, 3, 3, 3, 2, 4, 4]
     (∀ l ∈ lens, l ≤ 15) ∧ kraft lens ≤ 2 ^ 15 ∧ 7 < lens.length ∧ lens.getD 7 0 ≠ 0
      ∧ 0x1F % 2 ^ lens.getD 7 0 = biReverse ((canonCodes lens).getD 7 0) (lens.getD 7 0)
      ∧ lens.getD 7 0 ≤ 4 ∧ 3 < lens.getD 7 0) := by decide +kernel

/-- HBUILD's largest alphabet, with two nonzero frequencies. -/
theorem witness_HbuildStoresCode_288 :
    (let s := sample .none (bytesAt 0x100 (u16Bytes [1, 1])) 0 0 0 0 (0x100#32, 288#32, 1#32, 0x1000#32)
     s.arg1.toNat = 288 ∧ s.hbuildRangesOk = true ∧ Memory.wf s.port.mem = true
      ∧ max 2 ((s.port.mem.readU16s s.arg0.toNat 288).countP (fun f => f != 0)) ≤ 2 ^ 1) := by decide +kernel

theorem witness_HbuildStoresCode :
    building.arg1.toNat = 6 ∧ building.arg2.toNat = 15 ∧ ¬ badRange .hbuild building
      ∧ Memory.wf building.port.mem = true
      ∧ max 2 ((building.port.mem.readU16s building.arg0.toNat 6).countP (fun f => f != 0)) ≤ 2 ^ 15
      ∧ 2 ≤ (building.port.mem.readU16s building.arg0.toNat 6).countP (fun f => f != 0) := by
  refine ⟨rfl, rfl, ?_, by decide +kernel, by decide +kernel, by decide +kernel⟩
  rintro (h | h | h)
  · exact not_outside _ _ _ (by decide) h
  · exact not_outside _ _ _ (by decide) h
  · rw [clash_iff] at h
    revert h
    decide

/-- A complete, an incomplete and an over-subscribed code. -/
theorem witness_HcanonStoresCodes :
    (assigning [1#8, 1#8]).arg1.toNat = 2 ∧ ¬ badRange .hcanon (assigning [1#8, 1#8])
      ∧ Memory.wf (assigning [1#8, 1#8]).port.mem = true
      ∧ ((assigning [1#8, 1#8]).port.mem.readRun 0x100 2).map BitVec.toNat = [1, 1]
      ∧ kraft [1, 1] = 2 ^ 15 ∧ kraft [1, 2] < 2 ^ 15 ∧ 2 ^ 15 < kraft [1, 1, 1] := by
  refine ⟨rfl, ?_, by decide +kernel, by decide +kernel, by decide, by decide, by decide⟩
  rintro (h | h | h)
  · exact not_outside _ _ _ (by decide) h
  · exact not_outside _ _ _ (by decide) h
  · rw [clash_iff] at h
    revert h
    decide

theorem witness_CodeTablesCover : (0 : Nat) ≤ 255 ∧ (255 : Nat) ≤ 255 ∧ (1 : Nat) ≤ 1 ∧ (1 : Nat) ≤ 32768 ∧ (32768 : Nat) ≤ 32768 := by
  decide

/-- A field that fits the accumulator exactly, and one that overflows it. -/
theorem witness_SendBitsAppends :
    (let c := { comp with biValid := 3, biBuf := 5#16 }
     packerClean c ∧ 7 < 2 ^ 13 ∧ c.pending.length + 2 ≤ c.pendingBufSize ∧ c.biValid ≤ 16 - 13 ∧ 16 - 14 < c.biValid) := by
  unfold packerClean
  decide +kernel

theorem witness_StoredBlockLayout :
    packerClean { comp with biValid := 16, biBuf := 0xFFFF#16 } ∧ hello.length ≤ 65535
      ∧ comp.pending.length + hello.length + 8 ≤ comp.pendingBufSize := by
  unfold packerClean
  decide +kernel

/-- Output space for none, some and all of the pending bytes, up to the last address. -/
theorem witness_FlushPendingDelivers :
    Memory.wf ([] : Memory) = true ∧ 0xFFFFFFFF + 1 ≤ 2 ^ 32 ∧ 0 = min hello.length 0 ∧ 1 = min hello.length 1
      ∧ 5 = min hello.length 64 := by decide

theorem witness_FillWindow :
    (9 ≤ comp.wBits ∧ comp.wBits ≤ 15 ∧ comp.strstart + comp.lookahead ≤ comp.windowSize)
      ∧ (let c := { comp with strstart := 65000, lookahead := 536 }
         c.strstart + c.lookahead ≤ c.windowSize) := by decide +kernel

theorem witness_SlideRenumbers : comp.wBits ≤ 15 := by decide

/-- A window in which the string at 5 repeats the one at 1. -/
theorem witness_LongestMatchAgrees :
    (let c := { comp with
       win := comp.win.setRun 1 [1#8, 2#8, 3#8, 4#8, 1#8, 2#8, 3#8, 4#8], strstart := 5, lookahead := 4 }
     c.prevLength < (c.longestMatch 1).len ∧ c.strstart ≤ 1 + c.maxDist) := by decide +kernel

/-- A block that begins far behind, in a window filled to its end. -/
theorem witness_MatchersTerminate :
    (let c := { Compressor.opened 0 9 1 0 with strstart := 1000, lookahead := 24, blockStart := -100 }
     legalParameters c ∧ c.strstart + c.lookahead ≤ c.windowSize ∧ c.blockStart ≤ c.strstart) :=
  ⟨by unfold legalParameters; decide, by decide, by decide⟩

/-- A first part that leaves the stream unfinished, and one that fails at once. -/
theorem witness_InflateResumes :
    1 + 1 < 2 ^ 32
      ∧ (IRun.inflate (withInput ⟨Port.reset (bytesAt 0 [0x78#8, 0x9C#8]), decomp⟩ 1)).2 = none
      ∧ (IRun.inflate (withInput ⟨Port.reset (bytesAt 0 [0x77#8, 0x9C#8]), decomp⟩ 1)).2 = some .dataError := by
  decide +kernel

theorem witness_MemoryFormKept : Memory.wf State.reset.port.mem = true ∧ step State.reset = .next State.reset :=
  ⟨rfl, rfl⟩

/-- The ranges hold of a compressor in use, and a step from it answers. -/
theorem witness_CompressorRangesKept :
    compressorLegal deflating ∧ ∃ t, step (deflating.withFetchWord 32 0x03) = .next t := by
  refine ⟨?_, ?_⟩
  · intro c hc
    cases hc
    unfold legalParameters
    decide +kernel
  · exact (answers_next witness_commands_answer.1).imp (fun t ht => ht)

theorem witness_DecompressorRangesKept :
    decompressorLegal inflating ∧ ∃ t, step (inflating.withFetchWord 32 0x13) = .next t := by
  refine ⟨?_, ?_⟩
  · intro d hd
    cases hd
    decide +kernel
  · exact (answers_next witness_commands_answer.2.2.1).imp (fun t ht => ht)

end Sys2Proof.Tests
end

section
/-!
The step that runs a command (00_scope.md R20, 10_state.md R34).
-/

namespace Sys2Proof.Machine

/-- With an action pending, a step performs the oldest one (R20). -/
theorem step_of_hostQueue_cons {s : State} {a : HostAction} {rest : List HostAction} (hq : s.hostQueue = a :: rest) :
    step s = hostAct a { s with hostQueue := rest } := by
  simp only [step, hq]

/-- CMD is at offset 0 of the register window (R33). -/
@[simp] theorem registerAccess_cmd : registerAccess 0 4 = some .cmd := rfl

/-- A legal word written to CMD while the core is idle is a command (R34). -/
theorem cmdWrite_command? {s : State} {w : Word} {i : Instr} (hb : s.busy = false) (hd : decode w = .command i) :
    (cmdWrite w).command? s = some i := by
  simp [cmdWrite, HostAction.command?, hb, hd]

/-- Settles O5: the step performs the write to CMD, and that write is the command `hostAct_of_command` speaks of. -/
theorem stepRunsTheCommand : Obligations.StepRunsTheCommand := by
  intro s rest w i hb hq hd
  calc step s = hostAct (cmdWrite w) { s with hostQueue := rest } := step_of_hostQueue_cons hq
    _ = exec i { s with hostQueue := rest } := hostAct_of_command (cmdWrite_command? hb hd)

end Sys2Proof.Machine
end

section
/-!
The moves of a command on the stream port (10_state.md R38, R40, R41).
-/

namespace Sys2Proof.Machine

/-- From `p` to `q` by what the engines do to the stream port: consume bytes on offer, deliver bytes for which there is
room, write ADLER. -/
inductive Port.Moves (p : Port) : Port → Prop where
  | refl : Port.Moves p p
  | consume {q : Port} (k : Nat) (hk : k ≤ q.availIn.toNat) (h : Port.Moves p q) : Port.Moves p (q.consume k)
  | deliver {q : Port} (bytes : List Byte) (hb : bytes.length ≤ q.availOut.toNat) (h : Port.Moves p q) :
    Port.Moves p (q.deliver bytes)
  | adler {q : Port} (a : Word) (h : Port.Moves p q) : Port.Moves p { q with adler := a }

theorem Port.Moves.trans {p q r : Port} (h : p.Moves q) (h' : q.Moves r) : p.Moves r := by
  induction h' with
  | refl => exact h
  | consume k hk _ ih => exact ih.consume k hk
  | deliver bytes hb _ ih => exact ih.deliver bytes hb
  | adler a _ ih => exact ih.adler a

/-- Moves of the port move the input cursors by the bytes consumed (R38). -/
theorem Port.Moves.input {p q : Port} (h : p.Moves q) :
    q.availIn.toNat ≤ p.availIn.toNat
      ∧ q.nextIn = p.nextIn + Word.ofNat (p.availIn.toNat - q.availIn.toNat)
      ∧ q.totalIn = p.totalIn + Word.ofNat (p.availIn.toNat - q.availIn.toNat) := by
  induction h with
  | refl => simp
  | deliver bytes hb _ ih => exact ih
  | adler a _ ih => exact ih
  | @consume q k hk _ ih =>
    obtain ⟨hle, hnext, htotal⟩ := ih
    have hsum : p.availIn.toNat - (q.availIn.toNat - k) = (p.availIn.toNat - q.availIn.toNat) + k := by omega
    rw [Port.consume_availIn_toNat q k hk, hsum]
    refine ⟨by omega, ?_, ?_⟩
    · simp only [Port.consume_nextIn, hnext, Word.ofNat, BitVec.ofNat_add, BitVec.add_assoc]
    · simp only [Port.consume_totalIn, htotal, Word.ofNat, BitVec.ofNat_add, BitVec.add_assoc]

/-- One byte is on offer when AVAIL_IN is not 0. -/
theorem Port.one_le_availIn {p : Port} (h : p.availIn ≠ 0#32) : 1 ≤ p.availIn.toNat := by
  by_contra hlt
  exact h (BitVec.eq_of_toNat_eq (by simp; omega))

end Sys2Proof.Machine
end

section
/-!
The code lengths a tree has never pass the tree's limit (46_huffman.md R613, R614), whatever the frequencies.
-/

namespace Sys2Proof.Machine

/-- Every node's length is within a limit. -/
def Lengths.Within (m : Nat) (x : Lengths) : Prop := ∀ k, x.len.get k ≤ m

theorem lastUsed_le (counts : Ram Nat) (bits : Nat) : lastUsed counts bits ≤ bits := by
  induction bits with
  | zero => exact Nat.le_refl 0
  | succ bits ih =>
    unfold lastUsed
    split
    · omega
    · exact Nat.le_refl _

/-- Writing a length within the limit keeps all of them within it. -/
theorem Lengths.Within.set {m : Nat} {x : Lengths} (h : x.Within m) (n : Nat) {bits : Nat} (hb : bits ≤ m) :
    ∀ k, (x.len.set n bits).get k ≤ m :=
  Ram.forall_set (· ≤ m) x.len n bits hb h

theorem Lengths.Within.assign {kind : TreeKind} {x : Lengths} (h : x.Within kind.maxLength) (b : Builder) (n : Nat) :
    (x.assign kind b n).Within kind.maxLength := by
  have hset := h.set n (Nat.min_le_right (x.len.get (b.dad.get n) + 1) kind.maxLength)
  unfold Lengths.assign
  simp only []
  split <;> exact hset

/-- `gen_bitlen` clips every length to the limit (R613). -/
theorem genBitlen_within (kind : TreeKind) (b : Builder) : (genBitlen kind b).Within kind.maxLength := by
  have hroot : ∀ k, ((Ram.nil : Ram Nat).set (b.heap.get b.heapMax) 0).get k ≤ kind.maxLength :=
    Ram.forall_set (· ≤ kind.maxLength) .nil _ 0 (Nat.zero_le _) (fun k => by rw [Ram.get_nil]; exact Nat.zero_le _)
  exact List.foldlRecOn _ _ (motive := Lengths.Within kind.maxLength) hroot (fun x hx n _ => hx.assign b n)

/-- Reassigning from a length within the limit down keeps the limit (R614). -/
theorem Lengths.Within.reassign {m : Nat} (b : Builder) (counts : Ram Nat) {bits : Nat} (hb : bits ≤ m) (h c : Nat)
    {x : Lengths} (hx : x.Within m) : (reassign b counts h bits c x).Within m := by
  induction h generalizing bits c x with
  | zero => exact hx
  | succ h ih =>
    cases c with
    | zero => exact hx
    | succ c =>
      have hdown : lastUsed counts (bits - 1) ≤ m := (lastUsed_le _ _).trans (by omega)
      unfold Machine.reassign
      simp only []
      split
      · exact ih hb _ hx
      · cases c with
        | zero => exact ih hdown _ (by split; exacts [hx, hx.set _ hb])
        | succ c => exact ih hb _ (by split; exacts [hx, hx.set _ hb])

/-- The overflow fix keeps the limit (R614). -/
theorem Lengths.Within.fixOverflow {kind : TreeKind} {x : Lengths} (h : x.Within kind.maxLength) (b : Builder) :
    (fixOverflow kind b x).Within kind.maxLength := by
  unfold Machine.fixOverflow
  simp only []
  split
  · exact h
  · exact h.reassign b _ (lastUsed_le _ _) _ _

theorem Ram.mem_getRun_le {m : Nat} {t : Ram Nat} (h : ∀ k, t.get k ≤ m) (k n : Nat) : ∀ l ∈ t.getRun k n, l ≤ m := by
  induction n generalizing k with
  | zero => intro l hl; cases hl
  | succ n ih =>
    intro l hl
    rcases List.mem_cons.mp hl with rfl | hl
    · exact h k
    · exact ih (k + 1) l hl

/-- The lengths of a built tree are within its limit, whatever the frequencies (R613, R614). -/
theorem buildTree_lens_le (kind : TreeKind) (freq : Ram Nat) : ∀ l ∈ (buildTree kind freq).lens, l ≤ kind.maxLength :=
  Ram.mem_getRun_le ((genBitlen_within kind _).fixOverflow _) 0 kind.elems

/-- A code made from lengths has no longer one. -/
theorem PrefixCode.ofLengths_len_le {m : Nat} {lens : List Nat} (h : ∀ l ∈ lens, l ≤ m) (k : Nat) :
    (PrefixCode.ofLengths lens).len.get k ≤ m :=
  Ram.forall_setRun (· ≤ m) .nil 0 lens h (fun x => by rw [Ram.get_nil]; exact Nat.zero_le m) k

theorem buildTree_code_len_le (kind : TreeKind) (freq : Ram Nat) (k : Nat) :
    (buildTree kind freq).code.len.get k ≤ kind.maxLength :=
  PrefixCode.ofLengths_len_le (buildTree_lens_le kind freq) k

end Sys2Proof.Machine
end

section
/-!
The packer's ranges (43_bitstream.md R401, R402): every operation of the packer and of the block framer keeps `Pending`
within its capacity and at most 16 bits in the accumulator.
-/

namespace Sys2Proof.Machine

/-- `Pending` within its capacity (R401), at most 16 bits in the accumulator (R402). -/
structure Compressor.PackerFits (c : Compressor) : Prop where
  pending : c.pending.length ≤ c.pendingBufSize
  biValid : c.biValid ≤ 16

/-- No length of the code passes what the accumulator takes at once (R402). -/
def PrefixCode.Sendable (t : PrefixCode) : Prop := ∀ k, t.len.get k ≤ 16

theorem PrefixCode.sendable_ofLengths {lens : List Nat} (h : ∀ l ∈ lens, l ≤ 15) :
    (PrefixCode.ofLengths lens).Sendable := fun k => (PrefixCode.ofLengths_len_le h k).trans (by decide)

theorem buildTree_sendable {kind : TreeKind} (hk : kind.maxLength ≤ 16) (freq : Ram Nat) :
    (buildTree kind freq).code.Sendable := fun k => (buildTree_code_len_le kind freq k).trans hk

theorem fixedLitLen_le (s : Nat) : fixedLitLen s ≤ 15 := by
  unfold fixedLitLen
  split_ifs <;> decide

theorem fixedLitCode_sendable : fixedLitCode.Sendable := by
  refine PrefixCode.sendable_ofLengths fun l hl => ?_
  obtain ⟨s, -, rfl⟩ := List.mem_map.mp hl
  exact fixedLitLen_le s

theorem fixedDistCode_sendable : fixedDistCode.Sendable :=
  PrefixCode.sendable_ofLengths fun l hl => by rw [List.eq_of_mem_replicate hl]; decide

/-- An entry of a table is within what all its entries are. -/
theorem tableAt_le {t : List Nat} {m : Nat} (h : ∀ l ∈ t, l ≤ m) (k : Nat) : tableAt t k ≤ m := by
  unfold tableAt
  rw [List.getD_eq_getElem?_getD]
  cases hk : t[k]? with
  | none => exact Nat.zero_le m
  | some l => exact h l (List.mem_of_getElem? hk)

theorem lenExtra_le (k : Nat) : tableAt lenExtra k ≤ 5 := tableAt_le (by decide) k

theorem distExtra_le (k : Nat) : tableAt distExtra k ≤ 13 := tableAt_le (by decide) k

/-- Packing leaves the capacity of `Pending`. -/
theorem Repacked.pendingBufSize {c c' : Compressor} (h : Repacked c c') : c'.pendingBufSize = c.pendingBufSize := by
  rw [h.eq]
  rfl

namespace Compressor.PackerFits

variable {c : Compressor}

theorem putByte (h : c.PackerFits) (b : Byte) : (c.putByte b).PackerFits where
  pending := by
    rw [(c.putByte_repacked b).pendingBufSize]
    exact c.putByte_pending b h.pending
  biValid := by
    rw [c.putByte_biValid b]
    exact h.biValid

theorem putBytes (h : c.PackerFits) (bs : List Byte) : (c.putBytes bs).PackerFits := by
  induction bs generalizing c with
  | nil => exact h
  | cons b bs ih => exact ih (h.putByte b)

theorem putShort (h : c.PackerFits) (w : Nat) : (c.putShort w).PackerFits := (h.putByte _).putByte _

theorem putShortMsb (h : c.PackerFits) (w : Nat) : (c.putShortMsb w).PackerFits := (h.putByte _).putByte _

theorem putWordMsb (h : c.PackerFits) (w : Word) : (c.putWordMsb w).PackerFits := (h.putShortMsb _).putShortMsb _

/-- The accumulator may hold any 16 bits at most. -/
theorem accumulator (h : c.PackerFits) (x : BitVec 16) {n : Nat} (hn : n ≤ 16) :
    PackerFits { c with biBuf := x, biValid := n } := ⟨h.pending, hn⟩

theorem sendBits (h : c.PackerFits) (v : Nat) {n : Nat} (hn : n ≤ 16) : (c.sendBits v n).PackerFits := by
  have hv := h.biValid
  unfold Compressor.sendBits
  split
  · exact (h.putShort _).accumulator _ (by omega)
  · exact h.accumulator _ (by omega)

theorem sendCode (h : c.PackerFits) {t : PrefixCode} (ht : t.Sendable) (s : Nat) : (c.sendCode t s).PackerFits :=
  h.sendBits _ (ht s)

theorem biWindup (h : c.PackerFits) : c.biWindup.PackerFits := by
  unfold Compressor.biWindup
  split
  · exact (h.putShort _).accumulator _ (Nat.zero_le _)
  · split
    · exact (h.putByte _).accumulator _ (Nat.zero_le _)
    · exact h.accumulator _ (Nat.zero_le _)

theorem initBlock (h : c.PackerFits) : c.initBlock.PackerFits := ⟨h.pending, h.biValid⟩

theorem storedBlock (h : c.PackerFits) (buf : List Byte) (eof : Bool) : (c.storedBlock buf eof).PackerFits :=
  (((h.sendBits _ (by decide)).biWindup.putShort _).putShort _).putBytes _

/-- A fold of steps that each keep the packer's ranges keeps them. -/
theorem foldl {β : Type} (f : Compressor → β → Compressor) (hf : ∀ c b, c.PackerFits → (f c b).PackerFits)
    (h : c.PackerFits) (l : List β) : (l.foldl f c).PackerFits :=
  List.foldlRecOn l f h (fun c hc b _ => hf c b hc)

theorem sendItem {bt : PrefixCode} (hbt : bt.Sendable) (h : c.PackerFits) (i : LenItem) :
    (c.sendItem bt i).PackerFits := by
  cases i with
  | plain _ => exact h.sendCode hbt _
  | copyPrev _ => exact (h.sendCode hbt _).sendBits _ (by decide)
  | zerosShort _ => exact (h.sendCode hbt _).sendBits _ (by decide)
  | zerosLong _ => exact (h.sendCode hbt _).sendBits _ (by decide)

theorem sendTree {bt : PrefixCode} (hbt : bt.Sendable) (h : c.PackerFits) (items : List LenItem) :
    (c.sendTree bt items).PackerFits := foldl _ (fun _ i hc => hc.sendItem hbt i) h items

/-- Extra bits are sent only where there are some (R447). -/
theorem sendExtra (h : c.PackerFits) (v : Nat) {n : Nat} (hn : n ≤ 16) :
    (if 0 < n then c.sendBits v n else c).PackerFits := by
  split
  · exact h.sendBits v hn
  · exact h

theorem sendSymbol {lt dt : PrefixCode} (hlt : lt.Sendable) (hdt : dt.Sendable) (h : c.PackerFits) (e : SymEntry) :
    (c.sendSymbol lt dt e).PackerFits := by
  unfold Compressor.sendSymbol
  split
  · exact h.sendCode hlt _
  · exact (((h.sendCode hlt _).sendExtra _ ((lenExtra_le _).trans (by decide))).sendCode hdt _).sendExtra _
      ((distExtra_le _).trans (by decide))

theorem compressBlock {lt dt : PrefixCode} (hlt : lt.Sendable) (hdt : dt.Sendable) (h : c.PackerFits) :
    (c.compressBlock lt dt).PackerFits :=
  (foldl _ (fun _ e hc => hc.sendSymbol hlt hdt e) h _).sendCode hlt _

theorem sendAllTrees (h : c.PackerFits) {t : BlockTrees} (ht : t.bt.code.Sendable) : (c.sendAllTrees t).PackerFits :=
  ((foldl _ (fun _ _ hc => hc.sendBits _ (by decide))
    (((h.sendBits _ (by decide)).sendBits _ (by decide)).sendBits _ (by decide)) _).sendTree ht _).sendTree ht _

theorem emitCoded (h : c.PackerFits) (eof : Bool) : (c.emitCoded eof).PackerFits := by
  have hl : c.blockTrees.lt.code.Sendable := buildTree_sendable (kind := litKind) (by decide) _
  have hd : c.blockTrees.dt.code.Sendable := buildTree_sendable (kind := distKind) (by decide) _
  have hb : c.blockTrees.bt.code.Sendable := buildTree_sendable (kind := blKind) (by decide) _
  unfold Compressor.emitCoded
  simp only []
  split
  · exact h.storedBlock _ eof
  · split
    · exact (h.sendBits _ (by decide)).compressBlock fixedLitCode_sendable fixedDistCode_sendable
    · exact ((h.sendBits _ (by decide)).sendAllTrees hb).compressBlock hl hd

theorem emitStored (h : c.PackerFits) (eof : Bool) : (c.emitStored eof).PackerFits := by
  unfold Compressor.emitStored
  split
  · exact h.storedBlock _ eof
  · exact (h.sendBits _ (by decide)).compressBlock fixedLitCode_sendable fixedDistCode_sendable

/-- `flush_block` keeps the packer's ranges (R446). -/
theorem flushBlock (h : c.PackerFits) (eof : Bool) : (c.flushBlock eof).PackerFits := by
  have hc : (if 0 < c.level then c.emitCoded eof else c.emitStored eof).PackerFits := by
    split
    · exact h.emitCoded eof
    · exact h.emitStored eof
  unfold Compressor.flushBlock
  simp only []
  split
  · exact hc.initBlock.biWindup
  · exact hc.initBlock

end Compressor.PackerFits

end Sys2Proof.Machine
end

section
/-!
What a run of DEFLATE or DPARAMS can do, in one relation: it moves the stream port, keeps the compressor's parameters
(10_state.md R52) and keeps the packer's ranges (43_bitstream.md R401, R402). One lemma per operation of 41_window.md,
42_lz77.md and 44_deflate.md.
-/

namespace Sys2Proof.Machine

/-- The parameters of a compressor, with the row of LEVEL_TABLE it works by (R52). -/
def Compressor.parameters (c : Compressor) : Nat × Nat × Nat × Nat × LevelConfig :=
  (c.level, c.strategy, c.wBits, c.memLevel, c.config)

theorem Compressor.parameters_inj {c c' : Compressor} :
    c'.parameters = c.parameters
      ↔ c'.level = c.level ∧ c'.strategy = c.strategy ∧ c'.wBits = c.wBits ∧ c'.memLevel = c.memLevel
        ∧ c'.config = c.config := by
  simp [Compressor.parameters]

/-- The capacity of `Pending` depends on the parameters only (R52). -/
theorem Compressor.pendingBufSize_congr {c c' : Compressor} (h : c'.parameters = c.parameters) :
    c'.pendingBufSize = c.pendingBufSize := by
  obtain ⟨-, -, -, hm, -⟩ := Compressor.parameters_inj.mp h
  simp only [Compressor.pendingBufSize, Compressor.litBufsize, hm]

theorem Repacked.parameters {c c' : Compressor} (h : Repacked c c') : c'.parameters = c.parameters := by
  rw [h.eq]
  rfl

/-- `c'` has the parameters of `c`, and the packer's ranges if `c` has them. -/
structure Compressor.RangesKept (c c' : Compressor) : Prop where
  parameters : c'.parameters = c.parameters
  packer : c.PackerFits → c'.PackerFits

namespace Compressor.RangesKept

variable {a b c : Compressor}

theorem refl (c : Compressor) : RangesKept c c := ⟨rfl, id⟩

theorem trans (h : RangesKept a b) (h' : RangesKept b c) : RangesKept a c :=
  ⟨h'.parameters.trans h.parameters, fun hp => h'.packer (h.packer hp)⟩

/-- An update that touches neither the parameters nor `Pending` nor the count of the accumulator. -/
theorem of_eq (hp : c.parameters = a.parameters) (hpend : c.pending = a.pending) (hbi : c.biValid = a.biValid) :
    RangesKept a c where
  parameters := hp
  packer h := ⟨by rw [hpend, pendingBufSize_congr hp]; exact h.pending, by rw [hbi]; exact h.biValid⟩

/-- An update of the packer. -/
theorem of_repacked (h : Repacked a c) (hp : a.PackerFits → c.PackerFits) : RangesKept a c := ⟨h.parameters, hp⟩

theorem putShortMsb (c : Compressor) (w : Nat) : RangesKept c (c.putShortMsb w) :=
  .of_repacked (c.putShortMsb_repacked w) (fun h => h.putShortMsb w)

theorem putWordMsb (c : Compressor) (w : Word) : RangesKept c (c.putWordMsb w) :=
  .of_repacked (c.putWordMsb_repacked w) (fun h => h.putWordMsb w)

theorem storedBlock (c : Compressor) (buf : List Byte) (eof : Bool) : RangesKept c (c.storedBlock buf eof) :=
  .of_repacked (c.storedBlock_repacked buf eof) (fun h => h.storedBlock buf eof)

theorem flushBlock (c : Compressor) (eof : Bool) : RangesKept c (c.flushBlock eof) where
  parameters := by
    rw [c.flushBlock_eq eof]
    rfl
  packer h := h.flushBlock eof

theorem insertString (c : Compressor) (pos : Nat) : RangesKept c (c.insertString pos) := .of_eq rfl rfl rfl

theorem insertRun (c : Compressor) (pos n : Nat) : RangesKept c (c.insertRun pos n) := by
  induction n generalizing c pos with
  | zero => exact .refl c
  | succ n ih => exact (insertString c pos).trans (ih _ _)

theorem advance (c : Compressor) : RangesKept c c.advance := .of_eq rfl rfl rfl

theorem record (c : Compressor) (dist lc : Nat) : RangesKept c (c.record dist lc) := by
  unfold Compressor.record
  simp only []
  split <;> exact .of_eq rfl rfl rfl

theorem slideIfHigh (c : Compressor) : RangesKept c c.slideIfHigh := by
  unfold Compressor.slideIfHigh
  split
  · exact .of_eq rfl rfl rfl
  · exact .refl c

theorem afterRead (c : Compressor) (n : Nat) : RangesKept c (c.afterRead n) := by
  unfold Compressor.afterRead
  simp only []
  split <;> exact .of_eq rfl rfl rfl

theorem takeStored (c : Compressor) : RangesKept c c.takeStored := by
  unfold Compressor.takeStored
  simp only []
  split <;> exact .of_eq rfl rfl rfl

/-- FullFlush clears the hash table (R455). -/
theorem clearHead (c : Compressor) : RangesKept c { c with head := .nil } := .of_eq rfl rfl rfl

theorem enter (c : Compressor) (x : DState) : RangesKept c { c with dstate := x } := .of_eq rfl rfl rfl

theorem noteFinish (c : Compressor) (b : BState) : RangesKept c (c.noteFinish b) := by
  cases b <;> exact .of_eq rfl rfl rfl

/-- Priming with a dictionary touches the window and the hash table only (R452). -/
theorem prime (c : Compressor) (kept : List Byte) : RangesKept c (c.prime kept) := by
  unfold Compressor.prime
  refine trans ?_ (insertRun _ 0 _)
  exact .of_eq rfl rfl rfl

end Compressor.RangesKept

/-- From `r` to `r'` by moves of the stream port, the compressor's ranges kept. -/
structure DRun.Advances (r r' : DRun) : Prop where
  port : r.port.Moves r'.port
  engine : r.c.RangesKept r'.c

namespace DRun.Advances

variable {r r' r'' : DRun}

theorem refl (r : DRun) : r.Advances r := ⟨.refl, .refl r.c⟩

theorem trans (h : r.Advances r') (h' : r'.Advances r'') : r.Advances r'' :=
  ⟨h.port.trans h'.port, h.engine.trans h'.engine⟩

/-- An update of the engine alone. -/
theorem onEngine (r : DRun) {c : Compressor} (h : r.c.RangesKept c) : r.Advances { r with c := c } := ⟨.refl, h⟩

/-- An update of the engine alone, after other moves. -/
theorem thenEngine (h : r.Advances r') {c : Compressor} (hc : r'.c.RangesKept c) : r.Advances { r' with c := c } :=
  h.trans (onEngine r' hc)

theorem flushPending (r : DRun) : r.Advances r.flushPending := by
  rw [r.flushPending_eq]
  refine ⟨.deliver _ (by rw [List.length_take]; omega) .refl, ⟨rfl, fun h => ⟨?_, h.biValid⟩⟩⟩
  exact (List.drop_sublist _ _).length_le.trans h.pending

theorem flushBlockOnly (r : DRun) (eof : Bool) : r.Advances (r.flushBlockOnly eof) := by
  unfold DRun.flushBlockOnly
  refine trans ?_ (flushPending _)
  exact onEngine r ((Compressor.RangesKept.flushBlock r.c eof).trans (.of_eq rfl rfl rfl))

theorem readBuf (r : DRun) (pos size : Nat) : r.Advances (r.readBuf pos size) := by
  rw [r.readBuf_eq]
  exact ⟨.adler _ (.consume _ (r.readCount_le size).1 .refl), .of_eq rfl rfl rfl⟩

theorem fillOnce (r : DRun) (more : Nat) : r.Advances (r.fillOnce more) :=
  (readBuf r _ more).thenEngine (.afterRead _ _)

theorem fillLoop (fuel : Nat) (r : DRun) : r.Advances (DRun.fillLoop fuel r) := by
  induction fuel generalizing r with
  | zero => exact refl r
  | succ fuel ih =>
    have hslide : r.Advances { r with c := r.c.slideIfHigh } := onEngine r (.slideIfHigh r.c)
    unfold DRun.fillLoop
    simp only []
    split
    · exact hslide
    · split
      · exact (hslide.trans (fillOnce _ _)).trans (ih _)
      · exact hslide.trans (fillOnce _ _)

theorem fillWindow (r : DRun) : r.Advances r.fillWindow := fillLoop _ r

theorem refill (r : DRun) : r.Advances r.refill := by
  unfold DRun.refill
  split
  · exact fillWindow r
  · exact refl r

end DRun.Advances

/-! ## Strategy functions -/

/-- The run a turn leaves, wherever it leads. -/
def Turn.run : Turn → DRun
  | .again x => x.run
  | .leave _ r => r
  | .exit r => r

namespace DRun.Advances

theorem endBlock (r : DRun) (flush : Nat) : r.Advances (r.endBlock flush).2 := by
  have h := flushBlockOnly r (flush == 4)
  unfold DRun.endBlock
  simp only []
  split <;> exact h

/-- A loop whose turns and whose end advance advances. -/
theorem runTurns {turn : Scan → Turn} {close : DRun → BState × DRun} (hturn : ∀ x : Scan, x.run.Advances (turn x).run)
    (hclose : ∀ r : DRun, r.Advances (close r).2) (fuel : Nat) (x : Scan) :
    x.run.Advances (Machine.runTurns turn close fuel x).2 := by
  induction fuel generalizing x with
  | zero => exact refl x.run
  | succ fuel ih =>
    have h := hturn x
    unfold Machine.runTurns
    cases ht : turn x with
    | again y => rw [ht] at h; exact h.trans (ih y)
    | leave b r => rw [ht] at h; exact h
    | exit r => rw [ht] at h; exact h.trans (hclose r)

theorem flushAndGo (x : Scan) : x.run.Advances x.flushAndGo.run := by
  have h := flushBlockOnly x.run false
  unfold Scan.flushAndGo
  simp only []
  split <;> exact h

theorem insertHere (x : Scan) : x.run.Advances x.insertHere.run := by
  unfold Scan.insertHere
  split
  · exact onEngine x.run (.insertString _ _)
  · exact refl x.run

/-- One covered position: step over it and insert it (R366, R367). -/
theorem insertNext (r : DRun) :
    r.Advances { r with
      c := ({ r.c with strstart := r.c.strstart + 1 } : Compressor).insertString (r.c.strstart + 1) } :=
  onEngine r (.of_eq rfl rfl rfl)

theorem insertCovered (n : Nat) (x : Scan) : x.run.Advances (Scan.insertCovered n x).run := by
  induction n generalizing x with
  | zero => exact refl x.run
  | succ n ih =>
    unfold Scan.insertCovered
    refine trans ?_ (ih _)
    exact insertNext x.run

theorem insertUpTo (maxInsert : Int) (n : Nat) (x : Scan) : x.run.Advances (Scan.insertUpTo maxInsert n x).run := by
  induction n generalizing x with
  | zero => exact refl x.run
  | succ n ih =>
    unfold Scan.insertUpTo
    simp only []
    split
    · refine trans ?_ (ih _)
      exact insertNext x.run
    · refine trans ?_ (ih _)
      exact onEngine x.run (.of_eq rfl rfl rfl)

theorem fastSearch (x : Scan) : x.run.Advances x.fastSearch.run := by
  unfold Scan.fastSearch
  simp only []
  split
  · exact onEngine x.run (.of_eq rfl rfl rfl)
  · exact refl x.run

theorem fastMatch (x : Scan) : x.run.Advances x.fastMatch.run := by
  have hrec : x.run.Advances { x.run with
      c := { x.run.c.recordMatch with
        lookahead := x.run.c.recordMatch.lookahead - x.run.c.recordMatch.matchLength } } :=
    onEngine x.run ((Compressor.RangesKept.record _ _ _).trans (.of_eq rfl rfl rfl))
  unfold Scan.fastMatch
  simp only []
  split
  · refine thenEngine (trans ?_ (insertCovered _ _)) (.of_eq rfl rfl rfl)
    exact hrec
  · exact hrec.thenEngine (.of_eq rfl rfl rfl)

theorem fastEmit (x : Scan) : x.run.Advances x.fastEmit.run := by
  unfold Scan.fastEmit
  split
  · exact fastMatch x
  · exact onEngine x.run ((Compressor.RangesKept.record _ _ _).trans (.advance _))

theorem fastTurn (flush : Nat) (x : Scan) : x.run.Advances (Machine.fastTurn flush x).run := by
  have hfill := refill x.run
  unfold Machine.fastTurn
  simp only []
  split
  · exact hfill
  · split
    · exact hfill
    · have hemit := ((hfill.trans (insertHere { x with run := x.run.refill })).trans (fastSearch _)).trans (fastEmit _)
      split
      · exact hemit.trans (flushAndGo _)
      · exact hemit

theorem slowSearch (x : Scan) : x.run.Advances x.slowSearch.run := by
  unfold Scan.slowSearch
  simp only []
  split <;> exact onEngine x.run (.of_eq rfl rfl rfl)

theorem slowMatch (x : Scan) : x.run.Advances x.slowMatch.run := by
  have hrec : x.run.Advances { x.run with
      c := { x.run.c.recordPrevMatch with
        lookahead := x.run.c.recordPrevMatch.lookahead - (x.run.c.recordPrevMatch.prevLength - 1) } } :=
    onEngine x.run ((Compressor.RangesKept.record _ _ _).trans (.of_eq rfl rfl rfl))
  unfold Scan.slowMatch
  refine thenEngine (trans ?_ (insertUpTo _ _ _)) (.of_eq rfl rfl rfl)
  exact hrec

theorem slowLiteral (x : Scan) : x.run.Advances x.slowLiteral.run := by
  have hrec : x.run.Advances { x.run with c := x.run.c.recordBehind } := onEngine x.run (.record _ _ _)
  unfold Scan.slowLiteral
  simp only []
  split
  · exact (hrec.trans (flushBlockOnly _ _)).thenEngine (.advance _)
  · exact hrec.thenEngine (.advance _)

theorem slowEmit (x : Scan) : x.run.Advances x.slowEmit.run := by
  unfold Scan.slowEmit
  simp only []
  split
  · split
    · exact (slowMatch x).trans (flushAndGo _)
    · exact slowMatch x
  · split
    · split <;> exact slowLiteral x
    · exact onEngine x.run (.of_eq rfl rfl rfl)

theorem slowTurn (flush : Nat) (x : Scan) : x.run.Advances (Machine.slowTurn flush x).run := by
  have hfill := refill x.run
  unfold Machine.slowTurn
  simp only []
  split
  · exact hfill
  · split
    · exact hfill
    · exact ((hfill.trans (insertHere { x with run := x.run.refill })).trans (slowSearch _)).trans (slowEmit _)

theorem slowClose (flush : Nat) (r : DRun) : r.Advances (r.slowClose flush).2 := by
  unfold DRun.slowClose
  split
  · exact (onEngine r (c := { r.c.recordBehind with matchAvailable := false })
      ((Compressor.RangesKept.record _ _ _).trans (.of_eq rfl rfl rfl))).trans (endBlock _ flush)
  · exact endBlock r flush

theorem storedSlide (x : Scan) : x.run.Advances x.storedSlide.run := by
  unfold Scan.storedSlide
  split
  · exact flushAndGo x
  · exact refl x.run

theorem storedTurn (flush : Nat) (x : Scan) : x.run.Advances (Machine.storedTurn flush x).run := by
  have hfill : x.run.Advances (if x.run.c.lookahead ≤ 1 then x.run.fillWindow else x.run) := by
    split
    · exact fillWindow x.run
    · exact refl x.run
  unfold Machine.storedTurn
  simp only []
  generalize (if x.run.c.lookahead ≤ 1 then x.run.fillWindow else x.run) = r at hfill ⊢
  have htake : x.run.Advances { r with c := r.c.takeStored } := hfill.trans (onEngine r (.takeStored r.c))
  split
  · exact hfill
  · split
    · exact hfill
    · split
      · have hflush := htake.trans (flushAndGo { x with run := { r with c := r.c.takeStored } })
        split
        · rename_i z hz
          rw [hz] at hflush
          exact hflush.trans (storedSlide z)
        · rename_i b r' hz
          rw [hz] at hflush
          exact hflush
        · rename_i r' hz
          rw [hz] at hflush
          exact hflush
      · exact htake.trans (storedSlide { x with run := { r with c := r.c.takeStored } })

theorem runFunc (r : DRun) (flush : Nat) : r.Advances (r.runFunc flush).2 := by
  unfold DRun.runFunc
  split
  · exact runTurns (storedTurn flush) (fun r => endBlock r flush) _ ⟨r, 0⟩
  · exact runTurns (fastTurn flush) (fun r => endBlock r flush) _ ⟨r, 0⟩
  · exact runTurns (slowTurn flush) (slowClose flush) _ ⟨r, 0⟩

/-! ## DEFLATE -/

theorem emitHeader (r : DRun) : r.Advances r.emitHeader where
  port := .adler _ .refl
  engine := by
    unfold DRun.emitHeader
    simp only []
    split
    · refine .trans ?_ (.putWordMsb _ _)
      exact .putShortMsb _ _
    · exact .putShortMsb _ _

theorem markFull (r : DRun) : r.Advances r.markFull := by
  unfold DRun.markFull
  split
  · exact onEngine r (.of_eq rfl rfl rfl)
  · exact refl r

theorem emitMarker (r : DRun) (flush : Nat) : r.Advances (r.emitMarker flush) := by
  have hblock := Compressor.RangesKept.storedBlock r.c [] false
  unfold DRun.emitMarker
  simp only []
  refine trans ?_ (flushPending _)
  refine onEngine r ?_
  split
  · exact hblock.trans (.clearHead _)
  · exact hblock

theorem trailer (r : DRun) (flush : Nat) : r.Advances (r.trailer flush).1 := by
  unfold DRun.trailer
  split
  · exact refl r
  · split
    · exact refl r
    · exact ((onEngine r (.putWordMsb r.c r.port.adler)).trans (flushPending _)).thenEngine (.enter _ _)

theorem afterFunc (r : DRun) (flush : Nat) (b : BState) : r.Advances (r.afterFunc flush b).1 := by
  have hnote : r.Advances { r with c := r.c.noteFinish b } := onEngine r (.noteFinish r.c b)
  cases b with
  | needMore => exact hnote.trans (markFull _)
  | finishStarted => exact hnote.trans (markFull _)
  | finishDone => exact hnote.trans (trailer _ flush)
  | blockDone =>
    have hmark := hnote.trans (emitMarker _ flush)
    unfold DRun.afterFunc
    simp only []
    split
    · exact hmark.trans (markFull _)
    · exact hmark.trans (trailer _ flush)

theorem work (r : DRun) (flush : Nat) : r.Advances (r.work flush).1 := by
  unfold DRun.work
  split
  · exact (runFunc r flush).trans (afterFunc _ flush _)
  · exact trailer r flush

theorem proceed (r : DRun) (flush : Nat) (oldFlush : Int) : r.Advances (r.proceed flush oldFlush).1 := by
  unfold DRun.proceed
  split
  · simp only []
    split
    · exact (flushPending r).trans (markFull _)
    · exact (flushPending r).trans (work _ flush)
  · split
    · exact refl r
    · exact work r flush

theorem start (r : DRun) : r.Advances r.start := by
  unfold DRun.start
  split
  · exact (emitHeader r).thenEngine (.enter _ _)
  · exact refl r

/-- A call of DEFLATE moves the stream port and keeps the compressor's ranges (R430). -/
theorem deflate (r : DRun) (flush : Nat) : r.Advances (r.deflate flush).1 := by
  have hflush : r.Advances { r with c := { r.c with lastFlush := flush } } := onEngine r (.of_eq rfl rfl rfl)
  unfold DRun.deflate
  split
  · exact refl r
  · split
    · exact refl r
    · exact (hflush.trans (start _)).trans (proceed _ flush _)

end DRun.Advances

end Sys2Proof.Machine
end

section
/-!
What a run of INFLATE can do, in one relation: it moves the stream port and keeps the decompressor's ranges
(10_state.md R55 to R58, 41_window.md R340). One lemma per step of 45_inflate.md.
-/

namespace Sys2Proof.Machine

/-- The ranges of a decompressor (R55 to R58, R340): window cursors and counts, the bits of the accumulator, the marker
progress, code lengths. -/
structure Decompressor.InRange (d : Decompressor) : Prop where
  wbits_ge : 8 ≤ d.wbits
  wbits_le : d.wbits ≤ 15
  wr : d.wr < d.windowLen
  pend : d.pend ≤ d.windowLen
  hist : d.hist ≤ 2 ^ d.wbits
  bitk : d.bitk ≤ 39
  marker : d.marker ≤ 5
  blens : ∀ l ∈ d.blens, l ≤ 15
  lens : ∀ l ∈ d.lens, l ≤ 15
  blcode : ∀ l ∈ d.blcode, l ≤ 15
  lcode : ∀ l ∈ d.lcode, l ≤ 15
  dcode : ∀ l ∈ d.dcode, l ≤ 15

theorem Decompressor.windowLen_pos (d : Decompressor) : 0 < d.windowLen :=
  Nat.mul_pos (by decide) (Nat.two_pow_pos d.wbits)

namespace Decompressor.InRange

variable {d : Decompressor}

theorem dropBits (h : d.InRange) (n : Nat) : (d.dropBits n).InRange :=
  { h with bitk := (Nat.sub_le _ _).trans h.bitk }

theorem pushByte (h : d.InRange) (hk : d.bitk < 32) (b : Byte) : (d.pushByte b).InRange :=
  { h with bitk := show d.bitk + 8 ≤ 39 by omega }

theorem put (h : d.InRange) (hs : d.space = true) (b : Byte) : (d.put b).InRange :=
  { h with
    wr := Nat.mod_lt _ d.windowLen_pos
    pend := of_decide_eq_true hs
    hist := Nat.min_le_right _ _ }

theorem toBad (h : d.InRange) (err : BitVec 8) {m : Nat} (hm : m ≤ 5) : (d.toBad err m).InRange :=
  { h with marker := hm }

theorem enterBad (h : d.InRange) : d.enterBad.InRange := by
  unfold Decompressor.enterBad
  split
  · exact h.toBad _ (by decide)
  · exact h

theorem inflateReset (h : d.InRange) : d.inflateReset.InRange :=
  { h with
    wr := d.windowLen_pos
    pend := Nat.zero_le _
    hist := Nat.zero_le _
    bitk := Nat.zero_le _
    marker := Nat.zero_le _ }

theorem preload (h : d.InRange) (bytes : List Byte) : (d.preload bytes).InRange := by
  induction bytes generalizing d with
  | nil => exact h
  | cons b bytes ih => exact ih { h with wr := Nat.mod_lt _ d.windowLen_pos }

end Decompressor.InRange

/-- A decompressor just opened is in range (R510). -/
theorem Decompressor.opened_inRange {wbits : Nat} (h8 : 8 ≤ wbits) (h15 : wbits ≤ 15) :
    (Decompressor.opened wbits).InRange where
  wbits_ge := h8
  wbits_le := h15
  wr := Decompressor.windowLen_pos _
  pend := Nat.zero_le _
  hist := Nat.zero_le _
  bitk := Nat.zero_le _
  marker := Nat.zero_le _
  blens := by simp [Decompressor.opened]
  lens := by simp [Decompressor.opened]
  blcode := by simp [Decompressor.opened]
  lcode := by simp [Decompressor.opened]
  dcode := by simp [Decompressor.opened]

/-- The dictionary bytes that are kept fit in the history (R550). -/
theorem Decompressor.dictTail_length_le (d : Decompressor) (dict : List Byte) :
    (d.dictTail dict).length ≤ 2 ^ d.wbits := by
  have hpos := Nat.two_pow_pos d.wbits
  unfold Decompressor.dictTail
  split
  · rw [List.length_drop]
    omega
  · omega

/-! ## Canonical decoding -/

theorem maxLen_le {lens : List Nat} {m : Nat} (h : ∀ l ∈ lens, l ≤ m) : maxLen lens ≤ m :=
  List.foldlRecOn (motive := (· ≤ m)) lens max (Nat.zero_le m) (fun _ hb l hl => max_le hb (h l hl))

/-- The loop of R631 asks for bits, or decodes a code, only up to its last length. -/
theorem canonLoop_bound (lens : List Nat) (bits bitk fuel l c first : Nat) :
    (canonLoop lens bits bitk fuel l c first = .needMoreBits → bitk + 1 < l + fuel)
      ∧ ∀ s n, canonLoop lens bits bitk fuel l c first = .sym s n → n < l + fuel := by
  induction fuel generalizing l c first with
  | zero => simp [canonLoop]
  | succ fuel ih =>
    unfold canonLoop
    simp only []
    split
    · exact ⟨fun _ => by omega, fun _ _ h => nomatch h⟩
    · split
      · split
        · refine ⟨nofun, fun s n h => ?_⟩
          cases h
          omega
        · exact ⟨nofun, nofun⟩
      · have := ih (l + 1) (2 * (c + bits >>> (l - 1) % 2)) (2 * (first + lengthCount lens l))
        simp only [show l + 1 + fuel = l + (fuel + 1) by omega] at this
        exact this

/-- `canon_decode` asks for more bits only while it has fewer than the longest code (R631). -/
theorem canonDecode_needMoreBits {lens : List Nat} {bits bitk : Nat} (h : canonDecode lens bits bitk = .needMoreBits) :
    bitk < maxLen lens := by
  have := (canonLoop_bound lens bits bitk (maxLen lens) 1 0 0).1 h
  omega

/-- A decoded code is at most as long as the longest (R631). -/
theorem canonDecode_sym_le {lens : List Nat} {bits bitk s n : Nat} (h : canonDecode lens bits bitk = .sym s n) :
    n ≤ maxLen lens := by
  have := (canonLoop_bound lens bits bitk (maxLen lens) 1 0 0).2 s n h
  omega

/-- A repeat appends lengths that are there, or zeros (R533). -/
theorem mem_appendRepeat_le {lens : List Nat} {m : Nat} (h : ∀ l ∈ lens, l ≤ m) (c count : Nat) :
    ∀ l ∈ appendRepeat lens c count, l ≤ m := by
  intro l hl
  rcases List.mem_append.mp hl with hl | hl
  · exact h l hl
  · rw [List.eq_of_mem_replicate hl]
    split
    · rcases List.eq_nil_or_concat lens with rfl | ⟨init, last, rfl⟩
      · exact Nat.zero_le m
      · simpa using h last (by simp)
    · exact Nat.zero_le m

/-! ## The relation -/

/-- From `r` to `r'` by moves of the stream port, the decompressor's ranges kept. -/
structure IRun.Advances (r r' : IRun) : Prop where
  port : r.port.Moves r'.port
  engine : r.d.InRange → r'.d.InRange

/-- The run a fetch leaves. -/
def Fetch.run : Fetch → IRun
  | .got r => r
  | .blocked r => r

/-- The run a decoding leaves. -/
def Symbol.run : Symbol → IRun
  | .sym _ _ r => r
  | .undefined r => r
  | .blocked r => r

/-- The run a step leaves. -/
def IStep.run : IStep → IRun
  | .go r => r
  | .blocked r => r
  | .ended r _ => r

namespace IRun.Advances

variable {r r' r'' : IRun}

theorem refl (r : IRun) : r.Advances r := ⟨.refl, id⟩

theorem trans (h : r.Advances r') (h' : r'.Advances r'') : r.Advances r'' :=
  ⟨h.port.trans h'.port, fun hd => h'.engine (h.engine hd)⟩

/-- An update of the engine alone. -/
theorem withD (r : IRun) {d : Decompressor} (hd : r.d.InRange → d.InRange) : r.Advances (r.withD d) := ⟨.refl, hd⟩

/-- An error enters BAD with a marker progress of 0 or 5 (R531, R537, R542). -/
theorem toBad (r : IRun) (err : BitVec 8) {m : Nat} (hm : m ≤ 5) : r.Advances (r.withD (r.d.toBad err m)) :=
  withD r (fun h => h.toBad err hm)

theorem drain (r : IRun) : r.Advances r.drain := by
  refine ⟨?_, fun h => ?_⟩
  · unfold IRun.drain
    simp only []
    split
    · exact .refl
    · exact .adler _ (.deliver _ (by rw [Decompressor.windowRun_length]; exact Nat.min_le_right _ _) .refl)
  · have hp : r.drain.d.pend ≤ r.d.windowLen := by
      rw [r.drain_counts.1]
      exact (Nat.sub_le _ _).trans h.pend
    rw [r.drain_engine]
    exact { h with pend := hp }

theorem takeByte {b : Byte} (h : r.takeByte = some (b, r')) : r.Advances r' ∧ r'.d = r.d := by
  obtain ⟨hne, -, rfl⟩ := IRun.takeByte_some h
  exact ⟨⟨.consume 1 (Port.one_le_availIn hne) .refl, id⟩, rfl⟩

/-- A taken byte that enters the accumulator (R410). -/
theorem pushByte {b : Byte} (h : r.takeByte = some (b, r')) (hk : r.d.InRange → r.d.bitk < 32) :
    r.Advances (r'.withD (r'.d.pushByte b)) := by
  obtain ⟨hadv, hd⟩ := takeByte h
  exact ⟨hadv.port, fun hr => by rw [hd]; exact hr.pushByte (hk hr) b⟩

end IRun.Advances

/-- `need_bits(n)` consumes bytes on offer (R410). -/
theorem IRun.needLoop_moves (n fuel : Nat) (r : IRun) : r.port.Moves (IRun.needLoop n fuel r).run.port := by
  induction fuel generalizing r with
  | zero => exact .refl
  | succ fuel ih =>
    unfold IRun.needLoop
    split
    · exact .refl
    · split
      · exact .refl
      · next b r1 ht => exact (IRun.Advances.takeByte ht).1.port.trans (ih (r1.withD (r1.d.pushByte b)))

/-- `need_bits(n)` for at most 32 bits keeps the accumulator within 39 (R410). -/
theorem IRun.needLoop_inRange {n : Nat} (hn : n ≤ 32) (fuel : Nat) {r : IRun} (h : r.d.InRange) :
    (IRun.needLoop n fuel r).run.d.InRange := by
  induction fuel generalizing r with
  | zero => exact h
  | succ fuel ih =>
    unfold IRun.needLoop
    split
    · exact h
    · split
      · exact h
      · next b r1 ht => exact ih ((IRun.Advances.pushByte ht (fun _ => by omega)).engine h)

/-- `decode` consumes bytes on offer (R414). -/
theorem IRun.decodeLoop_moves (code : List Nat) (fuel : Nat) (r : IRun) :
    r.port.Moves (IRun.decodeLoop code fuel r).run.port := by
  induction fuel generalizing r with
  | zero => exact .refl
  | succ fuel ih =>
    unfold IRun.decodeLoop
    split
    · exact .refl
    · exact .refl
    · split
      · exact .refl
      · next b r1 ht => exact (IRun.Advances.takeByte ht).1.port.trans (ih (r1.withD (r1.d.pushByte b)))

/-- `decode` takes a byte only while it has fewer bits than the longest code (R414). -/
theorem IRun.decodeLoop_inRange {code : List Nat} (hc : ∀ l ∈ code, l ≤ 15) (fuel : Nat) {r : IRun} (h : r.d.InRange) :
    (IRun.decodeLoop code fuel r).run.d.InRange := by
  induction fuel generalizing r with
  | zero => exact h
  | succ fuel ih =>
    unfold IRun.decodeLoop
    split
    · exact h
    · exact h
    · next hmore =>
      have hbits : r.d.bitk < 15 := (canonDecode_needMoreBits hmore).trans_le (maxLen_le hc)
      split
      · exact h
      · next b r1 ht => exact ih ((IRun.Advances.pushByte ht (fun _ => by omega)).engine h)

/-- `decode` changes the accumulator of the engine, nothing else (R414). -/
theorem IRun.decodeLoop_engine (code : List Nat) (fuel : Nat) (r : IRun) :
    (IRun.decodeLoop code fuel r).run.d
      = { r.d with
          bitb := (IRun.decodeLoop code fuel r).run.d.bitb, bitk := (IRun.decodeLoop code fuel r).run.d.bitk } := by
  induction fuel generalizing r with
  | zero => rfl
  | succ fuel ih =>
    unfold IRun.decodeLoop
    split
    · rfl
    · rfl
    · split
      · rfl
      · next b r1 ht =>
        rw [ih, IRun.withD_d, (IRun.Advances.takeByte ht).2]
        rfl

/-- A decoded code is at most as long as the longest of its alphabet (R414). -/
theorem IRun.decodeLoop_sym_le {code : List Nat} {fuel s n : Nat} {r r' : IRun}
    (h : IRun.decodeLoop code fuel r = .sym s n r') : n ≤ maxLen code := by
  induction fuel generalizing r with
  | zero => simp [IRun.decodeLoop] at h
  | succ fuel ih =>
    unfold IRun.decodeLoop at h
    split at h
    · next hs =>
      cases h
      exact canonDecode_sym_le hs
    · cases h
    · split at h
      · cases h
      · exact ih h

namespace IRun.Advances

variable {r r' : IRun}

theorem needBits (r : IRun) {n : Nat} (hn : r.d.InRange → n ≤ 32) : r.Advances (r.needBits n).run :=
  ⟨IRun.needLoop_moves n n r, fun h => IRun.needLoop_inRange (hn h) n h⟩

theorem decode (r : IRun) {code : List Nat} (hc : r.d.InRange → ∀ l ∈ code, l ≤ 15) : r.Advances (r.decode code).run :=
  ⟨IRun.decodeLoop_moves code _ r, fun h => IRun.decodeLoop_inRange (hc h) _ h⟩

/-- A step that needs `n` bits first (R410). -/
theorem afterBits {n : Nat} (hn : r.d.InRange → n ≤ 32) {next : IRun → IStep}
    (hnext : ∀ r1 : IRun, r1.Advances (next r1).run) :
    r.Advances (match r.needBits n with | .blocked r1 => IStep.blocked r1 | .got r1 => next r1).run := by
  have h := needBits r hn
  cases hf : r.needBits n with
  | blocked r1 => rw [hf] at h; exact h
  | got r1 => rw [hf] at h; exact h.trans (hnext r1)

/-- A step that takes a byte first (R410). -/
theorem afterByte {next : Byte → IRun → IStep}
    (hnext : ∀ (b : Byte) (r1 : IRun), r.takeByte = some (b, r1) → r1.d = r.d → r1.Advances (next b r1).run) :
    r.Advances (match r.takeByte with | none => IStep.blocked r | some (b, r1) => next b r1).run := by
  cases hf : r.takeByte with
  | none => exact refl r
  | some x =>
    obtain ⟨hadv, hd⟩ := takeByte hf
    exact hadv.trans (hnext x.1 x.2 hf hd)

/-- A step that decodes a symbol first (R414). -/
theorem afterSymbol {code : List Nat} (hc : r.d.InRange → ∀ l ∈ code, l ≤ 15) {err : BitVec 8}
    {next : Nat → Nat → IRun → IStep}
    (hnext : ∀ (s n : Nat) (r1 : IRun), n ≤ maxLen code → r1.d = { r.d with bitb := r1.d.bitb, bitk := r1.d.bitk } →
      r1.Advances (next s n r1).run) :
    r.Advances
      (match r.decode code with
        | .blocked r1 => IStep.blocked r1
        | .undefined r1 => r1.bad err
        | .sym s n r1 => next s n r1).run := by
  have h := decode r hc
  have hd : (r.decode code).run.d = _ := IRun.decodeLoop_engine code _ r
  cases hf : r.decode code with
  | blocked r1 => rw [hf] at h; exact h
  | undefined r1 => rw [hf] at h; exact h.trans (toBad r1 err (by decide))
  | sym s n r1 =>
    rw [← IRun.decode, hf] at hd
    rw [hf] at h
    exact h.trans (hnext s n r1 (IRun.decodeLoop_sym_le hf) hd)

/-! ## Header, dictionary identifier and trailer -/

theorem stepMethod (r : IRun) : r.Advances r.stepMethod.run := by
  refine afterByte fun b r0 _ _ => ?_
  have hm : r0.Advances (r0.withD { r0.d with method := b }) := withD r0 (fun h => { h with })
  simp only []
  split
  · exact hm.trans (toBad _ 15#8 (by decide))
  · split
    · exact hm.trans (toBad _ 16#8 (by decide))
    · exact hm.trans (withD _ (fun h => { h with }))

theorem stepFlags (r : IRun) : r.Advances r.stepFlags.run := by
  refine afterByte fun b r1 _ _ => ?_
  simp only []
  split
  · exact toBad _ 17#8 (by decide)
  · exact withD _ (fun h => { h with })

theorem shiftNeed (r : IRun) (b : Byte) : r.Advances (r.withD (r.d.shiftNeed b)) := withD r (fun h => { h with })

theorem stepDictId (r : IRun) : r.Advances r.stepDictId.run := by
  refine afterByte fun b r0 _ _ => ?_
  have hb := shiftNeed r0 b
  simp only []
  split
  · exact hb.trans ⟨.adler _ .refl, fun h => { h with }⟩
  · exact hb

theorem stepWait (r : IRun) : r.Advances r.stepWait.run where
  port := by
    show r.port.Moves (r.port.leaveWait r.d)
    rw [Port.leaveWait_eq]
    exact .adler _ .refl
  engine h := h.toBad 19#8 (by decide)

theorem stepTrailer (r : IRun) : r.Advances r.stepTrailer.run := by
  refine afterByte fun b r0 _ _ => ?_
  have hb := shiftNeed r0 b
  simp only []
  split
  · split
    · exact hb.trans (toBad _ 18#8 (by decide))
    · exact hb.trans (withD _ (fun h => { h with }))
  · exact hb

/-! ## Blocks -/

theorem stepType (r : IRun) : r.Advances r.stepType.run := by
  refine afterBits (fun _ => by decide) fun r1 => ?_
  have hdrop : r1.Advances (r1.withD { r1.d.dropBits 3 with last := r1.d.peekBits 3 % 2 == 1 }) :=
    withD r1 (fun h => { h.dropBits 3 with })
  simp only []
  split
  · exact hdrop.trans (withD _ (fun h => { h.dropBits _ with }))
  · exact hdrop.trans (withD _ (fun h => { h with
      lcode := fun l hl => by
        obtain ⟨s, -, rfl⟩ := List.mem_map.mp hl
        exact fixedLitLen_le s
      dcode := fun l hl => by rw [List.eq_of_mem_replicate hl]; decide }))
  · exact hdrop.trans (withD _ (fun h => { h with }))
  · exact hdrop.trans (toBad _ 1#8 (by decide))

theorem stepStoredLen (r : IRun) : r.Advances r.stepStoredLen.run := by
  refine afterBits (fun _ => by decide) fun r1 => ?_
  simp only []
  split
  · exact toBad r1 2#8 (by decide)
  · exact withD r1 (fun h => { h.dropBits 32 with })

theorem stepStoredCopy (r : IRun) : r.Advances r.stepStoredCopy.run := by
  unfold IRun.stepStoredCopy
  split
  · exact refl r
  · next hs =>
    refine afterByte fun b r1 _ hd => withD r1 fun h => ?_
    have hput := h.put (by rw [hd]; simpa using hs) b
    simp only []
    split
    · exact { hput with }
    · exact { hput with }

theorem stepTable (r : IRun) : r.Advances r.stepTable.run := by
  refine afterBits (fun _ => by decide) fun r1 => ?_
  simp only []
  split
  · exact toBad r1 3#8 (by decide)
  · exact withD r1 (fun h => { h.dropBits 14 with
      blens := fun l hl => by rw [List.eq_of_mem_replicate hl]; decide })

theorem stepBtreeRead (r : IRun) : r.Advances r.stepBtreeRead.run := by
  refine afterBits (fun _ => by decide) fun r1 => ?_
  have hbits : r1.d.peekBits 3 < 2 ^ 3 := Nat.mod_lt _ (by decide)
  refine withD r1 (fun h => { h.dropBits 3 with blens := fun l hl => ?_ })
  rcases List.mem_or_eq_of_mem_set hl with hl | rfl
  · exact h.blens l hl
  · omega

theorem stepBtreeCheck (r : IRun) : r.Advances r.stepBtreeCheck.run := by
  have haccept : r.Advances (r.withD { r.d with blcode := r.d.blens, lens := [], bmode := .dtree }) :=
    withD r (fun h => { h with lens := nofun, blcode := h.blens })
  unfold IRun.stepBtreeCheck
  simp only []
  split
  · exact toBad r 4#8 (by decide)
  · exact toBad r 5#8 (by decide)
  · split
    · exact toBad r 5#8 (by decide)
    · exact haccept
  · exact haccept

theorem stepBtree (r : IRun) : r.Advances r.stepBtree.run := by
  unfold IRun.stepBtree
  split
  · exact stepBtreeRead r
  · exact stepBtreeCheck r

theorem stepRepeat (r : IRun) (c : Nat) {n : Nat} (hn : r.d.InRange → n ≤ 15) : r.Advances (r.stepRepeat c n).run := by
  have hshape : (repeatShape c).1 ≤ 7 := by
    unfold repeatShape
    split_ifs <;> decide
  refine afterBits (fun h => by have := hn h; omega) fun r1 => ?_
  simp only []
  split
  · exact toBad r1 6#8 (by decide)
  · exact withD r1 (fun h => { h.dropBits _ with lens := mem_appendRepeat_le h.lens c _ })

theorem stepDtreeRead (r : IRun) : r.Advances r.stepDtreeRead.run := by
  refine afterSymbol (fun h => h.blcode) fun c n r1 hn hd => ?_
  have hcode : r1.d.blcode = r.d.blcode := by rw [hd]
  simp only []
  split
  · next hc =>
    refine withD r1 (fun h => { h.dropBits n with lens := fun l hl => ?_ })
    rcases List.mem_append.mp hl with hl | hl
    · exact h.lens l hl
    · rw [List.mem_singleton.mp hl]
      omega
  · exact stepRepeat r1 c (fun h => hn.trans (maxLen_le (hcode ▸ h.blcode)))

theorem stepDtreeCheck (r : IRun) : r.Advances r.stepDtreeCheck.run := by
  unfold IRun.stepDtreeCheck
  simp only []
  split
  · next e _ => exact toBad r e (by decide)
  · split
    · next e _ => exact toBad r e (by decide)
    · exact withD r (fun h => { h with
        lcode := fun l hl => h.lens l (List.mem_of_mem_take hl)
        dcode := fun l hl => h.lens l (List.mem_of_mem_drop (List.mem_of_mem_take hl)) })

theorem stepDtree (r : IRun) : r.Advances r.stepDtree.run := by
  unfold IRun.stepDtree
  split
  · exact stepDtreeRead r
  · exact stepDtreeCheck r

theorem stepLength (r : IRun) (k : Nat) {n : Nat} (hn : r.d.InRange → n ≤ 15) : r.Advances (r.stepLength k n).run := by
  have he := lenExtra_le k
  exact afterBits (fun h => by have := hn h; omega) fun r1 => withD r1 (fun h => { h.dropBits _ with })

theorem stepCodesLen (r : IRun) : r.Advances r.stepCodesLen.run := by
  unfold IRun.stepCodesLen
  split
  · exact refl r
  · next hs =>
    refine afterSymbol (fun h => h.lcode) fun c n r1 hn hd => ?_
    have hcode : r1.d.lcode = r.d.lcode := by rw [hd]
    have hspace : (r1.d.dropBits n).space = r.d.space := by rw [hd]; rfl
    simp only []
    split
    · exact withD r1 (fun h => (h.dropBits n).put (by rw [hspace]; simpa using hs) _)
    · split
      · exact withD r1 (fun h => { h.dropBits n with })
      · split
        · exact toBad r1 12#8 (by decide)
        · exact stepLength r1 _ (fun h => hn.trans (maxLen_le (hcode ▸ h.lcode)))

theorem stepDistance (r : IRun) (c : Nat) {n : Nat} (hn : r.d.InRange → n ≤ 15) :
    r.Advances (r.stepDistance c n).run := by
  have he := distExtra_le c
  refine afterBits (fun h => by have := hn h; omega) fun r1 => ?_
  simp only []
  split
  · exact toBad r1 14#8 (by decide)
  · exact withD r1 (fun h => { h.dropBits _ with })

theorem stepCodesDist (r : IRun) : r.Advances r.stepCodesDist.run := by
  refine afterSymbol (fun h => h.dcode) fun c n r1 hn hd => ?_
  have hcode : r1.d.dcode = r.d.dcode := by rw [hd]
  split
  · exact toBad r1 13#8 (by decide)
  · exact stepDistance r1 c (fun h => hn.trans (maxLen_le (hcode ▸ h.dcode)))

theorem stepCodesCopy (r : IRun) : r.Advances r.stepCodesCopy.run := by
  unfold IRun.stepCodesCopy
  split
  · exact refl r
  · next hs =>
    refine withD r fun h => ?_
    have hput := h.put (by simpa using hs) (r.d.iwin.get (r.d.behind r.d.dist))
    simp only []
    split
    · exact { hput with }
    · exact { hput with }

theorem stepWash (r : IRun) : r.Advances r.stepWash.run := by
  have hdrop : r.Advances (r.withD (r.d.dropBits r.d.bitk)) := withD r (fun h => h.dropBits _)
  unfold IRun.stepWash
  simp only []
  split
  · exact hdrop
  · exact hdrop.trans (withD _ (fun h => { h with }))

theorem stepBlock (r : IRun) : r.Advances r.stepBlock.run := by
  unfold IRun.stepBlock
  cases r.d.bmode with
  | type => exact stepType r
  | storedLen => exact stepStoredLen r
  | storedCopy => exact stepStoredCopy r
  | table => exact stepTable r
  | btree => exact stepBtree r
  | dtree => exact stepDtree r
  | codesLen => exact stepCodesLen r
  | codesDist => exact stepCodesDist r
  | codesCopy => exact stepCodesCopy r
  | wash => exact stepWash r

theorem step (r : IRun) : r.Advances r.step.run := by
  unfold IRun.step
  cases r.d.mode with
  | headerMethod => exact stepMethod r
  | headerFlags => exact stepFlags r
  | dictId => exact stepDictId r
  | waitForDictionary => exact stepWait r
  | blocks => exact stepBlock r
  | trailerChecksum => exact stepTrailer r
  | done => exact refl r
  | bad => exact refl r

theorem loop (fuel : Nat) (r : IRun) : r.Advances (IRun.loop fuel r).1 := by
  induction fuel generalizing r with
  | zero => exact refl r
  | succ fuel ih =>
    have hstep := (drain r).trans (step r.drain)
    unfold IRun.loop
    cases hs : r.drain.step with
    | go r1 => rw [hs] at hstep; exact hstep.trans (ih r1)
    | blocked r1 => rw [hs] at hstep; exact hstep
    | ended r1 st => rw [hs] at hstep; exact hstep

/-- A call of INFLATE moves the stream port and keeps the decompressor's ranges (R540). -/
theorem inflate (r : IRun) : r.Advances r.inflate.1 := (loop _ r).trans (drain _)

end IRun.Advances

/-! ## The scan of ISYNC -/

/-- The scan consumes bytes on offer (R560). -/
theorem syncScan_moves (fuel : Nat) (p : Port) (m : Nat) : p.Moves (syncScan fuel p m).1 := by
  induction fuel generalizing p m with
  | zero => exact .refl
  | succ fuel ih =>
    unfold syncScan
    split
    · next h => exact (Port.Moves.consume 1 (Port.one_le_availIn h.1) .refl).trans (ih _ _)
    · exact .refl

/-- The marker progress stays at most 5; the scan moves it only below 4 (R560). -/
theorem syncScan_marker_le (fuel : Nat) (p : Port) {m : Nat} (h : m ≤ 5) : (syncScan fuel p m).2 ≤ 5 := by
  induction fuel generalizing p m with
  | zero => exact h
  | succ fuel ih =>
    unfold syncScan
    split
    · next hm => exact ih _ ((markerNext_le m _ hm.2.le).trans (by decide))
    · exact h

end Sys2Proof.Machine
end

section
/-!
What a command leaves of the state: the host's side (10_state.md R35, R43, R48), the stream port and the open engine
(R51). One lemma for all commands each.
-/

namespace Sys2Proof.Machine

open Sys2Proof.Claims

/-! ## The host's side -/

/-- `t` is `s` but for what commands write: RESULT, ERRCODE, the stream port, RVAL and the engine. -/
structure CommandFrame (s t : State) : Prop where
  eq : t = { s with result := t.result, errcode := t.errcode, port := t.port, rval := t.rval, engine := t.engine }

theorem CommandFrame.trans {s t u : State} (h : CommandFrame s t) (h' : CommandFrame t u) : CommandFrame s u :=
  ⟨by rw [h'.eq, h.eq]⟩

theorem CommandFrame.finish {s t : State} (h : CommandFrame s t) (e : Ending) : CommandFrame s (t.finish e) :=
  h.trans ⟨by cases e <;> rfl⟩

theorem CommandFrame.misuse (s : State) : CommandFrame s s.misuse := ⟨rfl⟩

theorem State.setDict_frame (s : State) (c : Compressor) : CommandFrame s (s.setDict c) := by
  unfold State.setDict
  simp only []
  split <;> exact ⟨rfl⟩

theorem State.resync_frame (s : State) (d : Decompressor) : CommandFrame s (s.resync d) := by
  unfold State.resync
  simp only []
  split <;> exact ⟨rfl⟩

theorem State.hcanonResult_frame (s : State) (lens : List Nat) : CommandFrame s (s.hcanonResult lens) := by
  unfold State.hcanonResult
  simp only []
  split <;> exact ⟨rfl⟩

/-- Commands write RESULT, ERRCODE, the stream port, RVAL and the engine, nothing else (R43, R48). -/
theorem exec_frame {i : Instr} {s t : State} (h : exec i s = .next t) : CommandFrame s t := by
  cases i with
  | dinit level wbits memLevel strategy =>
    rcases execDinit_cases h with rfl | ⟨-, -, rfl⟩ | ⟨-, -, rfl⟩ <;> exact ⟨rfl⟩
  | dsetdict =>
    rcases execDsetdict_cases h with rfl | ⟨c, -, -, -, -, -, rfl⟩
    · exact .misuse s
    · exact s.setDict_frame c
  | deflate flush =>
    rcases execDeflate_cases h with rfl | ⟨c, -, -, -, -, rfl⟩
    · exact .misuse s
    · exact CommandFrame.finish ⟨rfl⟩ _
  | dparams level strategy =>
    rcases execDparams_cases h with rfl | ⟨c, -, -, -, -, -, rfl⟩
    · exact .misuse s
    · exact CommandFrame.finish ⟨rfl⟩ _
  | dreset => rcases execDreset_cases h with rfl | ⟨c, -, rfl⟩ <;> exact ⟨rfl⟩
  | dend => rcases execDend_cases h with rfl | ⟨c, -, ⟨-, rfl⟩ | ⟨-, rfl⟩⟩ <;> exact ⟨rfl⟩
  | iinit wbits => rcases execIinit_cases h with rfl | ⟨-, -, -, rfl⟩ <;> exact ⟨rfl⟩
  | isetdict => rcases execIsetdict_cases h with rfl | ⟨d, -, -, -, ⟨-, rfl⟩ | ⟨-, rfl⟩⟩ <;> exact ⟨rfl⟩
  | inflate flush =>
    rcases execInflate_cases h with rfl | ⟨d, -, -, -, rfl⟩
    · exact .misuse s
    · exact CommandFrame.finish ⟨rfl⟩ _
  | isync =>
    rcases execIsync_cases h with rfl | ⟨d, -, -, ⟨-, rfl⟩ | ⟨-, rfl⟩⟩
    · exact .misuse s
    · exact ⟨rfl⟩
    · exact CommandFrame.trans ⟨rfl⟩ ((s.enterBad d).resync_frame d.enterBad)
  | ireset => rcases execIreset_cases h with rfl | ⟨d, -, rfl⟩ <;> exact ⟨rfl⟩
  | iend => rcases execIend_cases h with rfl | ⟨d, -, rfl⟩ <;> exact ⟨rfl⟩
  | adler => rcases execAdler_cases h with rfl | ⟨-, rfl⟩ <;> exact ⟨rfl⟩
  | hbuild => rcases execHbuild_cases h with rfl | ⟨-, -, -, -, -, -, rfl⟩ <;> exact ⟨rfl⟩
  | hcanon =>
    rcases execHcanon_cases h with rfl | ⟨-, -, -, rfl⟩
    · exact .misuse s
    · exact s.hcanonResult_frame _

@[simp] theorem State.writeRegister_engine (s : State) (v : Word) (reg : Register) :
    (s.writeRegister v reg).engine = s.engine := by
  cases reg with
  | status =>
    simp only [State.writeRegister]
    split <;> rfl
  | _ => rfl

@[simp] theorem State.writeRegister_busy (s : State) (v : Word) (reg : Register) :
    (s.writeRegister v reg).busy = s.busy := by
  cases reg with
  | status =>
    simp only [State.writeRegister]
    split <;> rfl
  | _ => rfl

/-- No command writes the host's side. -/
theorem exec_hostSideKept {i : Instr} {s t : State} (h : exec i s = .next t) : hostSideKept s t := by
  rw [(exec_frame h).eq]
  exact ⟨rfl, rfl, rfl, rfl, rfl, rfl, rfl, rfl, rfl⟩

/-! ## The stream port -/

/-- DPARAMS is a run of DEFLATE or nothing, then the switch or nothing (R457). -/
theorem DRun.params_run (r : DRun) (level strategy : Nat) :
    ∃ r' : DRun, r.Advances r'
      ∧ ((r.params level strategy).1 = r'
        ∨ (r.params level strategy).1 = { r' with c := r'.c.switch level strategy }) := by
  unfold DRun.params
  split
  · refine ⟨(r.deflate 1).1, .deflate r 1, ?_⟩
    unfold DRun.afterFlush
    simp only []
    split
    · exact .inl rfl
    · split
      · exact .inl rfl
      · exact .inr rfl
  · exact ⟨r, .refl r, .inr rfl⟩

theorem State.resync_moves (s : State) (d : Decompressor) : s.port.Moves (s.resync d).port := by
  have hscan := syncScan_moves s.port.availIn.toNat s.port d.marker
  unfold State.resync
  simp only []
  split
  · exact .adler _ hscan
  · exact hscan

/-- The commands that consume input only move the stream port (R38). -/
theorem exec_moves {i : Instr} {s t : State} (hi : consumes i = true) (h : exec i s = .next t) :
    s.port.Moves t.port := by
  cases i with
  | deflate flush =>
    rcases execDeflate_cases h with rfl | ⟨c, -, -, -, -, rfl⟩
    · exact .refl
    · rw [State.finish_port]
      exact (DRun.Advances.deflate ⟨s.port, c⟩ flush).port
  | dparams level strategy =>
    rcases execDparams_cases h with rfl | ⟨c, -, -, -, -, -, rfl⟩
    · exact .refl
    · obtain ⟨r, hadv, hr | hr⟩ := DRun.params_run ⟨s.port, c⟩ level strategy
      all_goals
        rw [State.finish_port, State.withDRun_port, hr]
        exact hadv.port
  | inflate flush =>
    rcases execInflate_cases h with rfl | ⟨d, -, -, -, rfl⟩
    · exact .refl
    · rw [State.finish_port]
      exact (IRun.Advances.inflate ⟨s.port, d⟩).port
  | isync =>
    rcases execIsync_cases h with rfl | ⟨d, -, -, hrun⟩
    · exact .refl
    · have hwait : s.port.Moves (s.enterBad d).port := by
        rw [State.enterBad_port, Port.leaveWait_eq]
        exact .adler _ .refl
      rcases hrun with ⟨-, rfl⟩ | ⟨-, rfl⟩
      · exact hwait
      · exact hwait.trans ((s.enterBad d).resync_moves d.enterBad)
  | _ => nomatch hi

theorem State.setDict_cursors (s : State) (c : Compressor) :
    (s.setDict c).port.nextIn = s.port.nextIn ∧ (s.setDict c).port.availIn = s.port.availIn := by
  unfold State.setDict
  simp only []
  split <;> exact ⟨rfl, rfl⟩

theorem State.hcanonResult_cursors (s : State) (lens : List Nat) :
    (s.hcanonResult lens).port.nextIn = s.port.nextIn ∧ (s.hcanonResult lens).port.availIn = s.port.availIn := by
  unfold State.hcanonResult
  simp only []
  split <;> exact ⟨rfl, rfl⟩

/-- The other commands write neither NEXT_IN nor AVAIL_IN (R38). -/
theorem exec_cursors_kept {i : Instr} {s t : State} (hi : consumes i = false) (h : exec i s = .next t) :
    t.port.nextIn = s.port.nextIn ∧ t.port.availIn = s.port.availIn := by
  cases i with
  | deflate _ => nomatch hi
  | dparams _ _ => nomatch hi
  | inflate _ => nomatch hi
  | isync => nomatch hi
  | dinit level wbits memLevel strategy =>
    rcases execDinit_cases h with rfl | ⟨-, -, rfl⟩ | ⟨-, -, rfl⟩ <;> exact ⟨rfl, rfl⟩
  | dsetdict =>
    rcases execDsetdict_cases h with rfl | ⟨c, -, -, -, -, -, rfl⟩
    · exact ⟨rfl, rfl⟩
    · exact s.setDict_cursors c
  | dreset => rcases execDreset_cases h with rfl | ⟨c, -, rfl⟩ <;> exact ⟨rfl, rfl⟩
  | dend => rcases execDend_cases h with rfl | ⟨c, -, ⟨-, rfl⟩ | ⟨-, rfl⟩⟩ <;> exact ⟨rfl, rfl⟩
  | iinit wbits => rcases execIinit_cases h with rfl | ⟨-, -, -, rfl⟩ <;> exact ⟨rfl, rfl⟩
  | isetdict => rcases execIsetdict_cases h with rfl | ⟨d, -, -, -, ⟨-, rfl⟩ | ⟨-, rfl⟩⟩ <;> exact ⟨rfl, rfl⟩
  | ireset => rcases execIreset_cases h with rfl | ⟨d, -, rfl⟩ <;> exact ⟨rfl, rfl⟩
  | iend => rcases execIend_cases h with rfl | ⟨d, -, rfl⟩ <;> exact ⟨rfl, rfl⟩
  | adler => rcases execAdler_cases h with rfl | ⟨-, rfl⟩ <;> exact ⟨rfl, rfl⟩
  | hbuild => rcases execHbuild_cases h with rfl | ⟨-, -, -, -, -, -, rfl⟩ <;> exact ⟨rfl, rfl⟩
  | hcanon =>
    rcases execHcanon_cases h with rfl | ⟨-, -, -, rfl⟩
    · exact ⟨rfl, rfl⟩
    · exact s.hcanonResult_cursors _

/-! ## The engine -/

/-- The engine a command leaves in place of the open one: what each command that changes engine state makes of it. -/
inductive EngineChange (s : State) : Instr → Engine → Prop where
  | dinit {level wbits memLevel strategy : Nat} (hs : s.engine = .none)
      (hok : dinitFieldsOk level wbits memLevel strategy = true) :
    EngineChange s (.dinit level wbits memLevel strategy) (.deflate (Compressor.opened level wbits memLevel strategy))
  | dsetdict {c : Compressor} (hs : s.engine = .deflate c) :
    EngineChange s .dsetdict (.deflate (c.prime (c.dictTail s.dictBytes)))
  | deflate {c : Compressor} {flush : Nat} (hs : s.engine = .deflate c)
      (hok : (DRun.deflate ⟨s.port, c⟩ flush).1.c.overflowed = false) :
    EngineChange s (.deflate flush) (.deflate (DRun.deflate ⟨s.port, c⟩ flush).1.c)
  | dparams {c : Compressor} {level strategy : Nat} (hs : s.engine = .deflate c) (hl : level ≤ 9) (hst : strategy ≤ 2)
      (hok : (DRun.params ⟨s.port, c⟩ level strategy).1.c.overflowed = false) :
    EngineChange s (.dparams level strategy) (.deflate (DRun.params ⟨s.port, c⟩ level strategy).1.c)
  | dreset {c : Compressor} (hs : s.engine = .deflate c) : EngineChange s .dreset (.deflate c.deflateReset)
  | dend {c : Compressor} (hs : s.engine = .deflate c) : EngineChange s .dend .none
  | iinit {wbits : Nat} (hs : s.engine = .none) (h8 : 8 ≤ wbits) (h15 : wbits ≤ 15) :
    EngineChange s (.iinit wbits) (.inflate (Decompressor.opened wbits))
  | isetdict {d : Decompressor} (hs : s.engine = .inflate d) :
    EngineChange s .isetdict
      (.inflate { d.preload (d.dictTail s.dictBytes) with
        hist := (d.dictTail s.dictBytes).length, mode := .blocks })
  | inflate {d : Decompressor} {flush : Nat} (hs : s.engine = .inflate d) :
    EngineChange s (.inflate flush) (.inflate (IRun.inflate ⟨s.port, d⟩).1.d)
  | isyncUnfed {d : Decompressor} (hs : s.engine = .inflate d) : EngineChange s .isync (.inflate d.enterBad)
  | isyncFound {d : Decompressor} (hs : s.engine = .inflate d) :
    EngineChange s .isync (.inflate { d.enterBad.inflateReset with mode := .blocks })
  | isyncLost {d : Decompressor} (hs : s.engine = .inflate d) (fuel : Nat) (p : Port) :
    EngineChange s .isync (.inflate { d.enterBad with marker := (syncScan fuel p d.enterBad.marker).2 })
  | ireset {d : Decompressor} (hs : s.engine = .inflate d) : EngineChange s .ireset (.inflate d.inflateReset)
  | iend {d : Decompressor} (hs : s.engine = .inflate d) : EngineChange s .iend .none

theorem Engine.eq_none_of_closed {e : Engine} (h : e.isOpen = false) : e = .none := by
  cases e with
  | none => rfl
  | deflate c => nomatch h
  | inflate d => nomatch h

/-- A command keeps the engine, or changes it as `EngineChange` says (R51). -/
theorem exec_engine {i : Instr} {s t : State} (h : exec i s = .next t) :
    t.engine = s.engine ∨ EngineChange s i t.engine := by
  cases i with
  | dinit level wbits memLevel strategy =>
    rcases execDinit_cases h with rfl | ⟨-, -, rfl⟩ | ⟨hs, hok, rfl⟩
    · exact .inl rfl
    · exact .inl rfl
    · exact .inr (.dinit (Engine.eq_none_of_closed hs) hok)
  | dsetdict =>
    rcases execDsetdict_cases h with rfl | ⟨c, hs, -, -, -, -, rfl⟩
    · exact .inl rfl
    · unfold State.setDict
      simp only []
      split
      · exact .inl rfl
      · exact .inr (.dsetdict hs)
  | deflate flush =>
    rcases execDeflate_cases h with rfl | ⟨c, hs, -, -, hok, rfl⟩
    · exact .inl rfl
    · rw [State.finish_engine]
      exact .inr (.deflate hs hok)
  | dparams level strategy =>
    rcases execDparams_cases h with rfl | ⟨c, hs, hl, hst, -, hok, rfl⟩
    · exact .inl rfl
    · rw [State.finish_engine]
      exact .inr (.dparams hs hl hst hok)
  | dreset =>
    rcases execDreset_cases h with rfl | ⟨c, hs, rfl⟩
    · exact .inl rfl
    · exact .inr (.dreset hs)
  | dend =>
    rcases execDend_cases h with rfl | ⟨c, hs, ⟨-, rfl⟩ | ⟨-, rfl⟩⟩
    · exact .inl rfl
    · exact .inr (.dend hs)
    · exact .inr (.dend hs)
  | iinit wbits =>
    rcases execIinit_cases h with rfl | ⟨hs, h8, h15, rfl⟩
    · exact .inl rfl
    · exact .inr (.iinit (Engine.eq_none_of_closed hs) h8 h15)
  | isetdict =>
    rcases execIsetdict_cases h with rfl | ⟨d, hs, -, -, ⟨-, rfl⟩ | ⟨-, rfl⟩⟩
    · exact .inl rfl
    · exact .inl rfl
    · exact .inr (.isetdict hs)
  | inflate flush =>
    rcases execInflate_cases h with rfl | ⟨d, hs, -, -, rfl⟩
    · exact .inl rfl
    · rw [State.finish_engine]
      exact .inr (.inflate hs)
  | isync =>
    rcases execIsync_cases h with rfl | ⟨d, hs, -, ⟨-, rfl⟩ | ⟨-, rfl⟩⟩
    · exact .inl rfl
    · exact .inr (.isyncUnfed hs)
    · unfold State.resync
      simp only []
      split
      · exact .inr (.isyncFound hs)
      · exact .inr (.isyncLost hs _ _)
  | ireset =>
    rcases execIreset_cases h with rfl | ⟨d, hs, rfl⟩
    · exact .inl rfl
    · exact .inr (.ireset hs)
  | iend =>
    rcases execIend_cases h with rfl | ⟨d, hs, rfl⟩
    · exact .inl rfl
    · exact .inr (.iend hs)
  | adler => rcases execAdler_cases h with rfl | ⟨-, rfl⟩ <;> exact .inl rfl
  | hbuild => rcases execHbuild_cases h with rfl | ⟨-, -, -, -, -, -, rfl⟩ <;> exact .inl rfl
  | hcanon =>
    rcases execHcanon_cases h with rfl | ⟨-, -, -, rfl⟩
    · exact .inl rfl
    · unfold State.hcanonResult
      simp only []
      split <;> exact .inl rfl

/-- A step keeps the engine, resets the machine, or runs a command. -/
theorem step_engine {s t : State} (h : step s = .next t) :
    t.engine = s.engine ∨ t.engine = .none
      ∨ ∃ i s0, s0.engine = s.engine ∧ EngineChange s0 i t.engine := by
  rcases step_cases h with ⟨-, rfl⟩ | ⟨a, rest, -, ha⟩
  · exact .inl rfl
  · rcases hostAct_cases ha with ⟨-, rfl⟩ | ⟨w, -, hw⟩ | ⟨v, reg, -, -, rfl⟩ | ⟨v, rfl⟩ | ⟨x, b, -, -, rfl⟩ | ⟨-, rfl⟩
    · exact .inl rfl
    · rcases runCommand_cases hw with ⟨i, -, hi⟩ | ⟨-, rfl⟩ | ⟨-, rfl⟩
      · rcases exec_engine hi with heq | hch
        · exact .inl heq
        · exact .inr (.inr ⟨i, { s with hostQueue := rest }, rfl, hch⟩)
      · exact .inl rfl
      · exact .inl rfl
    · exact .inl (State.writeRegister_engine _ v reg)
    · exact .inl rfl
    · exact .inl rfl
    · exact .inr (.inl rfl)

/-- A property of the engine that holds of none and that every change of a command keeps is kept by every step. -/
theorem step_engine_invariant {P : Engine → Prop} (hnone : P .none)
    (hchange : ∀ {i : Instr} {s : State} {e : Engine}, EngineChange s i e → P s.engine → P e) {s t : State}
    (hs : P s.engine) (h : step s = .next t) : P t.engine := by
  rcases step_engine h with heq | hclosed | ⟨i, s0, hs0, hch⟩
  · rw [heq]
    exact hs
  · rw [hclosed]
    exact hnone
  · rw [← hs0] at hs
    exact hchange hch hs

end Sys2Proof.Machine
end

section
/-!
The compressor's ranges are an invariant of the machine (10_state.md R52, R54, 43_bitstream.md R401, R402).
-/

namespace Sys2Proof.Machine

open Sys2Proof.Claims

/-- The ranges of a compressor (R52, R401, R402), the guard flag apart. -/
structure Compressor.InRange (c : Compressor) : Prop where
  parameters : legalParameters c
  config : c.config = levelTable c.level
  packer : c.PackerFits

theorem Compressor.RangesKept.inRange {c c' : Compressor} (h : c.RangesKept c') (hc : c.InRange) : c'.InRange := by
  obtain ⟨hlevel, hstrategy, hwBits, hmemLevel, hconfig⟩ := Compressor.parameters_inj.mp h.parameters
  refine ⟨?_, ?_, h.packer hc.packer⟩
  · unfold legalParameters
    rw [hlevel, hstrategy, hwBits, hmemLevel]
    exact hc.parameters
  · rw [hconfig, hlevel]
    exact hc.config

/-- `compressorLegal` is the ranges, and no guard fired. -/
theorem compressorLegal_iff (s : State) :
    compressorLegal s ↔ ∀ c, s.engine = .deflate c → c.InRange ∧ c.overflowed = false := by
  constructor
  · intro h c hc
    obtain ⟨hparams, hconfig, hpending, hbi, hguard⟩ := h c hc
    exact ⟨⟨hparams, hconfig, hpending, hbi⟩, hguard⟩
  · intro h c hc
    obtain ⟨⟨hparams, hconfig, hpending, hbi⟩, hguard⟩ := h c hc
    exact ⟨hparams, hconfig, hpending, hbi, hguard⟩

/-- `deflate_reset` keeps legal parameters and empties the packer (R441). -/
theorem Compressor.deflateReset_inRange {c : Compressor} (h : legalParameters c) : c.deflateReset.InRange where
  parameters := h
  config := rfl
  packer := ⟨Nat.zero_le _, Nat.zero_le _⟩

/-- The switch of DPARAMS takes the level's own row (R457, R356). -/
theorem Compressor.InRange.switch {c : Compressor} (h : c.InRange) {level strategy : Nat} (hl : level ≤ 9)
    (hs : strategy ≤ 2) : (c.switch level strategy).InRange := by
  obtain ⟨hlevel, -, hwBits⟩ := h.parameters
  unfold Compressor.switch
  simp only []
  split
  · exact ⟨⟨hl, hs, hwBits⟩, rfl, h.packer.pending, h.packer.biValid⟩
  · exact ⟨⟨hlevel, hs, hwBits⟩, h.config, h.packer.pending, h.packer.biValid⟩

theorem DRun.params_inRange {r : DRun} (h : r.c.InRange) {level strategy : Nat} (hl : level ≤ 9) (hs : strategy ≤ 2) :
    (r.params level strategy).1.c.InRange := by
  obtain ⟨r', hadv, hr | hr⟩ := r.params_run level strategy
  · rw [hr]
    exact hadv.engine.inRange h
  · rw [hr]
    exact (hadv.engine.inRange h).switch hl hs

theorem Compressor.insertRun_overflowed (c : Compressor) (pos n : Nat) :
    (c.insertRun pos n).overflowed = c.overflowed := by
  induction n generalizing c pos with
  | zero => rfl
  | succ n ih => exact ih _ _

@[simp] theorem Compressor.prime_overflowed (c : Compressor) (kept : List Byte) :
    (c.prime kept).overflowed = c.overflowed := by
  unfold Compressor.prime
  exact Compressor.insertRun_overflowed _ _ _

/-- A command leaves a compressor in range, from one in range (R52, R401, R402). -/
theorem EngineChange.compressor {s : State} {i : Instr} {e : Engine} (h : EngineChange s i e)
    (hs : ∀ c, s.engine = .deflate c → c.InRange ∧ c.overflowed = false) :
    ∀ c', e = .deflate c' → c'.InRange ∧ c'.overflowed = false := by
  intro c' he
  cases h with
  | dinit _ hok =>
    simp only [dinitFieldsOk, Bool.and_eq_true, decide_eq_true_eq] at hok
    obtain ⟨⟨⟨⟨⟨hl, hw9⟩, hw15⟩, hm1⟩, hm9⟩, hst⟩ := hok
    obtain rfl := Engine.deflate.inj he
    exact ⟨Compressor.deflateReset_inRange ⟨hl, hst, hw9, hw15, hm1, hm9⟩, rfl⟩
  | @dsetdict c hc =>
    obtain ⟨hin, hguard⟩ := hs c hc
    obtain rfl := Engine.deflate.inj he
    exact ⟨(Compressor.RangesKept.prime c _).inRange hin, (c.prime_overflowed _).trans hguard⟩
  | @deflate c flush hc hok =>
    obtain rfl := Engine.deflate.inj he
    exact ⟨(DRun.Advances.deflate ⟨s.port, c⟩ flush).engine.inRange (hs c hc).1, hok⟩
  | @dparams c level strategy hc hl hst hok =>
    obtain rfl := Engine.deflate.inj he
    exact ⟨DRun.params_inRange (hs c hc).1 hl hst, hok⟩
  | @dreset c hc =>
    obtain rfl := Engine.deflate.inj he
    exact ⟨Compressor.deflateReset_inRange (hs c hc).1.parameters, rfl⟩
  | _ => nomatch he

/-- Settles O58: the ranges are a property of the engine, and every command keeps it. -/
theorem compressorRangesKept : Obligations.CompressorRangesKept := by
  intro s t hs hstep
  rw [compressorLegal_iff] at hs ⊢
  exact step_engine_invariant (P := fun e => ∀ c, e = .deflate c → c.InRange ∧ c.overflowed = false) nofun
    EngineChange.compressor hs hstep

end Sys2Proof.Machine
end

section
/-!
The decompressor's ranges are an invariant of the machine (10_state.md R55 to R58, 41_window.md R340).
-/

namespace Sys2Proof.Machine

open Sys2Proof.Claims

theorem decompressorLegal_iff (s : State) : decompressorLegal s ↔ ∀ d, s.engine = .inflate d → d.InRange := by
  constructor
  · intro h d hd
    obtain ⟨h8, h15, hwr, hpend, hhist, hbitk, hmarker, hblens, hlens, hblcode, hlcode, hdcode⟩ := h d hd
    exact ⟨h8, h15, hwr, hpend, hhist, hbitk, hmarker, hblens, hlens, hblcode, hlcode, hdcode⟩
  · intro h d hd
    obtain ⟨h8, h15, hwr, hpend, hhist, hbitk, hmarker, hblens, hlens, hblcode, hlcode, hdcode⟩ := h d hd
    exact ⟨h8, h15, hwr, hpend, hhist, hbitk, hmarker, hblens, hlens, hblcode, hlcode, hdcode⟩

@[simp] theorem Decompressor.preload_wbits (d : Decompressor) (bytes : List Byte) :
    (d.preload bytes).wbits = d.wbits := by
  induction bytes generalizing d with
  | nil => rfl
  | cons b bytes ih => exact ih _

/-- A command leaves a decompressor in range, from one in range (R55 to R58, R340). -/
theorem EngineChange.decompressor {s : State} {i : Instr} {e : Engine} (h : EngineChange s i e)
    (hs : ∀ d, s.engine = .inflate d → d.InRange) : ∀ d', e = .inflate d' → d'.InRange := by
  intro d' he
  cases h with
  | iinit _ h8 h15 =>
    obtain rfl := Engine.inflate.inj he
    exact Decompressor.opened_inRange h8 h15
  | @isetdict d hd =>
    obtain rfl := Engine.inflate.inj he
    have hhist := d.dictTail_length_le s.dictBytes
    rw [← d.preload_wbits (d.dictTail s.dictBytes)] at hhist
    exact { (hs d hd).preload (d.dictTail s.dictBytes) with hist := hhist }
  | @inflate d flush hd =>
    obtain rfl := Engine.inflate.inj he
    exact (IRun.Advances.inflate ⟨s.port, d⟩).engine (hs d hd)
  | @isyncUnfed d hd =>
    obtain rfl := Engine.inflate.inj he
    exact (hs d hd).enterBad
  | @isyncFound d hd =>
    obtain rfl := Engine.inflate.inj he
    exact { (hs d hd).enterBad.inflateReset with }
  | @isyncLost d hd fuel p =>
    obtain rfl := Engine.inflate.inj he
    have hbad := (hs d hd).enterBad
    exact { hbad with marker := syncScan_marker_le fuel p hbad.marker }
  | @ireset d hd =>
    obtain rfl := Engine.inflate.inj he
    exact (hs d hd).inflateReset
  | _ => nomatch he

/-- Settles O59: the ranges are a property of the engine, and every command keeps it. -/
theorem decompressorRangesKept : Obligations.DecompressorRangesKept := by
  intro s t hs hstep
  rw [decompressorLegal_iff] at hs ⊢
  exact step_engine_invariant (P := fun e => ∀ d, e = .inflate d → d.InRange) nofun EngineChange.decompressor hs hstep

end Sys2Proof.Machine
end

section
/-!
The obligations about commands of 10_state.md: which registers they move (R38, R43) and which engine is open (R51).
-/

namespace Sys2Proof.Machine

open Sys2Proof.Claims

/-- Settles O12: the commands that consume input make moves of the stream port, and moves carry R38. -/
theorem inputCursors : Obligations.InputCursors :=
  fun _ _ _ h => ⟨fun hi => (exec_moves hi h).input, fun hi => exec_cursors_kept hi h⟩

/-- The commands that open or close an engine (R51). -/
def selectsEngine : Instr → Bool
  | .dinit _ _ _ _ => true
  | .dend => true
  | .iinit _ => true
  | .iend => true
  | _ => false

/-- The other commands keep the engine selector (R51). -/
theorem exec_selector_kept {i : Instr} {s t : State} (hi : selectsEngine i = false) (h : exec i s = .next t) :
    t.engine.selector = s.engine.selector := by
  rcases exec_engine h with heq | hch
  · rw [heq]
  · generalize t.engine = e at hch
    cases hch with
    | dinit => nomatch hi
    | dend => nomatch hi
    | iinit => nomatch hi
    | iend => nomatch hi
    | dsetdict hs => simp only [hs, Engine.selector]
    | deflate hs => simp only [hs, Engine.selector]
    | dparams hs => simp only [hs, Engine.selector]
    | dreset hs => simp only [hs, Engine.selector]
    | isetdict hs => simp only [hs, Engine.selector]
    | inflate hs => simp only [hs, Engine.selector]
    | isyncUnfed hs => simp only [hs, Engine.selector]
    | isyncFound hs => simp only [hs, Engine.selector]
    | isyncLost hs => simp only [hs, Engine.selector]
    | ireset hs => simp only [hs, Engine.selector]

/-- DEND closes a compressor, and keeps any other engine (R459). -/
theorem execDend_engine {s t : State} (h : execDend s = .next t) :
    if s.engine.selector = 1 then t.engine = .none else t.engine = s.engine := by
  unfold execDend at h
  split at h
  · next c hc =>
    rw [hc]
    show t.engine = .none
    split at h <;> (cases h; rfl)
  · next hc =>
    cases h
    rw [hc]
    exact hc
  · next d hc =>
    cases h
    rw [hc]
    exact hc

/-- IEND closes a decompressor, and keeps any other engine (R563). -/
theorem execIend_engine {s t : State} (h : execIend s = .next t) :
    if s.engine.selector = 2 then t.engine = .none else t.engine = s.engine := by
  unfold execIend at h
  split at h
  · next d hd =>
    cases h
    rw [hd]
    exact (rfl : Engine.none = Engine.none)
  · next hd =>
    cases h
    rw [hd]
    exact hd
  · next c hd =>
    cases h
    rw [hd]
    exact hd

/-- Settles O17: the four opening and closing commands one by one, the others by `exec_selector_kept`. -/
theorem engineSelector : Obligations.EngineSelector := by
  intro i s t h
  cases i with
  | dinit level wbits memLevel strategy =>
    rcases execDinit_cases h with rfl | ⟨-, -, rfl⟩ | ⟨hs, -, rfl⟩
    · exact ⟨nofun, fun _ => rfl⟩
    · exact ⟨nofun, fun _ => rfl⟩
    · exact ⟨fun _ => ⟨by rw [Engine.eq_none_of_closed hs]; rfl, rfl⟩, fun hne => absurd rfl hne⟩
  | iinit wbits =>
    rcases execIinit_cases h with rfl | ⟨hs, -, -, rfl⟩
    · exact ⟨nofun, fun _ => rfl⟩
    · exact ⟨fun _ => ⟨by rw [Engine.eq_none_of_closed hs]; rfl, rfl⟩, fun hne => absurd rfl hne⟩
  | dend => exact execDend_engine h
  | iend => exact execIend_engine h
  | _ => exact exec_selector_kept rfl h

end Sys2Proof.Machine
end

section
/-!
The register window (10_state.md R32 to R50): what a host read and a host write of each kind of offset do, and the
obligations about registers.
-/

namespace Sys2Proof.Machine

open Sys2Proof.Claims

/-! ## Accesses -/

/-- Only an aligned access of 32 bits is one (R32). -/
theorem registerAccess_eq_none {offset width : Nat} (h : width ≠ 4 ∨ offset % 4 ≠ 0) :
    registerAccess offset width = none := by
  unfold registerAccess
  split
  · exact if_pos (by omega)
  · rfl

/-- An aligned offset inside the window names a register (R32). -/
theorem registerAccess_aligned {offset : Nat} (ha : offset % 4 = 0) (hw : offset ≤ 0x7C) :
    ∃ reg, registerAccess offset 4 = some reg :=
  Option.isSome_iff_exists.mp (registerAt_isSome offset ha hw)

/-- The offsets from 0x4C on are reserved (R32). -/
theorem registerAccess_reserved {offset : Nat} (ha : offset % 4 = 0) (hlo : 0x4C ≤ offset) (hhi : offset ≤ 0x7C) :
    registerAccess offset 4 = some .reserved := by
  obtain ⟨k, rfl⟩ : ∃ k, offset = 4 * (k + 19) := ⟨offset / 4 - 19, by omega⟩
  have key : ∀ k < 13, registerAccess (4 * (k + 19)) 4 = some .reserved := by decide
  exact key k (by omega)

section

variable {s : State} {offset width : Nat} {reg : Register}

theorem hostReadReg_of_access (hr : registerAccess offset width = some reg) :
    hostReadReg offset width s = .next { s with readData := s.readRegister reg } := by
  simp only [hostReadReg, hr]

theorem hostReadReg_of_none (hr : registerAccess offset width = none) :
    hostReadReg offset width s = .refused .registerAccess := by
  simp only [hostReadReg, hr]

theorem hostWriteReg_of_none (v : Word) (hr : registerAccess offset width = none) :
    hostWriteReg offset width v s = .refused .registerAccess := by
  simp only [hostWriteReg, hr]

/-- A write while BUSY is dropped and sets OVERRUN (R50). -/
theorem hostWriteReg_busy (v : Word) (hr : registerAccess offset width = some reg) (hb : s.busy = true) :
    hostWriteReg offset width v s = .next { s with overrun := true } := by
  simp only [hostWriteReg, hr, hb, if_true]

/-- A write to a register other than CMD while the core is idle (R48). -/
theorem hostWriteReg_idle (v : Word) (hr : registerAccess offset width = some reg) (hb : s.busy = false)
    (hne : reg ≠ .cmd) : hostWriteReg offset width v s = .next (s.writeRegister v reg) := by
  simp only [hostWriteReg, hr, hb, Bool.false_eq_true, if_false]

end

/-- Settles O8: each offset names its register, and an idle write to it is `State.writeRegister`. -/
theorem registerWrites : Obligations.RegisterWrites := by
  intro s v hb
  have write {offset : Nat} {reg : Register} (hr : registerAccess offset 4 = some reg) (hne : reg ≠ .cmd) :=
    hostWriteReg_idle v hr hb hne
  refine ⟨write (reg := .nextIn) rfl nofun, write (reg := .availIn) rfl nofun, write (reg := .nextOut) rfl nofun,
    write (reg := .availOut) rfl nofun, write (reg := .arg0) rfl nofun, write (reg := .arg1) rfl nofun,
    write (reg := .arg2) rfl nofun, write (reg := .arg3) rfl nofun, ?_⟩
  simp only [List.forall_mem_cons, List.not_mem_nil, IsEmpty.forall_iff, implies_true, and_true]
  exact ⟨write (reg := .result) rfl nofun, write (reg := .errcode) rfl nofun, write (reg := .totalIn) rfl nofun,
    write (reg := .totalOut) rfl nofun, write (reg := .adler) rfl nofun, write (reg := .rval) rfl nofun,
    write (reg := .cfg) rfl nofun, write (reg := .estate) rfl nofun, write (reg := .id) rfl nofun⟩

/-- Settles O11: no command writes the host's side (`exec_hostSideKept`), and the host's own writes are those of
`registerWrites`. -/
theorem commandsNeverWriteArguments : Obligations.CommandsNeverWriteArguments := by
  refine ⟨fun i s t h => ?_, ⟨rfl, rfl, rfl, rfl⟩, fun s v hb => ?_⟩
  · obtain ⟨-, -, -, -, -, hargs⟩ := exec_hostSideKept h
    exact hargs
  · obtain ⟨-, -, -, -, h0, h1, h2, h3, -⟩ := registerWrites s v hb
    exact ⟨h0, h1, h2, h3⟩

/-! ## STATUS -/

/-- The bits of STATUS, field by field (R35). -/
theorem statusBits : ∀ busy overrun : Bool, ∀ k < 3,
    (Word.ofNat (busy.toNat + 2 * k + 8 * overrun.toNat)).getLsbD 0 = busy
      ∧ ((Word.ofNat (busy.toNat + 2 * k + 8 * overrun.toNat)).extractLsb' 1 2).toNat = k
      ∧ (Word.ofNat (busy.toNat + 2 * k + 8 * overrun.toNat)).getLsbD 3 = overrun
      ∧ (Word.ofNat (busy.toNat + 2 * k + 8 * overrun.toNat)).extractLsb' 4 28 = 0#28 := by
  decide

theorem Engine.selector_lt (e : Engine) : e.selector < 3 := by
  cases e <;> simp [Engine.selector]

/-- No step from an idle core sets BUSY (R35). -/
theorem step_busy {s t : State} (hb : s.busy = false) (h : step s = .next t) : t.busy = false := by
  rcases step_cases h with ⟨-, rfl⟩ | ⟨a, rest, -, ha⟩
  · exact hb
  · rcases hostAct_cases ha with ⟨hbusy, -⟩ | ⟨w, -, hw⟩ | ⟨v, reg, -, -, rfl⟩ | ⟨v, rfl⟩ | ⟨x, b, -, -, rfl⟩ | ⟨-, rfl⟩
    · exact absurd (hb.symm.trans hbusy) (by decide)
    · rcases runCommand_cases hw with ⟨i, -, hi⟩ | ⟨-, rfl⟩ | ⟨-, rfl⟩
      · obtain ⟨hkept, -⟩ := exec_hostSideKept hi
        exact hkept.trans hb
      · exact hb
      · exact hb
    · rw [State.writeRegister_busy]
      exact hb
    · exact hb
    · exact hb
    · rfl

/-- Settles O7: the fields by `statusBits`, the writes by the access lemmas, BUSY by `step_busy`. -/
theorem statusRegister : Obligations.StatusRegister := by
  refine ⟨fun s => ?_, fun s v hb => ?_, fun s v offset hb ha hw => ?_, rfl, fun s t => step_busy⟩
  · exact statusBits s.busy s.overrun s.engine.selector s.engine.selector_lt
  · exact hostWriteReg_idle (reg := .status) v rfl hb nofun
  · obtain ⟨reg, hr⟩ := registerAccess_aligned ha hw
    exact hostWriteReg_busy v hr hb

/-! ## Reads -/

theorem Status.resultWord_eq (st : Status) : st.resultWord = resultValue st := by
  cases st <;> rfl

theorem Engine.cfgWord_eq (e : Engine) : e.cfgWord = cfgValue e := by
  cases e with
  | none => rfl
  | deflate c => exact congrArg Word.ofNat (by omega)
  | inflate d => exact congrArg Word.ofNat (by omega)

theorem IMode.top_eq (m : IMode) : m.top = 16 + modes.idxOf m := by
  cases m <;> rfl

theorem BMode.sub_eq (b : BMode) : b.sub = 1 + subStates.idxOf b := by
  cases b <;> rfl

theorem Decompressor.subCode_eq (d : Decompressor) : d.subCode = if d.mode = .blocks then d.bmode.sub else 0 := by
  unfold Decompressor.subCode
  cases d.mode <;> rfl

theorem Decompressor.kCode_eq (d : Decompressor) :
    d.kCode = if d.mode = .dictId ∨ d.mode = .trailerChecksum then d.k else 0 := by
  unfold Decompressor.kCode
  cases d.mode <;> rfl

theorem Engine.estateWord_eq (e : Engine) : e.estateWord = estateValue e := by
  cases e with
  | none => rfl
  | deflate c =>
    show Word.ofNat c.dstate.top = Word.ofNat (1 + _)
    cases c.dstate <;> rfl
  | inflate d =>
    refine congrArg Word.ofNat ?_
    rw [d.mode.top_eq, d.subCode_eq, d.kCode_eq, d.bmode.sub_eq]
    split_ifs <;> omega

/-- The registers of R33 by offset, STATUS and the reserved ones apart. -/
def windowRegisters : List (Nat × Register) :=
  [(0x00, .cmd), (0x08, .result), (0x0C, .errcode), (0x10, .nextIn), (0x14, .availIn), (0x18, .totalIn),
    (0x1C, .nextOut), (0x20, .availOut), (0x24, .totalOut), (0x28, .adler), (0x2C, .rval), (0x30, .arg0),
    (0x34, .arg1), (0x38, .arg2), (0x3C, .arg3), (0x40, .cfg), (0x44, .estate), (0x48, .id)]

theorem windowRegisters_access : ∀ x ∈ windowRegisters, registerAccess x.1 4 = some x.2 := by decide

/-- The values the statements give are those the registers read as. -/
theorem registerValues_eq (s : State) : registerValues s = windowRegisters.map fun x => (x.1, s.readRegister x.2) := by
  unfold registerValues
  rw [← s.result.resultWord_eq, ← s.engine.cfgWord_eq, ← s.engine.estateWord_eq]
  rfl

/-- Settles O9: the accesses of R32 and the values of R33, register by register. -/
theorem registerAccessForms : Obligations.RegisterAccessForms := by
  intro s v offset width
  refine ⟨fun h => ?_, fun ha hlo hhi => ?_, fun x hx => ?_, hostReadReg_of_access rfl⟩
  · have hr := registerAccess_eq_none h
    exact ⟨hostReadReg_of_none hr, hostWriteReg_of_none v hr⟩
  · have hr := registerAccess_reserved ha hlo hhi
    exact ⟨hostReadReg_of_access hr, fun hb => hostWriteReg_idle v hr hb nofun⟩
  · rw [registerValues_eq] at hx
    obtain ⟨y, hy, rfl⟩ := List.mem_map.mp hx
    exact hostReadReg_of_access (windowRegisters_access y hy)

end Sys2Proof.Machine
end

section
/-!
Buffer memory under the moves of the stream port (10_state.md R40, 20_memory.md R72, R80).
-/

namespace Sys2Proof.Machine

open Sys2Proof.Claims

/-- Moves of the port keep the canonical form of buffer memory (R72). -/
theorem Port.Moves.wf {p q : Port} (h : p.Moves q) (hp : Memory.wf p.mem = true) : Memory.wf q.mem = true := by
  induction h with
  | refl => exact hp
  | consume k _ _ ih => exact ih
  | deliver bytes _ _ ih => exact Port.deliver_wf _ bytes ih
  | adler a _ ih => exact ih

/-- Moves of the port move the output cursors by the bytes delivered (R40). -/
theorem Port.Moves.output {p q : Port} (h : p.Moves q) :
    q.availOut.toNat ≤ p.availOut.toNat
      ∧ q.nextOut = p.nextOut + Word.ofNat (p.availOut.toNat - q.availOut.toNat)
      ∧ q.totalOut = p.totalOut + Word.ofNat (p.availOut.toNat - q.availOut.toNat) := by
  induction h with
  | refl => simp
  | consume k _ _ ih => exact ih
  | adler a _ ih => exact ih
  | @deliver q bytes hb _ ih =>
    obtain ⟨hle, hnext, htotal⟩ := ih
    have hsum : p.availOut.toNat - (q.availOut.toNat - bytes.length)
        = (p.availOut.toNat - q.availOut.toNat) + bytes.length := by omega
    rw [Port.deliver_availOut_toNat q bytes hb, hsum]
    refine ⟨by omega, ?_, ?_⟩
    · simp only [Port.deliver_nextOut, hnext, Word.ofNat, BitVec.ofNat_add, BitVec.add_assoc]
    · simp only [Port.deliver_totalOut, htotal, Word.ofNat, BitVec.ofNat_add, BitVec.add_assoc]

/-- A delivery changes no byte outside those it writes at NEXT_OUT (R80). -/
theorem Port.deliver_read_outside (p : Port) (bytes : List Byte) {a : Nat}
    (h : a < p.nextOut.toNat ∨ p.nextOut.toNat + bytes.length ≤ a) : (p.deliver bytes).mem.read a = p.mem.read a :=
  Memory.read_writeRun_outside p.mem p.nextOut.toNat a bytes h

/-- Moves of the port change no byte outside the delivered ones (R80). The output range must not wrap around: NEXT_OUT
itself may only once no room is left. -/
theorem Port.Moves.read_outside {p q : Port} (h : p.Moves q) (hp : p.nextOut.toNat + p.availOut.toNat ≤ 2 ^ 32) {a : Nat}
    (ha : a < p.nextOut.toNat ∨ p.nextOut.toNat + (p.availOut.toNat - q.availOut.toNat) ≤ a) :
    q.mem.read a = p.mem.read a := by
  induction h with
  | refl => rfl
  | consume k _ _ ih => exact ih ha
  | adler x _ ih => exact ih ha
  | @deliver q bytes hb hq ih =>
    rw [Port.deliver_availOut_toNat q bytes hb] at ha
    have hbefore : q.mem.read a = p.mem.read a := ih (by omega)
    obtain ⟨hle, hnext, -⟩ := hq.output
    cases bytes with
    | nil => rwa [Port.deliver_nil]
    | cons b bs =>
      rw [List.length_cons] at hb ha
      have hat : q.nextOut.toNat = p.nextOut.toNat + (p.availOut.toNat - q.availOut.toNat) := by
        rw [hnext, Word.ofNat, BitVec.toNat_add, BitVec.toNat_ofNat]
        omega
      rw [Port.deliver_read_outside q (b :: bs) (by rw [List.length_cons]; omega), hbefore]

/-- A valid output range does not wrap around (R76), or has no room. -/
theorem State.streamRangesOk_output {s : State} (h : s.streamRangesOk = true) :
    s.port.nextOut.toNat + s.port.availOut.toNat ≤ 2 ^ 32 := by
  have hlt := s.port.nextOut.isLt
  obtain ⟨-, hmem⟩ := s.memSize_bounds
  obtain ⟨-, hout, -⟩ := s.streamRangesOk_iff.mp h
  rcases (validRange_iff _ _ _).mp hout with h0 | hfits <;> omega

/-- Moves of the stream port, from a valid output range, are a delivery as the statements say it (R40, R80). -/
theorem Port.Moves.delivered {s t : State} (h : s.port.Moves t.port) (hs : s.streamRangesOk = true) :
    delivered s t := by
  obtain ⟨hle, hnext, htotal⟩ := h.output
  exact ⟨hle, hnext, htotal, fun a ha => h.read_outside (State.streamRangesOk_output hs) ha⟩

/-- A command that is turned away delivers nothing. -/
theorem State.misuse_delivered (s : State) : Claims.delivered s s.misuse :=
  ⟨Nat.le_refl _, by simp, by simp, fun _ _ => rfl⟩

end Sys2Proof.Machine
end

section
/-!
Commands that do not work on the streams: the opening, restarting, closing and dictionary commands (70_reset_and_hazards.md
R655) and the utility commands (10_state.md R59), in one case split each.
-/

namespace Sys2Proof.Machine

open Sys2Proof.Claims

/-! ## The opening, restarting, closing and dictionary commands -/

/-- The commands that reset the stream's registers (R441, R511). -/
def restartsStream : Instr → Bool
  | .dinit _ _ _ _ => true
  | .dreset => true
  | .iinit _ => true
  | .ireset => true
  | _ => false

/-- The commands that supply a dictionary (R452, R550). -/
def takesDictionary : Instr → Bool
  | .dsetdict => true
  | .isetdict => true
  | _ => false

/-- The commands that close an engine (R459, R563). -/
def closesEngine : Instr → Bool
  | .dend => true
  | .iend => true
  | _ => false

/-- What these commands leave of a stream port `p`. -/
inductive StreamSide (p : Port) (i : Instr) : Port → Prop where
  | kept : StreamSide p i p
  | restarted (hi : restartsStream i = true) : StreamSide p i p.streamReset
  | identified (hi : takesDictionary i = true) (a : Word) : StreamSide p i { p with adler := a }

theorem State.setDict_streamSide (s : State) (c : Compressor) :
    (s.setDict c).rval = s.rval ∧ StreamSide s.port .dsetdict (s.setDict c).port := by
  unfold State.setDict
  simp only []
  split <;> exact ⟨rfl, .identified rfl _⟩

/-- They keep RVAL, and of the stream port they write the totals and ADLER at most (R655, R452, R550). -/
theorem exec_streamSide {i : Instr} {s t : State} (hi : (restartsStream i || takesDictionary i || closesEngine i) = true)
    (h : exec i s = .next t) : t.rval = s.rval ∧ StreamSide s.port i t.port := by
  cases i with
  | dinit level wbits memLevel strategy =>
    rcases execDinit_cases h with rfl | ⟨-, -, rfl⟩ | ⟨-, -, rfl⟩
    · exact ⟨rfl, .kept⟩
    · exact ⟨rfl, .kept⟩
    · exact ⟨rfl, .restarted rfl⟩
  | dsetdict =>
    rcases execDsetdict_cases h with rfl | ⟨c, -, -, -, -, -, rfl⟩
    · exact ⟨rfl, .kept⟩
    · exact s.setDict_streamSide c
  | dreset =>
    rcases execDreset_cases h with rfl | ⟨c, -, rfl⟩
    · exact ⟨rfl, .kept⟩
    · exact ⟨rfl, .restarted rfl⟩
  | dend => rcases execDend_cases h with rfl | ⟨c, -, ⟨-, rfl⟩ | ⟨-, rfl⟩⟩ <;> exact ⟨rfl, .kept⟩
  | iinit wbits =>
    rcases execIinit_cases h with rfl | ⟨-, -, -, rfl⟩
    · exact ⟨rfl, .kept⟩
    · exact ⟨rfl, .restarted rfl⟩
  | isetdict =>
    rcases execIsetdict_cases h with rfl | ⟨d, -, -, -, ⟨-, rfl⟩ | ⟨-, rfl⟩⟩
    · exact ⟨rfl, .kept⟩
    · exact ⟨rfl, .kept⟩
    · exact ⟨rfl, .identified rfl _⟩
  | ireset =>
    rcases execIreset_cases h with rfl | ⟨d, -, rfl⟩
    · exact ⟨rfl, .kept⟩
    · exact ⟨rfl, .restarted rfl⟩
  | iend => rcases execIend_cases h with rfl | ⟨d, -, rfl⟩ <;> exact ⟨rfl, .kept⟩
  | _ => nomatch hi

/-- None of them writes buffer memory or a cursor (R655). -/
theorem StreamSide.cursors {p q : Port} {i : Instr} (h : StreamSide p i q) :
    q.mem = p.mem ∧ q.nextIn = p.nextIn ∧ q.availIn = p.availIn ∧ q.nextOut = p.nextOut ∧ q.availOut = p.availOut := by
  cases h <;> exact ⟨rfl, rfl, rfl, rfl, rfl⟩

/-- Only a restart writes the totals. -/
theorem StreamSide.totals {p q : Port} {i : Instr} (h : StreamSide p i q) (hi : restartsStream i = false) :
    q.totalIn = p.totalIn ∧ q.totalOut = p.totalOut := by
  cases h with
  | kept => exact ⟨rfl, rfl⟩
  | restarted hr => exact absurd (hi.symm.trans hr) (by decide)
  | identified _ a => exact ⟨rfl, rfl⟩

/-- Only a restart and a dictionary write ADLER. -/
theorem StreamSide.adler {p q : Port} {i : Instr} (h : StreamSide p i q) (hi : restartsStream i = false)
    (hi' : takesDictionary i = false) : q.adler = p.adler := by
  cases h with
  | kept => rfl
  | restarted hr => exact absurd (hi.symm.trans hr) (by decide)
  | identified hd a => exact absurd (hi'.symm.trans hd) (by decide)

/-- Settles O21: what the commands write of the stream port is `StreamSide`. -/
theorem openAndCloseFrame : Obligations.OpenAndCloseFrame := by
  intro i s t hi h
  have hkind : (restartsStream i || takesDictionary i || closesEngine i) = true := by
    rcases hi with ⟨_, _, _, _, rfl⟩ | rfl | rfl | rfl | ⟨_, rfl⟩ | rfl | rfl | rfl <;> rfl
  obtain ⟨hrval, hside⟩ := exec_streamSide hkind h
  obtain ⟨hmem, hnextIn, havailIn, hnextOut, havailOut⟩ := hside.cursors
  refine ⟨exec_hostSideKept h, hrval, hmem, hnextIn, havailIn, hnextOut, havailOut, fun hclose => ?_, fun hclose => ?_⟩
  · exact hside.totals (by rcases hclose with rfl | rfl | rfl | rfl <;> rfl)
  · rcases hclose with rfl | rfl <;> exact hside.adler rfl rfl

/-! ## ADLER, HBUILD and HCANON -/

@[simp] theorem assignCodes_length (next : Ram Nat) (lens : List Nat) : (assignCodes next lens).length = lens.length := by
  induction lens generalizing next with
  | nil => rfl
  | cons l ls ih =>
    unfold assignCodes
    split <;> simp [ih]

@[simp] theorem canonCodes_length (lens : List Nat) : (canonCodes lens).length = lens.length := assignCodes_length _ lens

@[simp] theorem buildTree_lens_length (kind : TreeKind) (freq : Ram Nat) :
    (buildTree kind freq).lens.length = kind.elems := Ram.getRun_length _ 0 kind.elems

/-- The tree HBUILD builds: for the ARG1 frequencies at ARG0, with the length limit ARG2 (R640). -/
def State.hbuildTree (s : State) : Tree :=
  buildTree (hbuildKind s.arg1.toNat s.arg2.toNat) (Ram.setRun .nil 0 (s.port.mem.readU16s s.arg0.toNat s.arg1.toNat))

/-- HBUILD stores `3*ARG1` bytes at ARG3: a length and a u16 code for each symbol (R640). -/
theorem State.hbuildResult_mem (s : State) :
    ∃ bytes : List Byte, bytes.length = 3 * s.arg1.toNat
      ∧ s.hbuildResult.port.mem = s.port.mem.writeRun s.arg3.toNat bytes := by
  have hlens : s.hbuildTree.lens.length = s.arg1.toNat := buildTree_lens_length _ _
  refine ⟨s.hbuildTree.lens.map Byte.ofNat ++ u16Bytes (s.hbuildTree.code.code.getRun 0 s.arg1.toNat), ?_, ?_⟩
  · rw [List.length_append, List.length_map, hlens, u16Bytes_length, Ram.getRun_length]
    omega
  · rw [Memory.writeRun_append, List.length_map, hlens]
    rfl

/-- What HCANON leaves (R641): with an over-subscribed code DataError and no store, else a u16 code for each length, stored
at ARG2. -/
theorem State.hcanonResult_cases (s : State) (lens : List Nat) :
    s.hcanonResult lens = { s with rval := Word.ofNat (maxLen lens), result := .dataError }
      ∨ ∃ st, (st = .ok ∨ st = .bufError)
        ∧ s.hcanonResult lens
          = { s with
              rval := Word.ofNat (maxLen lens), result := st
              port := { s.port with mem := s.port.mem.writeRun s.arg2.toNat (u16Bytes (canonCodes lens)) } } := by
  unfold State.hcanonResult
  simp only []
  split
  · exact .inl rfl
  · exact .inr ⟨.ok, .inl rfl, rfl⟩
  · exact .inr ⟨.bufError, .inr rfl, rfl⟩
  · exact .inr ⟨.bufError, .inr rfl, rfl⟩

/-- Everything a utility command can leave, as writes of RVAL, RESULT and buffer memory. -/
inductive UtilityResult (s : State) : Instr → State → Prop where
  | misuse (i : Instr) : UtilityResult s i s.misuse
  | adler (v : Word) : UtilityResult s .adler { s with result := .ok, rval := v }
  | hbuild (v : Word) (bytes : List Byte) (hb : bytes.length = 3 * s.arg1.toNat) :
    UtilityResult s .hbuild
      { s with result := .ok, rval := v, port := { s.port with mem := s.port.mem.writeRun s.arg3.toNat bytes } }
  | hcanonNone (v : Word) : UtilityResult s .hcanon { s with result := .dataError, rval := v }
  | hcanon (v : Word) {st : Status} (hst : st = .ok ∨ st = .bufError) (bytes : List Byte)
    (hb : bytes.length = 2 * s.arg1.toNat) :
    UtilityResult s .hcanon
      { s with result := st, rval := v, port := { s.port with mem := s.port.mem.writeRun s.arg2.toNat bytes } }

/-- The utility commands end as `UtilityResult` says (R305, R640, R641). -/
theorem exec_utility {i : Instr} {s t : State} (hi : i = .adler ∨ i = .hbuild ∨ i = .hcanon) (h : exec i s = .next t) :
    UtilityResult s i t := by
  rcases hi with rfl | rfl | rfl
  · rcases execAdler_cases h with rfl | ⟨-, rfl⟩
    · exact .misuse _
    · exact .adler _
  · rcases execHbuild_cases h with rfl | ⟨-, -, -, -, -, -, rfl⟩
    · exact .misuse _
    · obtain ⟨bytes, hlen, hmem⟩ := s.hbuildResult_mem
      have heq : s.hbuildResult = { s with
          result := .ok, rval := s.hbuildResult.rval, port := { s.port with mem := s.hbuildResult.port.mem } } := rfl
      rw [heq, hmem]
      exact .hbuild _ bytes hlen
  · rcases execHcanon_cases h with rfl | ⟨-, -, -, rfl⟩
    · exact .misuse _
    · rcases s.hcanonResult_cases ((s.port.mem.readRun s.arg0.toNat s.arg1.toNat).map BitVec.toNat)
        with heq | ⟨st, hst, heq⟩
      · rw [heq]
        exact .hcanonNone _
      · rw [heq]
        exact .hcanon _ hst _ (by simp)

/-- Settles O22: the registers by the cases of `UtilityResult`, the bytes outside the stored ones by
`Memory.read_writeRun_outside`. -/
theorem utilityFrame : Obligations.UtilityFrame := by
  intro i s t hi h
  refine ⟨exec_hostSideKept h, ?_⟩
  cases exec_utility hi h with
  | misuse =>
    exact ⟨rfl, rfl, fun hne => absurd rfl hne, fun _ => ⟨rfl, rfl⟩, fun _ => rfl, fun _ _ _ => rfl, fun _ _ _ => rfl,
      fun _ _ => rfl⟩
  | adler v => exact ⟨rfl, rfl, fun _ => rfl, nofun, fun _ => rfl, nofun, nofun, nofun⟩
  | hbuild v bytes hb =>
    refine ⟨rfl, rfl, fun _ => rfl, nofun, nofun, fun _ a ha => ?_, nofun, nofun⟩
    exact Memory.read_writeRun_outside _ _ _ _ (hb ▸ ha)
  | hcanonNone v => exact ⟨rfl, rfl, fun _ => rfl, nofun, nofun, nofun, fun _ _ _ => rfl, fun _ _ => rfl⟩
  | hcanon v hst bytes hb =>
    refine ⟨rfl, rfl, fun _ => rfl, ?_, nofun, nofun, fun _ a ha => ?_, ?_⟩
    · rcases hst with rfl | rfl <;> nofun
    · exact Memory.read_writeRun_outside _ _ _ _ (hb ▸ ha)
    · rcases hst with rfl | rfl <;> nofun

/-- The stores of a utility command keep the canonical form of buffer memory (R72). -/
theorem UtilityResult.wf {s t : State} {i : Instr} (h : UtilityResult s i t) (hs : Memory.wf s.port.mem = true) :
    Memory.wf t.port.mem = true := by
  cases h with
  | misuse => exact hs
  | adler v => exact hs
  | hbuild v bytes _ => exact Memory.wf_writeRun _ _ bytes hs
  | hcanonNone v => exact hs
  | hcanon v _ bytes _ => exact Memory.wf_writeRun _ _ bytes hs

end Sys2Proof.Machine
end

section
/-!
The canonical form of buffer memory is an invariant of the machine (20_memory.md R72); the host's own accesses (R660).
-/

namespace Sys2Proof.Machine

open Sys2Proof.Claims

/-- Every command keeps the canonical form of buffer memory: by the moves of the stream port, or by the stores of the
utility commands; the other commands store nothing. -/
theorem exec_wf {i : Instr} {s t : State} (hs : Memory.wf s.port.mem = true) (h : exec i s = .next t) :
    Memory.wf t.port.mem = true := by
  have keeps (hi : (restartsStream i || takesDictionary i || closesEngine i) = true) : Memory.wf t.port.mem = true := by
    obtain ⟨-, hside⟩ := exec_streamSide hi h
    obtain ⟨hmem, -⟩ := hside.cursors
    rwa [hmem]
  cases i with
  | deflate _ => exact (exec_moves rfl h).wf hs
  | dparams _ _ => exact (exec_moves rfl h).wf hs
  | inflate _ => exact (exec_moves rfl h).wf hs
  | isync => exact (exec_moves rfl h).wf hs
  | adler => exact (exec_utility (by simp) h).wf hs
  | hbuild => exact (exec_utility (by simp) h).wf hs
  | hcanon => exact (exec_utility (by simp) h).wf hs
  | _ => exact keeps rfl

/-- No register write reaches buffer memory. -/
@[simp] theorem State.writeRegister_mem (s : State) (v : Word) (reg : Register) :
    (s.writeRegister v reg).port.mem = s.port.mem := by
  cases reg with
  | status =>
    simp only [State.writeRegister]
    split <;> rfl
  | _ => rfl

/-- Settles O57: commands by `exec_wf`, the host's byte write by `Memory.wf_write`; a reset keeps buffer memory (R650). -/
theorem memoryFormKept : Obligations.MemoryFormKept := by
  intro s t hs h
  rcases step_cases h with ⟨-, rfl⟩ | ⟨a, rest, -, ha⟩
  · exact hs
  · rcases hostAct_cases ha with ⟨-, rfl⟩ | ⟨w, -, hw⟩ | ⟨v, reg, -, -, rfl⟩ | ⟨v, rfl⟩ | ⟨x, b, -, -, rfl⟩ | ⟨-, rfl⟩
    · exact hs
    · rcases runCommand_cases hw with ⟨i, -, hi⟩ | ⟨-, rfl⟩ | ⟨-, rfl⟩
      · exact exec_wf (s := { s with hostQueue := rest }) hs hi
      · exact hs
      · exact hs
    · rw [State.writeRegister_mem]
      exact hs
    · exact hs
    · exact Memory.wf_write _ x b hs
    · exact hs

/-- Settles O10: the checks of the two accesses, then `Memory.read_write`. -/
theorem hostBufferAccess : Obligations.HostBufferAccess := by
  intro s a b hb hwf
  refine ⟨fun ha => ⟨⟨s.port.mem.write a b, ?_, fun x => Memory.read_write _ a x b hwf⟩, ?_⟩, fun ha => ⟨?_, ?_⟩⟩
  · simp only [hostWriteByte, hb, Bool.false_eq_true, if_false, if_neg (Nat.not_le.mpr ha)]
  · simp only [hostReadByte, hb, Bool.false_eq_true, if_false, if_neg (Nat.not_le.mpr ha)]
  · simp only [hostWriteByte, hb, Bool.false_eq_true, if_false, if_pos ha]
  · simp only [hostReadByte, hb, Bool.false_eq_true, if_false, if_pos ha]

end Sys2Proof.Machine
end

section
/-!
The range checks of the commands (20_memory.md R76, R77): a command with a bad range is turned away, whatever else holds.
-/

namespace Sys2Proof.Machine

open Sys2Proof.Claims

/-- Two ranges that must be valid and disjoint are bad exactly when their check fails (R76, R77). -/
theorem badPair_iff (s : State) (a n b m : Nat) :
    (outside s a n ∨ outside s b m ∨ clash a n b m)
      ↔ (validRange s.memSize a n && validRange s.memSize b m && !overlap a n b m) = false := by
  rw [outside_iff, outside_iff, clash_iff, Bool.and_eq_false_iff, Bool.and_eq_false_iff, Bool.not_eq_false', or_assoc]

section

variable {s : State}

theorem execDeflate_of_badStream (h : s.streamRangesOk = false) (flush : Nat) :
    execDeflate flush s = .next s.misuse := by
  unfold execDeflate
  split <;> simp only [h, Bool.not_false, if_true, ite_self]

theorem execDparams_of_badStream (h : s.streamRangesOk = false) (level strategy : Nat) :
    execDparams level strategy s = .next s.misuse := by
  unfold execDparams
  split <;> simp only [h, Bool.not_false, if_true, ite_self]

theorem execInflate_of_badStream (h : s.streamRangesOk = false) (flush : Nat) :
    execInflate flush s = .next s.misuse := by
  unfold execInflate
  split <;> simp only [h, Bool.not_false, if_true, ite_self]

theorem execIsync_of_badInput (h : s.inputRangeOk = false) : execIsync s = .next s.misuse := by
  unfold execIsync
  split <;> simp only [h, Bool.not_false, if_true]

theorem execDsetdict_of_badDict (h : s.dictRangeOk = false) : execDsetdict s = .next s.misuse := by
  unfold execDsetdict
  split <;> simp only [h, Bool.not_false, if_true, ite_self]

theorem execIsetdict_of_badDict (h : s.dictRangeOk = false) : execIsetdict s = .next s.misuse := by
  unfold execIsetdict
  split <;> simp only [h, Bool.not_false, if_true, ite_self]

theorem execAdler_of_badRange (h : s.adlerRangeOk = false) : execAdler s = .next s.misuse := by
  simp only [execAdler, h, Bool.false_eq_true, if_false]

theorem execHbuild_of_badRanges (h : s.hbuildRangesOk = false) : execHbuild s = .next s.misuse := by
  simp only [execHbuild, h, Bool.not_false, if_true, ite_self]

theorem execHcanon_of_badRanges (h : s.hcanonRangesOk = false) : execHcanon s = .next s.misuse := by
  simp only [execHcanon, h, Bool.not_false, if_true, ite_self]

end

/-- Settles O15: each command's bad ranges are those its own check refuses; `refusedBy20` is `State.misuse`. -/
theorem badRangesHaveNoEffect : Obligations.BadRangesHaveNoEffect := by
  intro i s h
  cases i with
  | deflate flush => exact execDeflate_of_badStream ((badStream_iff s).mp h) flush
  | dparams level strategy => exact execDparams_of_badStream ((badStream_iff s).mp h) level strategy
  | inflate flush => exact execInflate_of_badStream ((badStream_iff s).mp h) flush
  | isync => exact execIsync_of_badInput ((outside_iff s _ _).mp h)
  | dsetdict => exact execDsetdict_of_badDict ((outside_iff s _ _).mp h)
  | isetdict => exact execIsetdict_of_badDict ((outside_iff s _ _).mp h)
  | adler => exact execAdler_of_badRange ((outside_iff s _ _).mp h)
  | hbuild => exact execHbuild_of_badRanges ((badPair_iff s _ _ _ _).mp h)
  | hcanon => exact execHcanon_of_badRanges ((badPair_iff s _ _ _ _).mp h)
  | _ => exact h.elim

end Sys2Proof.Machine
end

section
/-!
How the commands on the streams end (60_exceptions.md R603): ERRCODE is written with an error status only.
-/

namespace Sys2Proof.Machine

open Sys2Proof.Claims

/-- What an ending raises is an error. -/
def Ending.RaisesErrors : Ending → Prop
  | .ret _ => True
  | .raise st _ => st.negative = true

@[simp] theorem State.finish_rval (s : State) (e : Ending) : (s.finish e).rval = s.rval := by
  cases e <;> rfl

/-- Such an ending keeps ERRCODE on a status that is no error (R603). -/
theorem Ending.RaisesErrors.errcode {e : Ending} (he : e.RaisesErrors) (s : State)
    (h : (s.finish e).result.negative = false) : (s.finish e).errcode = s.errcode := by
  cases e with
  | ret st => rfl
  | raise st code => exact absurd (h.symm.trans he) (by decide)

theorem CommandFrame.hostSideKept {s t : State} (h : CommandFrame s t) : Claims.hostSideKept s t := by
  rw [h.eq]
  exact ⟨rfl, rfl, rfl, rfl, rfl, rfl, rfl, rfl, rfl⟩

/-- StreamError is an error. -/
theorem State.misuse_errcode_kept (s : State) (h : s.misuse.result.negative = false) : s.misuse.errcode = s.errcode := by
  rw [State.misuse_result] at h
  exact absurd h (by decide)

/-- INFLATE raises DataError, StreamError or BufError (R540). -/
theorem inflateEnding_raisesErrors (flush : Nat) (start : Port) (out : IRun × Option Status) :
    (inflateEnding flush start out).RaisesErrors := by
  unfold inflateEnding
  split
  · next st _ => cases st <;> trivial
  · split
    · rfl
    · split
      · trivial
      · rfl

end Sys2Proof.Machine
end

section
/-!
INFLATE and ISYNC keep windowBits (10_state.md R55); one lemma per step of 45_inflate.md.
-/

namespace Sys2Proof.Machine

open Sys2Proof.Claims

namespace IRun

/-! ## The bit parser -/

@[simp] theorem drain_wbits (r : IRun) : r.drain.d.wbits = r.d.wbits := by
  rw [r.drain_engine]

theorem needLoop_wbits (n fuel : Nat) (r : IRun) : (needLoop n fuel r).run.d.wbits = r.d.wbits := by
  induction fuel generalizing r with
  | zero => rfl
  | succ fuel ih =>
    unfold needLoop
    split
    · rfl
    · split
      · rfl
      · next b r1 ht =>
        rw [ih, withD_d, (Advances.takeByte ht).2]
        rfl

variable {r : IRun}

/-- A step that needs `n` bits first (R410). -/
theorem wbits_afterBits {n : Nat} {next : IRun → IStep} (hnext : ∀ r1 : IRun, (next r1).run.d.wbits = r1.d.wbits) :
    (match r.needBits n with | .blocked r1 => IStep.blocked r1 | .got r1 => next r1).run.d.wbits = r.d.wbits := by
  have h : (r.needBits n).run.d.wbits = r.d.wbits := needLoop_wbits n n r
  cases hf : r.needBits n with
  | blocked r1 => rw [hf] at h; exact h
  | got r1 => rw [hf] at h; exact (hnext r1).trans h

/-- A step that takes a byte first (R410). -/
theorem wbits_afterByte {next : Byte → IRun → IStep} (hnext : ∀ b (r1 : IRun), (next b r1).run.d.wbits = r1.d.wbits) :
    (match r.takeByte with | none => IStep.blocked r | some (b, r1) => next b r1).run.d.wbits = r.d.wbits := by
  cases hf : r.takeByte with
  | none => rfl
  | some x => exact (hnext x.1 x.2).trans (by rw [(Advances.takeByte hf).2])

/-- A step that decodes a symbol first (R414). -/
theorem wbits_afterSymbol {code : List Nat} {err : BitVec 8} {next : Nat → Nat → IRun → IStep}
    (hnext : ∀ c n (r1 : IRun), (next c n r1).run.d.wbits = r1.d.wbits) :
    (match r.decode code with
      | .blocked r1 => IStep.blocked r1
      | .undefined r1 => r1.bad err
      | .sym c n r1 => next c n r1).run.d.wbits = r.d.wbits := by
  have h : (r.decode code).run.d.wbits = r.d.wbits := by
    rw [decode, decodeLoop_engine]
  cases hf : r.decode code with
  | blocked r1 => rw [hf] at h; exact h
  | undefined r1 => rw [hf] at h; exact h
  | sym c n r1 => rw [hf] at h; exact (hnext c n r1).trans h

/-! ## Steps -/

variable (r : IRun)

theorem stepMethod_wbits : r.stepMethod.run.d.wbits = r.d.wbits := by
  refine wbits_afterByte fun b r1 => ?_
  simp only []
  split
  · rfl
  · split <;> rfl

theorem stepFlags_wbits : r.stepFlags.run.d.wbits = r.d.wbits := by
  refine wbits_afterByte fun b r1 => ?_
  split <;> rfl

theorem stepDictId_wbits : r.stepDictId.run.d.wbits = r.d.wbits := by
  refine wbits_afterByte fun b r1 => ?_
  simp only []
  split <;> rfl

theorem stepTrailer_wbits : r.stepTrailer.run.d.wbits = r.d.wbits := by
  refine wbits_afterByte fun b r1 => ?_
  simp only []
  split
  · split <;> rfl
  · rfl

theorem stepType_wbits : r.stepType.run.d.wbits = r.d.wbits := by
  refine wbits_afterBits fun r1 => ?_
  simp only []
  split <;> rfl

theorem stepStoredLen_wbits : r.stepStoredLen.run.d.wbits = r.d.wbits := by
  refine wbits_afterBits fun r1 => ?_
  simp only []
  split <;> rfl

theorem stepStoredCopy_wbits : r.stepStoredCopy.run.d.wbits = r.d.wbits := by
  unfold stepStoredCopy
  split
  · rfl
  · refine wbits_afterByte fun b r1 => ?_
    simp only [go_eq]
    split <;> rfl

theorem stepTable_wbits : r.stepTable.run.d.wbits = r.d.wbits := by
  refine wbits_afterBits fun r1 => ?_
  simp only []
  split <;> rfl

theorem stepBtree_wbits : r.stepBtree.run.d.wbits = r.d.wbits := by
  unfold stepBtree
  split
  · exact wbits_afterBits fun r1 => rfl
  · unfold stepBtreeCheck
    simp only []
    split
    · rfl
    · rfl
    · split <;> rfl
    · rfl

theorem stepRepeat_wbits (c n : Nat) : (r.stepRepeat c n).run.d.wbits = r.d.wbits := by
  refine wbits_afterBits fun r1 => ?_
  simp only []
  split <;> rfl

theorem stepDtreeRead_wbits : r.stepDtreeRead.run.d.wbits = r.d.wbits := by
  refine wbits_afterSymbol fun c n r1 => ?_
  split
  · rfl
  · exact r1.stepRepeat_wbits c n

theorem stepDtreeCheck_wbits : r.stepDtreeCheck.run.d.wbits = r.d.wbits := by
  unfold stepDtreeCheck
  simp only []
  split
  · rfl
  · split <;> rfl

theorem stepDtree_wbits : r.stepDtree.run.d.wbits = r.d.wbits := by
  unfold stepDtree
  split
  · exact r.stepDtreeRead_wbits
  · exact r.stepDtreeCheck_wbits

theorem stepLength_wbits (k n : Nat) : (r.stepLength k n).run.d.wbits = r.d.wbits := wbits_afterBits fun _ => rfl

theorem stepCodesLen_wbits : r.stepCodesLen.run.d.wbits = r.d.wbits := by
  unfold stepCodesLen
  split
  · rfl
  · refine wbits_afterSymbol fun c n r1 => ?_
    split
    · rfl
    · split
      · rfl
      · split
        · rfl
        · exact r1.stepLength_wbits _ n

theorem stepDistance_wbits (c n : Nat) : (r.stepDistance c n).run.d.wbits = r.d.wbits := by
  refine wbits_afterBits fun r1 => ?_
  simp only []
  split <;> rfl

theorem stepCodesDist_wbits : r.stepCodesDist.run.d.wbits = r.d.wbits := by
  refine wbits_afterSymbol fun c n r1 => ?_
  split
  · rfl
  · exact r1.stepDistance_wbits c n

theorem stepCodesCopy_wbits : r.stepCodesCopy.run.d.wbits = r.d.wbits := by
  unfold stepCodesCopy
  split
  · rfl
  · simp only [go_eq]
    split <;> rfl

theorem stepWash_wbits : r.stepWash.run.d.wbits = r.d.wbits := by
  unfold stepWash
  simp only []
  split <;> rfl

theorem stepBlock_wbits : r.stepBlock.run.d.wbits = r.d.wbits := by
  unfold stepBlock
  cases r.d.bmode with
  | type => exact r.stepType_wbits
  | storedLen => exact r.stepStoredLen_wbits
  | storedCopy => exact r.stepStoredCopy_wbits
  | table => exact r.stepTable_wbits
  | btree => exact r.stepBtree_wbits
  | dtree => exact r.stepDtree_wbits
  | codesLen => exact r.stepCodesLen_wbits
  | codesDist => exact r.stepCodesDist_wbits
  | codesCopy => exact r.stepCodesCopy_wbits
  | wash => exact r.stepWash_wbits

theorem step_wbits : r.step.run.d.wbits = r.d.wbits := by
  unfold step
  cases r.d.mode with
  | headerMethod => exact r.stepMethod_wbits
  | headerFlags => exact r.stepFlags_wbits
  | dictId => exact r.stepDictId_wbits
  | waitForDictionary => rfl
  | blocks => exact r.stepBlock_wbits
  | trailerChecksum => exact r.stepTrailer_wbits
  | done => rfl
  | bad => rfl

theorem loop_wbits (fuel : Nat) : (loop fuel r).1.d.wbits = r.d.wbits := by
  induction fuel generalizing r with
  | zero => rfl
  | succ fuel ih =>
    have hstep : r.drain.step.run.d.wbits = r.d.wbits := by rw [step_wbits, drain_wbits]
    unfold loop
    cases hs : r.drain.step with
    | go r1 => rw [hs] at hstep; exact (ih r1).trans hstep
    | blocked r1 => rw [hs] at hstep; exact hstep
    | ended r1 st => rw [hs] at hstep; exact hstep

/-- A call of INFLATE keeps windowBits (R540). -/
theorem inflate_wbits : r.inflate.1.d.wbits = r.d.wbits := (drain_wbits _).trans (loop_wbits r _)

end IRun

/-- Settles O20: the run moves the stream port (`IRun.Advances.inflate`) and keeps windowBits (`IRun.inflate_wbits`). -/
theorem inflateFrame : Obligations.InflateFrame := by
  intro flush s t h
  rcases execInflate_cases h with rfl | ⟨d, hd, -, hranges, rfl⟩
  · exact ⟨s.misuse_delivered, exec_hostSideKept h, rfl, s.misuse_errcode_kept, fun _ => ⟨rfl, rfl⟩,
      fun d hd => ⟨d, hd, rfl⟩⟩
  · have hending := inflateEnding_raisesErrors flush s.port (IRun.inflate ⟨s.port, d⟩)
    refine ⟨(exec_moves rfl h).delivered hranges, exec_hostSideKept h, by rw [State.finish_rval]; rfl, hending.errcode _,
      fun hne => absurd hd (hne d), fun d' hd' => ?_⟩
    obtain rfl := Engine.inflate.inj (hd.symm.trans hd')
    exact ⟨_, State.finish_engine _ _, IRun.inflate_wbits ⟨s.port, d⟩⟩

/-! ## ISYNC -/

/-- Entering BAD keeps the window. -/
theorem Decompressor.enterBad_window (d : Decompressor) : d.enterBad.wbits = d.wbits ∧ d.enterBad.iwin = d.iwin := by
  unfold Decompressor.enterBad
  split <;> exact ⟨rfl, rfl⟩

/-- The scan of ISYNC writes no output cursor and no buffer memory (R560). -/
theorem syncScan_output (fuel : Nat) (p : Port) (m : Nat) :
    (syncScan fuel p m).1.mem = p.mem ∧ (syncScan fuel p m).1.nextOut = p.nextOut
      ∧ (syncScan fuel p m).1.availOut = p.availOut ∧ (syncScan fuel p m).1.totalOut = p.totalOut := by
  rw [syncScan_frame]
  exact ⟨rfl, rfl, rfl, rfl⟩

/-- What ISYNC with input leaves (R560). -/
theorem State.resync_output (s : State) (d : Decompressor) :
    (s.resync d).rval = s.rval ∧ ((s.resync d).result = .ok → (s.resync d).errcode = s.errcode)
      ∧ (s.resync d).port.mem = s.port.mem ∧ (s.resync d).port.nextOut = s.port.nextOut
      ∧ (s.resync d).port.availOut = s.port.availOut ∧ (s.resync d).port.totalOut = s.port.totalOut := by
  have hscan := syncScan_output s.port.availIn.toNat s.port d.marker
  unfold State.resync
  simp only []
  split
  · exact ⟨rfl, fun _ => rfl, hscan⟩
  · exact ⟨rfl, nofun, hscan⟩

/-- ISYNC keeps the window (R560, R561). -/
theorem EngineChange.isync_window {s : State} {d : Decompressor} {e : Engine} (h : EngineChange s .isync e)
    (hd : s.engine = .inflate d) : ∃ d', e = .inflate d' ∧ d'.wbits = d.wbits ∧ d'.iwin = d.iwin := by
  cases h with
  | @isyncUnfed d0 h0 =>
    obtain rfl := Engine.inflate.inj (hd.symm.trans h0)
    exact ⟨_, rfl, d.enterBad_window⟩
  | @isyncFound d0 h0 =>
    obtain rfl := Engine.inflate.inj (hd.symm.trans h0)
    exact ⟨_, rfl, d.enterBad_window⟩
  | @isyncLost d0 h0 =>
    obtain rfl := Engine.inflate.inj (hd.symm.trans h0)
    exact ⟨_, rfl, d.enterBad_window⟩

/-- Settles O23: the registers by the cases of ISYNC, the engine by `exec_engine`. -/
theorem resyncFrame : Obligations.ResyncFrame := by
  intro s t h
  have hengine : ∀ d, s.engine = .inflate d → ∃ d', t.engine = .inflate d' ∧ d'.wbits = d.wbits ∧ d'.iwin = d.iwin := by
    intro d hd
    rcases exec_engine h with heq | hch
    · exact ⟨d, heq.trans hd, rfl, rfl⟩
    · exact hch.isync_window hd
  refine ⟨exec_hostSideKept h, ?_⟩
  rcases execIsync_cases h with rfl | ⟨d, -, -, ⟨-, rfl⟩ | ⟨-, rfl⟩⟩
  · exact ⟨rfl, rfl, rfl, rfl, rfl, nofun, hengine⟩
  · exact ⟨rfl, s.port.leaveWait_mem d, s.port.leaveWait_nextOut d, s.port.leaveWait_availOut d,
      s.port.leaveWait_totalOut d, nofun, hengine⟩
  · obtain ⟨hrval, herr, hmem, hnextOut, havailOut, htotalOut⟩ := (s.enterBad d).resync_output d.enterBad
    exact ⟨hrval, hmem.trans (s.port.leaveWait_mem d), hnextOut.trans (s.port.leaveWait_nextOut d),
      havailOut.trans (s.port.leaveWait_availOut d), htotalOut.trans (s.port.leaveWait_totalOut d), herr, hengine⟩

end Sys2Proof.Machine
end

section
/-!
What DEFLATE and DPARAMS leave under either encoder profile (00_scope.md R9, R22, 44_deflate.md R434, R457).
-/

namespace Sys2Proof.Machine

open Sys2Proof.Claims

/-! ## Endings -/

/-- The tail of DEFLATE raises nothing (R430, R437). -/
theorem DRun.trailer_raisesErrors (r : DRun) (flush : Nat) : (r.trailer flush).2.RaisesErrors := by
  unfold DRun.trailer
  split
  · trivial
  · split <;> trivial

theorem DRun.afterFunc_raisesErrors (r : DRun) (flush : Nat) (b : BState) : (r.afterFunc flush b).2.RaisesErrors := by
  cases b with
  | needMore => trivial
  | finishStarted => trivial
  | finishDone => exact DRun.trailer_raisesErrors _ flush
  | blockDone =>
    unfold DRun.afterFunc
    simp only []
    split
    · trivial
    · exact DRun.trailer_raisesErrors _ flush

theorem DRun.work_raisesErrors (r : DRun) (flush : Nat) : (r.work flush).2.RaisesErrors := by
  unfold DRun.work
  split
  · exact DRun.afterFunc_raisesErrors _ flush _
  · exact DRun.trailer_raisesErrors r flush

theorem DRun.proceed_raisesErrors (r : DRun) (flush : Nat) (oldFlush : Int) :
    (r.proceed flush oldFlush).2.RaisesErrors := by
  unfold DRun.proceed
  split
  · simp only []
    split
    · trivial
    · exact DRun.work_raisesErrors _ flush
  · split
    · rfl
    · exact DRun.work_raisesErrors r flush

/-- DEFLATE raises StreamError or BufError (R430). -/
theorem DRun.deflate_raisesErrors (r : DRun) (flush : Nat) : (r.deflate flush).2.RaisesErrors := by
  unfold DRun.deflate
  split
  · rfl
  · split
    · rfl
    · exact DRun.proceed_raisesErrors _ flush _

/-! ## Calls -/

/-- From `r` to `r'`, ending with `e`, by a call of DEFLATE: moves of the stream port, the parameters kept (R52), and no
raise but of an error. -/
structure DRun.Compresses (r r' : DRun) (e : Ending) : Prop where
  port : r.port.Moves r'.port
  parameters : r'.c.parameters = r.c.parameters
  ending : e.RaisesErrors

theorem DRun.Compresses.deflate (r : DRun) (flush : Nat) : r.Compresses (r.deflate flush).1 (r.deflate flush).2 :=
  ⟨(DRun.Advances.deflate r flush).port, (DRun.Advances.deflate r flush).engine.parameters,
    r.deflate_raisesErrors flush⟩

/-- A drawn call consumes bytes on offer, writes ADLER and delivers what there is room for (R434 (e)). -/
theorem Port.Moves.drawn (p : Port) (first : Bool) {k : Nat} {bytes : List Byte} (hk : k ≤ p.availIn.toNat)
    (hb : bytes.length ≤ p.availOut.toNat) : p.Moves (p.drawn first k bytes) :=
  .deliver bytes hb (.adler _ (.consume k hk .refl))

theorem DrawnCall.compresses {flush : Nat} {r r' : DRun} {e : Ending} {h h' : History}
    (hd : DrawnCall flush r r' e h h') : r.Compresses r' e := by
  obtain ⟨k, bytes, -, hk, hb, -, -, hport, -⟩ := hd.counts
  obtain ⟨hlevel, hstrategy, hwBits, hmemLevel, hconfig, -⟩ := hd.parameters
  refine ⟨?_, Compressor.parameters_inj.mpr ⟨hlevel, hstrategy, hwBits, hmemLevel, hconfig⟩, ?_⟩
  · rw [hport]
    exact .drawn r.port _ hk hb
  · rw [hd.ending]
    trivial

/-- A call within R434 compresses: refused and held calls are the reference encoder's. -/
theorem Permitted.compresses {flush : Nat} {r r' : DRun} {e : Ending} {h h' : History}
    (hp : Permitted flush r r' e h h') : r.Compresses r' e := by
  have href := DRun.Compresses.deflate r flush
  unfold Permitted at hp
  split at hp
  · next out hrefusal =>
    obtain ⟨rfl, -⟩ := hp
    rw [DRun.deflate_of_refusal hrefusal] at href
    exact href
  · next hrefusal =>
    split at hp
    · next out hheld =>
      obtain ⟨rfl, rfl, -⟩ := hp
      rw [DRun.deflate_of_held hrefusal hheld] at href
      exact href
    · exact hp.compresses

theorem AnyDeflate.compresses {flush : Nat} {r r' : DRun} {e : Ending} {h h' : History}
    (hp : AnyDeflate flush r r' e h h') : r.Compresses r' e := Permitted.compresses hp.1

/-- From `r` to `r'`, ending with `e`, by a call of DEFLATE or DPARAMS: DPARAMS may change level and strategy (R457). -/
structure DRun.Calls (r r' : DRun) (e : Ending) : Prop where
  port : r.port.Moves r'.port
  wBits : r'.c.wBits = r.c.wBits
  memLevel : r'.c.memLevel = r.c.memLevel
  ending : e.RaisesErrors

theorem DRun.Compresses.calls {r r' : DRun} {e : Ending} (h : r.Compresses r' e) : r.Calls r' e := by
  obtain ⟨-, -, hwBits, hmemLevel, -⟩ := Compressor.parameters_inj.mp h.parameters
  exact ⟨h.port, hwBits, hmemLevel, h.ending⟩

theorem Compressor.switch_window (c : Compressor) (level strategy : Nat) :
    (c.switch level strategy).wBits = c.wBits ∧ (c.switch level strategy).memLevel = c.memLevel := by
  unfold Compressor.switch
  simp only []
  split <;> exact ⟨rfl, rfl⟩

/-- The end of DPARAMS switches or raises BufError (R457). -/
theorem DRun.Calls.afterFlush {r r1 : DRun} {e : Ending} (h : r.Calls r1 e) (level strategy : Nat) :
    r.Calls (r1.afterFlush level strategy e).1 (r1.afterFlush level strategy e).2 := by
  obtain ⟨hwBits, hmemLevel⟩ := r1.c.switch_window level strategy
  unfold DRun.afterFlush
  split
  · exact h
  · split
    · exact ⟨h.port, h.wBits, h.memLevel, rfl⟩
    · exact ⟨h.port, hwBits.trans h.wBits, hmemLevel.trans h.memLevel, h.ending⟩

theorem DRun.Calls.params (r : DRun) (level strategy : Nat) :
    r.Calls (r.params level strategy).1 (r.params level strategy).2 := by
  obtain ⟨hwBits, hmemLevel⟩ := r.c.switch_window level strategy
  unfold DRun.params
  split
  · exact (DRun.Compresses.deflate r 1).calls.afterFlush level strategy
  · exact ⟨.refl, hwBits, hmemLevel, trivial⟩

theorem AnyParams.calls {level strategy : Nat} {r r' : DRun} {e : Ending} {h h' : History}
    (hp : AnyParams level strategy r r' e h h') : r.Calls r' e := by
  unfold AnyParams at hp
  split at hp
  · obtain ⟨r1, e1, hcall, heq⟩ := hp
    obtain ⟨rfl, rfl⟩ := Prod.mk.inj heq
    exact hcall.compresses.calls.afterFlush level strategy
  · obtain ⟨heq, -⟩ := hp
    obtain ⟨rfl, rfl⟩ := Prod.mk.inj heq
    exact .params r level strategy

/-! ## Commands -/

/-- What DEFLATE and DPARAMS may leave, under either profile: they are turned away, or they call. -/
inductive CompressResult (s : State) (i : Instr) : State → Prop where
  | misuse : CompressResult s i s.misuse
  | call {c : Compressor} {r : DRun} {e : Ending} (hc : s.engine = .deflate c) (hs : s.streamRangesOk = true)
    (hcall : DRun.Calls ⟨s.port, c⟩ r e) (hdeflate : (∃ flush, i = .deflate flush) → r.c.parameters = c.parameters) :
    CompressResult s i ((s.withDRun r).finish e)

/-- A stream command of the open compressor, from what its call does. -/
theorem State.streamCall_result {s t : State} {i : Instr} {h h' : History} {fields : Bool}
    {call : DRun → DRun → Ending → Prop} (hcall : ∀ {r r' e}, call r r' e → r.Calls r' e)
    (hdeflate : (∃ flush, i = .deflate flush) → ∀ {r r' e}, call r r' e → r'.c.parameters = r.c.parameters)
    (ht : s.streamCall t h h' fields call) : CompressResult s i t := by
  unfold State.streamCall at ht
  split at ht
  · next c hc =>
    split at ht
    · next hok =>
      obtain ⟨-, hranges⟩ := Bool.and_eq_true_iff.mp hok
      obtain ⟨r', e, hr, rfl⟩ := ht
      exact .call hc hranges (hcall hr) (fun hi => hdeflate hi hr)
    · obtain ⟨rfl, -⟩ := ht
      exact .misuse
  · obtain ⟨rfl, -⟩ := ht
    exact .misuse
  · obtain ⟨rfl, -⟩ := ht
    exact .misuse

theorem ExecUnder.deflate_result {p : EncoderProfile} {flush : Nat} {s t : State} {h h' : History}
    (hu : ExecUnder p (.deflate flush) s h t h') : CompressResult s (.deflate flush) t := by
  cases p with
  | reference =>
    obtain ⟨hexec, -⟩ := hu
    rcases execDeflate_cases hexec with rfl | ⟨c, hc, -, hranges, -, rfl⟩
    · exact .misuse
    · have hrun := DRun.Compresses.deflate ⟨s.port, c⟩ flush
      exact .call hc hranges hrun.calls (fun _ => hrun.parameters)
  | any =>
    have hany : s.streamCall t h h' (decide (flush ≤ 4)) (fun r r' e => AnyDeflate flush r r' e h h') := hu
    exact State.streamCall_result (fun hr => hr.compresses.calls) (fun _ _ _ _ hr => hr.compresses.parameters) hany

theorem ExecUnder.dparams_result {p : EncoderProfile} {level strategy : Nat} {s t : State} {h h' : History}
    (hu : ExecUnder p (.dparams level strategy) s h t h') : CompressResult s (.dparams level strategy) t := by
  cases p with
  | reference =>
    obtain ⟨hexec, -⟩ := hu
    rcases execDparams_cases hexec with rfl | ⟨c, hc, -, -, hranges, -, rfl⟩
    · exact .misuse
    · exact .call hc hranges (.params ⟨s.port, c⟩ level strategy) (fun hi => nomatch hi)
  | any => exact State.streamCall_result AnyParams.calls (fun hi => nomatch hi) hu

/-- Settles O19: under either profile the command is turned away, or moves the stream port and keeps the parameters
(`CompressResult`). -/
theorem compressFrame : Obligations.CompressFrame := by
  intro p i s t h h' hi hu
  have hresult : CompressResult s i t := by
    rcases hi with ⟨flush, rfl⟩ | ⟨level, strategy, rfl⟩
    · exact ExecUnder.deflate_result hu
    · exact ExecUnder.dparams_result hu
  cases hresult with
  | misuse =>
    exact ⟨Port.Moves.input .refl, s.misuse_delivered, (CommandFrame.misuse s).hostSideKept, rfl, s.misuse_errcode_kept,
      fun _ => ⟨rfl, rfl⟩, fun c hc => ⟨c, hc, rfl, rfl, fun _ => ⟨rfl, rfl, rfl⟩⟩⟩
  | @call c r e hc hs hcall hdeflate =>
    have hmoves : s.port.Moves ((s.withDRun r).finish e).port := by
      rw [State.finish_port]
      exact hcall.port
    refine ⟨hmoves.input, hmoves.delivered hs, (CommandFrame.finish ⟨rfl⟩ e).hostSideKept, State.finish_rval _ e,
      hcall.ending.errcode _, fun hne => absurd hc (hne c), fun c' hc' => ?_⟩
    obtain rfl := Engine.deflate.inj (hc.symm.trans hc')
    refine ⟨r.c, State.finish_engine _ e, hcall.wBits, hcall.memLevel, fun hi => ?_⟩
    obtain ⟨hlevel, hstrategy, -, -, hconfig⟩ := Compressor.parameters_inj.mp (hdeflate hi)
    exact ⟨hlevel, hstrategy, hconfig⟩

end Sys2Proof.Machine
end

section
/-!
Command words (30_encoding.md R100 to R107): the fields of a word, the row of the opcode map it belongs to, and the
obligations about decoding and encoding.
-/

namespace Sys2Proof.Machine

open Sys2Proof.Laws

/-! ## The fields of a word (R100) -/

/-- The bits of a value placed in a word. -/
theorem getLsbD_atBit (v place i : Nat) :
    (atBit v place).getLsbD i = (decide (i < 32) && (decide (place ≤ i) && v.testBit (i - place))) := by
  simp only [atBit, Word.ofNat, BitVec.getLsbD_ofNat, Nat.testBit_shiftLeft]

/-- A field holds the value placed at its bit. -/
@[simp] theorem extractLsb'_atBit_same (v : Nat) {lsb len : Nat} (h : lsb + len ≤ 32) :
    (atBit v lsb).extractLsb' lsb len = BitVec.ofNat len v := by
  refine BitVec.eq_of_getLsbD_eq fun i hi => ?_
  have hword : lsb + i < 32 := by omega
  simp only [BitVec.getLsbD_extractLsb', getLsbD_atBit, BitVec.getLsbD_ofNat, hword, decide_true, Bool.true_and,
    Nat.le_add_right, Nat.add_sub_cancel_left]

/-- A field below a placed value reads none of it. -/
@[simp] theorem extractLsb'_atBit_below (v : Nat) {place lsb len : Nat} (h : lsb + len ≤ place) :
    (atBit v place).extractLsb' lsb len = 0#len := by
  refine BitVec.eq_of_getLsbD_eq fun i hi => ?_
  have hplace : ¬ place ≤ lsb + i := by omega
  simp [getLsbD_atBit, hplace]

/-- A field above the bits of a placed value reads none of it. -/
@[simp] theorem extractLsb'_atBit_above {v place lsb len : Nat} (hv : v < 2 ^ (lsb - place)) (h : place ≤ lsb) :
    (atBit v place).extractLsb' lsb len = 0#len := by
  refine BitVec.eq_of_getLsbD_eq fun i hi => ?_
  have hbit : v.testBit (lsb + i - place) = false :=
    Nat.testBit_lt_two_pow (hv.trans_le (Nat.pow_le_pow_right (by decide) (by omega)))
  simp [getLsbD_atBit, hbit]

/-- A field read and placed again is what its mask keeps of the word. -/
theorem atBit_extractLsb' (w : Word) (lsb len : Nat) :
    atBit (w.extractLsb' lsb len).toNat lsb = w &&& atBit (2 ^ len - 1) lsb := by
  refine BitVec.eq_of_getLsbD_eq fun i hi => ?_
  by_cases hl : lsb ≤ i
  · simp only [getLsbD_atBit, BitVec.testBit_toNat, BitVec.getLsbD_extractLsb', BitVec.getLsbD_and,
      Nat.testBit_two_pow_sub_one, hi, hl, Nat.add_sub_cancel' hl, decide_true, Bool.true_and, Bool.and_comm]
  · simp [getLsbD_atBit, hl]

@[simp] theorem atBit_fieldFlush (w : Word) : atBit (fieldFlush w) 8 = w &&& 0x00000700#32 := atBit_extractLsb' w 8 3

@[simp] theorem atBit_fieldLevel (w : Word) : atBit (fieldLevel w) 12 = w &&& 0x0000F000#32 := atBit_extractLsb' w 12 4

@[simp] theorem atBit_fieldWbits (w : Word) : atBit (fieldWbits w) 16 = w &&& 0x000F0000#32 := atBit_extractLsb' w 16 4

@[simp] theorem atBit_fieldMemLevel (w : Word) : atBit (fieldMemLevel w) 20 = w &&& 0x00F00000#32 :=
  atBit_extractLsb' w 20 4

@[simp] theorem atBit_fieldStrategy (w : Word) : atBit (fieldStrategy w) 24 = w &&& 0x03000000#32 :=
  atBit_extractLsb' w 24 2

@[simp] theorem fieldFlush_lt (w : Word) : fieldFlush w < 8 := (w.extractLsb' 8 3).isLt

@[simp] theorem fieldLevel_lt (w : Word) : fieldLevel w < 16 := (w.extractLsb' 12 4).isLt

@[simp] theorem fieldWbits_lt (w : Word) : fieldWbits w < 16 := (w.extractLsb' 16 4).isLt

@[simp] theorem fieldMemLevel_lt (w : Word) : fieldMemLevel w < 16 := (w.extractLsb' 20 4).isLt

@[simp] theorem fieldStrategy_lt (w : Word) : fieldStrategy w < 4 := (w.extractLsb' 24 2).isLt

/-! ## Rows of the opcode map (R102) -/

/-- The opcode map has at most one row for an OPC. -/
theorem opcodeRow?_eq_some_iff {opc : Nat} {row : OpcodeRow} :
    opcodeRow? opc = some row ↔ row ∈ opcodeMap ∧ row.opc = opc := by
  have hfound : ∀ row ∈ opcodeMap, opcodeRow? row.opc = some row := by decide
  constructor
  · intro h
    exact ⟨List.mem_of_find?_eq_some h, by simpa using List.find?_some h⟩
  · rintro ⟨hmem, rfl⟩
    exact hfound row hmem

/-- The gaps of the opcode map (R107). -/
theorem opcodeRow?_eq_none {opc : Nat}
    (h : opc = 0 ∨ (0x07 ≤ opc ∧ opc ≤ 0x10) ∨ (0x17 ≤ opc ∧ opc ≤ 0x20) ∨ 0x24 ≤ opc) : opcodeRow? opc = none := by
  have hlegal : ∀ row ∈ opcodeMap,
      (0 < row.opc ∧ row.opc < 0x07) ∨ (0x10 < row.opc ∧ row.opc < 0x17) ∨ (0x20 < row.opc ∧ row.opc < 0x24) := by
    decide
  rw [Option.eq_none_iff_forall_ne_some]
  intro row hrow
  obtain ⟨hmem, rfl⟩ := opcodeRow?_eq_some_iff.mp hrow
  have := hlegal row hmem
  omega

/-- Every mask of R102 keeps the whole OPC, so a word that a row accepts carries the row's OPC. -/
theorem fieldOpc_of_masked {row : OpcodeRow} (hmem : row ∈ opcodeMap) {w : Word} (hm : w &&& row.mask = row.pattern) :
    fieldOpc w = row.opc := by
  have hrows : ∀ row ∈ opcodeMap,
      row.opc < 256 ∧ row.mask &&& 0xFF#32 = 0xFF#32 ∧ row.pattern &&& 0xFF#32 = BitVec.ofNat 32 row.opc := by decide
  obtain ⟨hlt, hmask, hpattern⟩ := hrows row hmem
  refine Row.fieldOpc_eq hlt ?_
  calc w &&& 0xFF#32 = (w &&& row.mask) &&& 0xFF#32 := by rw [BitVec.and_assoc, hmask]
    _ = BitVec.ofNat 32 row.opc := by rw [hm, hpattern]

/-- Every row of the opcode map has a command. -/
theorem commandOf_of_mem {row : OpcodeRow} (hmem : row ∈ opcodeMap) (w : Word) : ∃ i, commandOf row.opc w = some i := by
  have hall : ∀ row ∈ opcodeMap, (commandOf row.opc w).isSome := by simp [opcodeMap, commandOf]
  exact Option.isSome_iff_exists.mp (hall row hmem)

/-! ## Commands and their words (R102, R104) -/

theorem commandOf_opc {opc : Nat} {w : Word} {i : Instr} (h : commandOf opc w = some i) : opc = Row.opc i := by
  unfold commandOf at h
  split at h <;> cases h <;> rfl

/-- Operands read from a word fit their fields (R100). -/
theorem wellFormed_of_commandOf {w : Word} {i : Instr} (h : commandOf (Row.opc i) w = some i) : i.wellFormed = true := by
  cases i with
  | dinit | deflate | dparams | iinit | inflate => cases h; simp [Instr.wellFormed]
  | _ => rfl

/-- The word of a command read from a word `w` is the row's pattern and, of `w`, the bits that the row's mask leaves to
the operands. -/
theorem encode_of_commandOf {w : Word} {i : Instr} (h : commandOf (Row.opc i) w = some i) :
    ∃ row, opcodeRow? (Row.opc i) = some row ∧ encode i = row.pattern ||| (w &&& ~~~row.mask) := by
  cases i with
  | dinit | dparams => cases h; exact ⟨_, rfl, by simp [encode, BitVec.or_assoc, ← BitVec.and_or_distrib_left]⟩
  | deflate | iinit | inflate => cases h; exact ⟨_, rfl, by simp [encode]⟩
  | _ => exact ⟨_, rfl, by simp [encode]⟩

/-- Each operand of a well-formed command reads back from its field of the command's word. -/
theorem commandOf_encode {i : Instr} (h : i.wellFormed = true) : commandOf (Row.opc i) (encode i) = some i := by
  cases i with
  | dinit | deflate | dparams | iinit | inflate =>
    simp only [Instr.wellFormed, Bool.and_eq_true, decide_eq_true_eq] at h
    simp (disch := omega) [commandOf, Row.opc, encode, fieldFlush, fieldLevel, fieldWbits, fieldMemLevel, fieldStrategy,
      BitVec.extractLsb'_or, Nat.mod_eq_of_lt, -BitVec.extractLsb'_toNat]
  | _ => rfl

/-- The word of a well-formed command carries its OPC and is one that the row of this OPC accepts. -/
theorem encode_legal (i : Instr) : Row.Statement i := by
  cases i with
  | dinit level wbits memLevel strategy => exact Row.dinit level wbits memLevel strategy
  | deflate flush => exact Row.deflate flush
  | dparams level strategy => exact Row.dparams level strategy
  | iinit wbits => exact Row.iinit wbits
  | inflate flush => exact Row.inflate flush
  | _ => exact Row.fixed rfl rfl rfl

/-! ## Decoding (R101) -/

/-- An OPC outside the opcode map (R107). -/
theorem decode_of_no_row {w : Word} (h : opcodeRow? (fieldOpc w) = none) : decode w = .rejected .illegalOpc := by
  simp only [decode, h]

/-- An OPC of the opcode map: the row's mask decides. -/
theorem decode_of_row {w : Word} {row : OpcodeRow} {i : Instr} (hrow : opcodeRow? (fieldOpc w) = some row)
    (hi : commandOf (fieldOpc w) w = some i) :
    decode w = if w &&& row.mask = row.pattern then .command i else .rejected .reservedBits := by
  simp only [decode, hrow, hi]

/-- What a word that decodes to a command is. -/
theorem command_of_decode {w : Word} {i : Instr} (h : decode w = .command i) :
    ∃ row, opcodeRow? (fieldOpc w) = some row ∧ commandOf (fieldOpc w) w = some i ∧ w &&& row.mask = row.pattern := by
  unfold decode at h
  split at h
  · rename_i row j hrow hj
    split at h
    · rename_i hm
      cases h
      exact ⟨row, hrow, hj, hm⟩
    · cases h
  · cases h

/-- Settles O1: the row of the command's OPC accepts its word (`encode_legal`), and the fields give the operands back
(`commandOf_encode`). -/
theorem decodeOfEncode : Obligations.DecodeOfEncode := by
  intro i h
  obtain ⟨hopc, row, hrow, hm⟩ := encode_legal i h
  have hi := commandOf_encode h
  rw [← hopc] at hrow hi
  rw [decode_of_row hrow hi, if_pos hm]

/-- Settles O2: the row's mask fixes the bits of its pattern, and the others are the operands'
(`encode_of_commandOf`). -/
theorem encodeOfDecode : Obligations.EncodeOfDecode := by
  intro w i h
  obtain ⟨row, hrow, hi, hm⟩ := command_of_decode h
  rw [commandOf_opc hi] at hrow hi
  refine ⟨?_, wellFormed_of_commandOf hi⟩
  obtain ⟨row', hrow', henc⟩ := encode_of_commandOf hi
  obtain rfl : row = row' := Option.some.inj (hrow.symm.trans hrow')
  calc encode i = (w &&& row.mask) ||| (w &&& ~~~row.mask) := by rw [henc, hm]
    _ = w := by rw [← BitVec.and_or_distrib_left, BitVec.or_not_self, BitVec.and_allOnes]

/-! ## The write to CMD (R34) -/

/-- A write to CMD while the core is idle runs its word. -/
theorem hostWriteReg_cmd {s : State} (hb : s.busy = false) (w : Word) : hostWriteReg 0 4 w s = runCommand w s := by
  simp [hostWriteReg, hb]

/-- Settles O3: the three clauses are the three answers of `decode`. -/
theorem commandWordChecking : Obligations.CommandWordChecking := by
  intro s w hb
  rw [hostWriteReg_cmd hb]
  have known {row : OpcodeRow} (hmem : row ∈ opcodeMap) (hopc : fieldOpc w = row.opc) :
      ∃ i, commandOf row.opc w = some i
        ∧ decode w = if w &&& row.mask = row.pattern then .command i else .rejected .reservedBits := by
    obtain ⟨i, hi⟩ := commandOf_of_mem hmem w
    exact ⟨i, hi, decode_of_row (opcodeRow?_eq_some_iff.mpr ⟨hmem, hopc.symm⟩) (hopc ▸ hi)⟩
  refine ⟨fun hgap => ?_, fun row hmem hopc hm => ?_, fun row hmem hm => ?_⟩
  · simp only [runCommand, decode_of_no_row (opcodeRow?_eq_none hgap)]
    rfl
  · obtain ⟨i, -, hd⟩ := known hmem hopc
    rw [if_neg hm] at hd
    simp only [runCommand, hd]
    rfl
  · obtain ⟨i, hi, hd⟩ := known hmem (fieldOpc_of_masked hmem hm)
    rw [if_pos hm] at hd
    exact ⟨i, hi, by simp only [runCommand, hd]⟩

/-- Settles O4: the words are literals. -/
theorem specWordsDecode : Obligations.SpecWordsDecode := by
  unfold Obligations.SpecWordsDecode
  decide

end Sys2Proof.Machine
end

section
/-!
The code tables of the wire format (30_encoding.md R117, R119): a code's base and its extra bits reach every value
between it and the next code (42_lz77.md R380).
-/

namespace Sys2Proof.Machine

/-! ## The rank in an increasing table -/

theorem rank_le_length (t : List Nat) (v : Nat) : rank t v ≤ t.length := by
  induction t with
  | nil => exact le_rfl
  | cons b bs ih =>
    simp only [rank, List.length_cons]
    split <;> omega

/-- The entry before the rank is at most the value. -/
theorem tableAt_rank_le {t : List Nat} {v k : Nat} (h : rank t v = k + 1) : tableAt t k ≤ v := by
  induction t generalizing k with
  | nil => cases h
  | cons b bs ih =>
    unfold rank at h
    split at h
    · rename_i hb
      cases k with
      | zero => exact hb
      | succ k => exact ih (Nat.succ.inj h)
    · cases h

/-- The entry at the rank is above the value. -/
theorem lt_tableAt_rank {t : List Nat} {v : Nat} (h : rank t v < t.length) : v < tableAt t (rank t v) := by
  induction t with
  | nil => cases h
  | cons b bs ih =>
    unfold rank at h ⊢
    split
    · rename_i hb
      rw [if_pos hb] at h
      exact ih (Nat.lt_of_succ_lt_succ h)
    · rename_i hb
      exact Nat.lt_of_not_le hb

/-! ## Codes -/

/-- The values of a code table: those of each code begin at its base, and its extra bits reach up to the next code's, those
of the last code up to `last`. -/
structure Contiguous (base extra : List Nat) (last : Nat) : Prop where
  step : ∀ k < base.length - 1, tableAt base (k + 1) ≤ tableAt base k + 2 ^ tableAt extra k
  stop : last < tableAt base (base.length - 1) + 2 ^ tableAt extra (base.length - 1)

/-- In a contiguous table the code below a value's rank gives the value back. -/
theorem Contiguous.covers {b : Nat} {bs extra : List Nat} {last v : Nat} (h : Contiguous (b :: bs) extra last)
    (hb : b ≤ v) (hv : v ≤ last) :
    rank (b :: bs) v - 1 ≤ bs.length ∧ tableAt (b :: bs) (rank (b :: bs) v - 1) ≤ v
      ∧ v - tableAt (b :: bs) (rank (b :: bs) v - 1) < 2 ^ tableAt extra (rank (b :: bs) v - 1) := by
  have hlen := rank_le_length (b :: bs) v
  obtain ⟨k, hk⟩ : ∃ k, rank (b :: bs) v = k + 1 := ⟨rank bs v, if_pos hb⟩
  have hle := tableAt_rank_le hk
  have hlt : v < tableAt (b :: bs) k + 2 ^ tableAt extra k := by
    rcases Nat.lt_or_ge (k + 1) (b :: bs).length with hin | hend
    · have hnext := lt_tableAt_rank (hk ▸ hin)
      rw [hk] at hnext
      exact hnext.trans_le (h.step k (by omega))
    · obtain rfl : k = (b :: bs).length - 1 := by omega
      exact hv.trans_lt h.stop
  rw [hk] at hlen ⊢
  exact ⟨Nat.le_of_succ_le_succ hlen, hle, Nat.sub_lt_left_of_lt_add hle hlt⟩

theorem length_contiguous : Contiguous lenBase lenExtra 258 := ⟨by decide, by decide⟩

theorem dist_contiguous : Contiguous distBase distExtra 32768 := ⟨by decide, by decide⟩

/-- Settles O47: both tables are contiguous, up to length 258 and distance 32768. -/
theorem codeTablesCover : Obligations.CodeTablesCover := by
  refine ⟨fun lc hlc => ?_, fun dist hlo hhi => ?_⟩
  · exact length_contiguous.covers (v := lc + 3) (by omega) (by omega)
  · have hdist := dist_contiguous.covers hlo hhi
    unfold distCode
    rw [Nat.sub_add_cancel hlo]
    exact hdist

end Sys2Proof.Machine
end

section
/-!
The Adler-32 checksum (40_checksum.md R300, R301) and the command ADLER (R305).
-/

namespace Sys2Proof.Machine

open Sys2Proof.Claims

/-! ## The sums (R300) -/

theorem adlerSums_append (a b : Nat) (xs ys : List Byte) :
    adlerSums a b (xs ++ ys) = adlerSums (adlerSums a b xs).1 (adlerSums a b xs).2 ys := by
  induction xs generalizing a b with
  | nil => rfl
  | cons x xs ih => exact ih _ _

/-- Reduced sums stay reduced. -/
theorem adlerSums_lt {a b : Nat} (ha : a < 65521) (hb : b < 65521) (xs : List Byte) :
    (adlerSums a b xs).1 < 65521 ∧ (adlerSums a b xs).2 < 65521 := by
  induction xs generalizing a b with
  | nil => exact ⟨ha, hb⟩
  | cons x xs ih => exact ih (Nat.mod_lt _ (by decide)) (Nat.mod_lt _ (by decide))

/-- One byte reduces both sums, whatever they were. -/
theorem adlerSums_cons_lt (a b : Nat) (x : Byte) (xs : List Byte) :
    (adlerSums a b (x :: xs)).1 < 65521 ∧ (adlerSums a b (x :: xs)).2 < 65521 :=
  adlerSums_lt (Nat.mod_lt _ (by decide)) (Nat.mod_lt _ (by decide)) xs

/-! ## The accumulator -/

@[simp] theorem adlerUpdate_nil (acc : Word) : adlerUpdate acc [] = acc := rfl

theorem adlerUpdate_cons (acc : Word) (x : Byte) (xs : List Byte) :
    adlerUpdate acc (x :: xs)
      = Word.ofNat ((adlerSums (acc.toNat % 65536) (acc.toNat / 65536) (x :: xs)).2 * 65536
          + (adlerSums (acc.toNat % 65536) (acc.toNat / 65536) (x :: xs)).1) := rfl

/-- The halves of an updated accumulator are the two sums: they are reduced, so neither overflows its half. -/
theorem adlerUpdate_cons_halves (acc : Word) (x : Byte) (xs : List Byte) :
    (adlerUpdate acc (x :: xs)).toNat % 65536 = (adlerSums (acc.toNat % 65536) (acc.toNat / 65536) (x :: xs)).1
      ∧ (adlerUpdate acc (x :: xs)).toNat / 65536
        = (adlerSums (acc.toNat % 65536) (acc.toNat / 65536) (x :: xs)).2 := by
  obtain ⟨hlow, hhigh⟩ := adlerSums_cons_lt (acc.toNat % 65536) (acc.toNat / 65536) x xs
  rw [adlerUpdate_cons, BitVec.toNat_ofNat]
  omega

/-- Settles O42: an empty sequence changes nothing, and after a byte the halves carry the sums over (`adlerSums_append`). -/
theorem adlerSplits : Obligations.AdlerSplits := by
  intro acc x y
  cases x with
  | nil => rfl
  | cons x xs =>
    cases y with
    | nil => rw [adlerUpdate_nil, List.append_nil]
    | cons y ys =>
      obtain ⟨hlow, hhigh⟩ := adlerUpdate_cons_halves acc x xs
      rw [adlerUpdate_cons _ y, hlow, hhigh, ← adlerSums_append, List.cons_append, ← adlerUpdate_cons]

/-! ## The command (R305) -/

theorem execAdler_of_goodRange {s : State} (h : s.adlerRangeOk = true) :
    execAdler s
      = .next { s.ret .ok with rval := adlerUpdate s.arg0 (s.port.mem.readRun s.arg1.toNat s.arg2.toNat) } := by
  simp only [execAdler, h, if_true]

/-- Settles O41: the two answers of the range check; the worked values are literals. -/
theorem adlerCommand : Obligations.AdlerCommand := by
  refine ⟨fun s => ⟨fun hin => ?_, fun hout => ?_⟩, adlerUpdate_nil, by decide, by decide⟩
  · have hok : s.adlerRangeOk = true := by rwa [outside_iff, Bool.not_eq_false] at hin
    exact execAdler_of_goodRange hok
  · exact execAdler_of_badRange ((outside_iff s _ _).mp hout)

end Sys2Proof.Machine
end

section
/-!
The sliding window of the compressor (41_window.md R321–R324): what `slide` does to the window and its positions, and why
one round of `fill_window` is always enough.
-/

namespace Sys2Proof.Machine

namespace Compressor

/-! ## The slide (R323) -/

/-- The upper half moves down, and its own bytes stay. The bound is that of `Ram.get_setRun`. -/
theorem slide_win_get {c : Compressor} (hw : c.wBits ≤ 15) (k : Nat) :
    c.slide.win.get k = if k < c.wSize then c.win.get (c.wSize + k) else c.win.get k := by
  have hsize : c.wSize ≤ 2 ^ 15 := Nat.pow_le_pow_right (by decide) hw
  unfold slide
  rw [Ram.get_setRun _ _ _ _ (by rw [Ram.getRun_length]; omega), Ram.getRun_length]
  by_cases hk : k < c.wSize
  · rw [if_pos (by omega), if_pos hk, List.getD_eq_getElem?_getD, Nat.sub_zero, Ram.getRun_get _ _ _ _ hk,
      Option.getD_some]
  · simp [hk]

/-- NIL stays NIL, so a table of positions is renumbered entry by entry. -/
theorem get_map_slidePos (w : Nat) (t : Ram Nat) (k : Nat) :
    (t.map (slidePos w)).get k = if w ≤ t.get k then t.get k - w else 0 := by
  have hnil : slidePos w default = default := by
    unfold slidePos
    split
    · exact Nat.zero_sub w
    · rfl
  exact Ram.get_map (slidePos w) hnil t k

/-! ## The room in the window (R322) -/

theorem slideIfHigh_of_high {c : Compressor} (h : c.wSize + c.maxDist ≤ c.strstart) : c.slideIfHigh = c.slide := if_pos h

theorem slideIfHigh_of_low {c : Compressor} (h : ¬ c.wSize + c.maxDist ≤ c.strstart) : c.slideIfHigh = c := if_neg h

/-- The first slide keeps the lookahead and the window's size. -/
theorem slideIfHigh_kept (c : Compressor) :
    c.slideIfHigh.lookahead = c.lookahead ∧ c.slideIfHigh.windowSize = c.windowSize := by
  by_cases hhigh : c.wSize + c.maxDist ≤ c.strstart
  · rw [slideIfHigh_of_high hhigh]
    exact ⟨rfl, rfl⟩
  · rw [slideIfHigh_of_low hhigh]
    exact ⟨rfl, rfl⟩

/-- The first slide leaves strstart low: at most `window_size - 263` (R321 (d)), the data still inside the window. -/
theorem slideIfHigh_room {c : Compressor} (hw : 9 ≤ c.wBits) (hfit : c.strstart + c.lookahead ≤ c.windowSize) :
    c.slideIfHigh.strstart + 263 ≤ c.windowSize
      ∧ c.slideIfHigh.strstart + c.lookahead + c.moreAfterSlide = c.windowSize := by
  have hsize : 2 ^ 9 ≤ c.wSize := Nat.pow_le_pow_right (by decide) hw
  by_cases hhigh : c.wSize + c.maxDist ≤ c.strstart
  · have hmore : c.moreAfterSlide = c.more + c.wSize := if_pos hhigh
    have hstart : c.slideIfHigh.strstart = c.strstart - c.wSize := by rw [slideIfHigh_of_high hhigh]; rfl
    rw [hmore, hstart]
    unfold more maxDist windowSize at *
    omega
  · have hmore : c.moreAfterSlide = c.more := if_neg hhigh
    rw [hmore, slideIfHigh_of_low hhigh]
    unfold more maxDist windowSize at *
    omega

/-- A read changes the lookahead and the hash, nothing else (R322). -/
theorem afterRead_eq (c : Compressor) (n : Nat) :
    c.afterRead n = { c with lookahead := c.lookahead + n, insH := (c.afterRead n).insH } := by
  unfold afterRead
  simp only []
  split <;> rfl

end Compressor

/-! ## The round (R322) -/

namespace DRun

theorem fillOnce_sizes (r : DRun) (more : Nat) :
    (r.fillOnce more).c.windowSize = r.c.windowSize ∧ (r.fillOnce more).c.strstart = r.c.strstart
      ∧ (r.fillOnce more).c.lookahead = r.c.lookahead + min r.port.availIn.toNat more
      ∧ (r.fillOnce more).port.availIn.toNat = r.port.availIn.toNat - min r.port.availIn.toNat more := by
  unfold fillOnce
  simp only []
  rw [Compressor.afterRead_eq, r.readBuf_eq]
  exact ⟨rfl, rfl, rfl, r.port.consume_availIn_toNat _ (r.readCount_le more).1⟩

/-- A state of `fill_window` with nothing more to do: enough lookahead or no input left, inside the window, strstart low,
and `total` bytes in the lookahead and on offer together. -/
structure Filled (r : DRun) (total : Nat) : Prop where
  enough : 262 ≤ r.c.lookahead ∨ r.port.availIn = 0#32
  inside : r.c.strstart + r.c.lookahead ≤ r.c.windowSize
  low : r.c.strstart + 263 ≤ r.c.windowSize
  kept : r.c.lookahead + r.port.availIn.toNat = total

/-- With input left, the round that reads into all of the free room is done: it exhausts the input, or fills the window,
and above a low strstart a full window holds 263 bytes. -/
theorem fillOnce_filled {r : DRun} {more : Nat} (hlow : r.c.strstart + 263 ≤ r.c.windowSize)
    (hmore : r.c.strstart + r.c.lookahead + more = r.c.windowSize) :
    (r.fillOnce more).Filled (r.c.lookahead + r.port.availIn.toNat) := by
  obtain ⟨hsize, hstart, hahead, havail⟩ := r.fillOnce_sizes more
  refine ⟨?_, ?_, by omega, by omega⟩
  · rcases Nat.le_total r.port.availIn.toNat more with hall | hfull
    · exact .inr (BitVec.eq_of_toNat_eq (by rw [havail, Nat.min_eq_left hall, Nat.sub_self]; rfl))
    · left
      omega
  · omega

/-- A loop that has fuel is done after its first round. -/
theorem fillLoop_filled {r : DRun} (fuel : Nat) (hw : 9 ≤ r.c.wBits)
    (hfit : r.c.strstart + r.c.lookahead ≤ r.c.windowSize) :
    (fillLoop (fuel + 1) r).Filled (r.c.lookahead + r.port.availIn.toNat) := by
  obtain ⟨hlow, hmore⟩ := Compressor.slideIfHigh_room hw hfit
  obtain ⟨hahead, hsize⟩ := r.c.slideIfHigh_kept
  simp only [fillLoop]
  generalize r.c.slideIfHigh = c at *
  rw [← hahead, ← hsize] at hmore
  rw [← hsize] at hlow
  rw [← hahead]
  have hinside : c.strstart + c.lookahead ≤ c.windowSize := by omega
  have hround := fillOnce_filled (r := ⟨r.port, c⟩) hlow hmore
  split
  · next hempty => exact ⟨.inr hempty, hinside, hlow, rfl⟩
  · split
    · next hagain =>
      obtain ⟨hshort, hleft⟩ := hagain
      rcases hround.enough with hmany | hnone
      · omega
      · exact absurd hnone hleft
    · exact hround

end DRun

/-! ## The statements -/

/-- Settles O52: the window by `slide_win_get`, the tables by `get_map_slidePos`, the other fields by definition. -/
theorem slideRenumbers : Obligations.SlideRenumbers := by
  intro c hw
  have htable := Compressor.get_map_slidePos c.wSize
  exact ⟨Compressor.slide_win_get hw, rfl, rfl, rfl, htable c.head, htable c.prev, rfl⟩

/-- Settles O51: `fill_window` starts its loop with fuel, and its first round is enough. -/
theorem fillWindow : Obligations.FillWindow := by
  intro r hw _ hfit
  obtain ⟨henough, hinside, hlow, hkept⟩ := DRun.fillLoop_filled r.port.availIn.toNat hw hfit
  exact ⟨henough, hinside, hlow, hkept⟩

end Sys2Proof.Machine
end

section
/-!
The delivery of the decompressor's window bytes (41_window.md R341).
-/

namespace Sys2Proof.Machine

open Sys2Proof.Claims

/-- The bytes of a run of the window, one by one. -/
theorem Decompressor.windowRun_eq_map (d : Decompressor) (pos n : Nat) :
    d.windowRun (pos % d.windowLen) n = (List.range n).map (fun j => d.iwin.get ((pos + j) % d.windowLen)) := by
  induction n generalizing pos with
  | zero => rfl
  | succ n ih =>
    rw [List.range_succ_eq_map, List.map_cons, List.map_map, Decompressor.windowRun, Nat.mod_add_mod, ih (pos + 1)]
    simp [Function.comp_def, Nat.add_right_comm, Nat.add_assoc]

/-- `drain` in one equation, the case of no byte included (R341). -/
theorem IRun.drain_eq (r : IRun) {n : Nat} {out : List Byte} (hn : n = min r.d.pend r.port.availOut.toNat)
    (hout : out = nextOutput r.d n) :
    r.drain
      = ⟨{ r.port.deliver out with adler := if n = 0 then r.port.adler else adlerUpdate r.d.check out },
          { r.d with pend := r.d.pend - n, check := adlerUpdate r.d.check out }⟩ := by
  have hrun : r.d.windowRun (r.d.behind r.d.pend) n = out := by
    rw [hout]
    exact r.d.windowRun_eq_map _ n
  subst hn
  unfold IRun.drain
  by_cases hzero : min r.d.pend r.port.availOut.toNat = 0
  · obtain rfl : out = [] := by rw [hout, hzero]; rfl
    simp [hzero]
  · simp only [hrun, hzero, if_false]

/-- Settles O38: `drain` delivers `nextOutput` (`IRun.drain_eq`), and a delivery is one run of writes at NEXT_OUT. -/
theorem drainDelivers : Obligations.DrainDelivers := by
  intro r n out hwf _ _ hn hout
  have hlen : out.length = n := by simp [hout, nextOutput]
  rw [r.drain_eq hn hout]
  subst hlen
  exact ⟨rfl, Memory.readRun_writeRun _ _ out hwf, fun a ha => r.port.deliver_read_outside out ha⟩

end Sys2Proof.Machine
end

section
/-!
The longest match of the LZ77 matcher (42_lz77.md R360): what one candidate, and then the chain walk, can report.
-/

namespace Sys2Proof.Machine

open Sys2Proof.Claims

/-- The compare loop ends at most `fuel` offsets after the one it begins at. -/
theorem compareLen_le (win : Ram Byte) (scan cand fuel i : Nat) : compareLen win scan cand fuel i ≤ i + fuel := by
  induction fuel generalizing i with
  | zero => simp [compareLen]
  | succ fuel ih =>
    unfold compareLen
    split
    · have := ih (i + 1)
      omega
    · omega

/-- The compare loop passes over equal bytes only. -/
theorem get_eq_of_lt_compareLen {win : Ram Byte} {scan cand fuel i j : Nat} (hi : i < j)
    (hj : j < compareLen win scan cand fuel i) : win.get (scan + j) = win.get (cand + j) := by
  induction fuel generalizing i with
  | zero =>
    have : j < i := hj
    omega
  | succ fuel ih =>
    unfold compareLen at hj
    split at hj
    case isTrue heq =>
      obtain rfl | hlater := Nat.eq_or_lt_of_le hi
      · exact heq
      · exact ih hlater hj
    case isFalse => omega

/-- What R360's pre-check has compared at the first two offsets, which the compare loop leaves out. -/
theorem get_eq_of_quickMatch {win : Ram Byte} {scan cand best : Nat} (h : quickMatch win scan cand best = true) :
    win.get scan = win.get cand ∧ win.get (scan + 1) = win.get (cand + 1) := by
  simp only [quickMatch, Bool.and_eq_true, decide_eq_true_eq] at h
  obtain ⟨⟨-, hfirst⟩, hsecond⟩ := h
  exact ⟨hfirst.symm, hsecond.symm⟩

/-- `b` is a match of the string at `scan` with the one at `start` (R360, R362): at most 258 bytes, equal but for offset 2,
which is not compared. -/
structure Best.MatchAt (b : Best) (win : Ram Byte) (scan start : Nat) : Prop where
  start_eq : b.start = (start : Int)
  len_le : b.len ≤ 258
  agrees : ∀ j, j < b.len → j ≠ 2 → win.get (scan + j) = win.get (start + j)

/-- A candidate that passes the pre-check is a match for its raw length. -/
theorem Best.matchAt_of_quickMatch {win : Ram Byte} {scan cand best : Nat} (h : quickMatch win scan cand best = true) :
    Best.MatchAt { len := rawMatchLen win scan cand, start := cand } win scan cand where
  start_eq := rfl
  len_le := compareLen_le win scan cand 256 2
  agrees j hj hskip := by
    obtain ⟨hfirst, hsecond⟩ := get_eq_of_quickMatch h
    match j with
    | 0 => exact hfirst
    | 1 => exact hsecond
    | 2 => exact absurd rfl hskip
    | j + 3 => exact get_eq_of_lt_compareLen (by omega) hj

/-- What looking at one candidate can do: nothing, or report a match at it. -/
theorem Best.consider_eq_or_matchAt (b : Best) (win : Ram Byte) (scan cand : Nat) :
    b.consider win scan cand = b ∨ (b.consider win scan cand).MatchAt win scan cand := by
  unfold Best.consider
  split
  case isTrue hquick =>
    split
    · exact .inr (Best.matchAt_of_quickMatch hquick)
    · exact .inl rfl
  case isFalse => exact .inl rfl

/-- What the chain walk can do: leave the best match as it is, or report a match at the first candidate or at a later one,
which is above the limit (R361). -/
theorem chainWalk_eq_or_matchAt (c : Compressor) (nice limit chain cand : Nat) (b : Best) :
    chainWalk c nice limit chain cand b = b
      ∨ ∃ start, (chainWalk c nice limit chain cand b).MatchAt c.win c.strstart start ∧ (start = cand ∨ limit < start) := by
  induction chain generalizing cand b with
  | zero => exact .inl rfl
  | succ chain ih =>
    have hhere : b.consider c.win c.strstart cand = b
        ∨ ∃ start, (b.consider c.win c.strstart cand).MatchAt c.win c.strstart start ∧ (start = cand ∨ limit < start) :=
      (b.consider_eq_or_matchAt c.win c.strstart cand).imp_right fun hmatch => ⟨cand, hmatch, .inl rfl⟩
    simp only [chainWalk]
    split
    · exact hhere
    · split
      case isTrue hlimit =>
        obtain hkept | ⟨start, hmatch, hstart⟩ :=
          ih (c.prev.get (cand &&& c.wMask)) (b.consider c.win c.strstart cand)
        · rw [hkept]
          exact hhere
        · exact .inr ⟨start, hmatch, .inr (hstart.elim (fun heq => heq ▸ hlimit) id)⟩
      case isFalse => exact hhere

/-- Settles O53: a longer length than the previous one is that of a match the chain walk reported, cut to the lookahead. -/
theorem longestMatchAgrees : Obligations.LongestMatchAgrees := by
  intro c cand hlonger
  simp only [Compressor.longestMatch, lt_min_iff] at hlonger ⊢
  obtain hkept | ⟨start, hmatch, hstart⟩ := chainWalk_eq_or_matchAt c (min c.config.niceMatch c.lookahead) c.matchLimit
    c.chainBudget cand { len := c.prevLength, start := c.matchStart }
  · rw [hkept] at hlonger
    exact absurd hlonger.1 (lt_irrefl _)
  · refine ⟨start, hmatch.start_eq, (min_le_left _ _).trans hmatch.len_le, min_le_right _ _,
      fun j hj => hmatch.agrees j hj.1, fun hfirst => ?_⟩
    obtain rfl | habove := hstart
    · exact hfirst
    · unfold Compressor.matchLimit at habove
      omega

end Sys2Proof.Machine
end

section
/-!
The compressor's bit stream (43_bitstream.md R400–R406): the bits of a number, what `send_bits` appends, and what
`flush_pending` delivers.
-/

namespace Sys2Proof.Machine

open Sys2Proof.Claims

/-! ## The bits of numbers and bytes (R110) -/

theorem bitsOf_congr {v w n : Nat} (h : ∀ i, i < n → v.testBit i = w.testBit i) : bitsOf v n = bitsOf w n :=
  List.map_congr_left fun i hi => h i (List.mem_range.mp hi)

/-- The `m` low bits come first, then those above them. -/
theorem bitsOf_add (v m n : Nat) : bitsOf v (m + n) = bitsOf v m ++ bitsOf (v >>> m) n := by
  simp [bitsOf, List.range_add, Function.comp_def, Nat.testBit_shiftRight]

theorem bitsOf_mod_two_pow (v n : Nat) : bitsOf (v % 2 ^ n) n = bitsOf v n :=
  bitsOf_congr fun i hi => by simp [Nat.testBit_mod_two_pow, hi]

/-- A value put above `m` valid bits with zeros above them is appended to these bits. -/
theorem bitsOf_or_shiftLeft {a m : Nat} (ha : a < 2 ^ m) (v n : Nat) :
    bitsOf (a ||| v <<< m) (m + n) = bitsOf a m ++ bitsOf v n := by
  have hlow : bitsOf (a ||| v <<< m) m = bitsOf a m :=
    bitsOf_congr fun i hi => by simp [Nat.testBit_shiftLeft, Nat.not_le.mpr hi]
  have hhigh : (a ||| v <<< m) >>> m = v := by
    rw [Nat.shiftRight_or_distrib, Nat.shiftRight_eq_zero a m ha, Nat.shiftLeft_shiftRight, Nat.zero_or]
  rw [bitsOf_add, hlow, hhigh]

@[simp] theorem byteBits_append (x y : List Byte) : byteBits (x ++ y) = byteBits x ++ byteBits y := List.flatMap_append

/-- A byte of a number is its 8 low bits. -/
theorem byteBits_ofNat (n : Nat) : byteBits [Byte.ofNat n] = bitsOf n 8 := by
  rw [byteBits, List.flatMap_singleton, BitVec.toNat_ofNat]
  exact bitsOf_mod_two_pow n 8

/-- The bytes of a word, least significant byte first, are its 16 low bits. -/
theorem byteBits_u16Bytes (w : Nat) : byteBits (u16Bytes [w]) = bitsOf w 16 := by
  have hlow : byteBits [Byte.ofNat (w % 256)] = bitsOf w 8 := (byteBits_ofNat _).trans (bitsOf_mod_two_pow w 8)
  have hhigh : byteBits [Byte.ofNat (w / 256)] = bitsOf (w >>> 8) 8 := by
    rw [byteBits_ofNat, Nat.shiftRight_eq_div_pow]
  calc byteBits (u16Bytes [w])
    _ = byteBits [Byte.ofNat (w % 256)] ++ byteBits [Byte.ofNat (w / 256)] := byteBits_append [_] [_]
    _ = bitsOf w 8 ++ bitsOf (w >>> 8) 8 := by rw [hlow, hhigh]
    _ = bitsOf w 16 := (bitsOf_add w 8 8).symm

/-! ## The packer with room in `Pending` (R401, R402) -/

namespace Compressor

variable {c : Compressor}

theorem putByte_of_room (h : c.pending.length < c.pendingBufSize) (b : Byte) :
    c.putByte b = { c with pending := c.pending ++ [b] } := if_pos h

theorem putShort_of_room (h : c.pending.length + 2 ≤ c.pendingBufSize) (w : Nat) :
    c.putShort w = { c with pending := c.pending ++ u16Bytes [w] } := by
  rw [putShort, putByte_of_room (c := c) (by omega), putByte_of_room, List.append_assoc]
  · rfl
  · simp only [List.length_append, List.length_singleton]
    exact h

theorem biWith_lt (hc : packerClean c) {v n : Nat} (hv : v < 2 ^ n) : c.biWith v < 2 ^ (c.biValid + n) := by
  obtain ⟨-, hzero⟩ := hc
  refine Nat.or_lt_two_pow (hzero.trans_le (Nat.pow_le_pow_right (by decide) (by omega))) ?_
  rw [Nat.shiftLeft_eq, Nat.add_comm, pow_add]
  exact Nat.mul_lt_mul_of_pos_right hv (Nat.two_pow_pos _)

/-- What is above the first 16 bits of the unbounded accumulator: `send_bits` computes it from the value alone. -/
theorem biWith_shiftRight (h : c.biValid ≤ 16) (v : Nat) : c.biWith v >>> 16 = v >>> (16 - c.biValid) := by
  have hsplit : (v <<< c.biValid) >>> 16 = v >>> (16 - c.biValid) := by
    conv_lhs => rw [← Nat.add_sub_of_le h, Nat.shiftRight_add, Nat.shiftLeft_shiftRight]
  rw [biWith, Nat.shiftRight_or_distrib, Nat.shiftRight_eq_zero _ 16 c.biBuf.isLt, Nat.zero_or, hsplit]

theorem sendBits_of_fits {n : Nat} (h : c.biValid ≤ 16 - n) (v : Nat) :
    c.sendBits v n = { c with biBuf := BitVec.ofNat 16 (c.biWith v), biValid := c.biValid + n } :=
  if_neg (Nat.not_lt.mpr h)

/-- On overflow the 16 low bits of the unbounded accumulator leave it, and those above stay. -/
theorem sendBits_of_overflow {n : Nat} (hvalid : c.biValid ≤ 16) (h : 16 - n < c.biValid)
    (hroom : c.pending.length + 2 ≤ c.pendingBufSize) (v : Nat) :
    c.sendBits v n
      = { c with
          pending := c.pending ++ u16Bytes [c.biWith v % 65536], biBuf := BitVec.ofNat 16 (c.biWith v >>> 16),
          biValid := c.biValid + n - 16 } := by
  rw [sendBits, if_pos h, putShort_of_room hroom, biWith_shiftRight hvalid]

/-- The stream with a value added to the accumulator, not yet cut into words. -/
theorem byteBits_append_biWith (hc : packerClean c) (v n : Nat) :
    byteBits c.pending ++ bitsOf (c.biWith v) (c.biValid + n) = streamBits c ++ bitsOf v n := by
  rw [biWith, bitsOf_or_shiftLeft hc.2, streamBits, List.append_assoc]

/-- A number that fits the valid bits is a clean accumulator, and its bits are the accumulator's part of the stream. -/
theorem accumulator_clean {x n : Nat} (hn : n ≤ 16) (hx : x < 2 ^ n) (p : List Byte) :
    packerClean { c with pending := p, biBuf := BitVec.ofNat 16 x, biValid := n }
      ∧ streamBits { c with pending := p, biBuf := BitVec.ofNat 16 x, biValid := n } = byteBits p ++ bitsOf x n := by
  have hval : (BitVec.ofNat 16 x).toNat = x :=
    Nat.mod_eq_of_lt (hx.trans_le (Nat.pow_le_pow_right (by decide) hn))
  exact ⟨⟨hn, hval.symm ▸ hx⟩, by simp only [streamBits, hval]⟩

end Compressor

/-! ## The statements -/

/-- Settles O48: the unbounded accumulator `biWith` holds the old bits and then the new ones. It is kept whole when it fits,
and cut after its first 16 bits when it does not. -/
theorem sendBitsAppends : Obligations.SendBitsAppends := by
  intro c value length hc hlow hhigh hvalue hroom
  have hvalid : c.biValid ≤ 16 := hc.1
  have hacc : c.biWith value < 2 ^ (c.biValid + length) := Compressor.biWith_lt hc hvalue
  have hstream := Compressor.byteBits_append_biWith hc value length
  rcases Nat.lt_or_ge (16 - length) c.biValid with hover | hfits
  · rw [Compressor.sendBits_of_overflow hvalid hover hroom]
    have htotal : c.biValid + length = 16 + (c.biValid + length - 16) := by omega
    have hrest : c.biWith value >>> 16 < 2 ^ (c.biValid + length - 16) := by
      rw [Nat.shiftRight_eq_div_pow]
      exact Nat.div_lt_of_lt_mul (by rwa [← pow_add, ← htotal])
    obtain ⟨hclean, hbits⟩ := Compressor.accumulator_clean (c := c) (by omega) hrest
      (c.pending ++ u16Bytes [c.biWith value % 65536])
    refine ⟨?_, hclean, fun hfits => absurd hover (Nat.not_lt.mpr hfits), fun _ => ⟨List.length_append, rfl⟩, rfl⟩
    have hword : byteBits (u16Bytes [c.biWith value % 65536]) = bitsOf (c.biWith value) 16 := by
      rw [byteBits_u16Bytes]
      exact bitsOf_mod_two_pow _ 16
    rw [hbits, ← hstream, byteBits_append, hword, List.append_assoc, ← bitsOf_add, ← htotal]
  · rw [Compressor.sendBits_of_fits hfits]
    obtain ⟨hclean, hbits⟩ := Compressor.accumulator_clean (c := c) (by omega) hacc c.pending
    exact ⟨hbits.trans hstream, hclean, fun _ => ⟨rfl, rfl⟩, fun hover => absurd hover (Nat.not_lt.mpr hfits), rfl⟩

/-- Settles O50: a flush is one delivery (`DRun.flushPending_eq`), and a delivery is one run of writes at NEXT_OUT. -/
theorem flushPendingDelivers : Obligations.FlushPendingDelivers := by
  intro r n hwf _ hn
  have hlen : (r.c.pending.take n).length = n := by
    rw [List.length_take, hn]
    omega
  rw [r.flushPending_eq, ← hn]
  refine ⟨?_, ?_, fun a ha => r.port.deliver_read_outside _ (by rwa [hlen])⟩
  · rw [Port.deliver, hlen]
  · have hread := Memory.readRun_writeRun _ r.port.nextOut.toNat (r.c.pending.take n) hwf
    rwa [hlen] at hread

end Sys2Proof.Machine
end

section
/-!
The compressor's commands without an open compressor (60_exceptions.md R604), and those that open, restart and close it:
DINIT, DRESET and DEND (44_deflate.md R440, R441, R458, R459).
-/

namespace Sys2Proof.Machine

open Sys2Proof.Claims

/-- The commands of an open compressor are turned away without one (R604). -/
theorem exec_of_no_compressor {i : Instr} {s : State} (hi : needsCompressor i = true)
    (hs : ∀ c, s.engine ≠ .deflate c) : exec i s = .next (refusedBy20 s) := by
  have hengine : s.engine = .none ∨ ∃ d, s.engine = .inflate d := by
    cases he : s.engine with
    | none => exact .inl rfl
    | deflate c => exact absurd he (hs c)
    | inflate d => exact .inr ⟨d, rfl⟩
  cases i with
  | dsetdict => obtain he | ⟨d, he⟩ := hengine <;> simp only [exec, execDsetdict, he] <;> rfl
  | deflate flush => obtain he | ⟨d, he⟩ := hengine <;> simp only [exec, execDeflate, he] <;> rfl
  | dparams level strategy => obtain he | ⟨d, he⟩ := hengine <;> simp only [exec, execDparams, he] <;> rfl
  | dreset => obtain he | ⟨d, he⟩ := hengine <;> simp only [exec, execDreset, he] <;> rfl
  | dend => obtain he | ⟨d, he⟩ := hengine <;> simp only [exec, execDend, he] <;> rfl
  | _ => nomatch hi

/-! ## The reset state (R441) -/

/-- `init_block` counts the end-of-block symbol once, and nothing else (R444). -/
theorem Compressor.initBlock_lfreq_get (c : Compressor) (k : Nat) :
    c.initBlock.lfreq.get k = if k = 256 then 1 else 0 := by
  simp only [Compressor.initBlock, Ram.get_set _ 256 _ _ (by decide), Ram.get_nil, Nat.default_eq_zero]

/-- `deflate_reset()` leaves every field of R441 at its reset value, from every compressor. -/
theorem Compressor.deflateReset_fresh (c : Compressor) : freshCompressor c.deflateReset := by
  have hlfreq : ∀ k, c.deflateReset.lfreq.get k = if k = 256 then 1 else 0 := c.initBlock_lfreq_get
  have hdfreq : ∀ k, c.deflateReset.dfreq.get k = 0 := Ram.get_nil
  have hhead : ∀ k, c.deflateReset.head.get k = 0 := Ram.get_nil
  exact ⟨rfl, rfl, rfl, rfl, rfl, hlfreq, hdfreq, rfl, rfl, hhead, rfl, rfl, rfl, rfl, rfl, rfl, rfl, rfl, rfl, rfl, rfl⟩

/-! ## DINIT (R440) -/

theorem dinitFieldsOk_iff (level wbits memLevel strategy : Nat) :
    dinitFieldsOk level wbits memLevel strategy = true
      ↔ level ≤ 9 ∧ 9 ≤ wbits ∧ wbits ≤ 15 ∧ 1 ≤ memLevel ∧ memLevel ≤ 9 ∧ strategy ≤ 2 := by
  simp only [dinitFieldsOk, Bool.and_eq_true, decide_eq_true_eq, and_assoc]

/-- DINIT without an open engine and with fields in range opens a compressor. -/
theorem execDinit_of_ok {level wbits memLevel strategy : Nat} {s : State} (he : s.engine = .none)
    (hok : dinitFieldsOk level wbits memLevel strategy = true) :
    execDinit level wbits memLevel strategy s
      = .next (restarted s (.deflate (Compressor.opened level wbits memLevel strategy))) := by
  simp only [execDinit, he, Engine.isOpen, hok, Bool.false_eq_true, Bool.not_true, if_false, if_neg (execDinit_fits hok)]
  rfl

/-- DINIT with an open engine, or with a field out of range, is turned away. -/
theorem execDinit_of_bad {level wbits memLevel strategy : Nat} {s : State}
    (h : s.engine ≠ .none ∨ dinitFieldsOk level wbits memLevel strategy = false) :
    execDinit level wbits memLevel strategy s = .next (refusedBy20 s) := by
  cases hopen : s.engine.isOpen with
  | true =>
    simp only [execDinit, hopen, if_true]
    rfl
  | false =>
    have hbad := h.resolve_left (not_not_intro (Engine.eq_none_of_closed hopen))
    simp only [execDinit, hopen, hbad, Bool.false_eq_true, Bool.not_false, if_false, if_true]
    rfl

/-- Settles O24: an opened compressor is a reset one (`Compressor.deflateReset_fresh`), and CFG and ESTATE are views of
it. -/
theorem dinitOpensCompressor : Obligations.DinitOpensCompressor := by
  intro level wbits memLevel strategy s
  refine ⟨fun he hl hw9 hw15 hm1 hm9 hst => ?_, fun hbad => execDinit_of_bad (hbad.imp_right fun hfield => ?_)⟩
  · have hok := (dinitFieldsOk_iff level wbits memLevel strategy).mpr ⟨hl, hw9, hw15, hm1, hm9, hst⟩
    have hcfg := Engine.cfgWord_eq (.deflate (Compressor.opened level wbits memLevel strategy))
    exact ⟨Compressor.opened level wbits memLevel strategy, execDinit_of_ok he hok, Compressor.deflateReset_fresh _, rfl,
      rfl, rfl, rfl, Ram.get_nil, Ram.get_nil, hcfg, rfl⟩
  · rw [← Bool.not_eq_true, dinitFieldsOk_iff]
    omega

/-! ## DRESET and DEND (R458, R459) -/

/-- Settles O25: DRESET is `deflate_reset()` of the open compressor. -/
theorem dresetRestartsCompressor : Obligations.DresetRestartsCompressor := by
  refine fun s => ⟨fun c he => ?_, exec_of_no_compressor rfl⟩
  refine ⟨c.deflateReset, ?_, c.deflateReset_fresh, rfl, rfl, rfl, rfl, rfl, rfl⟩
  simp only [exec, execDreset, he]
  rfl

/-- Settles O26: an open compressor is closed, with an error in BUSY only. -/
theorem dendClosesCompressor : Obligations.DendClosesCompressor := by
  refine fun s => ⟨fun c he hidle => ?_, fun c he hbusy => ?_, exec_of_no_compressor rfl⟩
  · simp only [exec, execDend, he, if_neg hidle]
  · simp only [exec, execDend, he, if_pos hbusy]
    rfl

end Sys2Proof.Machine
end

section
/-!
DSETDICT (44_deflate.md R452): the rolling hash of 42_lz77.md R350 and the insertions of R351 that fill the hash table.
-/

namespace Sys2Proof.Machine

open Sys2Proof.Claims

/-! ## Shifts under a mask -/

/-- Masking before a shift to the left is masking after it. -/
theorem shiftLeft_and_mask_xor_and_mask (x y k n : Nat) :
    ((x &&& (2 ^ n - 1)) <<< k ^^^ y) &&& (2 ^ n - 1) = (x <<< k ^^^ y) &&& (2 ^ n - 1) := by
  refine Nat.eq_of_testBit_eq fun i => ?_
  by_cases hi : i < n
  · have hik : i - k < n := by omega
    simp [hi, hik]
  · simp [hi]

/-- What is shifted past the mask does not count. -/
theorem shiftLeft_xor_and_mask_of_le {k n : Nat} (h : n ≤ k) (x y : Nat) :
    (x <<< k ^^^ y) &&& (2 ^ n - 1) = y &&& (2 ^ n - 1) := by
  refine Nat.eq_of_testBit_eq fun i => ?_
  by_cases hi : i < n
  · have hik : ¬ k ≤ i := by omega
    simp [hi, hik]
  · simp [hi]

/-! ## The rolling hash (R350) -/

namespace Compressor

variable {c : Compressor} {p : Nat}

/-- The next byte makes `ins_h` the hash of the three bytes at `p`, so that `insert_string(p)` uses their bucket. -/
def HashedTo (c : Compressor) (p : Nat) : Prop := (c.updateHash (c.win.get (p + 2))).insH = hash3 c p

/-- Three updates shift a byte out of the hash (R350). -/
theorem hashBits_le_hashShift (c : Compressor) : c.hashBits ≤ 3 * c.hashShift := by
  unfold hashShift
  omega

theorem hash3_lt (hm : c.memLevel ≤ 9) (p : Nat) : hash3 c p < 2 ^ 16 := by
  have hbits : c.hashBits ≤ 16 := by
    unfold hashBits
    omega
  exact (Nat.and_lt_two_pow _ (Nat.sub_lt (Nat.two_pow_pos _) Nat.one_pos)).trans_le
    (Nat.pow_le_pow_right (by decide) hbits)

theorem hashedTo_seedHash (c : Compressor) (p : Nat) : HashedTo { c with insH := c.seedHash p } p := by
  show (c.seedHash p <<< c.hashShift ^^^ (c.win.get (p + 2)).toNat) &&& (2 ^ c.hashBits - 1) = hash3 c p
  rw [seedHash, hashMask, hashSize, shiftLeft_and_mask_xor_and_mask, Nat.shiftLeft_xor_distrib, ← Nat.shiftLeft_add,
    ← Nat.two_mul]
  rfl

/-- `insert_string` rolls the hash on to the next position. -/
theorem HashedTo.insertString (h : c.HashedTo p) : (c.insertString p).HashedTo (p + 1) := by
  show ((c.updateHash (c.win.get (p + 2))).insH <<< c.hashShift ^^^ (c.win.get (p + 1 + 2)).toNat) &&& (2 ^ c.hashBits - 1)
    = hash3 c (p + 1)
  rw [h, hash3, hashMask, hashSize, shiftLeft_and_mask_xor_and_mask, Nat.shiftLeft_xor_distrib,
    Nat.shiftLeft_xor_distrib, ← Nat.shiftLeft_add, ← Nat.shiftLeft_add, Nat.xor_assoc, Nat.xor_assoc,
    shiftLeft_xor_and_mask_of_le (by have := c.hashBits_le_hashShift; omega), ← Nat.two_mul, ← Nat.xor_assoc]
  rfl

/-! ## Insertions (R351) -/

/-- An inserted position heads the chain of its three bytes. -/
theorem HashedTo.insertString_head_get (h : c.HashedTo p) (hm : c.memLevel ≤ 9) :
    (c.insertString p).head.get (hash3 c p) = p := by
  have hlt := hash3_lt hm p
  show (c.head.set (c.updateHash (c.win.get (p + 2))).insH p).get (hash3 c p) = p
  rw [h, Ram.get_set _ _ _ _ (by omega), if_pos rfl]

/-- Insertions write the hash table, the chains and the hash, nothing else. -/
theorem insertRun_eq (c : Compressor) (p n : Nat) :
    c.insertRun p n
      = { c with head := (c.insertRun p n).head, prev := (c.insertRun p n).prev, insH := (c.insertRun p n).insH } := by
  induction n generalizing c p with
  | zero => rfl
  | succ n ih =>
    rw [insertRun, ih]
    rfl

/-- The last position inserted heads the chain of its three bytes. -/
theorem HashedTo.insertRun_head_get (h : c.HashedTo p) (hm : c.memLevel ≤ 9) (n : Nat) :
    (c.insertRun p (n + 1)).head.get (hash3 c (p + n)) = p + n := by
  induction n generalizing c p with
  | zero => exact h.insertString_head_get hm
  | succ n ih =>
    have hlast := ih h.insertString hm
    rwa [Nat.add_right_comm] at hlast

/-! ## The primed window (R452) -/

/-- The kept bytes at the window's start, the position and the block behind them, before the insertions. -/
def placeDict (c : Compressor) (kept : List Byte) : Compressor :=
  { c with win := c.win.setRun 0 kept, strstart := kept.length, blockStart := kept.length }

theorem prime_eq_insertRun (c : Compressor) (kept : List Byte) :
    c.prime kept
      = Compressor.insertRun { c.placeDict kept with insH := (c.placeDict kept).seedHash 0 } 0 (kept.length - 2) := rfl

/-- Besides placing the bytes, priming writes the hash table, the chains and the hash, nothing else. -/
theorem prime_eq (c : Compressor) (kept : List Byte) :
    c.prime kept
      = { c.placeDict kept with
          head := (c.prime kept).head, prev := (c.prime kept).prev, insH := (c.prime kept).insH } := by
  rw [prime_eq_insertRun, insertRun_eq]

@[simp] theorem prime_strstart (c : Compressor) (kept : List Byte) : (c.prime kept).strstart = kept.length := by
  rw [prime_eq]
  rfl

@[simp] theorem prime_blockStart (c : Compressor) (kept : List Byte) : (c.prime kept).blockStart = kept.length := by
  rw [prime_eq]
  rfl

/-- The hash table finds the last position with three kept bytes. -/
theorem prime_head_get (hm : c.memLevel ≤ 9) {kept : List Byte} (h3 : 3 ≤ kept.length) :
    (c.prime kept).head.get (hash3 (c.prime kept) (kept.length - 3)) = kept.length - 3 := by
  obtain ⟨n, hn⟩ := Nat.exists_eq_add_of_le' h3
  have hlast := ((c.placeDict kept).hashedTo_seedHash 0).insertRun_head_get hm n
  rw [Nat.zero_add, show n + 1 = kept.length - 2 by omega, ← prime_eq_insertRun] at hlast
  rwa [hn, Nat.add_sub_cancel, show hash3 (c.prime kept) n = hash3 (c.placeDict kept) n by rw [prime_eq]; rfl]

theorem prime_win_get {kept : List Byte} (hlen : kept.length < 2 ^ 20) (k : Nat) :
    (c.prime kept).win.get k = if k < kept.length then kept.getD k default else c.win.get k := by
  rw [prime_eq]
  show (c.win.setRun 0 kept).get k = _
  rw [Ram.get_setRun _ _ _ _ (by omega)]
  simp

end Compressor

/-! ## The dictionary -/

/-- The tail of a run of buffer memory is a run. -/
theorem Memory.drop_readRun (m : Memory) (a : Nat) {k n : Nat} (h : k ≤ n) :
    (m.readRun a n).drop k = m.readRun (a + k) (n - k) := by
  obtain ⟨j, rfl⟩ := Nat.exists_eq_add_of_le h
  rw [Memory.readRun_add, Nat.add_sub_cancel_left]
  exact List.drop_left' (m.readRun_length a k)

theorem Memory.getD_readRun (m : Memory) (a : Nat) {k n : Nat} (h : k < n) :
    (m.readRun a n).getD k default = m.read (a + k) := by
  rw [List.getD_eq_getElem?_getD, m.readRun_get a n k h, Option.getD_some]

/-- The kept part of a dictionary in buffer memory: its last `MAX_DIST` bytes at most. -/
theorem Compressor.dictTail_readRun (c : Compressor) (m : Memory) (a n : Nat) :
    c.dictTail (m.readRun a n) = m.readRun (a + (n - min n c.maxDist)) (min n c.maxDist) := by
  rw [Compressor.dictTail, Memory.readRun_length, m.drop_readRun a (Nat.sub_le n _),
    show n - (n - c.maxDist) = min n c.maxDist by omega, show n - min n c.maxDist = n - c.maxDist by omega]

/-- DSETDICT on a fresh stream with a valid range (R452). -/
theorem execDsetdict_of_fresh {s : State} {c : Compressor} (he : s.engine = .deflate c) (hinit : c.dstate = .init)
    (hstart : c.strstart = 0) (hadler : s.port.adler = 1#32) (hrange : s.dictRangeOk = true) :
    execDsetdict s
      = .next { s with
          result := .ok,
          engine := .deflate (if s.arg1.toNat < 3 then c else c.prime (c.dictTail s.dictBytes)),
          port := { s.port with adler := adlerUpdate 1#32 s.dictBytes } } := by
  have hlen : s.dictBytes.length = s.arg1.toNat := Memory.readRun_length _ _ _
  have haccept : ¬ (c.dstate ≠ .init ∨ c.strstart ≠ 0 ∨ s.port.adler ≠ 1#32) := by simp [hinit, hstart, hadler]
  have hset : execDsetdict s = .next (s.setDict c) := by
    simp only [execDsetdict, he]
    rw [if_neg haccept, hrange]
    rfl
  rw [hset, State.setDict, hlen, hadler]
  split
  · rw [← he]
    rfl
  · rfl

/-- Settles O30: the kept bytes are a run of buffer memory (`Compressor.dictTail_readRun`), and priming writes them to the
window's start and inserts the positions of three kept bytes. -/
theorem dsetdictPrimesWindow : Obligations.DsetdictPrimesWindow := by
  rintro s c he hinit hstart hadler ⟨-, -, hw9, hw15, -, hm9⟩ hrange
  rw [outside_iff, Bool.not_eq_false] at hrange
  refine ⟨_, execDsetdict_of_fresh he hinit hstart hadler hrange, fun hshort => if_pos hshort, fun h3 => ?_⟩
  rw [if_neg (Nat.not_lt.mpr h3), show c.dictTail s.dictBytes = _ from c.dictTail_readRun _ _ _]
  have hsize : 2 ^ 9 ≤ c.wSize := Nat.pow_le_pow_right (by decide) hw9
  have hsize' : c.wSize ≤ 2 ^ 15 := Nat.pow_le_pow_right (by decide) hw15
  have hdist : c.maxDist = c.wSize - 262 := rfl
  generalize hn : min s.arg1.toNat c.maxDist = n
  generalize hkept : s.port.mem.readRun (s.arg0.toNat + (s.arg1.toNat - n)) n = kept
  obtain rfl : kept.length = n := by rw [← hkept, Memory.readRun_length]
  rw [c.prime_strstart, c.prime_blockStart]
  refine ⟨?_, rfl, rfl, fun k => ?_, Compressor.prime_head_get hm9 (by omega)⟩
  · rw [c.prime_eq]
    rfl
  · rw [Compressor.prime_win_get (by omega)]
    split
    case isTrue hk =>
      conv_lhs => rw [← hkept]
      exact Memory.getD_readRun _ _ hk
    case isFalse => rfl

end Sys2Proof.Machine
end

section
/-!
Rules of the stream port and of `Pending` (10_state.md R38, R40, 43_bitstream.md R401): all the input consumed, all the room
filled, bytes put where there is room for them.
-/

namespace Sys2Proof.Machine

open Sys2Proof.Claims

/-! ## Whole ranges of the stream port (R38, R40) -/

/-- Delivering as many bytes as there is room for fills the output. -/
theorem Port.deliver_full {p : Port} {bytes : List Byte} (h : bytes.length = p.availOut.toNat) :
    p.deliver bytes
      = { p with
          mem := p.mem.writeRun p.nextOut.toNat bytes, nextOut := p.nextOut + p.availOut, availOut := 0#32,
          totalOut := p.totalOut + p.availOut } := by
  simp [Port.deliver, h]

/-- Consuming as many bytes as are on offer empties the input. -/
theorem Port.consume_all (p : Port) :
    p.consume p.availIn.toNat
      = { p with nextIn := p.nextIn + p.availIn, availIn := 0#32, totalIn := p.totalIn + p.availIn } := by
  simp [Port.consume]

/-! ## Bytes put with room in `Pending` (R401, R435) -/

namespace Compressor

theorem putBytes_append (c : Compressor) (x y : List Byte) : c.putBytes (x ++ y) = (c.putBytes x).putBytes y := by
  induction x generalizing c with
  | nil => rfl
  | cons b x ih => exact ih _

theorem putBytes_of_room {c : Compressor} {bytes : List Byte} (h : c.pending.length + bytes.length ≤ c.pendingBufSize) :
    c.putBytes bytes = { c with pending := c.pending ++ bytes } := by
  induction bytes generalizing c with
  | nil => simp [putBytes]
  | cons b bytes ih =>
    rw [List.length_cons] at h
    rw [putBytes, putByte_of_room (by omega), ih]
    · simp
    · show (c.pending ++ [b]).length + bytes.length ≤ c.pendingBufSize
      rw [List.length_append, List.length_singleton]
      omega

theorem putShortMsb_eq_putBytes (c : Compressor) (w : Nat) :
    c.putShortMsb w = c.putBytes [Byte.ofNat (w / 256), Byte.ofNat w] := by
  have hlow : Byte.ofNat (w % 256) = Byte.ofNat w := BitVec.eq_of_toNat_eq (by simp)
  rw [putShortMsb, hlow]
  rfl

/-- A word, most significant byte first, is the trailer's four bytes (R437). -/
theorem putWordMsb_eq_putBytes (c : Compressor) (w : Word) : c.putWordMsb w = c.putBytes (trailerBytes w) := by
  have hfirst : w.toNat / 65536 / 256 = w.toNat / 16777216 := Nat.div_div_eq_div_mul _ _ _
  have hthird : Byte.ofNat (w.toNat % 65536 / 256) = Byte.ofNat (w.toNat / 256) :=
    BitVec.eq_of_toNat_eq (by simp only [BitVec.toNat_ofNat]; omega)
  have hlast : Byte.ofNat (w.toNat % 65536) = Byte.ofNat w.toNat :=
    BitVec.eq_of_toNat_eq (by simp only [BitVec.toNat_ofNat]; omega)
  rw [putWordMsb, putShortMsb_eq_putBytes, putShortMsb_eq_putBytes, hfirst, hthird, hlast, ← putBytes_append,
    List.cons_append, List.cons_append, List.nil_append, trailerBytes]

/-- `Pending` holds 256 bytes at least, whatever memLevel is (R52). -/
theorem pendingBufSize_ge (c : Compressor) : 256 ≤ c.pendingBufSize := by
  have : 2 ^ 6 ≤ c.litBufsize := Nat.pow_le_pow_right (by decide) (Nat.le_add_left 6 c.memLevel)
  unfold pendingBufSize
  omega

/-- A short run of bytes fits an empty `Pending`. -/
theorem putBytes_of_empty {c : Compressor} {bytes : List Byte} (hpending : c.pending = []) (hlen : bytes.length ≤ 256) :
    c.putBytes bytes = { c with pending := bytes } := by
  have hsize := c.pendingBufSize_ge
  rw [putBytes_of_room (by rw [hpending, List.length_nil]; omega), hpending, List.nil_append]

end Compressor

end Sys2Proof.Machine
end

section
/-!
DEFLATE and DPARAMS (44_deflate.md R430, R435, R437, R457) on the paths that emit no block: the header, the input that only
accumulates, the trailer, the switch of parameters.
-/

namespace Sys2Proof.Machine

open Sys2Proof.Claims

/-! ## The commands (R430, R457) -/

/-- DEFLATE with its checks passed is its run, unless the guard fired. -/
theorem exec_deflate_of_run {flush : Nat} {s : State} {c : Compressor} {r : DRun} {e : Ending}
    (he : s.engine = .deflate c) (hflush : flush ≤ 4) (hs : ¬ badStream s)
    (hrun : DRun.deflate ⟨s.port, c⟩ flush = (r, e)) (hguard : r.c.overflowed = false) :
    exec (.deflate flush) s = .next ((s.withDRun r).finish e) := by
  rw [badStream_iff, Bool.not_eq_false] at hs
  simp only [exec, execDeflate, he, if_neg (Nat.not_lt.mpr hflush), hs, Bool.not_true, Bool.false_eq_true, if_false, hrun,
    hguard]

/-- DPARAMS with its checks passed is its run, unless the guard fired. -/
theorem exec_dparams_of_run {level strategy : Nat} {s : State} {c : Compressor} {r : DRun} {e : Ending}
    (he : s.engine = .deflate c) (hlevel : level ≤ 9) (hstrategy : strategy ≤ 2) (hs : ¬ badStream s)
    (hrun : DRun.params ⟨s.port, c⟩ level strategy = (r, e)) (hguard : r.c.overflowed = false) :
    exec (.dparams level strategy) s = .next ((s.withDRun r).finish e) := by
  rw [badStream_iff, Bool.not_eq_false] at hs
  have hfields : ¬ (9 < level ∨ 2 < strategy) := by omega
  simp only [exec, execDparams, he, if_neg hfields, hs, Bool.not_true, Bool.false_eq_true, if_false, hrun, hguard]

theorem exec_deflate_of_badFlush {flush : Nat} {s : State} {c : Compressor} (he : s.engine = .deflate c)
    (hflush : 4 < flush) : exec (.deflate flush) s = .next (refusedBy20 s) := by
  simp only [exec, execDeflate, he, if_pos hflush]
  rfl

theorem exec_dparams_of_badFields {level strategy : Nat} {s : State} {c : Compressor} (he : s.engine = .deflate c)
    (hfields : 9 < level ∨ 2 < strategy) : exec (.dparams level strategy) s = .next (refusedBy20 s) := by
  simp only [exec, execDparams, he, if_pos hfields]
  rfl

/-- A run that did nothing leaves the state as it was. -/
theorem State.withDRun_self {s : State} {c : Compressor} (he : s.engine = .deflate c) : s.withDRun ⟨s.port, c⟩ = s := by
  rw [State.withDRun, ← he]

namespace DRun

variable {r : DRun} {flush : Nat}

/-- In FINISH and DONE only Finish without input is accepted (R431). -/
theorem deflate_of_finishing (hfin : r.c.finishing = true) (h : flush ≠ 4 ∨ r.port.availIn ≠ 0#32) :
    r.deflate flush = (r, .raise .streamError 20#8) := if_pos ⟨hfin, h⟩

/-- The run with this command's FLUSH in last_flush (R430). -/
def noteFlush (r : DRun) (flush : Nat) : DRun := { r with c := { r.c with lastFlush := flush } }

/-- Past the checks of FINISH, DONE and the output room. -/
theorem deflate_of_accepted (hfin : ¬ (r.c.finishing ∧ (flush ≠ 4 ∨ r.port.availIn ≠ 0#32)))
    (hroom : r.port.availOut ≠ 0#32) :
    r.deflate flush = (r.noteFlush flush).start.proceed flush r.c.lastFlush := by
  rw [deflate, if_neg hfin, if_neg hroom]
  rfl

theorem start_of_not_init (h : r.c.dstate ≠ .init) : r.start = r := if_neg h

/-- Once nothing is pending, new input or Finish is worked on. -/
theorem proceed_of_delivered {oldFlush : Int} (hpending : r.c.pending = [])
    (hnew : r.port.availIn ≠ 0#32 ∨ flush = 4) : r.proceed flush oldFlush = r.work flush := by
  have hprogress : ¬ (r.port.availIn = 0#32 ∧ (flush : Int) ≤ oldFlush ∧ flush ≠ 4) := by
    rintro ⟨hempty, -, hflush⟩
    exact hnew.elim (absurd hempty) hflush
  rw [proceed, if_neg (not_not_intro hpending), if_neg hprogress]

/-- When pending bytes fill the output, the command ends there (R430, R433). -/
theorem proceed_of_full {oldFlush : Int} (hpending : r.c.pending ≠ [])
    (hfull : r.port.availOut.toNat ≤ r.c.pending.length) :
    r.proceed flush oldFlush
      = (⟨{ r.port with
              mem := r.port.mem.writeRun r.port.nextOut.toNat (r.c.pending.take r.port.availOut.toNat),
              nextOut := r.port.nextOut + r.port.availOut, availOut := 0#32,
              totalOut := r.port.totalOut + r.port.availOut },
            { r.c with pending := r.c.pending.drop r.port.availOut.toNat, lastFlush := -1 }⟩,
          .ret .ok) := by
  rw [proceed, if_pos hpending, r.flushPending_eq, Nat.min_eq_right hfull,
    Port.deliver_full (List.length_take_of_le hfull)]
  rfl

/-! ## The header (R435) -/

/-- The model's header value is that of R435's pseudocode, for the parameters of R52. -/
theorem header_eq_headerValue :
    ∀ wBits ≤ 15, 9 ≤ wBits → ∀ level ≤ 9, ∀ dict, header wBits level dict = headerValue wBits level dict := by
  decide

/-- `emit_header()` puts the bytes of R435. -/
theorem emitHeader_eq (hc : legalParameters r.c) :
    r.emitHeader = ⟨{ r.port with adler := 1#32 }, r.c.putBytes (headerBytes r.c r.port.adler)⟩ := by
  obtain ⟨hlevel, -, hw9, hw15, -, -⟩ := hc
  rw [emitHeader, headerBytes, Compressor.putBytes_append, header_eq_headerValue _ hw15 hw9 _ hlevel,
    ← Compressor.putShortMsb_eq_putBytes]
  by_cases hdict : r.c.strstart = 0
  · simp [hdict, Compressor.putBytes]
  · simp only [hdict, ne_eq, not_false_eq_true, if_true, Compressor.putWordMsb_eq_putBytes, trailerBytes]

theorem headerBytes_length_le (c : Compressor) (dictId : Word) : (headerBytes c dictId).length ≤ 6 := by
  unfold headerBytes
  split <;> simp

theorem headerBytes_ne_nil (c : Compressor) (dictId : Word) : headerBytes c dictId ≠ [] := by simp [headerBytes]

/-- The first DEFLATE puts the header before anything else. -/
theorem start_of_init (hinit : r.c.dstate = .init) (hpending : r.c.pending = []) (hc : legalParameters r.c) :
    r.start
      = ⟨{ r.port with adler := 1#32 },
          { r.c with dstate := .busy, pending := headerBytes r.c r.port.adler }⟩ := by
  have hlen := headerBytes_length_le r.c r.port.adler
  rw [start, if_pos hinit, emitHeader_eq hc, Compressor.putBytes_of_empty hpending (by omega)]

/-! ## Input that only accumulates (R322, R324) -/

/-- All the input read into the window, behind the lookahead (R324). -/
def takeInput (r : DRun) : DRun where
  port := { r.port.consume r.port.availIn.toNat with
    adler := adlerUpdate r.port.adler (r.port.peek r.port.availIn.toNat) }
  c := Compressor.afterRead
    { r.c with win := r.c.win.setRun (r.c.strstart + r.c.lookahead) (r.port.peek r.port.availIn.toNat) }
    r.port.availIn.toNat

theorem fillOnce_of_fits {more : Nat} (hfits : r.port.availIn.toNat ≤ more) : r.fillOnce more = r.takeInput := by
  have hcount : r.readCount more = r.port.availIn.toNat := Nat.min_eq_left hfits
  rw [fillOnce, readBuf_eq, hcount]
  rfl

theorem takeInput_port (r : DRun) :
    r.takeInput.port
      = { r.port with
          nextIn := r.port.nextIn + r.port.availIn, availIn := 0#32, totalIn := r.port.totalIn + r.port.availIn,
          adler := adlerUpdate r.port.adler (r.port.peek r.port.availIn.toNat) } := by
  rw [takeInput, Port.consume_all]

/-- Without a slide, and with room for all the input, `fill_window` reads it in one round. -/
theorem fillWindow_of_fits (hlow : r.c.strstart < r.c.wSize + r.c.maxDist) (hsome : r.port.availIn ≠ 0#32)
    (hfits : r.port.availIn.toNat ≤ r.c.more) : r.fillWindow = r.takeInput := by
  have hhigh : ¬ r.c.wSize + r.c.maxDist ≤ r.c.strstart := Nat.not_le.mpr hlow
  have hempty : r.takeInput.port.availIn = 0#32 := by rw [takeInput_port]
  rw [fillWindow, fillLoop]
  simp only [Compressor.slideIfHigh_of_low hhigh, Compressor.moreAfterSlide, if_neg hhigh, if_neg hsome,
    fillOnce_of_fits hfits]
  exact if_neg fun hagain => hagain.2 hempty

/-- Reading the input changes the window, the hash and the lookahead of the engine, nothing else. -/
theorem takeInput_engine (r : DRun) :
    r.takeInput.c
      = { r.c with
          win := r.takeInput.c.win, insH := r.takeInput.c.insH, lookahead := r.c.lookahead + r.port.availIn.toNat } := by
  rw [takeInput, Compressor.afterRead_eq]

/-- The input stands behind the lookahead, and the rest of the window is kept. The bound is that of `Ram.get_setRun`. -/
theorem takeInput_win_get (hbound : r.c.strstart + r.c.lookahead + r.port.availIn.toNat < 2 ^ 20) (k : Nat) :
    r.takeInput.c.win.get k
      = if r.c.strstart + r.c.lookahead ≤ k ∧ k < r.c.strstart + r.c.lookahead + r.port.availIn.toNat
        then r.port.mem.read (r.port.nextIn.toNat + (k - (r.c.strstart + r.c.lookahead))) else r.c.win.get k := by
  have hlen : (r.port.peek r.port.availIn.toNat).length = r.port.availIn.toNat := Memory.readRun_length _ _ _
  rw [takeInput, Compressor.afterRead_eq]
  show (r.c.win.setRun _ _).get k = _
  rw [Ram.get_setRun _ _ _ _ (by rwa [hlen]), hlen]
  by_cases hk : r.c.strstart + r.c.lookahead ≤ k ∧ k < r.c.strstart + r.c.lookahead + r.port.availIn.toNat
  · rw [if_pos hk, if_pos hk]
    exact Memory.getD_readRun _ _ (by omega)
  · rw [if_neg hk, if_neg hk]

/-- With less than 262 bytes of lookahead after the refill, NoFlush leaves the matching functions at once (R366, R367). -/
theorem runFunc_of_short (hfunc : r.c.config.func ≠ .stored) (hshort : r.refill.c.lookahead < 262) :
    r.runFunc 0 = (.needMore, r.refill) := by
  cases hf : r.c.config.func with
  | stored => exact absurd hf hfunc
  | fast =>
    have hturn : fastTurn 0 ⟨r, 0⟩ = .leave .needMore r.refill := if_pos ⟨hshort, rfl⟩
    simp only [runFunc, hf, deflateFast, turnBound, runTurns, hturn]
  | slow =>
    have hturn : slowTurn 0 ⟨r, 0⟩ = .leave .needMore r.refill := if_pos ⟨hshort, rfl⟩
    simp only [runFunc, hf, deflateSlow, turnBound, runTurns, hturn]

/-- NoFlush with output room, where the strategy function leaves at once (R430). -/
theorem work_of_short (hsome : r.port.availIn ≠ 0#32) (hfunc : r.c.config.func ≠ .stored)
    (hshort : r.refill.c.lookahead < 262) (hroom : r.refill.port.availOut ≠ 0#32) :
    r.work 0 = (r.refill, .ret .ok) := by
  have hwork : r.hasWork 0 = true := by simp [hasWork, hsome]
  rw [work, if_pos hwork, runFunc_of_short hfunc hshort]
  exact congrArg (·, Ending.ret .ok) (if_neg hroom)

theorem levelTable_func_ne_stored : ∀ level ≤ 9, level ≠ 0 → (levelTable level).func ≠ .stored := by decide

/-- NoFlush with little input only reads it (R438). -/
theorem deflate_of_little (hbusy : r.c.dstate = .busy) (hpending : r.c.pending = []) (hroom : r.port.availOut ≠ 0#32)
    (hsome : r.port.availIn ≠ 0#32) (hfunc : r.c.config.func ≠ .stored)
    (hshort : r.c.lookahead + r.port.availIn.toNat < 262) (hlow : r.c.strstart < r.c.wSize + r.c.maxDist)
    (hfits : r.port.availIn.toNat ≤ r.c.more) : r.deflate 0 = ((r.noteFlush 0).takeInput, .ret .ok) := by
  have hrefill : (r.noteFlush 0).refill = (r.noteFlush 0).takeInput :=
    (if_pos (show r.c.lookahead < 262 by omega)).trans (fillWindow_of_fits hlow hsome hfits)
  have hread : (r.noteFlush 0).refill.c.lookahead < 262 := by
    rw [hrefill, takeInput_engine]
    exact hshort
  have hwork := work_of_short (r := r.noteFlush 0) hsome hfunc hread (by rw [hrefill]; exact hroom)
  rw [deflate_of_accepted (by simp [Compressor.finishing, hbusy]) hroom,
    start_of_not_init (r := r.noteFlush 0) (by simp [noteFlush, hbusy]),
    proceed_of_delivered (r := r.noteFlush 0) hpending (.inl hsome), hwork, hrefill]

/-! ## The trailer (R437) -/

/-- In FINISH and DONE, with nothing pending and nothing to work on, Finish comes to the trailer (R430). -/
theorem deflate_of_finished (hfin : r.c.dstate = .finish ∨ r.c.dstate = .done) (hpending : r.c.pending = [])
    (hahead : r.c.lookahead = 0) (hempty : r.port.availIn = 0#32) (hroom : r.port.availOut ≠ 0#32) :
    r.deflate 4 = (r.noteFlush 4).trailer 4 := by
  have hinit : r.c.dstate ≠ .init := by rcases hfin with h | h <;> simp [h]
  have hidle : (r.noteFlush 4).hasWork 4 = false := by
    rcases hfin with h | h <;> simp [hasWork, noteFlush, hempty, hahead, h]
  rw [deflate_of_accepted (by simp [hempty]) hroom, start_of_not_init (r := r.noteFlush 4) hinit,
    proceed_of_delivered (r := r.noteFlush 4) hpending (.inr rfl), work, hidle]
  rfl

/-- In DONE the trailer is not written again (R437). -/
theorem trailer_of_done (hdone : r.c.dstate = .done) : r.trailer 4 = (r, .ret .streamEnd) := by
  simp [trailer, hdone]

theorem take_trailerBytes_length (a : Word) {n : Nat} (hn : n ≤ 4) : ((trailerBytes a).take n).length = n :=
  List.length_take_of_le hn

/-- In FINISH the trailer goes to an empty `Pending`, and as much of it as there is room for to the output (R437). -/
theorem trailer_of_finish (hfin : r.c.dstate = .finish) (hpending : r.c.pending = []) {n : Nat}
    (hn : n = min 4 r.port.availOut.toNat) :
    r.trailer 4
      = (⟨{ r.port with
              mem := r.port.mem.writeRun r.port.nextOut.toNat ((trailerBytes r.port.adler).take n),
              nextOut := r.port.nextOut + Word.ofNat n, availOut := r.port.availOut - Word.ofNat n,
              totalOut := r.port.totalOut + Word.ofNat n },
            { r.c with dstate := .done, pending := (trailerBytes r.port.adler).drop n }⟩,
          .ret (if 4 ≤ r.port.availOut.toNat then .streamEnd else .ok)) := by
  have hput : r.c.putWordMsb r.port.adler = { r.c with pending := trailerBytes r.port.adler } := by
    rw [Compressor.putWordMsb_eq_putBytes, Compressor.putBytes_of_empty hpending (by simp [trailerBytes])]
  have hall : (trailerBytes r.port.adler).drop n = [] ↔ 4 ≤ r.port.availOut.toNat := by
    rw [List.drop_eq_nil_iff, trailerBytes]
    simp only [List.length_cons, List.length_nil]
    omega
  have hflush : flushPending { r with c := { r.c with pending := trailerBytes r.port.adler } }
      = ⟨r.port.deliver ((trailerBytes r.port.adler).take n),
          { r.c with pending := (trailerBytes r.port.adler).drop n }⟩ := by
    rw [flushPending_eq, hn]
    rfl
  have hdone : r.c.dstate ≠ .done := by simp [hfin]
  simp only [trailer, hput, hflush, hall, if_neg hdone, Port.deliver, take_trailerBytes_length _ (hn ▸ Nat.min_le_left 4 _)]
  rfl

/-! ## The switch of parameters (R457) -/

/-- Without a change of strategy function, or before any input, DPARAMS needs no internal flush. -/
theorem params_of_no_flush {level strategy : Nat}
    (h : (levelTable r.c.level).func = (levelTable level).func ∨ r.port.totalIn = 0#32) :
    r.params level strategy = ({ r with c := r.c.switch level strategy }, .ret .ok) := by
  have hflush : r.needsFlush level = false := by rcases h with h | h <;> simp [needsFlush, h]
  rw [params, hflush]
  rfl

end DRun

theorem Compressor.switch_eq (c : Compressor) (level strategy : Nat) :
    c.switch level strategy
      = { c with
          level := level, strategy := strategy,
          config := if level = c.level then c.config else levelTable level } := by
  unfold Compressor.switch
  by_cases hlevel : level = c.level
  · simp [hlevel]
  · simp [hlevel, Compressor.setConfig]

/-! ## The statements -/

/-- Settles O32: the header goes to an empty `Pending`, and the hand-over of it fills the output. -/
theorem deflateWritesHeader : Obligations.DeflateWritesHeader := by
  intro flush s c he hflush hs hinit hpending hguard hc hroom hfull
  have hsome : s.port.availOut ≠ 0#32 := fun h => by simp [h] at hroom
  have hrun := DRun.deflate_of_accepted (r := ⟨s.port, c⟩) (flush := flush) (by simp [Compressor.finishing, hinit]) hsome
  rw [DRun.start_of_init hinit hpending hc, DRun.proceed_of_full (DRun.headerBytes_ne_nil _ _) hfull] at hrun
  refine ⟨_, exec_deflate_of_run he hflush hs hrun hguard, fun hwf => ?_⟩
  have hread := Memory.readRun_writeRun _ s.port.nextOut.toNat ((headerBytes c s.port.adler).take s.port.availOut.toNat) hwf
  rwa [List.length_take_of_le hfull] at hread

/-- Settles O33: the refill takes the whole input (`DRun.fillWindow_of_fits`), and the strategy function leaves at once. -/
theorem deflateAccumulates : Obligations.DeflateAccumulates := by
  intro s c he hs hbusy hpending hguard hc hconfig hlevel hroom hsome hshort hlow
  obtain ⟨hlevel9, -, hw9, hw15, -, -⟩ := hc
  have hsize : 2 ^ 9 ≤ c.wSize := Nat.pow_le_pow_right (by decide) hw9
  have hsize' : c.wSize ≤ 2 ^ 15 := Nat.pow_le_pow_right (by decide) hw15
  have hdist : c.maxDist = c.wSize - 262 := rfl
  have hmore : c.more = 2 * c.wSize - c.lookahead - c.strstart := rfl
  have hrun := DRun.deflate_of_little (r := ⟨s.port, c⟩) hbusy hpending hroom hsome
    (hconfig ▸ DRun.levelTable_func_ne_stored _ hlevel9 hlevel) hshort hlow
    (show s.port.availIn.toNat ≤ c.more by omega)
  have hengine := (DRun.noteFlush ⟨s.port, c⟩ 0).takeInput_engine
  refine ⟨(DRun.noteFlush ⟨s.port, c⟩ 0).takeInput.c, ?_, hengine, DRun.takeInput_win_get ?_⟩
  · rw [exec_deflate_of_run he (by decide) hs hrun (by rw [hengine]; exact hguard), State.withDRun, DRun.takeInput_port]
    rfl
  · show c.strstart + c.lookahead + s.port.availIn.toNat < 2 ^ 20
    omega

/-- Settles O34: FINISH and DONE turn away what R431 does not accept, and otherwise come to the trailer. -/
theorem finishedStream : Obligations.FinishedStream := by
  refine fun flush s c he hguard => ⟨fun hfin hbad => ?_, fun n hn hfin hflush hs hc hpending hahead hempty hroom => ?_,
    fun hdone hflush hs hpending hahead hempty hroom => ?_⟩
  · have hfinishing : c.finishing = true := by rcases hfin with h | h <;> simp [Compressor.finishing, h]
    by_cases hs : badStream s
    · exact badRangesHaveNoEffect (.deflate flush) s hs
    · rcases Nat.lt_or_ge 4 flush with hflush | hflush
      · exact exec_deflate_of_badFlush he hflush
      · rw [exec_deflate_of_run he hflush hs (DRun.deflate_of_finishing hfinishing hbad) hguard, State.withDRun_self he]
        rfl
  · subst hflush
    have hrun := (DRun.deflate_of_finished (r := ⟨s.port, c⟩) (.inl hfin) hpending hahead hempty hroom).trans
      (DRun.trailer_of_finish hfin hpending hn)
    refine ⟨_, exec_deflate_of_run he le_rfl hs hrun hguard, fun hwf => ?_⟩
    have hread := Memory.readRun_writeRun _ s.port.nextOut.toNat ((trailerBytes s.port.adler).take n) hwf
    rwa [DRun.take_trailerBytes_length _ (hn ▸ Nat.min_le_left 4 _)] at hread
  · subst hflush
    have hrun := (DRun.deflate_of_finished (r := ⟨s.port, c⟩) (.inr hdone) hpending hahead hempty hroom).trans
      (DRun.trailer_of_done hdone)
    exact exec_deflate_of_run he le_rfl hs hrun hguard

/-- Settles O35: without the internal flush DPARAMS only switches. -/
theorem dparamsSwitchesAtOnce : Obligations.DparamsSwitchesAtOnce := by
  refine fun level strategy s c he hguard => ⟨fun hlevel hstrategy hs hflush => ?_, exec_dparams_of_badFields he⟩
  have hrun := DRun.params_of_no_flush (r := ⟨s.port, c⟩) (strategy := strategy) hflush
  rw [Compressor.switch_eq] at hrun
  exact exec_dparams_of_run he hlevel hstrategy hs hrun hguard

end Sys2Proof.Machine
end

section
/-!
The stored block (44_deflate.md R453): the padding of 43_bitstream.md R405, and the layout of the block in the bit stream.
-/

namespace Sys2Proof.Machine

open Sys2Proof.Claims

/-! ## Bits above a number -/

/-- Above its own bits a number has zeros. -/
theorem bitsOf_eq_append_zeros {v m n : Nat} (hv : v < 2 ^ m) (h : m ≤ n) :
    bitsOf v n = bitsOf v m ++ List.replicate (n - m) false := by
  have hzero (k : Nat) : bitsOf 0 k = List.replicate k false :=
    List.eq_replicate_iff.mpr ⟨by simp [bitsOf], by simp [bitsOf]⟩
  obtain ⟨k, rfl⟩ := Nat.exists_eq_add_of_le h
  rw [bitsOf_add, Nat.shiftRight_eq_zero v m hv, hzero, Nat.add_sub_cancel_left]

/-- The least significant byte of a word, as one byte, is its 8 low bits. -/
theorem byteBits_mod_256 (v : Nat) : byteBits [Byte.ofNat (v % 256)] = bitsOf v 8 :=
  (byteBits_ofNat _).trans (bitsOf_mod_two_pow v 8)

namespace Compressor

variable {c : Compressor}

/-! ## The padding (R405) -/

/-- `bi_windup` empties the accumulator into `Pending`, with 0 bits up to the byte boundary. -/
theorem biWindup_of_room (hc : packerClean c) (hroom : c.pending.length + 2 ≤ c.pendingBufSize) :
    ∃ bytes : List Byte, bytes.length ≤ 2
      ∧ byteBits bytes = bitsOf c.biBuf.toNat c.biValid ++ List.replicate ((8 - c.biValid % 8) % 8) false
      ∧ c.biWindup = { c with pending := c.pending ++ bytes, biBuf := 0#16, biValid := 0 } := by
  obtain ⟨hvalid, hzero⟩ := hc
  rcases Nat.lt_or_ge 8 c.biValid with hword | hshort
  · refine ⟨u16Bytes [c.biBuf.toNat], le_rfl, ?_, ?_⟩
    · rw [byteBits_u16Bytes, bitsOf_eq_append_zeros hzero hvalid, show (8 - c.biValid % 8) % 8 = 16 - c.biValid by omega]
    · rw [biWindup, if_pos hword, putShort_of_room hroom]
  · rcases Nat.eq_zero_or_pos c.biValid with hnone | hsome
    · refine ⟨[], Nat.zero_le 2, by simp [hnone, byteBits, bitsOf], ?_⟩
      simp [biWindup, hnone]
    · refine ⟨[Byte.ofNat (c.biBuf.toNat % 256)], by simp, ?_, ?_⟩
      · rw [byteBits_mod_256, bitsOf_eq_append_zeros hzero hshort, show (8 - c.biValid % 8) % 8 = 8 - c.biValid by omega]
      · rw [biWindup, if_neg (Nat.not_lt.mpr hshort), if_pos hsome, putByte_of_room (by omega)]

/-! ## The block (R453) -/

/-- LEN and its complement, least significant byte first (R453). -/
def storedLengths (n : Nat) : List Byte :=
  [Byte.ofNat n, Byte.ofNat (n / 256), ~~~(Byte.ofNat n), ~~~(Byte.ofNat (n / 256))]

theorem putShort_eq_putBytes (c : Compressor) (w : Nat) : c.putShort w = c.putBytes (u16Bytes [w]) := rfl

/-- The two words `stored_block` puts are LEN and its complement. -/
theorem u16Bytes_lengths {n : Nat} (hn : n ≤ 65535) :
    u16Bytes [n % 65536] ++ u16Bytes [65535 - n % 65536] = storedLengths n := by
  have hmod : n % 65536 = n := Nat.mod_eq_of_lt (by omega)
  have hlow : Byte.ofNat (n % 256) = Byte.ofNat n := BitVec.eq_of_toNat_eq (by simp)
  have hclow : Byte.ofNat ((65535 - n) % 256) = ~~~(Byte.ofNat n) :=
    BitVec.eq_of_toNat_eq (by simp only [BitVec.toNat_not, BitVec.toNat_ofNat]; omega)
  have hchigh : Byte.ofNat ((65535 - n) / 256) = ~~~(Byte.ofNat (n / 256)) :=
    BitVec.eq_of_toNat_eq (by simp only [BitVec.toNat_not, BitVec.toNat_ofNat]; omega)
  simp only [u16Bytes, hmod, hlow, hclow, hchigh, storedLengths, List.cons_append, List.nil_append]

/-- After the padded header bits the block is whole bytes. -/
theorem storedBlock_eq_putBytes (c : Compressor) {buf : List Byte} (hbuf : buf.length ≤ 65535) (eof : Bool) :
    c.storedBlock buf eof = (c.sendBits eof.toNat 3).biWindup.putBytes (storedLengths buf.length ++ buf) := by
  rw [← u16Bytes_lengths hbuf, putBytes_append, putBytes_append]
  rfl

/-- `stored_block` with room in `Pending`: the header bits, padded, then the bytes; the accumulator is empty. -/
theorem storedBlock_of_room (hc : packerClean c) {buf : List Byte} (hbuf : buf.length ≤ 65535)
    (hroom : c.pending.length + buf.length + 8 ≤ c.pendingBufSize) (eof : Bool) :
    ∃ front : List Byte,
      byteBits front
          = streamBits c ++ [eof, false, false] ++ List.replicate ((8 - (c.biValid + 3) % 8) % 8) false
        ∧ (c.storedBlock buf eof).pending = front ++ (storedLengths buf.length ++ buf)
        ∧ (c.storedBlock buf eof).biValid = 0 := by
  have heof : eof.toNat < 2 ^ 3 := eof.toNat_lt.trans (by decide)
  obtain ⟨hstream, hclean, hfits, hover, -⟩ := sendBitsAppends c eof.toNat 3 hc (by decide) (by decide) heof (by omega)
  have hsize := (c.sendBits_repacked eof.toNat 3).pendingBufSize
  rw [storedBlock_eq_putBytes c hbuf]
  generalize c.sendBits eof.toNat 3 = c1 at *
  have hcount : c1.biValid % 8 = (c.biValid + 3) % 8 ∧ c1.pending.length ≤ c.pending.length + 2 := by
    rcases Nat.lt_or_ge 13 c.biValid with h | h
    · have := hover h
      omega
    · obtain ⟨hpending, hvalid⟩ := hfits h
      rw [hpending]
      omega
  obtain ⟨bytes, hlen, hbits, hwindup⟩ := biWindup_of_room hclean (by omega)
  have hput : (c1.pending ++ bytes).length + (storedLengths buf.length ++ buf).length ≤ c1.pendingBufSize := by
    simp only [storedLengths, List.length_append, List.length_cons, List.length_nil]
    omega
  have hheader : bitsOf eof.toNat 3 = [eof, false, false] := by cases eof <;> rfl
  have hblock := putBytes_of_room (c := { c1 with pending := c1.pending ++ bytes, biBuf := 0#16, biValid := 0 }) hput
  rw [hwindup, hblock]
  refine ⟨c1.pending ++ bytes, ?_, rfl, rfl⟩
  rw [← hheader, ← hstream, byteBits_append, hbits, hcount.1, streamBits, List.append_assoc]

end Compressor

/-- Settles O49: the block is whole bytes after its padded header (`Compressor.storedBlock_of_room`), and without bytes of
its own it ends with its lengths. -/
theorem storedBlockLayout : Obligations.StoredBlockLayout := by
  refine ⟨fun c buf eof hc hbuf hroom => ?_, fun c eof hc hroom => ?_⟩
  · obtain ⟨front, hfront, hpending, hvalid⟩ := Compressor.storedBlock_of_room hc hbuf hroom eof
    rw [streamBits, hpending, hvalid, byteBits_append, hfront]
    exact List.append_nil _
  · obtain ⟨front, -, hpending, hvalid⟩ := Compressor.storedBlock_of_room (buf := []) hc (Nat.zero_le _) hroom eof
    exact ⟨⟨front, hpending.symm⟩, hvalid⟩

end Sys2Proof.Machine
end

section
/-!
The decompressor's commands without an open decompressor (60_exceptions.md R604), and those that open, restart and close it:
IINIT, IRESET and IEND (45_inflate.md R510, R511, R562, R563).
-/

namespace Sys2Proof.Machine

open Sys2Proof.Claims

/-- The commands of an open decompressor are turned away without one (R604). -/
theorem exec_of_no_decompressor {i : Instr} {s : State} (hi : needsDecompressor i = true)
    (hs : ∀ d, s.engine ≠ .inflate d) : exec i s = .next (refusedBy20 s) := by
  have hengine : s.engine = .none ∨ ∃ c, s.engine = .deflate c := by
    cases he : s.engine with
    | none => exact .inl rfl
    | deflate c => exact .inr ⟨c, rfl⟩
    | inflate d => exact absurd he (hs d)
  cases i with
  | isetdict => obtain he | ⟨c, he⟩ := hengine <;> simp only [exec, execIsetdict, he] <;> rfl
  | inflate flush => obtain he | ⟨c, he⟩ := hengine <;> simp only [exec, execInflate, he] <;> rfl
  | isync => obtain he | ⟨c, he⟩ := hengine <;> simp only [exec, execIsync, he] <;> rfl
  | ireset => obtain he | ⟨c, he⟩ := hengine <;> simp only [exec, execIreset, he] <;> rfl
  | iend => obtain he | ⟨c, he⟩ := hengine <;> simp only [exec, execIend, he] <;> rfl
  | _ => nomatch hi

/-! ## IINIT (R510) -/

/-- IINIT without an open engine and with windowBits in range opens a decompressor; HW_MAX_WBITS allows every one (R9). -/
theorem execIinit_of_ok {wbits : Nat} {s : State} (he : s.engine = .none) (h8 : 8 ≤ wbits) (h15 : wbits ≤ 15) :
    execIinit wbits s = .next (restarted s (.inflate (Decompressor.opened wbits))) := by
  have hfield : ¬ (wbits < 8 ∨ 15 < wbits) := by omega
  have hfits : ¬ Config.hwMaxWbits < wbits := Nat.not_lt.mpr h15
  simp only [execIinit, he, Engine.isOpen, Bool.false_eq_true, if_false, if_neg hfield, if_neg hfits]
  rfl

/-- IINIT with an open engine, or with windowBits out of range, is turned away. -/
theorem execIinit_of_bad {wbits : Nat} {s : State} (h : s.engine ≠ .none ∨ wbits < 8 ∨ 15 < wbits) :
    execIinit wbits s = .next (refusedBy20 s) := by
  cases hopen : s.engine.isOpen with
  | true =>
    simp only [execIinit, hopen, if_true]
    rfl
  | false =>
    have hbad := h.resolve_left (not_not_intro (Engine.eq_none_of_closed hopen))
    simp only [execIinit, hopen, Bool.false_eq_true, if_false, if_pos hbad]
    rfl

/-- Settles O27: an opened decompressor is a reset one, and CFG and ESTATE are views of it. -/
theorem iinitOpensDecompressor : Obligations.IinitOpensDecompressor := by
  refine fun wbits s => ⟨fun he h8 h15 => ?_, execIinit_of_bad⟩
  have hcfg := Engine.cfgWord_eq (.inflate (Decompressor.opened wbits))
  exact ⟨Decompressor.opened wbits, execIinit_of_ok he h8 h15,
    ⟨rfl, rfl, rfl, rfl, rfl, rfl, rfl, rfl, rfl, rfl, rfl⟩, rfl, Ram.get_nil, hcfg, rfl⟩

/-! ## IRESET and IEND (R562, R563) -/

/-- Settles O28: IRESET is `inflate_reset` of the open decompressor. -/
theorem iresetRestartsDecompressor : Obligations.IresetRestartsDecompressor := by
  refine fun s => ⟨fun d he => ?_, exec_of_no_decompressor rfl⟩
  refine ⟨d.inflateReset, ?_, ⟨rfl, rfl, rfl, rfl, rfl, rfl, rfl, rfl, rfl, rfl, rfl⟩, rfl, rfl⟩
  simp only [exec, execIreset, he]
  rfl

/-- Settles O29: an open decompressor is closed whatever its mode. -/
theorem iendClosesDecompressor : Obligations.IendClosesDecompressor := by
  refine fun s => ⟨fun d he => ?_, exec_of_no_decompressor rfl⟩
  simp only [exec, execIend, he]

end Sys2Proof.Machine
end

section
/-!
A call of INFLATE (45_inflate.md R540) and its paths that end within two steps: the first header byte (R542), DONE, BAD and
the dictionary wait (R538, R520).
-/

namespace Sys2Proof.Machine

open Sys2Proof.Claims

/-- INFLATE with its checks passed is its run. -/
theorem exec_inflate_of_run {flush : Nat} {s : State} {d : Decompressor} {out : IRun × Option Status}
    (he : s.engine = .inflate d) (hflush : flush ≤ 4) (hs : ¬ badStream s) (hrun : IRun.inflate ⟨s.port, d⟩ = out) :
    exec (.inflate flush) s = .next ((s.withIRun out.1).finish (inflateEnding flush s.port out)) := by
  rw [badStream_iff, Bool.not_eq_false] at hs
  simp only [exec, execInflate, he, if_neg (Nat.not_lt.mpr hflush), hs, Bool.not_true, Bool.false_eq_true, if_false, hrun]

/-- A call that moved a cursor and ended with no step's status ends with Ok, but for Finish (R540). -/
theorem inflateEnding_of_moved {start : Port} {r : IRun} (flush : Nat) (h : r.port.availIn ≠ start.availIn) :
    inflateEnding flush start (r, none) = if flush = 4 then .raise .bufError 21#8 else .ret .ok := by
  simp only [inflateEnding, if_pos (Or.inl h : _ ∨ r.port.availOut ≠ start.availOut)]

namespace IRun

variable {r r1 : IRun} {st : Status}

/-! ## The loop -/

/-- Nothing is left that `drain` could deliver (R341). -/
def Drained (r : IRun) : Prop := r.d.pend = 0 ∨ r.port.availOut.toNat = 0

theorem drained_drain (r : IRun) : r.drain.Drained := r.drain_done

theorem Drained.drain_eq (h : r.Drained) : r.drain = r := r.drain_zero (by rcases h with h | h <;> omega)

theorem loop_succ_of_go (h : r.drain.step = .go r1) (fuel : Nat) : loop (fuel + 1) r = loop fuel r1 := by
  simp only [loop, h]

theorem loop_succ_of_blocked (h : r.drain.step = .blocked r1) (fuel : Nat) : loop (fuel + 1) r = (r1, none) := by
  simp only [loop, h]

theorem loop_succ_of_ended (h : r.drain.step = .ended r1 st) (fuel : Nat) : loop (fuel + 1) r = (r1, some st) := by
  simp only [loop, h]

/-- The loop runs two steps at least. -/
theorem exists_stepBound (r : IRun) : ∃ fuel, r.stepBound = fuel + 1 + 1 :=
  ⟨_, rfl⟩

/-- A call that ends with its first step. -/
theorem inflate_of_ended (h : r.drain.step = .ended r1 st) : r.inflate = (r1.drain, some st) := by
  obtain ⟨fuel, hfuel⟩ := r.exists_stepBound
  rw [inflate, hfuel, loop_succ_of_ended h]

/-! ## The terminal states (R538, R520) -/

/-- In DONE and BAD a call drains, and ends. -/
theorem inflate_of_terminal (h : r.drain.step = .ended r.drain st) : r.inflate = (r.drain, some st) := by
  rw [inflate_of_ended h, r.drain_drain]

@[simp] theorem drain_mode (r : IRun) : r.drain.d.mode = r.d.mode := by rw [r.drain_engine]

@[simp] theorem drain_err (r : IRun) : r.drain.d.err = r.d.err := by rw [r.drain_engine]

theorem inflate_of_done (h : r.d.mode = .done) : r.inflate = (r.drain, some .streamEnd) :=
  inflate_of_terminal (by simp only [step, drain_mode, h])

theorem inflate_of_bad (h : r.d.mode = .bad) : r.inflate = (r.drain, some .dataError) :=
  inflate_of_terminal (by simp only [step, drain_mode, h])

/-- While a dictionary is awaited a call drains, and enters BAD. -/
theorem inflate_of_wait (h : r.d.mode = .waitForDictionary) :
    r.inflate
      = (⟨{ r.drain.port with adler := r.drain.d.check }, r.drain.d.toBad 19#8 0⟩, some .streamError) := by
  have hmode : r.drain.d.mode = .waitForDictionary := r.drain_mode.trans h
  have hstep : r.drain.step
      = .ended ⟨{ r.drain.port with adler := r.drain.d.check }, r.drain.d.toBad 19#8 0⟩ .streamError := by
    simp only [step, hmode, stepWait, Port.leaveWait, if_true]
  rw [inflate_of_ended hstep]
  exact congrArg (·, some Status.streamError) (Drained.drain_eq r.drained_drain)

/-! ## The first header byte (R542) -/

theorem takeByte_of_input {b : Byte} (hin : r.port.availIn ≠ 0#32) (hb : b = r.port.mem.read r.port.nextIn.toNat) :
    r.takeByte = some (b, { r with port := r.port.consume 1 }) := by
  rw [takeByte, if_neg hin, hb]

/-- The low four bits of the first header byte are the method. -/
theorem method_iff (b : Byte) : b &&& 0x0F#8 ≠ 8#8 ↔ b.toNat % 16 ≠ 8 := by
  have hmask : (b &&& 0x0F#8).toNat = b.toNat % 16 := Nat.and_two_pow_sub_one_eq_mod b.toNat 4
  rw [ne_eq, ← BitVec.toNat_inj, hmask]
  exact Iff.rfl

/-- The run once the first header byte is taken (R542). -/
def methodTaken (r : IRun) (b : Byte) : IRun := ⟨r.port.consume 1, { r.d with method := b }⟩

/-- A first header byte that is refused ends the call. -/
theorem inflate_of_badMethod {b : Byte} {err : BitVec 8} (hpend : r.d.pend = 0)
    (hstep : r.drain.step = (r.methodTaken b).badFinal err) :
    r.inflate = (⟨r.port.consume 1, { r.d with method := b, mode := .bad, err := err, marker := 5 }⟩,
      some .dataError) := by
  rw [inflate_of_ended hstep]
  exact congrArg (·, some Status.dataError) (Drained.drain_eq (.inl hpend))

section

variable {b : Byte} (hmode : r.d.mode = .headerMethod) (hpend : r.d.pend = 0) (hin : r.port.availIn = 1#32)
  (hb : b = r.port.mem.read r.port.nextIn.toNat)
include hmode hpend hin hb

theorem step_of_method : r.drain.step
    = if b.toNat % 16 ≠ 8 then (r.methodTaken b).badFinal 15#8
      else if r.d.wbits < b.toNat / 16 + 8 then (r.methodTaken b).badFinal 16#8
      else .go ⟨r.port.consume 1, { r.d with method := b, mode := .headerFlags }⟩ := by
  have hbyte := takeByte_of_input (by rw [hin]; decide) hb
  simp only [Drained.drain_eq (.inl hpend), step, hmode, stepMethod, hbyte]
  rfl

/-- A good first header byte alone leaves the call waiting for the second. -/
theorem inflate_of_goodMethod (hmethod : b.toNat % 16 = 8) (hwindow : b.toNat / 16 + 8 ≤ r.d.wbits) :
    r.inflate = (⟨r.port.consume 1, { r.d with method := b, mode := .headerFlags }⟩, none) := by
  have hstep := step_of_method hmode hpend hin hb
  rw [if_neg (not_not_intro hmethod), if_neg (Nat.not_lt.mpr hwindow)] at hstep
  generalize hr1 : (⟨r.port.consume 1, { r.d with method := b, mode := .headerFlags }⟩ : IRun) = r1 at hstep
  have hdrained : r1.drain = r1 := Drained.drain_eq (.inl (by rw [← hr1]; exact hpend))
  have hempty : r1.takeByte = none := takeByte_none.mpr (by rw [← hr1, Port.consume_availIn, hin]; rfl)
  have hmode1 : r1.d.mode = .headerFlags := by rw [← hr1]
  have hstep1 : r1.drain.step = .blocked r1 := by simp only [hdrained, step, hmode1, stepFlags, hempty]
  obtain ⟨fuel, hfuel⟩ := r.exists_stepBound
  rw [inflate, hfuel, loop_succ_of_go hstep, loop_succ_of_blocked hstep1, hdrained]

end

end IRun

/-- Settles O36: the first step tells the three cases apart, and the second one has no byte to read. -/
theorem inflateReadsMethod : Obligations.InflateReadsMethod := by
  intro flush s d b he hflush hs hmode hpend hin hb
  have hport : s.port.consume 1
      = { s.port with nextIn := s.port.nextIn + 1#32, availIn := 0#32, totalIn := s.port.totalIn + 1#32 } := by
    rw [Port.consume, hin]
    rfl
  have hstep := IRun.step_of_method (r := ⟨s.port, d⟩) hmode hpend hin hb
  simp only [IRun.method_iff, ← hport]
  split
  case isTrue hmethod =>
    rw [if_pos hmethod] at hstep
    rw [exec_inflate_of_run he hflush hs (IRun.inflate_of_badMethod hpend hstep)]
    rfl
  case isFalse hmethod =>
    rw [if_neg hmethod] at hstep
    split
    case isTrue hwindow =>
      rw [if_pos hwindow] at hstep
      rw [exec_inflate_of_run he hflush hs (IRun.inflate_of_badMethod hpend hstep)]
      rfl
    case isFalse hwindow =>
      have hmoved : (s.port.consume 1).availIn ≠ s.port.availIn := by rw [Port.consume_availIn, hin]; decide
      have hrun := IRun.inflate_of_goodMethod (r := ⟨s.port, d⟩) hmode hpend hin hb (not_not.mp hmethod)
        (Nat.not_lt.mp hwindow)
      rw [exec_inflate_of_run he hflush hs hrun, inflateEnding_of_moved flush hmoved]
      split <;> rfl

/-- Settles O37: each of the three states ends the call with its first step. -/
theorem inflateInTerminalStates : Obligations.InflateInTerminalStates := by
  intro flush s d he hflush hs
  refine ⟨fun hmode => ?_, fun hmode => ?_, fun hmode => ?_⟩
  · exact exec_inflate_of_run he hflush hs (IRun.inflate_of_done hmode)
  · rw [exec_inflate_of_run he hflush hs (IRun.inflate_of_bad hmode)]
    rw [← show _ = d.err from IRun.drain_err ⟨s.port, d⟩]
    rfl
  · exact exec_inflate_of_run he hflush hs (IRun.inflate_of_wait hmode)

/-- Settles O18: INFLATE in BAD changes what `drain` does at most, and the commands that write another engine, or another
mode, are turned away. -/
theorem badIsTerminal : Obligations.BadIsTerminal := by
  intro i s t d hd hbad hsync hreset hend h
  have kept (heq : t.engine = s.engine) : ∃ d', t.engine = .inflate d' ∧ d'.mode = .bad ∧ d'.err = d.err :=
    ⟨d, heq.trans hd, hbad, rfl⟩
  rcases exec_engine h with heq | hchange
  · exact kept heq
  · generalize hengine : t.engine = e at hchange
    cases hchange with
    | isyncUnfed => exact absurd rfl hsync
    | isyncFound => exact absurd rfl hsync
    | isyncLost => exact absurd rfl hsync
    | ireset => exact absurd rfl hreset
    | iend => exact absurd rfl hend
    | @inflate d0 flush h0 =>
      obtain rfl := Engine.inflate.inj (hd.symm.trans h0)
      have hrun := IRun.inflate_of_bad (r := ⟨s.port, d⟩) hbad
      exact ⟨_, rfl, by rw [hrun]; exact (IRun.drain_mode _).trans hbad, by rw [hrun]; exact IRun.drain_err _⟩
    | isetdict =>
      rcases execIsetdict_cases h with rfl | ⟨d0, h0, hwait, -⟩
      · exact hengine ▸ kept rfl
      · obtain rfl := Engine.inflate.inj (hd.symm.trans h0)
        exact absurd (hbad.symm.trans hwait) (by decide)
    | _ hs => exact absurd (hd.symm.trans hs) nofun

end Sys2Proof.Machine
end

section
/-!
ISETDICT (45_inflate.md R550, 41_window.md R344): the kept bytes of the dictionary stand at the write cursor.
-/

namespace Sys2Proof.Machine

open Sys2Proof.Claims

/-- The write cursor comes back to a position only after a whole window of bytes. -/
theorem add_mod_ne_self_of_lt {w j n : Nat} (hw : w < n) (hpos : 0 < j) (hj : j < n) : (w + j) % n ≠ w := by
  intro h
  have hmod : w + j ≡ w + 0 [MOD n] := h.trans (Nat.mod_eq_of_lt hw).symm
  have hzero : j % n = 0 % n := Nat.ModEq.add_left_cancel' w hmod
  rw [Nat.mod_eq_of_lt hj, Nat.zero_mod] at hzero
  omega

namespace Decompressor

/-- Every window index is inside the window memory (R340, R73). -/
theorem windowLen_le {d : Decompressor} (h : d.wbits ≤ 15) : d.windowLen ≤ 2 ^ 16 := by
  have : 2 ^ d.wbits ≤ 2 ^ 15 := Nat.pow_le_pow_right (by decide) h
  unfold windowLen
  omega

/-! ## Bytes written at the write cursor (R344) -/

/-- A dictionary byte at the write cursor (R344). -/
def store (d : Decompressor) (b : Byte) : Decompressor :=
  { d with iwin := d.iwin.set d.wr b, wr := (d.wr + 1) % d.windowLen }

@[simp] theorem store_wbits (d : Decompressor) (b : Byte) : (d.store b).wbits = d.wbits := rfl

@[simp] theorem store_iwin (d : Decompressor) (b : Byte) : (d.store b).iwin = d.iwin.set d.wr b := rfl

@[simp] theorem store_wr (d : Decompressor) (b : Byte) : (d.store b).wr = (d.wr + 1) % d.windowLen := rfl

@[simp] theorem store_windowLen (d : Decompressor) (b : Byte) : (d.store b).windowLen = d.windowLen := rfl

theorem store_wr_lt (d : Decompressor) (b : Byte) : (d.store b).wr < (d.store b).windowLen :=
  Nat.mod_lt _ d.windowLen_pos

theorem preload_cons (d : Decompressor) (b : Byte) (bytes : List Byte) :
    d.preload (b :: bytes) = (d.store b).preload bytes := rfl

/-- The position `j` bytes after the write cursor, seen from behind one more byte. -/
theorem store_position (d : Decompressor) (b : Byte) (j : Nat) :
    ((d.store b).wr + j) % d.windowLen = (d.wr + (j + 1)) % d.windowLen := by
  rw [store_wr, Nat.mod_add_mod, Nat.add_assoc, Nat.add_comm 1 j]

/-- Preloading moves the write cursor and writes the window, nothing else. -/
theorem preload_eq {d : Decompressor} (hwr : d.wr < d.windowLen) (bytes : List Byte) :
    d.preload bytes
      = { d with iwin := (d.preload bytes).iwin, wr := (d.wr + bytes.length) % d.windowLen } := by
  induction bytes generalizing d with
  | nil => rw [List.length_nil, Nat.add_zero, Nat.mod_eq_of_lt hwr]; rfl
  | cons b bytes ih =>
    rw [preload_cons, ih (d.store_wr_lt b), store_windowLen, store_position, List.length_cons]
    rfl

section

variable {d : Decompressor} (hwbits : d.wbits ≤ 15) (hwr : d.wr < d.windowLen)
include hwbits hwr

/-- A written window byte reads back; the others are kept. -/
theorem store_get (b : Byte) (x : Nat) : (d.store b).iwin.get x = if x = d.wr then b else d.iwin.get x := by
  have hlen := windowLen_le hwbits
  exact Ram.get_set _ _ _ _ (by omega)

/-- A window position that the preloaded bytes do not reach keeps its byte. -/
theorem preload_get_other {x : Nat} {bytes : List Byte}
    (hx : ∀ j < bytes.length, (d.wr + j) % d.windowLen ≠ x) : (d.preload bytes).iwin.get x = d.iwin.get x := by
  induction bytes generalizing d with
  | nil => rfl
  | cons b bytes ih =>
    have hfirst : d.wr ≠ x := by
      have := hx 0 (Nat.zero_lt_succ _)
      rwa [Nat.add_zero, Nat.mod_eq_of_lt hwr] at this
    have hrest : ∀ j < bytes.length, ((d.store b).wr + j) % (d.store b).windowLen ≠ x := fun j hj => by
      rw [store_windowLen, store_position]
      exact hx (j + 1) (Nat.succ_lt_succ hj)
    rw [preload_cons, ih (d := d.store b) hwbits (d.store_wr_lt b) hrest, store_get hwbits hwr, if_neg hfirst.symm]

/-- The preloaded bytes stand at the write cursor, when they fit the window. -/
theorem preload_get {k : Nat} {bytes : List Byte} (hk : k < bytes.length) (hfit : bytes.length ≤ d.windowLen) :
    (d.preload bytes).iwin.get ((d.wr + k) % d.windowLen) = bytes[k] := by
  induction bytes generalizing d k with
  | nil => exact absurd hk (Nat.not_lt_zero k)
  | cons b bytes ih =>
    rw [List.length_cons] at hfit
    rw [preload_cons]
    cases k with
    | zero =>
      have hrest : ∀ j < bytes.length, ((d.store b).wr + j) % (d.store b).windowLen ≠ d.wr := fun j hj => by
        rw [store_windowLen, store_position]
        exact add_mod_ne_self_of_lt hwr (Nat.zero_lt_succ j) (by omega)
      rw [Nat.add_zero, Nat.mod_eq_of_lt hwr, preload_get_other (d := d.store b) hwbits (d.store_wr_lt b) hrest,
        store_get hwbits hwr, if_pos rfl]
      rfl
    | succ k =>
      have htail := ih (d := d.store b) hwbits (d.store_wr_lt b) (Nat.lt_of_succ_lt_succ hk) (Nat.le_of_succ_le hfit)
      rwa [store_windowLen, store_position] at htail

end

/-! ## The kept part of the dictionary (R550) -/

/-- How many of `n` dictionary bytes are kept. -/
def keptLen (d : Decompressor) (n : Nat) : Nat := if 2 ^ d.wbits ≤ n then 2 ^ d.wbits - 1 else n

theorem keptLen_le (d : Decompressor) (n : Nat) : d.keptLen n ≤ n := by
  unfold keptLen
  split <;> omega

theorem keptLen_le_windowLen (d : Decompressor) (n : Nat) : d.keptLen n ≤ d.windowLen := by
  unfold keptLen windowLen
  split <;> omega

/-- The kept part of a dictionary in buffer memory is its end. -/
theorem dictTail_readRun (d : Decompressor) (m : Memory) (a n : Nat) :
    d.dictTail (m.readRun a n) = m.readRun (a + (n - d.keptLen n)) (d.keptLen n) := by
  rw [dictTail, Memory.readRun_length, keptLen]
  split
  · rw [m.drop_readRun a (Nat.sub_le _ _), Nat.sub_sub_self (by omega)]
  · rw [Nat.sub_self, Nat.add_zero]

end Decompressor

/-! ## The command -/

/-- ISETDICT while a dictionary is awaited, with a valid range. -/
theorem execIsetdict_of_wait {s : State} {d : Decompressor} (he : s.engine = .inflate d)
    (hmode : d.mode = .waitForDictionary) (hrange : s.dictRangeOk = true) :
    execIsetdict s
      = if adlerUpdate 1#32 s.dictBytes ≠ s.port.adler then .next (s.raise .dataError 26#8)
        else .next (s.supplyDict d) := by
  simp only [execIsetdict, he, hrange, if_neg (not_not_intro hmode), Bool.not_true, Bool.false_eq_true, if_false]

/-- Settles O31: the kept bytes are a run of buffer memory (`Decompressor.dictTail_readRun`), and preloading writes them
at the write cursor. -/
theorem isetdictSuppliesDictionary : Obligations.IsetdictSuppliesDictionary := by
  intro s d he hmode hrange h8 h15 hwr
  rw [outside_iff, Bool.not_eq_false] at hrange
  have hexec : exec .isetdict s = _ := execIsetdict_of_wait he hmode hrange
  refine ⟨fun hdiffer => hexec.trans (if_pos hdiffer), fun hmatch => ?_⟩
  have hkept : d.dictTail s.dictBytes = _ := d.dictTail_readRun s.port.mem s.arg0.toNat s.arg1.toNat
  have hlen : (d.dictTail s.dictBytes).length = d.keptLen s.arg1.toNat := by rw [hkept, Memory.readRun_length]
  have hload := Decompressor.preload_eq hwr (d.dictTail s.dictBytes)
  refine ⟨{ d.preload (d.dictTail s.dictBytes) with hist := (d.dictTail s.dictBytes).length, mode := .blocks },
    hexec.trans (if_neg (not_not_intro hmatch)), ?_, hlen, ?_, fun k hk => ?_⟩
  · rw [hload]
  · rw [hload]
  · have hfit := d.keptLen_le_windowLen s.arg1.toNat
    refine (Decompressor.preload_get h15 hwr hk (hlen ▸ hfit)).trans (Option.some.inj ?_)
    rw [← List.getElem?_eq_getElem hk, hlen]
    conv_lhs => rw [hkept]
    exact Memory.readRun_get _ _ _ k (hlen ▸ hk)

end Sys2Proof.Machine
end

section
/-!
ISYNC (45_inflate.md R560, R561): the marker progress recognises `00 00 FF FF`, and the scan stops behind the first one.
-/

namespace Sys2Proof.Machine

open Sys2Proof.Claims

/-! ## The marker progress (R560) -/

/-- After the bytes `seen`, without a marker at their end, the progress is `m`: to every proper beginning of the marker, `seen`
ends as the marker's first `m` bytes end. -/
structure MarkerProgress (seen : List Byte) (m : Nat) : Prop where
  le : m ≤ 3
  unfinished : ¬ markerBytes <:+ seen
  ends : ∀ j ≤ 3, markerBytes.take j <:+ seen ↔ markerBytes.take j <:+ markerBytes.take m

/-- The marker's own first bytes make the progress they are. -/
theorem MarkerProgress.take {m : Nat} (h : m ≤ 3) : MarkerProgress (markerBytes.take m) m := by
  have hproper : ∀ m ≤ 3, ¬ markerBytes <:+ markerBytes.take m := by decide
  exact ⟨h, hproper m h, fun _ _ => Iff.rfl⟩

/-- `markerNext` is the step of the progress on the marker's own first bytes: a byte of the marker, case by case, and any
other byte, with which no beginning of the marker ends. -/
theorem take_suffix_markerNext {m j : Nat} (hm : m ≤ 3) (hj : j ≤ 4) (b : Byte) :
    markerBytes.take j <:+ markerBytes.take m ++ [b] ↔ markerBytes.take j <:+ markerBytes.take (markerNext m b) := by
  by_cases hb : b ∈ markerBytes
  · have hmarker : ∀ b ∈ markerBytes, ∀ m ≤ 3, ∀ j ≤ 4, markerBytes.take j <:+ markerBytes.take m ++ [b]
        ↔ markerBytes.take j <:+ markerBytes.take (markerNext m b) := by decide
    exact hmarker b hb m hm j hj
  · have hzero : b ≠ 0x00#8 := fun h0 => hb (h0 ▸ by decide)
    have hnext : markerNext m b = 0 := by
      rw [markerNext, if_neg (fun hget => hb (List.mem_of_getElem? hget)), if_pos hzero]
    rw [hnext, List.suffix_concat_iff, List.take_zero, List.suffix_nil, or_iff_left_iff_imp]
    rintro ⟨t, ht, -⟩
    exact absurd (List.mem_of_mem_take (i := j) (by rw [ht]; simp)) hb

namespace MarkerProgress

variable {seen : List Byte} {m : Nat}

/-- What the next byte ends is what it would end behind the marker's first `m` bytes. -/
theorem suffix_concat (h : MarkerProgress seen m) {j : Nat} (hj : j ≤ 4) (b : Byte) :
    markerBytes.take j <:+ seen ++ [b] ↔ markerBytes.take j <:+ markerBytes.take (markerNext m b) := by
  rw [← take_suffix_markerNext h.le hj, List.suffix_concat_iff, List.suffix_concat_iff]
  refine or_congr_right (exists_congr fun t => and_congr_right fun ht => ?_)
  have hprefix : t <+: markerBytes := (ht ▸ List.prefix_append t [b]).trans (List.take_prefix j markerBytes)
  have hlen : t.length + 1 ≤ j := by
    have hlength := congrArg List.length ht
    rw [List.length_append, List.length_singleton] at hlength
    exact hlength ▸ List.length_take_le j markerBytes
  rw [List.prefix_iff_eq_take.mp hprefix]
  exact h.ends _ (by omega)

/-- The next byte completes a marker exactly when the progress becomes 4. -/
theorem found_iff (h : MarkerProgress seen m) (b : Byte) : markerBytes <:+ seen ++ [b] ↔ markerNext m b = 4 := by
  have hdone : ∀ m ≤ 4, markerBytes.take 4 <:+ markerBytes.take m ↔ m = 4 := by decide
  exact (h.suffix_concat (j := 4) (by decide) b).trans (hdone _ (markerNext_le m b (h.le.trans (by decide))))

/-- Otherwise the progress goes on. -/
theorem next (h : MarkerProgress seen m) {b : Byte} (hb : ¬ markerBytes <:+ seen ++ [b]) :
    MarkerProgress (seen ++ [b]) (markerNext m b) where
  le := by
    have hle := markerNext_le m b (h.le.trans (by decide))
    have hne : markerNext m b ≠ 4 := fun heq => hb ((h.found_iff b).mpr heq)
    omega
  unfinished := hb
  ends j hj := h.suffix_concat (hj.trans (by decide)) b

end MarkerProgress

/-! ## The scan (R560) -/

/-- The next input bytes, one by one. The input range must not wrap around. -/
theorem Port.peek_succ {p : Port} {n : Nat} (h : p.nextIn.toNat + (n + 1) ≤ 2 ^ 32) :
    p.peek (n + 1) = p.mem.read p.nextIn.toNat :: (p.consume 1).peek n := by
  cases n with
  | zero => rfl
  | succ n =>
    have hnext : (p.nextIn + Word.ofNat 1).toNat = p.nextIn.toNat + 1 := by
      simp only [BitVec.toNat_add, BitVec.toNat_ofNat]
      omega
    simp only [Port.peek, Port.consume_nextIn, Port.consume_mem, hnext]
    rfl

theorem syncScan_of_full {m : Nat} (h : 4 ≤ m) (fuel : Nat) (p : Port) : syncScan fuel p m = (p, m) := by
  cases fuel with
  | zero => rfl
  | succ fuel => exact if_neg (fun hc => Nat.not_lt.mpr h hc.2)

section

variable {p : Port} {n m : Nat} (hin : p.availIn.toNat = n + 1)
include hin

theorem syncScan_succ (hm : m ≤ 3) :
    syncScan (n + 1) p m = syncScan n (p.consume 1) (markerNext m (p.mem.read p.nextIn.toNat)) := by
  have hne : p.availIn ≠ 0#32 := fun h0 => by simp [h0] at hin
  exact if_pos ⟨hne, Nat.lt_succ_of_le hm⟩

theorem Port.consume_one_availIn : (p.consume 1).availIn.toNat = n := by
  rw [Port.consume_availIn_toNat p 1 (by omega), hin, Nat.add_sub_cancel]

theorem Port.consume_one_nextIn (h : p.nextIn.toNat + (n + 1) ≤ 2 ^ 32) : (p.consume 1).nextIn.toNat + n ≤ 2 ^ 32 := by
  have hlt := p.availIn.isLt
  simp only [Port.consume_nextIn, BitVec.toNat_add, BitVec.toNat_ofNat]
  omega

end

/-- The scan stops right behind the first marker. -/
theorem syncScan_found {p : Port} {n m k : Nat} {seen : List Byte} (h : MarkerProgress seen m)
    (hin : p.availIn.toNat = n) (hrange : p.nextIn.toNat + n ≤ 2 ^ 32) (hk : k ≤ n)
    (hfound : markerBytes <:+ seen ++ (p.peek n).take k)
    (hfirst : ∀ j < k, ¬ markerBytes <:+ seen ++ (p.peek n).take j) : syncScan n p m = (p.consume k, 4) := by
  induction n generalizing p m k seen with
  | zero =>
    obtain rfl : k = 0 := Nat.le_zero.mp hk
    exact absurd (by simpa using hfound) h.unfinished
  | succ n ih =>
    rw [Port.peek_succ hrange] at hfound hfirst
    rw [syncScan_succ hin h.le]
    generalize hb : p.mem.read p.nextIn.toNat = b at hfound hfirst ⊢
    cases k with
    | zero => exact absurd (by simpa using hfound) h.unfinished
    | succ k =>
      rw [List.take_succ_cons, List.append_cons] at hfound
      by_cases hnow : markerBytes <:+ seen ++ [b]
      · have hk0 : k = 0 := by
          by_contra hne
          exact hfirst 1 (by omega) (by simpa using hnow)
        rw [(h.found_iff b).mp hnow, syncScan_of_full (Nat.le_refl 4), hk0]
      · rw [ih (h.next hnow) (Port.consume_one_availIn hin) (Port.consume_one_nextIn hin hrange)
          (Nat.le_of_succ_le_succ hk) hfound, Port.consume_consume, Nat.add_comm 1 k]
        intro j hj
        rw [← List.append_cons, ← List.take_succ_cons]
        exact hfirst (j + 1) (Nat.succ_lt_succ hj)

/-- Without a marker the scan consumes all of the input. -/
theorem syncScan_lost {p : Port} {n m : Nat} {seen : List Byte} (h : MarkerProgress seen m)
    (hin : p.availIn.toNat = n) (hrange : p.nextIn.toNat + n ≤ 2 ^ 32)
    (hnone : ∀ j ≤ n, ¬ markerBytes <:+ seen ++ (p.peek n).take j) :
    ∃ m' < 4, syncScan n p m = (p.consume n, m') := by
  induction n generalizing p m seen with
  | zero => exact ⟨m, Nat.lt_succ_of_le h.le, by rw [Port.consume_zero]; rfl⟩
  | succ n ih =>
    rw [Port.peek_succ hrange] at hnone
    rw [syncScan_succ hin h.le]
    have hnow : ¬ markerBytes <:+ seen ++ [p.mem.read p.nextIn.toNat] := by simpa using hnone 1 (by omega)
    obtain ⟨m', hm', hscan⟩ := ih (h.next hnow) (Port.consume_one_availIn hin) (Port.consume_one_nextIn hin hrange)
      (fun j hj => by
        rw [← List.append_cons, ← List.take_succ_cons]
        exact hnone (j + 1) (Nat.succ_le_succ hj))
    exact ⟨m', hm', by rw [hscan, Port.consume_consume, Nat.add_comm 1 n]⟩

/-! ## The command -/

theorem Decompressor.enterBad_eq (d : Decompressor) :
    d.enterBad
      = { d with
          mode := .bad, err := if d.mode = .bad then d.err else 28#8,
          marker := if d.mode = .bad then d.marker else 0 } := by
  unfold Decompressor.enterBad
  by_cases h : d.mode = .bad
  · rw [if_neg (not_not_intro h), if_pos h, if_pos h, ← h]
  · rw [if_pos h, if_neg h, if_neg h]
    rfl

section

variable {s : State} {d : Decompressor}

/-- ISYNC with a valid input range (R560). -/
theorem execIsync_of_range (he : s.engine = .inflate d) (hrange : s.inputRangeOk = true) :
    execIsync s
      = if s.port.availIn = 0#32 then .next ((s.enterBad d).raise .bufError 21#8)
        else .next ((s.enterBad d).resync d.enterBad) := by
  simp only [execIsync, he, hrange, Bool.not_true, Bool.false_eq_true, if_false]

theorem State.resync_of_found {p : Port} (h : syncScan s.port.availIn.toNat s.port d.marker = (p, 4)) :
    s.resync d
      = { s with
          result := .ok, port := { p with adler := 1#32 },
          engine := .inflate { d.inflateReset with mode := .blocks } } := by
  simp only [State.resync, h, if_true]

theorem State.resync_of_lost {p : Port} {m : Nat} (h : syncScan s.port.availIn.toNat s.port d.marker = (p, m))
    (hm : m ≠ 4) :
    s.resync d
      = { s with
          result := .dataError, errcode := 28#8, port := p, engine := .inflate { d with marker := m } } := by
  simp only [State.resync, h, if_neg hm]
  rfl

/-- In BAD already, ISYNC does not change the state before its scan. -/
theorem State.enterBad_of_bad (he : s.engine = .inflate d) (hmode : d.mode = .bad) : s.enterBad d = s := by
  have hd : d.enterBad = d := if_neg (not_not_intro hmode)
  have hport : s.port.leaveWait d = s.port := if_neg (by rw [hmode]; decide)
  rw [State.enterBad, hd, hport, ← he]

/-- A valid input range does not wrap around (R76), or is empty. -/
theorem State.inputRangeOk_input (h : s.inputRangeOk = true) : s.port.nextIn.toNat + s.port.availIn.toNat ≤ 2 ^ 32 := by
  have hlt := s.port.nextIn.isLt
  obtain ⟨-, hmem⟩ := s.memSize_bounds
  rcases (validRange_iff _ _ _).mp h with h0 | hfits <;> omega

end

/-- Settles O40: `MarkerProgress` holds of the carried bytes, and the scan keeps it until the first marker. -/
theorem resyncFindsFirstMarker : Obligations.ResyncFindsFirstMarker := by
  intro s d adler he hrange hadler
  rw [outside_iff, Bool.not_eq_false] at hrange
  have hexec : exec .isync s = _ := execIsync_of_range he hrange
  have henter : s.enterBad d
      = { s with port := { s.port with adler := adler }, engine := .inflate d.enterBad } := by
    rw [State.enterBad, Port.leaveWait_eq, ← hadler]
  refine ⟨fun hempty => ?_, fun hmode hmarker hne => ?_, ?_⟩
  · rw [hexec, if_pos hempty, henter, d.enterBad_eq]
    rfl
  · have hscan : syncScan s.port.availIn.toNat s.port d.marker = (s.port, 5) := by
      rw [hmarker]
      exact syncScan_of_full (by decide) _ _
    have hd : d.enterBad = d := if_neg (not_not_intro hmode)
    rw [hexec, if_neg hne, State.enterBad_of_bad he hmode, hd, State.resync_of_lost hscan (by decide), ← hmarker, ← he]
  · rintro m0 carried input hne hm0 hle rfl rfl
    rw [hexec, if_neg hne, henter]
    have hprogress : MarkerProgress (markerBytes.take m0) d.enterBad.marker := by
      rw [d.enterBad_eq, ← hm0]
      exact .take hle
    have hinput := State.inputRangeOk_input hrange
    refine ⟨fun k hk hfound hfirst => ?_, fun hnone => ?_⟩
    · have hscan := syncScan_found (p := { s.port with adler := adler }) hprogress rfl hinput
        (hk.trans_eq (Memory.readRun_length _ _ _)) hfound hfirst
      rw [State.resync_of_found hscan, d.enterBad_eq]
      rfl
    · obtain ⟨m', hm', hscan⟩ := syncScan_lost (p := { s.port with adler := adler }) hprogress rfl hinput
        (fun j hj => hnone j (hj.trans_eq (Memory.readRun_length _ _ _).symm))
      refine ⟨m', hm', ?_⟩
      have hall : ({ s.port with adler := adler } : Port).consume s.port.availIn.toNat = _ := Port.consume_all _
      rw [State.resync_of_lost hscan hm'.ne, hall, d.enterBad_eq]

end Sys2Proof.Machine
end

section
/-!
INFLATE inside a stored block (45_inflate.md R532): the loop takes one byte from the input and delivers it, round by round.
-/

namespace Sys2Proof.Machine

open Sys2Proof.Claims

namespace IRun

/-! ## One round -/

/-- The run once a byte of a stored block is taken (R532). -/
def storedByte (r : IRun) (b : Byte) : IRun := ⟨r.port.consume 1, { r.d.put b with left := r.d.left - 1 }⟩

/-- The run once a byte of a stored block is taken and delivered (R341). -/
def copiedByte (r : IRun) (b : Byte) : IRun :=
  ⟨{ (r.port.consume 1).deliver [b] with adler := adlerUpdate r.d.check [b] },
    { r.d.put b with left := r.d.left - 1, pend := 0, check := adlerUpdate r.d.check [b] }⟩

@[simp] theorem copiedByte_nextIn (r : IRun) (b : Byte) : (r.copiedByte b).port.nextIn = r.port.nextIn + Word.ofNat 1 := rfl

@[simp] theorem copiedByte_nextOut (r : IRun) (b : Byte) :
    (r.copiedByte b).port.nextOut = r.port.nextOut + Word.ofNat 1 := rfl

@[simp] theorem copiedByte_mem (r : IRun) (b : Byte) :
    (r.copiedByte b).port.mem = r.port.mem.write r.port.nextOut.toNat b := rfl

/-- The byte just put is the next one to deliver. -/
theorem nextOutput_put {d : Decompressor} (hpend : d.pend = 0) (hwbits : d.wbits ≤ 15) (hwr : d.wr < d.windowLen)
    (b : Byte) : nextOutput (d.put b) 1 = [b] := by
  have hread : ((d.wr + 1) % d.windowLen + (d.windowLen - 1) + 0) % d.windowLen = d.wr := by
    rw [Nat.add_zero, Nat.mod_add_mod, show d.wr + 1 + (d.windowLen - 1) = d.wr + d.windowLen by omega, Nat.add_mod_right,
      Nat.mod_eq_of_lt hwr]
  have hget := Decompressor.store_get hwbits hwr b d.wr
  rw [if_pos rfl] at hget
  have hbyte : nextOutput (d.put b) 1
      = [(d.store b).iwin.get (((d.wr + 1) % d.windowLen + (d.windowLen - (d.pend + 1)) + 0) % d.windowLen)] := rfl
  rw [hbyte, hpend, Nat.zero_add, hread, hget]

/-- Delivering the taken byte. -/
theorem drain_storedByte {r : IRun} (hpend : r.d.pend = 0) (hwbits : r.d.wbits ≤ 15) (hwr : r.d.wr < r.d.windowLen)
    (hroom : 1 ≤ r.port.availOut.toNat) (b : Byte) : (r.storedByte b).drain = r.copiedByte b := by
  have hcount : 1 = min (r.storedByte b).d.pend (r.storedByte b).port.availOut.toNat := by
    show 1 = min (r.d.pend + 1) r.port.availOut.toNat
    omega
  rw [(r.storedByte b).drain_eq hcount (nextOutput_put hpend hwbits hwr b).symm]
  have hleft : (r.storedByte b).d.pend - 1 = 0 := hpend
  rw [hleft]
  rfl

/-- The loop begins with a drain, so it may as well begin drained. -/
theorem loop_drain (fuel : Nat) (r : IRun) : loop (fuel + 1) r.drain = loop (fuel + 1) r := by
  simp only [loop, r.drain_drain]

/-! ## The state inside a stored block -/

/-- A run inside a stored block with `m` bytes of input, less than the block has left, and room for them; the two ranges do
not wrap around and do not meet. -/
structure Copying (r : IRun) (m : Nat) : Prop where
  mode : r.d.mode = .blocks
  bmode : r.d.bmode = .storedCopy
  pend : r.d.pend = 0
  wbits : r.d.wbits ≤ 15
  wr : r.d.wr < r.d.windowLen
  availIn : r.port.availIn.toNat = m
  left : m < r.d.left
  room : m ≤ r.port.availOut.toNat
  input : r.port.nextIn.toNat + m ≤ 2 ^ 32
  output : r.port.nextOut.toNat + m ≤ 2 ^ 32
  apart : r.port.nextIn.toNat + m ≤ r.port.nextOut.toNat ∨ r.port.nextOut.toNat + m ≤ r.port.nextIn.toNat

namespace Copying

variable {r : IRun} {m : Nat}

theorem step_eq (h : r.Copying m) : r.drain.step = r.stepStoredCopy := by
  simp only [Drained.drain_eq (.inl h.pend), step, h.mode, stepBlock, h.bmode]

theorem space (h : r.Copying m) : r.d.space = true := by
  have := r.d.windowLen_pos
  exact decide_eq_true (by rw [h.pend]; exact this)

/-- Without input the step blocks. -/
theorem step_of_empty (h : r.Copying 0) : r.drain.step = .blocked r := by
  have hnone : r.takeByte = none := takeByte_none.mpr (BitVec.eq_of_toNat_eq h.availIn)
  rw [h.step_eq, stepStoredCopy, h.space, hnone]
  rfl

/-- With input the step takes a byte, and stays in the block. -/
theorem step_of_input (h : r.Copying (m + 1)) :
    r.drain.step = .go (r.storedByte (r.port.mem.read r.port.nextIn.toNat)) := by
  have hne : r.port.availIn ≠ 0#32 := fun h0 => by simpa [h0] using h.availIn
  have hleft : r.d.left - 1 ≠ 0 := by
    have := h.left
    omega
  rw [h.step_eq, stepStoredCopy, h.space, takeByte_of_input hne rfl]
  exact congrArg IStep.go (congrArg (IRun.mk _) (if_neg hleft))

/-- A round keeps the state, with one byte less of input. -/
theorem copiedByte (h : r.Copying (m + 1)) (b : Byte) : (r.copiedByte b).Copying m := by
  have hin := Port.consume_one_availIn h.availIn
  have hout := Port.deliver_availOut_toNat (r.port.consume 1) [b]
    (show 1 ≤ r.port.availOut.toNat from Nat.le_trans (Nat.le_add_left 1 m) h.room)
  have hnextIn : (r.copiedByte b).port.nextIn.toNat = (r.port.nextIn.toNat + 1) % 2 ^ 32 := by simp
  have hnextOut : (r.copiedByte b).port.nextOut.toNat = (r.port.nextOut.toNat + 1) % 2 ^ 32 := by simp
  obtain ⟨hmode, hbmode, -, hwbits, -, havail, hleft, hroom, hinput, houtput, hapart⟩ := h
  refine ⟨hmode, hbmode, rfl, hwbits, Nat.mod_lt _ r.d.windowLen_pos, hin, ?_, ?_, ?_, ?_, ?_⟩
  · show m < r.d.left - 1
    omega
  · refine Nat.le_trans ?_ hout.ge
    exact Nat.le_sub_of_add_le hroom
  · omega
  · omega
  · omega

/-- The input that is left is not overwritten by the byte delivered. -/
theorem peek_copiedByte (h : r.Copying (m + 1)) (b : Byte) :
    (r.copiedByte b).port.peek m = (r.port.consume 1).peek m := by
  refine Memory.readRun_congr _ _ _ m fun x hlo hhi => ?_
  have hnextIn : (r.copiedByte b).port.nextIn.toNat = (r.port.nextIn.toNat + 1) % 2 ^ 32 := by simp
  obtain ⟨-, -, -, -, -, -, -, -, hinput, -, hapart⟩ := h
  have hne : x ≠ r.port.nextOut.toNat := by omega
  exact Memory.read_write_ne _ _ x b hne

end Copying

/-! ## All rounds -/

/-- From `r` to `r'` the bytes passed through the stored block: out to NEXT_OUT, into the checksum, off the block's rest. -/
structure Copies (r r' : IRun) (bytes : List Byte) : Prop where
  engine : r'.d = { r.d with
    iwin := r'.d.iwin, wr := r'.d.wr, hist := r'.d.hist, left := r.d.left - bytes.length,
    check := adlerUpdate r.d.check bytes }
  hist : r'.d.hist = if bytes = [] then r.d.hist else min (r.d.hist + bytes.length) (2 ^ r.d.wbits)
  mem : r'.port.mem = r.port.mem.writeRun r.port.nextOut.toNat bytes
  adler : r'.port.adler = if bytes = [] then r.port.adler else r'.d.check
  availIn : r'.port.availIn.toNat = r.port.availIn.toNat - bytes.length
  availOut : r'.port.availOut.toNat = r.port.availOut.toNat - bytes.length

theorem Copies.refl (r : IRun) : r.Copies r [] := ⟨rfl, rfl, rfl, rfl, rfl, rfl⟩

/-- A round is one byte passed through. -/
theorem Copying.copies {r : IRun} {m : Nat} (h : r.Copying (m + 1)) (b : Byte) : r.Copies (r.copiedByte b) [b] where
  engine := by
    rw [IRun.copiedByte, ← h.pend]
    rfl
  hist := rfl
  mem := rfl
  adler := rfl
  availIn := (Port.consume_one_availIn h.availIn).trans (by rw [h.availIn]; rfl)
  availOut := Port.deliver_availOut_toNat (r.port.consume 1) [b] (Nat.le_trans (Nat.le_add_left 1 m) h.room)

/-- One more round in front. -/
theorem Copies.cons {r r' : IRun} {m : Nat} {b : Byte} {bytes : List Byte} (hr : r.Copying (m + 1))
    (hlen : bytes.length = m) (h : (r.copiedByte b).Copies r' bytes) : r.Copies r' (b :: bytes) := by
  have hround := hr.copies b
  have hcheck : adlerUpdate (adlerUpdate r.d.check [b]) bytes = adlerUpdate r.d.check (b :: bytes) :=
    adlerSplits r.d.check [b] bytes
  refine ⟨?_, ?_, ?_, ?_, ?_, ?_⟩
  · have hleft : r.d.left - 1 - bytes.length = r.d.left - (b :: bytes).length := by
      rw [List.length_cons]
      omega
    rw [← hleft, ← hcheck]
    conv_lhs => rw [h.engine, hround.engine]
    rfl
  · rw [h.hist, hround.hist, hround.engine]
    cases bytes with
    | nil => rfl
    | cons b' bytes =>
      simp only [reduceCtorEq, if_false, List.length_cons, List.length_nil]
      omega
  · rw [h.mem, copiedByte_mem, copiedByte_nextOut]
    cases bytes with
    | nil => rfl
    | cons b' bytes =>
      have houtput := hr.output
      rw [← hlen, List.length_cons] at houtput
      have hnext : (r.port.nextOut + Word.ofNat 1).toNat = r.port.nextOut.toNat + 1 := by
        simp only [BitVec.toNat_add, BitVec.toNat_ofNat]
        omega
      rw [hnext]
      rfl
  · rw [h.adler]
    cases bytes with
    | nil => exact (congrArg Decompressor.check h.engine).symm
    | cons b' bytes => rfl
  · rw [h.availIn, hround.availIn, Nat.sub_sub, ← List.length_append, List.singleton_append]
  · rw [h.availOut, hround.availOut, Nat.sub_sub, ← List.length_append, List.singleton_append]

/-- The loop takes and delivers the whole input, and blocks for more. -/
theorem Copying.loop_copies {r : IRun} {m fuel : Nat} (h : r.Copying m) (hfuel : m < fuel) :
    ∃ r', loop fuel r = (r', none) ∧ r.Copies r' (r.port.peek m) := by
  obtain ⟨fuel, rfl⟩ := Nat.exists_eq_add_of_lt hfuel
  induction m generalizing r with
  | zero => exact ⟨r, loop_succ_of_blocked h.step_of_empty _, .refl r⟩
  | succ m ih =>
    have hroom : 1 ≤ r.port.availOut.toNat := Nat.le_trans (Nat.le_add_left 1 m) h.room
    obtain ⟨r', hloop, hcopies⟩ := ih (h.copiedByte (r.port.mem.read r.port.nextIn.toNat)) (by omega)
    refine ⟨r', ?_, ?_⟩
    · rw [loop_succ_of_go h.step_of_input, Nat.add_right_comm m 1 fuel, ← loop_drain, drain_storedByte h.pend h.wbits h.wr hroom]
      exact hloop
    · rw [Port.peek_succ h.input]
      rw [h.peek_copiedByte] at hcopies
      exact hcopies.cons h (Memory.readRun_length _ _ _)

/-- A call takes and delivers the whole input. -/
theorem Copying.inflate_copies {r : IRun} {m : Nat} (h : r.Copying m) :
    ∃ r', r.inflate = (r', none) ∧ r.Copies r' (r.port.peek m) := by
  have hfuel : m < r.stepBound := by
    have havail := h.availIn
    unfold stepBound
    omega
  obtain ⟨r', hloop, hcopies⟩ := h.loop_copies hfuel
  have hpend : r'.d.pend = 0 := by rw [hcopies.engine]; exact h.pend
  exact ⟨r', by rw [inflate, hloop, Drained.drain_eq (.inl hpend)], hcopies⟩

end IRun

/-- The state of the statement is one inside a stored block: the checked ranges do not meet (R77). -/
theorem copying_of_ranges {s : State} {d : Decompressor} (hs : s.streamRangesOk = true) (hmode : d.mode = .blocks)
    (hbmode : d.bmode = .storedCopy) (hpend : d.pend = 0) (hwbits : d.wbits ≤ 15) (hwr : d.wr < d.windowLen)
    (hleft : s.port.availIn.toNat < d.left)
    (hroom : s.port.availIn.toNat ≤ s.port.availOut.toNat) :
    IRun.Copying ⟨s.port, d⟩ s.port.availIn.toNat := by
  obtain ⟨hin, -, hdisjoint⟩ := s.streamRangesOk_iff.mp hs
  rw [← Bool.not_eq_true, overlap_iff] at hdisjoint
  have houtput : s.port.nextOut.toNat + s.port.availIn.toNat ≤ 2 ^ 32 :=
    (Nat.add_le_add_left hroom _).trans (State.streamRangesOk_output hs)
  have hapart : s.port.nextIn.toNat + s.port.availIn.toNat ≤ s.port.nextOut.toNat
      ∨ s.port.nextOut.toNat + s.port.availIn.toNat ≤ s.port.nextIn.toNat := by
    by_contra hmeet
    exact hdisjoint ⟨max s.port.nextIn.toNat s.port.nextOut.toNat, by omega, by omega⟩
  exact ⟨hmode, hbmode, hpend, hwbits, hwr, rfl, hleft, hroom, State.inputRangeOk_input hin, houtput, hapart⟩

/-- Settles O39: the rounds copy the whole input (`IRun.Copying.loop_copies`), and the cursors follow by R38 and R40. -/
theorem inflateCopiesStoredBytes : Obligations.InflateCopiesStoredBytes := by
  rintro flush m s d he hflush hs hwf hmode hbmode hpend - hwbits hwr rfl hpos hleft hroom
  have hranges : s.streamRangesOk = true := by rwa [badStream_iff, Bool.not_eq_false] at hs
  have hcopying := copying_of_ranges hranges hmode hbmode hpend hwbits hwr hleft hroom
  obtain ⟨⟨p, d'⟩, hrun, hcopies⟩ := hcopying.inflate_copies
  have hlen : (s.port.peek s.port.availIn.toNat).length = s.port.availIn.toNat := Memory.readRun_length _ _ _
  have hne : s.port.peek s.port.availIn.toNat ≠ [] := List.ne_nil_of_length_pos (hpos.trans_eq hlen.symm)
  have hexec := exec_inflate_of_run he hflush.le hs hrun
  obtain ⟨hengine, hhist, hmem, hadler, havailIn, havailOut⟩ := hcopies
  simp only [hlen, if_neg hne] at hengine hhist hmem hadler havailIn havailOut
  rw [Nat.sub_self] at havailIn
  have hmoved : p.availIn ≠ s.port.availIn := fun heq => by rw [heq] at havailIn; omega
  rw [inflateEnding_of_moved flush hmoved, if_neg hflush.ne] at hexec
  obtain ⟨-, hnextIn, htotalIn⟩ := (exec_moves rfl hexec).input
  obtain ⟨-, hnextOut, htotalOut⟩ := (exec_moves rfl hexec).output
  have hdelivered : s.port.availOut.toNat - p.availOut.toNat = s.port.availIn.toNat := by omega
  simp only [State.finish_port, State.withIRun_port, havailIn, Nat.sub_zero, hdelivered]
    at hnextIn htotalIn hnextOut htotalOut
  refine ⟨_, d', hexec, rfl, rfl, rfl, BitVec.eq_of_toNat_eq havailIn, hnextIn, htotalIn, hnextOut, havailOut, htotalOut,
    ?_, ?_, hadler.symm, ?_, ?_, ?_, ?_, hhist⟩
  · have hread := Memory.readRun_writeRun s.port.mem s.port.nextOut.toNat (s.port.peek s.port.availIn.toNat) hwf
    rw [hlen, ← hmem] at hread
    exact hread
  · exact hadler.trans (by rw [hengine]; rfl)
  · rw [hengine]
  · rw [hengine]; exact hmode
  · rw [hengine]; exact hbmode
  · rw [hengine]; exact hpend

end Sys2Proof.Machine
end

section
/-!
The loop of INFLATE ends (60_exceptions.md, 70_reset_and_hazards.md R656): every step that goes on spends bits of input, room
for output, or moves to a sub-state that does. One lemma per step of 45_inflate.md.
-/

namespace Sys2Proof.Machine

open Sys2Proof.Claims

/-! ## The measure -/

/-- Steps that may complete before one has to spend bits: BTREE and DTREE once all lengths are read, WASH (R533, R537). -/
def stepRank : IMode → BMode → Nat
  | .blocks, .btree => 2
  | .blocks, .dtree => 1
  | .blocks, .wash => 1
  | _, _ => 0

theorem stepRank_le (mode : IMode) (bmode : BMode) : stepRank mode bmode ≤ 2 := by
  cases mode <;> cases bmode <;> decide

namespace IRun

/-- The input left, in bits: on offer or in the accumulator. -/
def bits (r : IRun) : Nat := 8 * r.port.availIn.toNat + r.d.bitk

/-- The bytes that can still be put in the window before the output is full. -/
def room (r : IRun) : Nat := r.d.windowLen + r.port.availOut.toNat - r.d.pend

/-- What bounds the steps that are left (R656). -/
def measure (r : IRun) : Nat := 4 * r.bits + 2 * r.room + stepRank r.d.mode r.d.bmode

theorem measure_lt_stepBound (r : IRun) : r.measure < r.stepBound := by
  have := stepRank_le r.d.mode r.d.bmode
  unfold measure bits room stepBound
  omega

/-- `drain` makes as much room in the window as it takes from the output. -/
theorem drain_measure (r : IRun) : r.drain.measure = r.measure := by
  obtain ⟨hpend, havail⟩ := r.drain_counts
  obtain ⟨-, hin, -⟩ := r.drain_input
  have hroom : r.drain.room = r.room := by
    have hwin : r.drain.d.windowLen = r.d.windowLen := by rw [r.drain_engine]; rfl
    unfold room
    omega
  have hbmode : r.drain.d.bmode = r.d.bmode := by rw [r.drain_engine]
  have hbits : r.drain.bits = r.bits := by
    have hbitk : r.drain.d.bitk = r.d.bitk := by rw [r.drain_engine]
    rw [bits, bits, hin, hbitk]
  rw [measure, measure, hroom, hbits, hbmode, drain_mode]

end IRun

/-- A step that goes on has made neither bits nor room. -/
def IStep.Keeps (r : IRun) : IStep → Prop
  | .go r1 => r1.bits ≤ r.bits ∧ r1.room ≤ r.room
  | .blocked _ => True
  | .ended _ _ => True

/-- A step that goes on has spent bits, and made no room. -/
def IStep.Consumes (r : IRun) : IStep → Prop
  | .go r1 => r1.bits < r.bits ∧ r1.room ≤ r.room
  | .blocked _ => True
  | .ended _ _ => True

/-- A step that goes on has made the measure smaller. -/
def IStep.Spends (r : IRun) : IStep → Prop
  | .go r1 => r1.measure < r.measure
  | .blocked _ => True
  | .ended _ _ => True

/-- One bit weighs more than every rank. -/
theorem IStep.Consumes.spends {r : IRun} {out : IStep} (h : out.Consumes r) : out.Spends r := by
  cases out with
  | go r1 =>
    obtain ⟨hbits, hroom⟩ := h
    have hrank := stepRank_le r1.d.mode r1.d.bmode
    show 4 * r1.bits + 2 * r1.room + stepRank r1.d.mode r1.d.bmode < 4 * r.bits + 2 * r.room + stepRank r.d.mode r.d.bmode
    omega
  | blocked r1 => exact trivial
  | ended r1 st => exact trivial

/-! ## Fetches -/

/-- A decoded code has one bit at least, and all of its bits are there (R631). -/
theorem canonLoop_sym_bounds {lens : List Nat} {bits bitk fuel l c first s n : Nat}
    (h : canonLoop lens bits bitk fuel l c first = .sym s n) : l ≤ n ∧ n ≤ bitk := by
  induction fuel generalizing l c first with
  | zero => cases h
  | succ fuel ih =>
    unfold canonLoop at h
    simp only [] at h
    split at h
    · cases h
    · split at h
      · split at h
        · cases h
          omega
        · cases h
      · have := ih h
        omega

namespace IRun

variable {r r1 : IRun}

/-- A taken byte is eight bits less on offer (R410). -/
theorem takeByte_spends {b : Byte} (h : r.takeByte = some (b, r1)) :
    r1.bits + 8 = r.bits ∧ r1.room = r.room := by
  obtain ⟨hne, -, rfl⟩ := takeByte_some h
  have hin := Port.one_le_availIn hne
  have hleft := Port.consume_availIn_toNat r.port 1 hin
  refine ⟨?_, rfl⟩
  show 8 * (r.port.consume 1).availIn.toNat + r.d.bitk + 8 = 8 * r.port.availIn.toNat + r.d.bitk
  omega

/-- A byte that moves to the accumulator changes neither bits nor room. -/
theorem pushByte_spends {b : Byte} (h : r.takeByte = some (b, r1)) :
    (r1.withD (r1.d.pushByte b)).bits = r.bits ∧ (r1.withD (r1.d.pushByte b)).room = r.room := by
  obtain ⟨hbits, hroom⟩ := takeByte_spends h
  refine ⟨?_, hroom⟩
  rw [← hbits]
  exact (Nat.add_assoc _ _ 8).symm

theorem needLoop_spends {n fuel : Nat} (h : needLoop n fuel r = .got r1) : r1.bits = r.bits ∧ r1.room = r.room := by
  induction fuel generalizing r with
  | zero =>
    cases h
    exact ⟨rfl, rfl⟩
  | succ fuel ih =>
    unfold needLoop at h
    split at h
    · cases h
      exact ⟨rfl, rfl⟩
    · split at h
      · cases h
      · next b r0 ht =>
        obtain ⟨hbits, hroom⟩ := pushByte_spends ht
        obtain ⟨hbits1, hroom1⟩ := ih h
        exact ⟨hbits1.trans hbits, hroom1.trans hroom⟩

theorem decodeLoop_spends {code : List Nat} {fuel s n : Nat} (h : decodeLoop code fuel r = .sym s n r1) :
    r1.bits = r.bits ∧ r1.room = r.room ∧ 1 ≤ n ∧ n ≤ r1.d.bitk := by
  induction fuel generalizing r with
  | zero => cases h
  | succ fuel ih =>
    unfold decodeLoop at h
    split at h
    · next hsym =>
      cases h
      exact ⟨rfl, rfl, canonLoop_sym_bounds hsym⟩
    · cases h
    · split at h
      · cases h
      · next b r0 ht =>
        obtain ⟨hbits, hroom⟩ := pushByte_spends ht
        obtain ⟨hbits1, hroom1, hn⟩ := ih h
        exact ⟨hbits1.trans hbits, hroom1.trans hroom, hn⟩

/-- A step that takes a byte first: it need not spend more. -/
theorem consumes_afterByte {next : Byte → IRun → IStep}
    (hnext : ∀ b r1, (next b r1).Keeps r1) :
    (match r.takeByte with | none => IStep.blocked r | some (b, r1) => next b r1).Consumes r := by
  cases ht : r.takeByte with
  | none => exact trivial
  | some x =>
    obtain ⟨b, r1⟩ := x
    obtain ⟨hbits, hroom⟩ := takeByte_spends ht
    have hkeeps := hnext b r1
    show (next b r1).Consumes r
    cases hn : next b r1 with
    | go r2 =>
      rw [hn] at hkeeps
      obtain ⟨hbits2, hroom2⟩ := hkeeps
      exact ⟨by omega, by omega⟩
    | blocked r2 => exact trivial
    | ended r2 st => exact trivial

theorem consumes_congr {out : IStep} (hbits : r1.bits = r.bits) (hroom : r1.room = r.room) (h : out.Consumes r1) :
    out.Consumes r := by
  cases out with
  | go r2 => exact ⟨hbits ▸ h.1, hroom ▸ h.2⟩
  | blocked r2 => exact trivial
  | ended r2 st => exact trivial

/-- A step that needs `n` bits first. -/
theorem consumes_afterBits {n : Nat} {next : IRun → IStep} (hnext : ∀ r1, n ≤ r1.d.bitk → (next r1).Consumes r1) :
    (match r.needBits n with | .blocked r1 => IStep.blocked r1 | .got r1 => next r1).Consumes r := by
  cases hf : r.needBits n with
  | blocked r1 => exact trivial
  | got r1 =>
    obtain ⟨hbits, hroom⟩ := needLoop_spends hf
    exact consumes_congr hbits hroom (hnext r1 (needBits_got hf))

/-- A step that decodes a symbol first. -/
theorem consumes_afterSymbol {code : List Nat} {err : BitVec 8} {next : Nat → Nat → IRun → IStep}
    (hnext : ∀ c n r1, 1 ≤ n → n ≤ r1.d.bitk → (next c n r1).Consumes r1) :
    (match r.decode code with
      | .blocked r1 => IStep.blocked r1
      | .undefined r1 => r1.bad err
      | .sym c n r1 => next c n r1).Consumes r := by
  cases hf : r.decode code with
  | blocked r1 => exact trivial
  | undefined r1 => exact trivial
  | sym c n r1 =>
    obtain ⟨hbits, hroom, hpos, hn⟩ := decodeLoop_spends hf
    exact consumes_congr hbits hroom (hnext c n r1 hpos hn)

/-- Dropping bits that are there spends them, whatever else of the engine changes but the window. -/
theorem consumes_dropBits {n : Nat} {d : Decompressor} (hpos : 1 ≤ n) (hn : n ≤ r.d.bitk) (hbitk : d.bitk ≤ r.d.bitk - n)
    (hwbits : d.wbits = r.d.wbits) (hpend : r.d.pend ≤ d.pend) : (r.go d).Consumes r := by
  refine ⟨?_, ?_⟩
  · show 8 * r.port.availIn.toNat + d.bitk < 8 * r.port.availIn.toNat + r.d.bitk
    omega
  · show d.windowLen + r.port.availOut.toNat - d.pend ≤ r.d.windowLen + r.port.availOut.toNat - r.d.pend
    rw [Decompressor.windowLen, hwbits, ← Decompressor.windowLen]
    omega

/-! ## Steps -/

variable (r)

theorem stepMethod_consumes : r.stepMethod.Consumes r := by
  refine consumes_afterByte fun b r1 => ?_
  simp only []
  split
  · exact trivial
  · split
    · exact trivial
    · exact ⟨le_rfl, le_rfl⟩

theorem stepFlags_consumes : r.stepFlags.Consumes r := by
  refine consumes_afterByte fun b r1 => ?_
  split
  · exact trivial
  · exact ⟨le_rfl, le_rfl⟩

theorem stepDictId_consumes : r.stepDictId.Consumes r := by
  refine consumes_afterByte fun b r1 => ?_
  simp only []
  split
  · exact trivial
  · exact ⟨le_rfl, le_rfl⟩

theorem stepTrailer_consumes : r.stepTrailer.Consumes r := by
  refine consumes_afterByte fun b r1 => ?_
  simp only []
  split
  · split
    · exact trivial
    · exact ⟨le_rfl, le_rfl⟩
  · exact ⟨le_rfl, le_rfl⟩

theorem stepType_consumes : r.stepType.Consumes r := by
  refine consumes_afterBits fun r1 hn => ?_
  simp only []
  split
  · exact consumes_dropBits (by decide) hn (Nat.sub_le _ _) rfl le_rfl
  · exact consumes_dropBits (by decide) hn le_rfl rfl le_rfl
  · exact consumes_dropBits (by decide) hn le_rfl rfl le_rfl
  · exact trivial

theorem stepStoredLen_consumes : r.stepStoredLen.Consumes r := by
  refine consumes_afterBits fun r1 hn => ?_
  simp only []
  split
  · exact trivial
  · exact consumes_dropBits (by decide) hn le_rfl rfl le_rfl

theorem stepStoredCopy_consumes : r.stepStoredCopy.Consumes r := by
  unfold stepStoredCopy
  split
  · exact trivial
  · refine consumes_afterByte fun b r1 => ?_
    have hput : (r1.withD (r1.d.put b)).room ≤ r1.room := Nat.sub_le_sub_left (Nat.le_succ _) _
    simp only []
    split <;> exact ⟨le_rfl, hput⟩

theorem stepTable_consumes : r.stepTable.Consumes r := by
  refine consumes_afterBits fun r1 hn => ?_
  simp only []
  split
  · exact trivial
  · exact consumes_dropBits (by decide) hn le_rfl rfl le_rfl

theorem stepBtreeRead_consumes : r.stepBtreeRead.Consumes r :=
  consumes_afterBits fun _ hn => consumes_dropBits (by decide) hn le_rfl rfl le_rfl

theorem stepRepeat_consumes (c : Nat) {n : Nat} (hpos : 1 ≤ n) : (r.stepRepeat c n).Consumes r := by
  refine consumes_afterBits fun r1 hn => ?_
  simp only []
  split
  · exact trivial
  · exact consumes_dropBits (Nat.le_add_right_of_le hpos) hn le_rfl rfl le_rfl

theorem stepDtreeRead_consumes : r.stepDtreeRead.Consumes r := by
  refine consumes_afterSymbol fun c n r1 hpos hn => ?_
  split
  · exact consumes_dropBits hpos hn le_rfl rfl le_rfl
  · exact r1.stepRepeat_consumes c hpos

theorem stepLength_consumes (k : Nat) {n : Nat} (hpos : 1 ≤ n) : (r.stepLength k n).Consumes r :=
  consumes_afterBits fun _ hn => consumes_dropBits (Nat.le_add_right_of_le hpos) hn le_rfl rfl le_rfl

theorem stepCodesLen_consumes : r.stepCodesLen.Consumes r := by
  unfold stepCodesLen
  split
  · exact trivial
  · refine consumes_afterSymbol fun c n r1 hpos hn => ?_
    split
    · exact consumes_dropBits hpos hn le_rfl rfl (Nat.le_succ _)
    · split
      · exact consumes_dropBits hpos hn le_rfl rfl le_rfl
      · split
        · exact trivial
        · generalize c - 257 = k
          exact r1.stepLength_consumes k hpos

theorem stepDistance_consumes (c : Nat) {n : Nat} (hpos : 1 ≤ n) : (r.stepDistance c n).Consumes r := by
  refine consumes_afterBits fun r1 hn => ?_
  simp only []
  split
  · exact trivial
  · exact consumes_dropBits (Nat.le_add_right_of_le hpos) hn le_rfl rfl le_rfl

theorem stepCodesDist_consumes : r.stepCodesDist.Consumes r := by
  refine consumes_afterSymbol fun c n r1 hpos hn => ?_
  split
  · exact trivial
  · exact r1.stepDistance_consumes c hpos

/-! ## Steps that may spend no bits -/

/-- A step that changes the engine without making bits or room, and comes closer to one that spends. -/
theorem spends_of_rank {d : Decompressor} (hbitk : d.bitk ≤ r.d.bitk) (hwbits : d.wbits = r.d.wbits)
    (hpend : d.pend = r.d.pend) 
    (hrank : stepRank d.mode d.bmode < stepRank r.d.mode r.d.bmode) : (r.go d).Spends r := by
  have hroom : (r.withD d).room = r.room := by
    rw [room, room, withD_d, withD_port, Decompressor.windowLen, Decompressor.windowLen, hwbits, hpend]
  have hbits : (r.withD d).bits ≤ r.bits := Nat.add_le_add_left hbitk _
  show 4 * (r.withD d).bits + 2 * (r.withD d).room + stepRank d.mode d.bmode < 4 * r.bits + 2 * r.room + stepRank r.d.mode r.d.bmode
  omega

/-- A byte put where there is space takes room. -/
theorem spends_put {d : Decompressor} (hs : r.d.space = true) (hbitk : d.bitk = r.d.bitk) (hwbits : d.wbits = r.d.wbits)
    (hpend : d.pend = r.d.pend + 1) (hrank : stepRank d.mode d.bmode ≤ stepRank r.d.mode r.d.bmode) :
    (r.go d).Spends r := by
  have hspace : r.d.pend < r.d.windowLen := of_decide_eq_true hs
  have hroom : (r.withD d).room + 1 = r.room := by
    rw [room, room, withD_d, withD_port, Decompressor.windowLen, hwbits, ← Decompressor.windowLen, hpend]
    omega
  have hbits : (r.withD d).bits = r.bits := congrArg (_ + ·) hbitk
  show 4 * (r.withD d).bits + 2 * (r.withD d).room + stepRank d.mode d.bmode
    < 4 * r.bits + 2 * r.room + stepRank r.d.mode r.d.bmode
  omega

/-- A copied byte takes room (R536). -/
theorem stepCodesCopy_spends : r.stepCodesCopy.Spends r := by
  have hrank : stepRank r.d.mode .codesLen ≤ stepRank r.d.mode r.d.bmode := by
    cases r.d.mode <;> exact Nat.zero_le _
  unfold stepCodesCopy
  split
  · exact trivial
  next hs =>
    have hspace : r.d.space = true := by simpa using hs
    simp only []
    split
    · exact spends_put r hspace rfl rfl rfl hrank
    · exact spends_put r hspace rfl rfl rfl le_rfl

variable {r} (hmode : r.d.mode = .blocks)
include hmode

theorem stepBtree_spends (hbmode : r.d.bmode = .btree) : r.stepBtree.Spends r := by
  have haccept : (r.go { r.d with blcode := r.d.blens, lens := [], bmode := .dtree }).Spends r :=
    spends_of_rank r le_rfl rfl rfl (by simp only [hmode, hbmode]; decide)
  unfold stepBtree
  split
  · exact r.stepBtreeRead_consumes.spends
  · unfold stepBtreeCheck
    simp only []
    split
    · exact trivial
    · exact trivial
    · split
      · exact trivial
      · exact haccept
    · exact haccept

theorem stepDtree_spends (hbmode : r.d.bmode = .dtree) : r.stepDtree.Spends r := by
  unfold stepDtree
  split
  · exact r.stepDtreeRead_consumes.spends
  · unfold stepDtreeCheck
    simp only []
    split
    · exact trivial
    · split
      · exact trivial
      · exact spends_of_rank r le_rfl rfl rfl (by simp only [hmode, hbmode]; decide)

theorem stepWash_spends (hbmode : r.d.bmode = .wash) : r.stepWash.Spends r := by
  unfold stepWash
  simp only []
  split
  · exact trivial
  · exact spends_of_rank r (Nat.sub_le _ _) rfl rfl (by rw [hmode, hbmode]; exact Nat.zero_lt_one)

theorem stepBlock_spends : r.stepBlock.Spends r := by
  unfold stepBlock
  cases hbmode : r.d.bmode with
  | type => exact r.stepType_consumes.spends
  | storedLen => exact r.stepStoredLen_consumes.spends
  | storedCopy => exact r.stepStoredCopy_consumes.spends
  | table => exact r.stepTable_consumes.spends
  | btree => exact stepBtree_spends hmode hbmode
  | dtree => exact stepDtree_spends hmode hbmode
  | codesLen => exact r.stepCodesLen_consumes.spends
  | codesDist => exact r.stepCodesDist_consumes.spends
  | codesCopy => exact r.stepCodesCopy_spends
  | wash => exact stepWash_spends hmode hbmode

omit hmode

theorem step_spends (r : IRun) : r.step.Spends r := by
  unfold step
  cases hmode : r.d.mode with
  | headerMethod => exact r.stepMethod_consumes.spends
  | headerFlags => exact r.stepFlags_consumes.spends
  | dictId => exact r.stepDictId_consumes.spends
  | waitForDictionary => exact trivial
  | blocks => exact stepBlock_spends hmode
  | trailerChecksum => exact r.stepTrailer_consumes.spends
  | done => exact trivial
  | bad => exact trivial

/-! ## The loop -/

/-- A round that goes on makes the measure smaller. -/
theorem measure_lt_of_go {r r1 : IRun} (h : r.drain.step = .go r1) : r1.measure < r.measure := by
  have hspends := r.drain.step_spends
  rw [h] at hspends
  exact r.drain_measure ▸ hspends

/-- With more fuel than the measure, the loop does not run out of it: more fuel changes nothing (R656). -/
theorem loop_fuel {r : IRun} {fuel fuel' : Nat} (h : r.measure < fuel) (h' : r.measure < fuel') :
    loop fuel r = loop fuel' r := by
  induction fuel generalizing r fuel' with
  | zero => exact absurd h (Nat.not_lt_zero _)
  | succ fuel ih =>
    obtain ⟨fuel', rfl⟩ := Nat.exists_eq_succ_of_ne_zero (Nat.ne_zero_of_lt h')
    cases hs : r.drain.step with
    | go r1 =>
      have hless := measure_lt_of_go hs
      rw [loop_succ_of_go hs, loop_succ_of_go hs]
      exact ih (by omega) (by omega)
    | blocked r1 => rw [loop_succ_of_blocked hs, loop_succ_of_blocked hs]
    | ended r1 st => rw [loop_succ_of_ended hs, loop_succ_of_ended hs]

/-- The loop with enough fuel is the call's. -/
theorem inflate_of_fuel {r : IRun} {fuel : Nat} (h : r.measure < fuel) :
    r.inflate = ((loop fuel r).1.drain, (loop fuel r).2) := by
  rw [inflate, loop_fuel r.measure_lt_stepBound h]

end IRun

end Sys2Proof.Machine
end

section
/-!
A step of INFLATE with more input on offer (45_inflate.md R544): a step that did not block does the same, and one that blocked
goes on from where it blocked as from where it began. One lemma per step.
-/

namespace Sys2Proof.Machine

open Sys2Proof.Claims

namespace IRun

/-! ## More input on offer -/

/-- The run with `e` more bytes of input on offer. -/
def more (r : IRun) (e : Word) : IRun := { r with port := { r.port with availIn := r.port.availIn + e } }

@[simp] theorem more_d (r : IRun) (e : Word) : (r.more e).d = r.d := rfl

@[simp] theorem more_availOut (r : IRun) (e : Word) : (r.more e).port.availOut = r.port.availOut := rfl

theorem drain_more (r : IRun) (e : Word) : (r.more e).drain = r.drain.more e := by
  rw [r.drain_eq rfl rfl, (r.more e).drain_eq rfl rfl]
  rfl

/-- AVAIL_IN can hold `e` bytes more. -/
def Fits (r : IRun) (e : Word) : Prop := r.port.availIn.toNat + e.toNat < 2 ^ 32

theorem takeByte_more {r r1 : IRun} {e : Word} {b : Byte} (hfit : r.Fits e) (h : r.takeByte = some (b, r1)) :
    (r.more e).takeByte = some (b, r1.more e) := by
  obtain ⟨hne, hb, rfl⟩ := takeByte_some h
  have hin := Port.one_le_availIn hne
  have hne' : (r.more e).port.availIn ≠ 0#32 := by
    intro h0
    have hsum : (r.port.availIn + e).toNat = 0 := congrArg BitVec.toNat h0
    rw [BitVec.toNat_add, Nat.mod_eq_of_lt hfit] at hsum
    omega
  rw [takeByte_of_input hne' hb]
  have hless : r.port.availIn + e - Word.ofNat 1 = r.port.availIn - Word.ofNat 1 + e := by
    rw [BitVec.sub_eq_add_neg, BitVec.sub_eq_add_neg, add_right_comm]
  simp only [more, Port.consume, hless]

/-! ## What a blocked step may have changed -/

/-- `r1` is `r` but for the accumulator and the input cursors. -/
structure SameStep (r r1 : IRun) : Prop where
  engine : r1.d = { r.d with bitb := r1.d.bitb, bitk := r1.d.bitk }
  availOut : r1.port.availOut = r.port.availOut

/-- `r1` is `r` with bytes taken into the accumulator, above the bits that were there (R410). -/
structure Refilled (r r1 : IRun) : Prop extends SameStep r r1 where
  availIn : r1.port.availIn.toNat ≤ r.port.availIn.toNat
  bitk : r.d.bitk ≤ r1.d.bitk
  bits : ∀ i < r.d.bitk, r1.d.bitb.toNat.testBit i = r.d.bitb.toNat.testBit i

theorem Refilled.refl (r : IRun) : r.Refilled r := ⟨⟨rfl, rfl⟩, le_rfl, le_rfl, fun _ _ => rfl⟩

theorem Refilled.trans {r r1 r2 : IRun} (h : r.Refilled r1) (h' : r1.Refilled r2) : r.Refilled r2 where
  engine := by
    rw [h'.engine, h.engine]
  availOut := h'.availOut.trans h.availOut
  availIn := h'.availIn.trans h.availIn
  bitk := h.bitk.trans h'.bitk
  bits i hi := (h'.bits i (hi.trans_le h.bitk)).trans (h.bits i hi)

theorem Refilled.fits {r r1 : IRun} {e : Word} (h : r.Refilled r1) (hfit : r.Fits e) : r1.Fits e :=
  (Nat.add_le_add_right h.availIn _).trans_lt hfit

/-- A byte taken into the accumulator (R410). -/
theorem Refilled.pushByte {r r1 : IRun} {b : Byte} (h : r.takeByte = some (b, r1)) :
    r.Refilled (r1.withD (r1.d.pushByte b)) := by
  obtain ⟨hne, -, rfl⟩ := takeByte_some h
  refine ⟨⟨rfl, rfl⟩, ?_, Nat.le_add_right _ _, fun i hi => ?_⟩
  · exact (Port.consume_availIn_toNat r.port 1 (Port.one_le_availIn hne)).trans_le (Nat.sub_le _ _)
  · show (r.d.bitb ||| (b.setWidth 40 <<< r.d.bitk)).toNat.testBit i = r.d.bitb.toNat.testBit i
    rw [BitVec.testBit_toNat, BitVec.testBit_toNat, BitVec.getLsbD_or, BitVec.getLsbD_shiftLeft, decide_eq_true hi]
    simp

/-! ## The bit parser with more input -/

theorem needLoop_fuel {n fuel fuel' : Nat} {r : IRun} (h : n ≤ r.d.bitk + 8 * fuel) (h' : n ≤ r.d.bitk + 8 * fuel') :
    needLoop n fuel r = needLoop n fuel' r := by
  induction fuel generalizing r fuel' with
  | zero =>
    cases fuel' with
    | zero => rfl
    | succ fuel' => rw [needLoop, needLoop, if_pos (by omega)]
  | succ fuel ih =>
    cases fuel' with
    | zero => rw [needLoop, needLoop, if_pos (by omega)]
    | succ fuel' =>
      rw [needLoop, needLoop]
      split
      · rfl
      · split
        · rfl
        · next b r1 ht =>
          obtain ⟨-, -, rfl⟩ := takeByte_some ht
          have hbitk : (r.d.pushByte b).bitk = r.d.bitk + 8 := rfl
          exact ih (by rw [withD_d, hbitk]; omega) (by rw [withD_d, hbitk]; omega)

/-- `need_bits(n)`, its loop unrolled once (R410). -/
theorem needBits_eq (r : IRun) (n : Nat) :
    r.needBits n
      = if n ≤ r.d.bitk then .got r
        else
          match r.takeByte with
          | none => .blocked r
          | some (b, r1) => (r1.withD (r1.d.pushByte b)).needBits n := by
  rw [needBits, needLoop_fuel (fuel := n) (fuel' := n + 1) (by omega) (by omega), needLoop]
  rfl

/-- With more input `need_bits(n)` gets the same bits, or goes on from where it blocked. -/
theorem needBits_more {r : IRun} {e : Word} (hfit : r.Fits e) (n : Nat) :
    match r.needBits n with
    | .got r1 => (r.more e).needBits n = .got (r1.more e)
    | .blocked r1 => (r.more e).needBits n = (r1.more e).needBits n ∧ r.Refilled r1 := by
  induction hk : n - r.d.bitk using Nat.strongRecOn generalizing r with
  | ind k ih =>
    by_cases hn : n ≤ r.d.bitk
    · rw [needBits_eq, if_pos hn]
      show (r.more e).needBits n = .got (r.more e)
      rw [needBits_eq, more_d, if_pos hn]
    · cases ht : r.takeByte with
      | none =>
        rw [needBits_eq, if_neg hn, ht]
        exact ⟨rfl, .refl r⟩
      | some x =>
        obtain ⟨b, r1⟩ := x
        have hfilled := Refilled.pushByte ht
        have hbitk : (r1.withD (r1.d.pushByte b)).d.bitk = r.d.bitk + 8 := by
          obtain ⟨-, -, rfl⟩ := takeByte_some ht
          rfl
        have hmore : (r.more e).needBits n = ((r1.withD (r1.d.pushByte b)).more e).needBits n := by
          rw [needBits_eq, more_d, if_neg hn, takeByte_more hfit ht]
          rfl
        have hrest := ih _ (by omega) (hfilled.fits hfit) rfl
        rw [needBits_eq, if_neg hn, ht, hmore]
        show match (r1.withD (r1.d.pushByte b)).needBits n with | .got _ => _ | .blocked _ => _
        cases hf : (r1.withD (r1.d.pushByte b)).needBits n with
        | got r2 =>
          rw [hf] at hrest
          exact hrest
        | blocked r2 =>
          rw [hf] at hrest
          obtain ⟨hsame, hrefilled⟩ := hrest
          exact ⟨hsame, hfilled.trans hrefilled⟩

/-- A code that the bits decide stays decided with more bits above them (R631). -/
theorem canonLoop_more {lens : List Nat} {bits bits' k k' : Nat} (hk : k ≤ k')
    (hbits : ∀ i < k, bits'.testBit i = bits.testBit i) {fuel l c first : Nat} (hl : 1 ≤ l)
    (h : canonLoop lens bits k fuel l c first ≠ .needMoreBits) :
    canonLoop lens bits' k' fuel l c first = canonLoop lens bits k fuel l c first := by
  induction fuel generalizing l c first with
  | zero => rfl
  | succ fuel ih =>
    unfold canonLoop at h ⊢
    by_cases hshort : k < l
    · exact absurd (if_pos hshort) h
    · have hbit : bits' >>> (l - 1) % 2 = bits >>> (l - 1) % 2 := by
        rw [Nat.shiftRight_eq_div_pow, Nat.shiftRight_eq_div_pow, ← Nat.toNat_testBit, ← Nat.toNat_testBit,
          hbits _ (by omega)]
      rw [if_neg hshort] at h
      rw [if_neg hshort, if_neg (by omega), hbit]
      simp only [] at h ⊢
      split
      · rfl
      · next hlong =>
        rw [if_neg hlong] at h
        exact ih (by omega) h

theorem canonDecode_more {code : List Nat} {r r1 : IRun} (h : r.Refilled r1)
    (hdecided : canonDecode code r.d.bitb.toNat r.d.bitk ≠ .needMoreBits) :
    canonDecode code r1.d.bitb.toNat r1.d.bitk = canonDecode code r.d.bitb.toNat r.d.bitk :=
  canonLoop_more h.bitk h.bits le_rfl hdecided

theorem decodeLoop_fuel {code : List Nat} {fuel fuel' : Nat} {r : IRun} (h : maxLen code ≤ r.d.bitk + 8 * fuel)
    (h' : maxLen code ≤ r.d.bitk + 8 * fuel') :
    decodeLoop code (fuel + 1) r = decodeLoop code (fuel' + 1) r := by
  induction fuel generalizing r fuel' with
  | zero =>
    rw [decodeLoop, decodeLoop]
    cases hc : canonDecode code r.d.bitb.toNat r.d.bitk with
    | sym s n => rfl
    | undefined => rfl
    | needMoreBits =>
      have := canonDecode_needMoreBits hc
      omega
  | succ fuel ih =>
    rw [decodeLoop, decodeLoop]
    cases hc : canonDecode code r.d.bitb.toNat r.d.bitk with
    | sym s n => rfl
    | undefined => rfl
    | needMoreBits =>
      have hshort := canonDecode_needMoreBits hc
      obtain ⟨fuel', rfl⟩ := Nat.exists_eq_succ_of_ne_zero (n := fuel') (by omega)
      cases ht : r.takeByte with
      | none => rfl
      | some x =>
        obtain ⟨-, -, hx⟩ := takeByte_some (r' := x.2) ht
        have hbitk : (x.2.withD (x.2.d.pushByte x.1)).d.bitk = r.d.bitk + 8 := by rw [hx]; rfl
        exact ih (by omega) (by omega)

/-- `decode(code)`, its loop unrolled once (R414). -/
theorem decode_eq (r : IRun) (code : List Nat) :
    r.decode code
      = match canonDecode code r.d.bitb.toNat r.d.bitk with
        | .sym s n => .sym s n r
        | .undefined => .undefined r
        | .needMoreBits =>
          match r.takeByte with
          | none => .blocked r
          | some (b, r1) => (r1.withD (r1.d.pushByte b)).decode code := by
  rw [decode, decodeLoop_fuel (fuel := maxLen code) (fuel' := maxLen code + 1) (by omega) (by omega), decodeLoop]
  rfl

/-- With more input `decode(code)` decodes the same symbol, or goes on from where it blocked. -/
theorem decode_more {r : IRun} {e : Word} (hfit : r.Fits e) (code : List Nat) :
    match r.decode code with
    | .sym s n r1 =>
      (r.more e).decode code = .sym s n (r1.more e) ∧ r.Refilled r1
        ∧ canonDecode code r1.d.bitb.toNat r1.d.bitk = .sym s n
    | .undefined r1 => (r.more e).decode code = .undefined (r1.more e)
    | .blocked r1 => (r.more e).decode code = (r1.more e).decode code ∧ r.Refilled r1 := by
  induction hk : maxLen code - r.d.bitk using Nat.strongRecOn generalizing r with
  | ind k ih =>
    cases hc : canonDecode code r.d.bitb.toNat r.d.bitk with
    | sym s n =>
      rw [decode_eq, hc]
      exact ⟨by rw [decode_eq, more_d, hc], .refl r, hc⟩
    | undefined =>
      rw [decode_eq, hc]
      show (r.more e).decode code = .undefined (r.more e)
      rw [decode_eq, more_d, hc]
    | needMoreBits =>
      have hshort := canonDecode_needMoreBits hc
      cases ht : r.takeByte with
      | none =>
        rw [decode_eq, hc, ht]
        exact ⟨rfl, .refl r⟩
      | some x =>
        obtain ⟨b, r1⟩ := x
        have hfilled := Refilled.pushByte ht
        have hbitk : (r1.withD (r1.d.pushByte b)).d.bitk = r.d.bitk + 8 := by
          obtain ⟨-, -, rfl⟩ := takeByte_some ht
          rfl
        have hmore : (r.more e).decode code = ((r1.withD (r1.d.pushByte b)).more e).decode code := by
          rw [decode_eq, more_d, hc, takeByte_more hfit ht]
          rfl
        have hrest := ih _ (by omega) (hfilled.fits hfit) rfl
        rw [decode_eq, hc, ht, hmore]
        show match (r1.withD (r1.d.pushByte b)).decode code with
          | .sym _ _ _ => _
          | .undefined _ => _
          | .blocked _ => _
        cases hf : (r1.withD (r1.d.pushByte b)).decode code with
        | sym s n r2 =>
          rw [hf] at hrest
          obtain ⟨hsame, hrefilled, hdecided⟩ := hrest
          exact ⟨hsame, hfilled.trans hrefilled, hdecided⟩
        | undefined r2 =>
          rw [hf] at hrest
          exact hrest
        | blocked r2 =>
          rw [hf] at hrest
          obtain ⟨hsame, hrefilled⟩ := hrest
          exact ⟨hsame, hfilled.trans hrefilled⟩

/-! ## Steps that resume -/

end IRun

/-- A step's outcome with `e` more bytes on offer. -/
def IStep.more (out : IStep) (e : Word) : IStep :=
  match out with
  | .go r => .go (r.more e)
  | .blocked r => .blocked (r.more e)
  | .ended r st => .ended (r.more e) st

/-- The step did not block. -/
def IStep.Goes : IStep → Prop
  | .go _ => True
  | .blocked _ => False
  | .ended _ _ => True

namespace IRun

/-- What the step `f` does with `e` more bytes on offer: the same, or, where it blocked before, what it does from there; `Kept`
says how the run it blocked in stands to the one it began in. -/
inductive Resumes (Kept : IRun → IRun → Prop) (e : Word) (f : IRun → IStep) (r : IRun) : Prop where
  | go {r1 : IRun} (h : f r = .go r1) (hmore : f (r.more e) = .go (r1.more e))
  | ended {r1 : IRun} {st : Status} (h : f r = .ended r1 st) (hmore : f (r.more e) = .ended (r1.more e) st)
  | blocked {r1 : IRun} (h : f r = .blocked r1) (hkept : Kept r r1) (hmore : f (r.more e) = f (r1.more e))

/-- A step that does not block, and does the same with more input. -/
abbrev Settles : Word → (IRun → IStep) → IRun → Prop := Resumes (fun _ _ => False)

section

variable {Kept Kept' : IRun → IRun → Prop} {e : Word} {f f' : IRun → IStep} {r : IRun}

theorem Resumes.mono (hkept : ∀ {r1}, Kept r r1 → Kept' r r1) (h : Resumes Kept e f r) : Resumes Kept' e f r := by
  cases h with
  | go h hmore => exact .go h hmore
  | ended h hmore => exact .ended h hmore
  | blocked h hk hmore => exact .blocked h (hkept hk) hmore

/-- A step that is `f` as long as the engine is that of `r`, but for the accumulator. -/
theorem Resumes.of_eq (hkept : ∀ {r1}, Kept r r1 → SameStep r r1)
    (heq : ∀ x : IRun, x.d = { r.d with bitb := x.d.bitb, bitk := x.d.bitk } → f' x = f x) (h : Resumes Kept e f r) :
    Resumes Kept e f' r := by
  have hr := heq r rfl
  have hmore := heq (r.more e) rfl
  cases h with
  | go h h' => exact .go (hr.trans h) (hmore.trans h')
  | ended h h' => exact .ended (hr.trans h) (hmore.trans h')
  | @blocked r1 h hk h' =>
    exact .blocked (hr.trans h) hk (hmore.trans (h'.trans (heq (r1.more e) (hkept hk).engine).symm))

/-- A step that comes down to one that does not block. -/
theorem Resumes.of_settles {g : IRun → IStep} {r1 : IRun} (h : Settles e g r1) (hr : f r = g r1)
    (hmore : f (r.more e) = g (r1.more e)) : Resumes Kept e f r := by
  cases h with
  | go h h' => exact .go (hr.trans h) (hmore.trans h')
  | ended h h' => exact .ended (hr.trans h) (hmore.trans h')
  | blocked _ hfalse => exact hfalse.elim

/-- A step that does not block and treats more input as its own. -/
theorem Resumes.of_more (hmore : f (r.more e) = (f r).more e) (hgoes : (f r).Goes) : Settles e f r := by
  cases h : f r with
  | go r1 => exact .go h (hmore.trans (by rw [h]; rfl))
  | ended r1 st => exact .ended h (hmore.trans (by rw [h]; rfl))
  | blocked r1 => rw [h] at hgoes; exact hgoes.elim

/-- A step that takes a byte first. -/
theorem resumes_afterByte (hfit : r.Fits e) {next : Byte → IRun → IStep} (hnext : ∀ b r1, Settles e (next b) r1) :
    Resumes Refilled e (fun r => match r.takeByte with | none => .blocked r | some (b, r1) => next b r1) r := by
  cases ht : r.takeByte with
  | none => exact .blocked (by simp only [ht]) (.refl r) rfl
  | some x =>
    obtain ⟨b, r1⟩ := x
    have htake := takeByte_more hfit ht
    exact .of_settles (hnext b r1) (by simp only [ht]) (by simp only [htake])

/-- A step that needs `n` bits first. -/
theorem resumes_afterBits (hfit : r.Fits e) {n : Nat} {next : IRun → IStep} (hnext : ∀ r1, Settles e next r1) :
    Resumes Refilled e (fun r => match r.needBits n with | .blocked r1 => .blocked r1 | .got r1 => next r1) r := by
  have hbits := needBits_more hfit n
  cases hf : r.needBits n with
  | blocked r1 =>
    rw [hf] at hbits
    exact .blocked (by simp only [hf]) hbits.2 (by simp only [hbits.1])
  | got r1 =>
    rw [hf] at hbits
    exact .of_settles (hnext r1) (by simp only [hf]) (by simp only [hbits])

/-- A step that decodes a symbol first. What follows may block; from there the symbol is decoded again. -/
theorem resumes_afterSymbol (hfit : r.Fits e) {code : Decompressor → List Nat}
    (hcode : ∀ {r1 : IRun}, r.Refilled r1 → code r1.d = code r.d) {err : BitVec 8} {next : Nat → Nat → IRun → IStep}
    (hnext : ∀ c n {r1}, r1.Fits e → Resumes Refilled e (next c n) r1) :
    Resumes Refilled e
      (fun r => match r.decode (code r.d) with
        | .blocked r1 => .blocked r1
        | .undefined r1 => r1.bad err
        | .sym c n r1 => next c n r1) r := by
  have hsym := decode_more hfit (code r.d)
  cases hf : r.decode (code r.d) with
  | blocked r1 =>
    rw [hf] at hsym
    obtain ⟨hmore, hfilled⟩ := hsym
    exact .blocked (by simp only [hf]) hfilled (by simp only [more_d, hmore, hcode hfilled])
  | undefined r1 =>
    rw [hf] at hsym
    exact .ended (r1 := r1.withD (r1.d.toBad err 0)) (st := .dataError) (by simp only [hf, bad_eq])
      (by simp only [more_d, hsym, bad_eq]; rfl)
  | sym c n r1 =>
    rw [hf] at hsym
    obtain ⟨hmore, hfilled, hdecided⟩ := hsym
    cases hnext c n (hfilled.fits hfit) with
    | @go r2 h h' => exact .go (r1 := r2) (by simp only [hf, h]) (by simp only [more_d, hmore, h'])
    | @ended r2 st h h' =>
      exact .ended (r1 := r2) (st := st) (by simp only [hf, h]) (by simp only [more_d, hmore, h'])
    | @blocked r2 h hfilled' h' =>
      have hagain : (r2.more e).decode (code r2.d) = .sym c n (r2.more e) := by
        have hstays := canonDecode_more (code := code r.d) hfilled' (by rw [hdecided]; nofun)
        rw [hcode (hfilled.trans hfilled'), decode_eq, more_d, hstays, hdecided]
      exact .blocked (by simp only [hf, h]) (hfilled.trans hfilled') (by simp only [more_d, hmore, hagain, h'])

end

/-! ## Steps -/

section

variable {e : Word} {r : IRun}

theorem stepMethod_resumes (hfit : r.Fits e) : Resumes Refilled e stepMethod r := by
  refine resumes_afterByte hfit fun b r1 => ?_
  by_cases hmethod : b.toNat % 16 ≠ 8
  · exact .ended (if_pos hmethod) (if_pos hmethod)
  · by_cases hwindow : r1.d.wbits < b.toNat / 16 + 8
    · exact .ended ((if_neg hmethod).trans (if_pos hwindow)) ((if_neg hmethod).trans (if_pos hwindow))
    · exact .go ((if_neg hmethod).trans (if_neg hwindow)) ((if_neg hmethod).trans (if_neg hwindow))

theorem stepFlags_resumes (hfit : r.Fits e) : Resumes Refilled e stepFlags r := by
  refine resumes_afterByte hfit fun b r1 => ?_
  by_cases hcheck : (256 * r1.d.method.toNat + b.toNat) % 31 ≠ 0
  · exact .ended (if_pos hcheck) (if_pos hcheck)
  · exact .go (if_neg hcheck) (if_neg hcheck)

theorem stepDictId_resumes (hfit : r.Fits e) : Resumes Refilled e stepDictId r := by
  refine resumes_afterByte hfit fun b r1 => ?_
  by_cases hlast : (r1.d.shiftNeed b).k = 4
  · exact .ended (if_pos hlast) (if_pos hlast)
  · exact .go (if_neg hlast) (if_neg hlast)

theorem stepTrailer_resumes (hfit : r.Fits e) : Resumes Refilled e stepTrailer r := by
  refine resumes_afterByte hfit fun b r1 => ?_
  by_cases hlast : (r1.d.shiftNeed b).k = 4
  · by_cases hdiffer : (r1.d.shiftNeed b).need ≠ (r1.d.shiftNeed b).was
    · exact .ended ((if_pos hlast).trans (if_pos hdiffer)) ((if_pos hlast).trans (if_pos hdiffer))
    · exact .go ((if_pos hlast).trans (if_neg hdiffer)) ((if_pos hlast).trans (if_neg hdiffer))
  · exact .go (if_neg hlast) (if_neg hlast)

theorem stepType_resumes (hfit : r.Fits e) : Resumes Refilled e stepType r := by
  refine resumes_afterBits hfit fun r1 => .of_more ?_ ?_
  · simp only [more_d]
    rcases r1.d.peekBits 3 / 2 with _ | _ | _ | q <;> rfl
  · simp only []
    rcases r1.d.peekBits 3 / 2 with _ | _ | _ | q <;> exact trivial

theorem stepStoredLen_resumes (hfit : r.Fits e) : Resumes Refilled e stepStoredLen r := by
  refine resumes_afterBits hfit fun r1 => ?_
  by_cases hbad : 65535 - r1.d.peekBits 32 / 65536 ≠ r1.d.peekBits 32 % 65536
  · exact .ended (if_pos hbad) (if_pos hbad)
  · exact .go (if_neg hbad) (if_neg hbad)

/-- A step that begins with the check for room in the window. -/
theorem Resumes.ifSpace {f : IRun → IStep} (h : Resumes Refilled e f r) :
    Resumes Refilled e (fun r => if !r.d.space then .blocked r else f r) r := by
  have hspace (x : IRun) (hx : x.d = { r.d with bitb := x.d.bitb, bitk := x.d.bitk }) : x.d.space = r.d.space := by
    rw [hx]
    rfl
  cases hs : r.d.space with
  | true => exact h.of_eq Refilled.toSameStep fun x hx => by simp [hspace x hx, hs]
  | false => exact .blocked (by simp [hs]) (.refl r) rfl

theorem stepStoredCopy_resumes (hfit : r.Fits e) : Resumes Refilled e stepStoredCopy r :=
  (resumes_afterByte hfit fun _ _ => .go rfl rfl).ifSpace

theorem stepTable_resumes (hfit : r.Fits e) : Resumes Refilled e stepTable r := by
  refine resumes_afterBits hfit fun r1 => ?_
  by_cases hbad : 29 < r1.d.peekBits 14 % 32 ∨ 29 < r1.d.peekBits 14 / 32 % 32
  · exact .ended (if_pos hbad) (if_pos hbad)
  · exact .go (if_neg hbad) (if_neg hbad)

theorem stepBtreeRead_resumes (hfit : r.Fits e) : Resumes Refilled e stepBtreeRead r :=
  resumes_afterBits hfit fun _ => .go rfl rfl

theorem stepBtreeCheck_settles : Settles e stepBtreeCheck r := by
  refine .of_more ?_ ?_
  · simp only [stepBtreeCheck, more_d]
    cases verdict r.d.blens with
    | oversubscribed => rfl
    | empty => rfl
    | complete => rfl
    | incomplete => simp only [apply_ite (IStep.more · e)]; rfl
  · simp only [stepBtreeCheck]
    cases verdict r.d.blens with
    | oversubscribed => exact trivial
    | empty => exact trivial
    | complete => exact trivial
    | incomplete => simp only []; split <;> exact trivial

theorem stepBtree_resumes (hfit : r.Fits e) : Resumes Refilled e stepBtree r := by
  have hcheck : Resumes Refilled e stepBtreeCheck r := stepBtreeCheck_settles.mono False.elim
  by_cases hread : r.d.index < r.d.ncl
  · exact (stepBtreeRead_resumes hfit).of_eq Refilled.toSameStep fun x hx => if_pos (by rw [hx]; exact hread)
  · exact hcheck.of_eq Refilled.toSameStep fun x hx => if_neg (by rw [hx]; exact hread)

theorem stepRepeat_resumes (hfit : r.Fits e) (c n : Nat) : Resumes Refilled e (·.stepRepeat c n) r := by
  refine resumes_afterBits hfit fun r1 => ?_
  by_cases hbad : r1.d.total < r1.d.lens.length
      + ((repeatShape c).2 + (r1.d.bitb.toNat >>> n) % 2 ^ (repeatShape c).1) ∨ (c = 16 ∧ r1.d.lens = [])
  · exact .ended (if_pos hbad) (if_pos hbad)
  · exact .go (if_neg hbad) (if_neg hbad)

theorem stepDtreeRead_resumes (hfit : r.Fits e) : Resumes Refilled e stepDtreeRead r := by
  refine resumes_afterSymbol hfit (code := Decompressor.blcode) (fun h => by rw [h.engine]) fun c n r1 hfit1 => ?_
  by_cases hplain : c < 16
  · exact .go (if_pos hplain) (if_pos hplain)
  · exact (stepRepeat_resumes hfit1 c n).of_eq Refilled.toSameStep fun _ _ => if_neg hplain

theorem stepDtreeCheck_settles : Settles e stepDtreeCheck r := by
  refine .of_more ?_ ?_
  · simp only [stepDtreeCheck, more_d]
    cases litError (r.d.lens.take r.d.nl) with
    | some err => rfl
    | none => cases distError ((r.d.lens.drop r.d.nl).take r.d.nd) r.d.nl <;> rfl
  · simp only [stepDtreeCheck]
    cases litError (r.d.lens.take r.d.nl) with
    | some err => exact trivial
    | none => cases distError ((r.d.lens.drop r.d.nl).take r.d.nd) r.d.nl <;> exact trivial

theorem stepDtree_resumes (hfit : r.Fits e) : Resumes Refilled e stepDtree r := by
  have hcheck : Resumes Refilled e stepDtreeCheck r := stepDtreeCheck_settles.mono False.elim
  by_cases hread : r.d.lens.length < r.d.total
  · exact (stepDtreeRead_resumes hfit).of_eq Refilled.toSameStep fun x hx => if_pos (by rw [hx]; exact hread)
  · exact hcheck.of_eq Refilled.toSameStep fun x hx => if_neg (by rw [hx]; exact hread)

theorem stepLength_resumes (hfit : r.Fits e) (k n : Nat) : Resumes Refilled e (·.stepLength k n) r :=
  resumes_afterBits hfit fun _ => .go rfl rfl

theorem stepCodesLen_resumes (hfit : r.Fits e) : Resumes Refilled e stepCodesLen r := by
  refine Resumes.ifSpace ?_
  refine resumes_afterSymbol hfit (code := Decompressor.lcode) (fun h => by rw [h.engine]) fun c n r1 hfit1 => ?_
  by_cases hliteral : c < 256
  · exact .go (if_pos hliteral) (if_pos hliteral)
  · by_cases hend : c = 256
    · exact .go ((if_neg hliteral).trans (if_pos hend)) ((if_neg hliteral).trans (if_pos hend))
    · by_cases hbad : 285 < c
      · exact .ended ((if_neg hliteral).trans ((if_neg hend).trans (if_pos hbad)))
          ((if_neg hliteral).trans ((if_neg hend).trans (if_pos hbad)))
      · exact (stepLength_resumes hfit1 (c - 257) n).of_eq Refilled.toSameStep fun _ _ =>
          (if_neg hliteral).trans ((if_neg hend).trans (if_neg hbad))

theorem stepDistance_resumes (hfit : r.Fits e) (c n : Nat) : Resumes Refilled e (·.stepDistance c n) r := by
  refine resumes_afterBits hfit fun r1 => ?_
  by_cases hfar : r1.d.hist < tableAt distBase c + (r1.d.bitb.toNat >>> n) % 2 ^ tableAt distExtra c
  · exact .ended (if_pos hfar) (if_pos hfar)
  · exact .go (if_neg hfar) (if_neg hfar)

theorem stepCodesDist_resumes (hfit : r.Fits e) : Resumes Refilled e stepCodesDist r := by
  refine resumes_afterSymbol hfit (code := Decompressor.dcode) (fun h => by rw [h.engine]) fun c n r1 hfit1 => ?_
  by_cases hbad : 29 < c
  · exact .ended (if_pos hbad) (if_pos hbad)
  · exact (stepDistance_resumes hfit1 c n).of_eq Refilled.toSameStep fun _ _ => if_neg hbad

theorem stepCodesCopy_resumes : Resumes Refilled e stepCodesCopy r :=
  Resumes.ifSpace (.go rfl rfl)

/-- WASH drops the padding even when it blocks, and then has none left to drop (R537). -/
theorem stepWash_resumes : Resumes SameStep e stepWash r := by
  by_cases hpend : r.d.pend ≠ 0
  · have hdrop : (r.d.dropBits r.d.bitk).dropBits (r.d.dropBits r.d.bitk).bitk = r.d.dropBits r.d.bitk := by
      have hnone : (r.d.dropBits r.d.bitk).bitk = 0 := Nat.sub_self _
      rw [hnone]
      rfl
    have hblocked (x : IRun) (hx : x.d.pend ≠ 0) : x.stepWash = .blocked (x.withD (x.d.dropBits x.d.bitk)) := if_pos hx
    refine .blocked (hblocked r hpend) ⟨rfl, rfl⟩ ?_
    rw [hblocked (r.more e) hpend, hblocked ((r.withD (r.d.dropBits r.d.bitk)).more e) hpend, more_d, more_d, withD_d, hdrop]
    rfl
  · exact .go (if_neg hpend) (if_neg hpend)

theorem stepWait_settles : Settles e stepWait r := by
  refine .ended (r1 := ⟨r.port.leaveWait r.d, r.d.toBad 19#8 0⟩) rfl ?_
  simp only [stepWait, Port.leaveWait_eq]
  rfl

theorem stepBlock_resumes (hfit : r.Fits e) : Resumes SameStep e stepBlock r := by
  have at_bmode {f : IRun → IStep} (heq : ∀ x : IRun, x.d.bmode = r.d.bmode → x.stepBlock = f x)
      (h : Resumes Refilled e f r) : Resumes SameStep e stepBlock r :=
    (h.mono Refilled.toSameStep).of_eq id fun x hx => heq x (by rw [hx])
  cases hb : r.d.bmode with
  | type => exact at_bmode (fun x hx => by simp only [stepBlock, hx, hb]) (stepType_resumes hfit)
  | storedLen => exact at_bmode (fun x hx => by simp only [stepBlock, hx, hb]) (stepStoredLen_resumes hfit)
  | storedCopy => exact at_bmode (fun x hx => by simp only [stepBlock, hx, hb]) (stepStoredCopy_resumes hfit)
  | table => exact at_bmode (fun x hx => by simp only [stepBlock, hx, hb]) (stepTable_resumes hfit)
  | btree => exact at_bmode (fun x hx => by simp only [stepBlock, hx, hb]) (stepBtree_resumes hfit)
  | dtree => exact at_bmode (fun x hx => by simp only [stepBlock, hx, hb]) (stepDtree_resumes hfit)
  | codesLen => exact at_bmode (fun x hx => by simp only [stepBlock, hx, hb]) (stepCodesLen_resumes hfit)
  | codesDist => exact at_bmode (fun x hx => by simp only [stepBlock, hx, hb]) (stepCodesDist_resumes hfit)
  | codesCopy => exact at_bmode (fun x hx => by simp only [stepBlock, hx, hb]) stepCodesCopy_resumes
  | wash =>
    exact stepWash_resumes.of_eq id fun x hx => by
      have hbx : x.d.bmode = .wash := by rw [hx]; exact hb
      simp only [stepBlock, hbx]

theorem step_resumes (hfit : r.Fits e) : Resumes SameStep e step r := by
  have at_mode {f : IRun → IStep} (heq : ∀ x : IRun, x.d.mode = r.d.mode → x.step = f x)
      (h : Resumes SameStep e f r) : Resumes SameStep e step r :=
    h.of_eq id fun x hx => heq x (by rw [hx])
  cases hm : r.d.mode with
  | headerMethod =>
    exact at_mode (fun x hx => by simp only [step, hx, hm]) ((stepMethod_resumes hfit).mono Refilled.toSameStep)
  | headerFlags =>
    exact at_mode (fun x hx => by simp only [step, hx, hm]) ((stepFlags_resumes hfit).mono Refilled.toSameStep)
  | dictId =>
    exact at_mode (fun x hx => by simp only [step, hx, hm]) ((stepDictId_resumes hfit).mono Refilled.toSameStep)
  | waitForDictionary => exact at_mode (fun x hx => by simp only [step, hx, hm]) (stepWait_settles.mono False.elim)
  | blocks => exact at_mode (fun x hx => by simp only [step, hx, hm]) (stepBlock_resumes hfit)
  | trailerChecksum =>
    exact at_mode (fun x hx => by simp only [step, hx, hm]) ((stepTrailer_resumes hfit).mono Refilled.toSameStep)
  | done => exact at_mode (f := (.ended · .streamEnd)) (fun x hx => by simp only [step, hx, hm]) (.ended rfl rfl)
  | bad => exact at_mode (f := (.ended · .dataError)) (fun x hx => by simp only [step, hx, hm]) (.ended rfl rfl)

end

end IRun

end Sys2Proof.Machine
end

section
/-!
A call of INFLATE with its input split in two (45_inflate.md R544).
-/

namespace Sys2Proof.Machine

open Sys2Proof.Claims

namespace IRun

theorem Drained.of_sameStep {r r1 : IRun} (h : r.Drained) (hsame : r.SameStep r1) : r1.Drained := by
  unfold Drained
  rw [hsame.engine, hsame.availOut]
  exact h

theorem Drained.more {r : IRun} (h : r.Drained) (e : Word) : (r.more e).Drained := h

/-- A step takes no byte that was not on offer. -/
theorem fits_of_go {r r1 : IRun} {e : Word} (hfit : r.Fits e) (h : r.drain.step = .go r1) : r1.Fits e := by
  have hmoves := ((Advances.drain r).trans (Advances.step r.drain)).port
  rw [h] at hmoves
  obtain ⟨hle, -⟩ := hmoves.input
  exact (Nat.add_le_add_right hle _).trans_lt hfit

theorem drain_fits {r : IRun} {e : Word} (hfit : r.Fits e) : r.drain.Fits e := by
  obtain ⟨-, hin, -⟩ := r.drain_input
  unfold Fits
  rw [hin]
  exact hfit

/-- Two runs whose first steps come to the same end where they end alike. -/
theorem loop_congr {r r1 : IRun} {fuel fuel' : Nat} (hstep : r.drain.step = r1.drain.step) (h : r.measure < fuel)
    (h' : r1.measure < fuel') : loop fuel r = loop fuel' r1 := by
  obtain ⟨fuel, rfl⟩ := Nat.exists_eq_succ_of_ne_zero (Nat.ne_zero_of_lt h)
  obtain ⟨fuel', rfl⟩ := Nat.exists_eq_succ_of_ne_zero (Nat.ne_zero_of_lt h')
  cases hs : r.drain.step with
  | go r2 =>
    have hs' := hstep.symm.trans hs
    have hless := measure_lt_of_go hs
    have hless' := measure_lt_of_go hs'
    rw [loop_succ_of_go hs, loop_succ_of_go hs']
    exact loop_fuel (by omega) (by omega)
  | blocked r2 => rw [loop_succ_of_blocked hs, loop_succ_of_blocked (hstep.symm.trans hs)]
  | ended r2 st => rw [loop_succ_of_ended hs, loop_succ_of_ended (hstep.symm.trans hs)]

/-- The loop, with enough fuel, when more input is on offer: where it blocked it goes on, and where it ended it ends. -/
theorem loop_more {r r1 : IRun} {e : Word} {st : Option Status} {fuel fuel' : Nat} (hfit : r.Fits e) (h : r.measure < fuel)
    (hloop : loop fuel r = (r1, st)) (h' : (r.more e).measure < fuel') :
    (st = none →
      r1.Drained ∧ ∀ fuel1, (r1.more e).measure < fuel1 → loop fuel' (r.more e) = loop fuel1 (r1.more e))
    ∧ (st ≠ none → loop fuel' (r.more e) = (r1.more e, st)) := by
  induction fuel generalizing r fuel' with
  | zero => exact absurd h (Nat.not_lt_zero _)
  | succ fuel ih =>
    cases r.drain.step_resumes (drain_fits hfit) with
    | @go r2 hs hmore =>
      rw [← drain_more] at hmore
      have hless := measure_lt_of_go hs
      have hless' := measure_lt_of_go hmore
      obtain ⟨fuel', rfl⟩ := Nat.exists_eq_succ_of_ne_zero (Nat.ne_zero_of_lt h')
      rw [loop_succ_of_go hs] at hloop
      rw [loop_succ_of_go hmore]
      exact ih (fits_of_go hfit hs) (by omega) hloop (fuel' := fuel') (by omega)
    | @blocked r2 hs hsame hmore =>
      rw [loop_succ_of_blocked hs] at hloop
      obtain ⟨rfl, rfl⟩ := Prod.mk.inj hloop
      have hdrained := r.drained_drain.of_sameStep hsame
      rw [← drain_more, ← (hdrained.more e).drain_eq] at hmore
      exact ⟨fun _ => ⟨hdrained, fun _ h1 => loop_congr hmore h' h1⟩, fun hne => absurd rfl hne⟩
    | @ended r2 st' hs hmore =>
      rw [← drain_more] at hmore
      obtain ⟨fuel', rfl⟩ := Nat.exists_eq_succ_of_ne_zero (Nat.ne_zero_of_lt h')
      rw [loop_succ_of_ended hs] at hloop
      obtain ⟨rfl, rfl⟩ := Prod.mk.inj hloop
      exact ⟨nofun, fun _ => loop_succ_of_ended hmore fuel'⟩

/-! ## The call -/

variable {r : IRun} {e : Word}

/-- A call is its loop and a last drain. -/
theorem exists_loop (r : IRun) : ∃ r1 st, loop r.stepBound r = (r1, st) ∧ r.inflate = (r1.drain, st) :=
  ⟨_, _, rfl, rfl⟩

/-- A call that left the stream unfinished goes on as one call over all the input does. -/
theorem inflate_more_of_unfinished (hfit : r.Fits e) (h : r.inflate.2 = none) :
    (r.inflate.1.more e).inflate = (r.more e).inflate := by
  obtain ⟨r1, st, hloop, hrun⟩ := r.exists_loop
  obtain ⟨hgoesOn, -⟩ := loop_more hfit r.measure_lt_stepBound hloop (r.more e).measure_lt_stepBound
  rw [hrun] at h ⊢
  obtain ⟨hdrained, hmore⟩ := hgoesOn h
  rw [hdrained.drain_eq, inflate, inflate, hmore _ (measure_lt_stepBound _)]

/-- A call that ended the stream, or failed, does so with more input too, and leaves it unread. -/
theorem inflate_more_of_ended {st : Status} (hfit : r.Fits e) (h : r.inflate.2 = some st) :
    (r.more e).inflate = (r.inflate.1.more e, some st) := by
  obtain ⟨r1, st', hloop, hrun⟩ := r.exists_loop
  obtain ⟨-, hends⟩ := loop_more hfit r.measure_lt_stepBound hloop (r.more e).measure_lt_stepBound
  rw [hrun] at h ⊢
  obtain rfl : st' = some st := h
  rw [inflate, hends nofun, drain_more]

/-- The statement's way to offer `m` more bytes. -/
theorem withInput_add (r : IRun) (m : Nat) : withInput r (r.port.availIn.toNat + m) = r.more (Word.ofNat m) := by
  have hsum : Word.ofNat (r.port.availIn.toNat + m) = r.port.availIn + Word.ofNat m := by simp [BitVec.ofNat_add]
  rw [withInput, hsum]
  rfl

end IRun

/-- Settles O56: the second part of the input is more input on offer to the first call. -/
theorem inflateResumes : Obligations.InflateResumes := by
  intro r k m hkm
  have hk : (withInput r k).port.availIn.toNat = k := Nat.mod_eq_of_lt (by omega)
  have hm : (Word.ofNat m).toNat = m := Nat.mod_eq_of_lt (by omega)
  have hfit : (withInput r k).Fits (Word.ofNat m) := by
    unfold IRun.Fits
    rwa [hk, hm]
  have hboth : withInput r (k + m) = (withInput r k).more (Word.ofNat m) := by
    rw [← IRun.withInput_add, hk]
    rfl
  rw [IRun.withInput_add, hboth]
  exact ⟨IRun.inflate_more_of_unfinished hfit, fun st => IRun.inflate_more_of_ended hfit⟩

end Sys2Proof.Machine
end

section
/-!
Canonical codes in closed form (46_huffman.md R620, R621), their decoding (R631), and the command HCANON (R641). Every rule
here turns on one sum, `Claims.firstCode`: it doubles from length to length, and ends as twice the Kraft sum.
-/

namespace Sys2Proof.Machine

open Sys2Proof.Claims

/-! ## The counts of the lengths (R620) -/

/-- Counting the lengths of an array on top of counts already there. -/
theorem get_foldl_lengthCounts {lens : List Nat} (h : ∀ l ∈ lens, l ≤ 15) (c : Ram Nat) (b : Nat) :
    (lens.foldl (fun c l => if l = 0 then c else c.set l (c.get l + 1)) c).get b
      = c.get b + if b = 0 then 0 else lens.count b := by
  induction lens generalizing c with
  | nil => simp
  | cons l ls ih =>
    obtain ⟨hl, hls⟩ := List.forall_mem_cons.mp h
    rw [List.foldl_cons, ih hls]
    by_cases hl0 : l = 0
    · by_cases hb : b = 0 <;> simp [hl0, hb, Ne.symm]
    · rw [if_neg hl0, Ram.get_set _ _ _ _ (by omega)]
      by_cases hb : b = l
      · simp [hb, hl0]
        omega
      · simp [hb, Ne.symm hb]

theorem get_lengthCounts {lens : List Nat} (h : ∀ l ∈ lens, l ≤ 15) (b : Nat) :
    (lengthCounts lens).get b = if b = 0 then 0 else lens.count b := by
  rw [lengthCounts, get_foldl_lengthCounts h, Ram.get_nil, Nat.default_eq_zero, Nat.zero_add]

theorem lengthCount_eq_count (lens : List Nat) (b : Nat) : lengthCount lens b = lens.count b := rfl

/-! ## The first code of a length (R620) -/

@[simp] theorem firstCode_zero (lens : List Nat) : firstCode lens 0 = 0 := rfl

theorem firstCode_eq_sum (lens : List Nat) (l : Nat) :
    firstCode lens l = ∑ j ∈ Finset.range l, if j = 0 then 0 else lens.count j * 2 ^ (l - j) := rfl

/-- The step of R620: the codes of a length, and those below them, are doubled at the next length. -/
theorem firstCode_succ (lens : List Nat) (l : Nat) :
    firstCode lens (l + 1) = 2 * (firstCode lens l + if l = 0 then 0 else lens.count l) := by
  rw [firstCode_eq_sum, firstCode_eq_sum, Finset.sum_range_succ, Nat.mul_add, Finset.mul_sum]
  refine congrArg₂ _ (Finset.sum_congr rfl fun j hj => ?_) ?_
  · rw [Nat.succ_sub (Finset.mem_range.mp hj).le, pow_succ]
    split <;> ring
  · rw [Nat.add_sub_cancel_left]
    split <;> ring

/-- Later first codes are at least the doublings of earlier ones. -/
theorem firstCode_mul_le (lens : List Nat) (l d : Nat) : firstCode lens l * 2 ^ d ≤ firstCode lens (l + d) := by
  induction d with
  | zero => simp
  | succ d ih =>
    rw [← Nat.add_assoc, firstCode_succ, pow_succ, ← Nat.mul_assoc]
    omega

/-- With lengths of at most 15 the first code of length 16 is twice the Kraft sum (R621). -/
theorem firstCode_sixteen {lens : List Nat} (h : ∀ l ∈ lens, l ≤ 15) : firstCode lens 16 = 2 * kraft lens := by
  induction lens with
  | nil => rfl
  | cons l ls ih =>
    obtain ⟨hl, hls⟩ := List.forall_mem_cons.mp h
    have hsum : firstCode (l :: ls) 16 = firstCode ls 16 + if l = 0 then 0 else 2 ^ (16 - l) := by
      have hl : l ∈ Finset.range 16 := Finset.mem_range.mpr (by omega)
      rw [firstCode_eq_sum, firstCode_eq_sum,
        ← Finset.sum_ite_eq_of_mem' _ l (fun j => if j = 0 then 0 else 2 ^ (16 - j)) hl, ← Finset.sum_add_distrib]
      refine Finset.sum_congr rfl fun j _ => ?_
      by_cases hj : j = l
      · subst hj
        simp only [List.count_cons_self, if_true]
        split <;> ring
      · simp [hj, Ne.symm hj]
    have hkraft : kraft (l :: ls) = (if l = 0 then 0 else 2 ^ (15 - l)) + kraft ls := rfl
    rw [hsum, ih hls, hkraft, Nat.succ_sub hl, pow_succ]
    split <;> omega

/-- In a code that is not over-subscribed the codes up to a length fit in that length (R621). -/
theorem firstCode_add_count_le {lens : List Nat} (h : ∀ l ∈ lens, l ≤ 15) (hk : kraft lens ≤ 2 ^ 15) {l : Nat}
    (hl0 : l ≠ 0) (hl : l ≤ 15) : firstCode lens l + lens.count l ≤ 2 ^ l := by
  have hsucc := firstCode_succ lens l
  rw [if_neg hl0] at hsucc
  have hmul := firstCode_mul_le lens (l + 1) (15 - l)
  rw [show l + 1 + (15 - l) = 16 by omega, firstCode_sixteen h] at hmul
  have hpow : 2 ^ l * 2 ^ (15 - l) = 2 ^ 15 := by rw [← pow_add, Nat.add_sub_cancel' hl]
  have : (firstCode lens l + lens.count l) * 2 ^ (15 - l) ≤ 2 ^ l * 2 ^ (15 - l) := by
    rw [hpow]
    calc _ ≤ kraft lens := by rw [hsucc, Nat.mul_assoc] at hmul; omega
      _ ≤ _ := hk
  exact Nat.le_of_mul_le_mul_right this (by positivity)

/-! ## The canonical codes (R620) -/

theorem getD_le {lens : List Nat} {m : Nat} (h : ∀ l ∈ lens, l ≤ m) {k : Nat} (hk : k < lens.length) :
    lens.getD k 0 ≤ m := by
  rw [List.getD_eq_getElem _ _ hk]
  exact h _ (List.getElem_mem hk)

/-- `next_code[b]`, computed from length `b + 1` on, is the first code of each length. -/
theorem get_firstCodes {lens : List Nat} (h : ∀ l ∈ lens, l ≤ 15) (fuel b : Nat) (next : Ram Nat) (x : Nat)
    (hfit : b + fuel ≤ 15) :
    (firstCodes (lengthCounts lens) fuel (b + 1) (firstCode lens b) next).get x
      = if b < x ∧ x ≤ b + fuel then firstCode lens x else next.get x := by
  induction fuel generalizing b next with
  | zero => rw [if_neg (by omega)]; rfl
  | succ fuel ih =>
    rw [firstCodes, Nat.add_sub_cancel, get_lengthCounts h, ← firstCode_succ, ih _ _ (by omega),
      Ram.get_set _ _ _ _ (by omega)]
    by_cases hx : x = b + 1
    · subst hx
      rw [if_neg (by omega), if_pos rfl, if_pos (by omega)]
    · simp only [hx, if_false, show b + 1 < x ∧ x ≤ b + 1 + fuel ↔ b < x ∧ x ≤ b + (fuel + 1) by omega]

theorem getD_assignCodes_of_zero {lens : List Nat} {k : Nat} (hl : lens.getD k 0 = 0) (next : Ram Nat) :
    (assignCodes next lens).getD k 0 = 0 := by
  induction lens generalizing next k with
  | nil => rfl
  | cons x xs ih =>
    cases k with
    | zero =>
      obtain rfl : x = 0 := by simpa using hl
      rfl
    | succ k =>
      rw [List.getD_cons_succ] at hl
      rw [assignCodes]
      split <;> exact ih hl _

/-- A symbol's code is the next code of its length, moved on by the earlier symbols of that length. -/
theorem getD_assignCodes {lens : List Nat} (h : ∀ x ∈ lens, x ≤ 15) {k l : Nat} (hl : lens.getD k 0 = l) (hl0 : l ≠ 0)
    (next : Ram Nat) : (assignCodes next lens).getD k 0 = next.get l + (lens.take k).count l := by
  induction lens generalizing next k with
  | nil => exact absurd hl.symm hl0
  | cons x xs ih =>
    obtain ⟨hx, hxs⟩ := List.forall_mem_cons.mp h
    cases k with
    | zero =>
      obtain rfl : x = l := hl
      simp [assignCodes, hl0]
    | succ k =>
      rw [List.getD_cons_succ] at hl
      rw [assignCodes, List.take_succ_cons]
      split
      · next hx0 => rw [List.getD_cons_succ, ih hxs hl, List.count_cons_of_ne (hx0 ▸ hl0.symm)]
      · rw [List.getD_cons_succ, ih hxs hl, Ram.get_set _ _ _ _ (by omega)]
        by_cases hxl : l = x
        · subst hxl
          rw [if_pos rfl, List.count_cons_self]
          omega
        · rw [if_neg hxl, List.count_cons_of_ne (Ne.symm hxl)]

theorem getD_canonCodes {lens : List Nat} (h : ∀ l ∈ lens, l ≤ 15) {k : Nat} (hk : k < lens.length) :
    (canonCodes lens).getD k 0
      = if lens.getD k 0 = 0 then 0 else firstCode lens (lens.getD k 0) + (lens.take k).count (lens.getD k 0) := by
  split
  · next hl0 => exact getD_assignCodes_of_zero hl0 _
  · next hl0 =>
    have hle := getD_le h hk
    have hfirst := get_firstCodes h 15 0 .nil (lens.getD k 0) (Nat.le_refl 15)
    rw [if_pos (by omega), firstCode_zero] at hfirst
    rw [canonCodes, getD_assignCodes h rfl hl0, hfirst]

/-- Settles O43. -/
theorem canonicalCodes : Obligations.CanonicalCodes :=
  fun lens h => ⟨canonCodes_length lens, fun _ hk => getD_canonCodes h hk⟩

/-- A symbol comes after fewer symbols of its length than there are. -/
theorem count_take_lt (lens : List Nat) {k : Nat} (hk : k < lens.length) :
    (lens.take k).count (lens.getD k 0) < lens.count (lens.getD k 0) := by
  have hsplit : lens.take k ++ lens[k] :: lens.drop (k + 1) = lens := by
    rw [← List.drop_eq_getElem_cons hk, List.take_append_drop]
  have hcount := congrArg (List.count lens[k]) hsplit
  rw [List.count_append, List.count_cons_self] at hcount
  rw [List.getD_eq_getElem _ _ hk]
  omega

/-- In a code that is not over-subscribed every code fits in its length (R621). -/
theorem getD_canonCodes_lt {lens : List Nat} (h : ∀ l ∈ lens, l ≤ 15) (hkraft : kraft lens ≤ 2 ^ 15) {k : Nat}
    (hk : k < lens.length) : (canonCodes lens).getD k 0 < 2 ^ lens.getD k 0 := by
  rw [getD_canonCodes h hk]
  split
  · positivity
  · next hl0 =>
    have hle := getD_le h hk
    exact (Nat.add_lt_add_left (count_take_lt lens hk) _).trans_le (firstCode_add_count_le h hkraft hl0 hle)

/-! ## The Kraft verdict (R621) -/

/-- The loop of R621 from length `b + 1` on, `left` the codes left at length `b`. -/
theorem kraftLoop_eq {lens : List Nat} (h : ∀ l ∈ lens, l ≤ 15) {fuel b left : Nat} (hb : b + fuel = 15)
    (hleft : 2 * left + firstCode lens (b + 1) = 2 ^ (b + 1)) :
    kraftLoop (lengthCounts lens) fuel (b + 1) left
      = if 2 ^ 15 < kraft lens then .oversubscribed else if kraft lens = 2 ^ 15 then .complete else .incomplete := by
  induction fuel generalizing b left with
  | zero =>
    obtain rfl : b = 15 := hb
    rw [firstCode_sixteen h] at hleft
    rw [kraftLoop, if_neg (by omega : ¬ 2 ^ 15 < kraft lens)]
    simp only [show left = 0 ↔ kraft lens = 2 ^ 15 by omega]
  | succ fuel ih =>
    have hsucc := firstCode_succ lens (b + 1)
    rw [if_neg (Nat.succ_ne_zero b)] at hsucc
    rw [kraftLoop, get_lengthCounts h, if_neg (Nat.succ_ne_zero b)]
    split
    · have hmul := firstCode_mul_le lens (b + 1 + 1) fuel
      rw [show b + 1 + 1 + fuel = 16 by omega, firstCode_sixteen h] at hmul
      have hover : 2 ^ (b + 1 + 1) < firstCode lens (b + 1 + 1) := by rw [pow_succ]; omega
      have : 2 ^ (b + 1 + 1) * 2 ^ fuel = 2 ^ 16 := by rw [← pow_add]; congr 1; omega
      have := Nat.mul_lt_mul_of_pos_right hover (show 0 < 2 ^ fuel by positivity)
      rw [if_pos (by omega)]
    · exact ih (by omega) (by rw [pow_succ]; omega)

theorem verdict_eq {lens : List Nat} (h : ∀ l ∈ lens, l ≤ 15) :
    verdict lens
      = if lens.all (fun l => l == 0) then .empty
        else if 2 ^ 15 < kraft lens then .oversubscribed
        else if kraft lens = 2 ^ 15 then .complete else .incomplete := by
  rw [verdict, kraftLoop_eq h (b := 0) rfl (by simp [firstCode_succ])]

/-- An array of zeros has the Kraft sum 0. -/
theorem kraft_eq_zero {lens : List Nat} (h : lens.all (fun l => l == 0) = true) : kraft lens = 0 := by
  refine List.sum_eq_zero fun w hw => ?_
  obtain ⟨l, hl, rfl⟩ := List.mem_map.mp hw
  exact if_pos (by simpa using List.all_eq_true.mp h l hl)

/-! ## Decoding (R631) -/

theorem max?_eq_maxLen {lens : List Nat} (h : lens ≠ []) : lens.max? = some (maxLen lens) := by
  cases lens with
  | nil => exact absurd rfl h
  | cons l ls => simp [List.max?, maxLen]

theorem biReverse_lt (v n : Nat) : biReverse v n < 2 ^ n := by
  induction n generalizing v with
  | zero => simp [biReverse]
  | succ n ih =>
    have := ih (v / 2)
    have hbit : v % 2 * 2 ^ n ≤ 1 * 2 ^ n := Nat.mul_le_mul_right _ (by omega)
    rw [biReverse, pow_succ]
    omega

/-- Bit `i` of a reversed value is the value's bit at the same place from the top. -/
theorem testBit_biReverse (v : Nat) {n i : Nat} (hi : i < n) : (biReverse v n).testBit i = v.testBit (n - 1 - i) := by
  induction n generalizing v with
  | zero => omega
  | succ n ih =>
    rw [biReverse, Nat.mul_comm]
    by_cases hin : i < n
    · rw [Nat.testBit_two_pow_mul_add _ (biReverse_lt _ _), if_pos hin, ih _ hin, Nat.testBit_div_two]
      congr 1
      omega
    · obtain rfl : i = n := by omega
      rw [Nat.testBit_two_pow_mul_add _ (biReverse_lt _ _), if_neg hin]
      simp [Nat.testBit_zero]

/-- Among the symbols of its length a symbol has the number of the earlier ones as its index. -/
theorem symbolsOfLength_getElem? {lens : List Nat} {k l : Nat} (hk : k < lens.length) (hl : lens.getD k 0 = l) (s : Nat) :
    (symbolsOfLength l lens s)[(lens.take k).count l]? = some (s + k) := by
  induction lens generalizing k s with
  | nil => cases hk
  | cons x xs ih =>
    cases k with
    | zero =>
      obtain rfl : x = l := hl
      simp [symbolsOfLength]
    | succ k =>
      have hnext := ih (Nat.lt_of_succ_lt_succ hk) hl (s + 1)
      rw [Nat.add_assoc, Nat.add_comm 1 k] at hnext
      rw [symbolsOfLength, List.take_succ_cons]
      split
      · next hx => rw [hx, List.count_cons_self, List.getElem?_cons_succ, hnext]
      · next hx => rw [List.count_cons_of_ne hx, hnext]

/-- One more bit of a code that stands bit-reversed at the beginning of `bits`. -/
theorem two_mul_div_add_bit {bits code l j : Nat} (hbits : bits % 2 ^ l = biReverse code l) (hj : 1 ≤ j) (hjl : j ≤ l) :
    2 * (code / 2 ^ (l + 1 - j)) + (bits >>> (j - 1)) % 2 = code / 2 ^ (l - j) := by
  have hbit : (bits >>> (j - 1)) % 2 = code / 2 ^ (l - j) % 2 := by
    have htest : bits.testBit (j - 1) = code.testBit (l - j) := by
      have hmod := Nat.testBit_mod_two_pow bits l (j - 1)
      rw [hbits, testBit_biReverse code (by omega), show l - 1 - (j - 1) = l - j by omega] at hmod
      rw [hmod, decide_eq_true (by omega : j - 1 < l), Bool.true_and]
    rw [Nat.shiftRight_eq_div_pow, ← Nat.toNat_testBit, htest, Nat.toNat_testBit]
  rw [hbit, show l + 1 - j = l - j + 1 by omega, pow_succ, ← Nat.div_div_eq_div_mul, Nat.div_add_mod]

section

variable {lens : List Nat} (h : ∀ l ∈ lens, l ≤ 15) {k l : Nat} (hk : k < lens.length) (hl : lens.getD k 0 = l)
  (hl0 : l ≠ 0)
include h hk hl hl0

/-- Up to a length below its own the codes end below the beginning of a symbol's code. -/
theorem firstCode_add_count_le_div {j : Nat} (hj : j ≠ 0) (hjl : j < l) :
    firstCode lens j + lens.count j ≤ (canonCodes lens).getD k 0 / 2 ^ (l - j) := by
  have hcode := getD_canonCodes h hk
  rw [hl, if_neg hl0] at hcode
  have hsucc := firstCode_succ lens j
  rw [if_neg hj] at hsucc
  have hmul := firstCode_mul_le lens (j + 1) (l - (j + 1))
  rw [Nat.add_sub_cancel' hjl, hsucc] at hmul
  rw [Nat.le_div_iff_mul_le (by positivity), show l - j = l - (j + 1) + 1 by omega, pow_succ]
  calc _ = 2 * (firstCode lens j + lens.count j) * 2 ^ (l - (j + 1)) := by ring
    _ ≤ firstCode lens l := hmul
    _ ≤ _ := by omega

/-- The loop of R631 at a length `j` up to the symbol's: the bits so far are those of its code. -/
theorem canonLoop_eq {bits : Nat} (hbits : bits % 2 ^ l = biReverse ((canonCodes lens).getD k 0) l) (bitk : Nat)
    {fuel j : Nat} (hj : 1 ≤ j) (hjl : j ≤ l) (hfuel : l < j + fuel) :
    canonLoop lens bits bitk fuel j (2 * ((canonCodes lens).getD k 0 / 2 ^ (l + 1 - j))) (firstCode lens j)
      = if l ≤ bitk then .sym k l else .needMoreBits := by
  induction fuel generalizing j with
  | zero => omega
  | succ fuel ih =>
    unfold canonLoop
    simp only [two_mul_div_add_bit hbits hj hjl, lengthCount_eq_count]
    split
    · rw [if_neg (by omega)]
    · rcases hjl.eq_or_lt with rfl | hlt
      · have hcode := getD_canonCodes h hk
        rw [hl, if_neg hl0] at hcode
        have hcount := count_take_lt lens hk
        rw [hl] at hcount
        rw [Nat.sub_self, pow_zero, Nat.div_one, if_pos (by omega), if_pos (by omega), hcode, Nat.add_sub_cancel_left,
          symbolsOfLength_getElem? hk hl, Nat.zero_add]
      · have hbelow := firstCode_add_count_le_div h hk hl hl0 (by omega) hlt
        have hsucc := firstCode_succ lens j
        rw [if_neg (by omega)] at hsucc
        rw [if_neg (by omega), ← hsucc, show l - j = l + 1 - (j + 1) by omega]
        exact ih (by omega) hlt (by omega)

end

/-- Settles O44: `canonLoop_eq` from length 1 on. -/
theorem decodingInvertsAssignment : Obligations.DecodingInvertsAssignment := by
  intro lens k bits bitk h hkraft hk hl0 hbits
  have hmem : lens.getD k 0 ∈ lens := by
    rw [List.getD_eq_getElem _ _ hk]
    exact List.getElem_mem hk
  have hmax := (List.max?_eq_some_iff.mp (max?_eq_maxLen (List.ne_nil_of_mem hmem))).2 _ hmem
  have hloop := canonLoop_eq h hk rfl hl0 hbits bitk (fuel := maxLen lens) (Nat.le_refl 1) (by omega) (by omega)
  rw [Nat.add_sub_cancel, Nat.div_eq_of_lt (getD_canonCodes_lt h hkraft hk)] at hloop
  have hdecode : canonDecode lens bits bitk = _ := hloop
  rw [hdecode]
  exact ⟨fun hle => if_pos hle, fun hlt => if_neg (by omega)⟩

/-! ## HCANON (R641) -/

/-- The codes of a code that is not over-subscribed are u16 elements. -/
theorem canonCodes_lt {lens : List Nat} (h : ∀ l ∈ lens, l ≤ 15) (hkraft : kraft lens ≤ 2 ^ 15) :
    ∀ v ∈ canonCodes lens, v < 65536 := by
  intro v hv
  obtain ⟨k, hk, rfl⟩ := List.mem_iff_getElem.mp hv
  have hk' : k < lens.length := canonCodes_length lens ▸ hk
  have hlt := getD_canonCodes_lt h hkraft hk'
  rw [List.getD_eq_getElem _ _ hk] at hlt
  exact hlt.trans (Nat.pow_lt_pow_right (n := 16) (by decide) (Nat.lt_succ_of_le (getD_le h hk')))

theorem rangesOk_of_not_bad {s : State} {a n b m : Nat} (h : ¬ (outside s a n ∨ outside s b m ∨ clash a n b m)) :
    (validRange s.memSize a n && validRange s.memSize b m && !overlap a n b m) = true := by
  rwa [badPair_iff, Bool.not_eq_false] at h

theorem execHcanon_of_good {s : State} {lens : List Nat} (hn : 1 ≤ s.arg1.toNat ∧ s.arg1.toNat ≤ 320)
    (hok : s.hcanonRangesOk = true) (hlens : lens = (s.port.mem.readRun s.arg0.toNat s.arg1.toNat).map BitVec.toNat)
    (h : ∀ l ∈ lens, l ≤ 15) : execHcanon s = .next (s.hcanonResult lens) := by
  subst hlens
  rw [execHcanon, if_neg (by omega), hok, if_neg (by decide)]
  refine if_neg fun hany => ?_
  obtain ⟨l, hl, hlt⟩ := List.any_eq_true.mp hany
  exact absurd (h l hl) (Nat.not_le.mpr (of_decide_eq_true hlt))

/-- HCANON's result by the Kraft sum: an empty array is incomplete as well. -/
theorem State.hcanonResult_eq (s : State) {lens : List Nat} (h : ∀ l ∈ lens, l ≤ 15) :
    s.hcanonResult lens
      = { s with
          rval := Word.ofNat (maxLen lens)
          result := if 2 ^ 15 < kraft lens then .dataError else if kraft lens = 2 ^ 15 then .ok else .bufError
          port := { s.port with
            mem := if 2 ^ 15 < kraft lens then s.port.mem
              else s.port.mem.writeRun s.arg2.toNat (u16Bytes (canonCodes lens)) } } := by
  unfold State.hcanonResult
  rw [verdict_eq h]
  by_cases hzero : lens.all (fun l => l == 0) = true
  · simp [hzero, kraft_eq_zero hzero, State.ret]
  · rw [if_neg hzero]
    by_cases hover : 2 ^ 15 < kraft lens
    · simp only [if_pos hover]; rfl
    · by_cases hfull : kraft lens = 2 ^ 15
      · simp only [if_neg hover, if_pos hfull]; rfl
      · simp only [if_neg hover, if_neg hfull]; rfl

/-- Settles O46: the statuses by `hcanonResult_eq`, the stored codes by `Memory.readU16s_writeRun`. -/
theorem hcanonStoresCodes : Obligations.HcanonStoresCodes := by
  intro s n lens hn h1 h320 hgood hwf hlens h
  subst hn
  have hok : s.hcanonRangesOk = true := rangesOk_of_not_bad hgood
  have hlen : lens.length = s.arg1.toNat := by simp [hlens]
  have hne : lens ≠ [] := fun hnil => by simp [hnil] at hlen; omega
  obtain ⟨hmem, hmax⟩ := List.max?_eq_some_iff.mp (max?_eq_maxLen hne)
  have hexec : exec .hcanon s = .next (s.hcanonResult lens) := execHcanon_of_good ⟨h1, h320⟩ hok hlens h
  refine ⟨_, maxLen lens, _, hexec.trans (congrArg _ (s.hcanonResult_eq h)), hmem, hmax, fun hover => ?_, fun hfull => ?_,
    fun hunder => ?_, fun hle => ?_⟩
  · exact ⟨if_pos hover, if_pos hover⟩
  · rw [if_neg (by omega), if_pos hfull]
  · rw [if_neg (by omega), if_neg (by omega)]
  · rw [if_neg (by omega), ← hlen, ← canonCodes_length lens]
    exact Memory.readU16s_writeRun _ _ _ hwf (canonCodes_lt h hle)

end Sys2Proof.Machine
end

section
/-!
The heap of the tree builder (46_huffman.md R610–R612). That a built code is complete does not depend on the heap's order:
what counts is that sinking only rearranges the nodes on the heap, and that a merge takes two of them off and puts their
parent on.
-/

namespace Sys2Proof.Machine

/-! ## The nodes at some positions -/

/-- The nodes at a set of heap positions. -/
def Ram.nodesAt (h : Ram Nat) (s : Finset Nat) : Multiset Nat := s.val.map h.get

theorem Ram.nodesAt_erase (h : Ram Nat) {s : Finset Nat} {k : Nat} (hk : k ∈ s) :
    h.nodesAt s = h.get k ::ₘ h.nodesAt (s.erase k) := by
  rw [nodesAt, nodesAt, Finset.erase_val, ← Multiset.map_cons, Multiset.cons_erase hk]

theorem Ram.nodesAt_congr {h h' : Ram Nat} {s : Finset Nat} (heq : ∀ x ∈ s, h.get x = h'.get x) :
    h.nodesAt s = h'.nodesAt s := Multiset.map_congr rfl heq

theorem Ram.nodesAt_set_of_notMem (h : Ram Nat) {s : Finset Nat} {k : Nat} (hk : k ∉ s) (hfit : k + 1 < 2 ^ 20)
    (v : Nat) : (h.set k v).nodesAt s = h.nodesAt s :=
  nodesAt_congr fun x hx => by rw [Ram.get_set _ _ _ _ hfit, if_neg (ne_of_mem_of_not_mem hx hk)]

/-- Writing one position replaces the node there. -/
theorem Ram.nodesAt_set (h : Ram Nat) {s : Finset Nat} {k : Nat} (hk : k ∈ s) (hfit : k + 1 < 2 ^ 20) (v : Nat) :
    (h.set k v).nodesAt s = v ::ₘ h.nodesAt (s.erase k) := by
  rw [nodesAt_erase _ hk, Ram.get_set _ _ _ _ hfit, if_pos rfl, nodesAt_set_of_notMem _ (Finset.notMem_erase k s) hfit]

/-- Moving the node at `c` to `k` and writing `v` at `c` leaves the nodes that writing `v` at `k` does. -/
theorem Ram.nodesAt_swap (h : Ram Nat) {s : Finset Nat} {k c : Nat} (hk : k ∈ s) (hc : c ∈ s) (hne : k ≠ c)
    (hkfit : k + 1 < 2 ^ 20) (hcfit : c + 1 < 2 ^ 20) (v : Nat) :
    ((h.set k (h.get c)).set c v).nodesAt s = (h.set k v).nodesAt s := by
  rw [nodesAt_set _ hc hcfit, nodesAt_set _ (Finset.mem_erase.mpr ⟨hne, hk⟩) hkfit, nodesAt_set _ hk hkfit,
    nodesAt_erase h (Finset.mem_erase.mpr ⟨hne.symm, hc⟩), Finset.erase_right_comm]

/-! ## Sinking (R611) -/

namespace Builder

/-- The nodes on the heap: the roots of the trees built so far (R612). -/
def roots (b : Builder) : Multiset Nat := b.heap.nodesAt (Finset.Icc 1 b.heapLen)

@[simp] theorem card_roots (b : Builder) : b.roots.card = b.heapLen := by simp [roots, Ram.nodesAt]

/-- From `b` to `b'` the heap's nodes were rearranged, at most. -/
structure Rearranges (b b' : Builder) : Prop where
  fields : b' = { b with heap := b'.heap }
  roots : b'.roots = b.roots
  above : ∀ x, b.heapLen < x → b'.heap.get x = b.heap.get x

theorem child_bounds (b : Builder) {j : Nat} (hj : j ≤ b.heapLen) : j ≤ b.child j ∧ b.child j ≤ b.heapLen := by
  unfold child
  split
  · next h =>
    have hlt : j < b.heapLen := of_decide_eq_true (Bool.and_eq_true_iff.mp h).1
    omega
  · omega

theorem Rearranges.refl (b : Builder) : b.Rearranges b := ⟨rfl, rfl, fun _ _ => rfl⟩

theorem Rearranges.trans {b b' b'' : Builder} (h : b.Rearranges b') (h' : b'.Rearranges b'') : b.Rearranges b'' where
  fields := by rw [h'.fields, h.fields]
  roots := h'.roots.trans h.roots
  above x hx := (h'.above x (by rw [h.fields]; exact hx)).trans (h.above x hx)

theorem Rearranges.of_heap {b : Builder} {heap heap' : Ram Nat}
    (hroots : heap'.nodesAt (Finset.Icc 1 b.heapLen) = heap.nodesAt (Finset.Icc 1 b.heapLen))
    (habove : ∀ x, b.heapLen < x → heap'.get x = heap.get x) :
    Rearranges { b with heap := heap } { b with heap := heap' } := ⟨rfl, hroots, habove⟩

/-- However far node `v` sinks, the heap's nodes are those with `v` at the first position. -/
theorem sink_rearranges {v fuel : Nat} {b : Builder} {k j : Nat} (hk : 1 ≤ k) (hkl : k ≤ b.heapLen) (hkj : k < j)
    (hfit : b.heapLen ≤ 577) : Rearranges { b with heap := b.heap.set k v } (sink v fuel b k j) := by
  induction fuel generalizing b k j with
  | zero => exact .refl _
  | succ fuel ih =>
    unfold sink
    split
    · next hj =>
      split
      · exact .refl _
      · obtain ⟨hjc, hcl⟩ := b.child_bounds hj
        have hmem : ∀ {x}, 1 ≤ x → x ≤ b.heapLen → x ∈ Finset.Icc 1 b.heapLen :=
          fun h h' => Finset.mem_Icc.mpr ⟨h, h'⟩
        have hswap := b.heap.nodesAt_swap (hmem hk hkl) (hmem (by omega) hcl) (by omega) (by omega) (by omega) v
        refine (Rearranges.of_heap hswap fun x hx => ?_).trans
          (ih (b := { b with heap := b.heap.set k (b.heap.get (b.child j)) }) (by omega) hcl (by omega) hfit)
        rw [Ram.get_set _ _ _ _ (by omega), Ram.get_set _ _ _ _ (by omega), Ram.get_set _ _ _ _ (by omega),
          if_neg (by omega)]
        simp only [show x ≠ k by omega, if_false]
    · exact .refl _

theorem pqdownheap_rearranges {b : Builder} {k : Nat} (hk : 1 ≤ k) (hkl : k ≤ b.heapLen) (hfit : b.heapLen ≤ 577) :
    b.Rearranges (b.pqdownheap k) := by
  have hmem : k ∈ Finset.Icc 1 b.heapLen := Finset.mem_Icc.mpr ⟨hk, hkl⟩
  have hput : b.Rearranges { b with heap := b.heap.set k (b.heap.get k) } :=
    .of_heap ((Ram.nodesAt_set _ hmem (by omega) _).trans (Ram.nodesAt_erase _ hmem).symm)
      fun x hx => by rw [Ram.get_set _ _ _ _ (by omega), if_neg (by omega)]
  exact hput.trans (sink_rearranges hk hkl (by omega) hfit)

theorem heapify_rearranges {n : Nat} {b : Builder} (hn : n ≤ b.heapLen) (hfit : b.heapLen ≤ 577) :
    b.Rearranges (heapify n b) := by
  induction n generalizing b with
  | zero => exact .refl b
  | succ n ih =>
    have hstep := pqdownheap_rearranges (b := b) (k := n + 1) (by omega) hn hfit
    have hlen : (b.pqdownheap (n + 1)).heapLen = b.heapLen := by rw [hstep.fields]
    exact hstep.trans (ih (by omega) (by omega))

/-! ## One merge (R612) -/

/-- Taking the least node off: the last node of the heap takes its position. -/
theorem removeLeast_spec {b : Builder} (hlen : 2 ≤ b.heapLen) (hfit : b.heapLen ≤ 577) :
    b.removeLeast = { b with heap := b.removeLeast.heap, heapLen := b.heapLen - 1 }
      ∧ b.roots = b.heap.get 1 ::ₘ b.removeLeast.roots
      ∧ ∀ x, b.heapLen < x → b.removeLeast.heap.get x = b.heap.get x := by
  have hfirst : 1 ∈ Finset.Icc 1 b.heapLen := Finset.mem_Icc.mpr ⟨Nat.le_refl 1, by omega⟩
  have hlast : b.heapLen ∈ (Finset.Icc 1 b.heapLen).erase 1 := by simp; omega
  have hrest : ((Finset.Icc 1 b.heapLen).erase 1).erase b.heapLen = (Finset.Icc 1 (b.heapLen - 1)).erase 1 := by
    ext x
    simp
    omega
  have hsink := pqdownheap_rearranges
    (b := { b with heap := b.heap.set 1 (b.heap.get b.heapLen), heapLen := b.heapLen - 1 }) (k := 1) (Nat.le_refl 1)
    (by simp only []; omega) (by simp only []; omega)
  refine ⟨hsink.fields, ?_, fun x hx => (hsink.above x (by simp only []; omega)).trans ?_⟩
  · refine .trans ?_ (congrArg _ hsink.roots.symm)
    rw [roots, Ram.nodesAt_erase _ hfirst, Ram.nodesAt_erase _ hlast, hrest]
    exact congrArg _ (Ram.nodesAt_set _ (by simp; omega) (by omega) _).symm
  · rw [Ram.get_set _ _ _ _ (by omega), if_neg (by omega)]

/-- Putting the parent on: the two nodes taken off stand at the upper end. -/
theorem join_spec {b : Builder} {n node : Nat} (hlen : 1 ≤ b.heapLen) (hroom : b.heapLen + 2 < b.heapMax)
    (hmax : b.heapMax ≤ 577) :
    let b' := b.join n (b.heap.get 1) node
    b'.heapLen = b.heapLen ∧ b'.heapMax = b.heapMax - 2 ∧ b'.maxCode = b.maxCode
      ∧ b'.dad = (b.dad.set n node).set (b.heap.get 1) node
      ∧ (∃ rest, b.roots = b.heap.get 1 ::ₘ rest ∧ b'.roots = node ::ₘ rest)
      ∧ b'.heap.get (b.heapMax - 2) = b.heap.get 1 ∧ b'.heap.get (b.heapMax - 1) = n
      ∧ ∀ x, b.heapMax ≤ x → b'.heap.get x = b.heap.get x := by
  have hfirst : 1 ∈ Finset.Icc 1 b.heapLen := Finset.mem_Icc.mpr ⟨Nat.le_refl 1, hlen⟩
  have hget : ∀ x, (((b.heap.set (b.heapMax - 1) n).set (b.heapMax - 2) (b.heap.get 1)).set 1 node).get x
      = if x = 1 then node else if x = b.heapMax - 2 then b.heap.get 1 else if x = b.heapMax - 1 then n
        else b.heap.get x := fun x => by
    rw [Ram.get_set _ _ _ _ (by omega), Ram.get_set _ _ _ _ (by omega), Ram.get_set _ _ _ _ (by omega)]
  intro b'
  have hsink : Rearranges _ b' := pqdownheap_rearranges (Nat.le_refl 1) hlen (by simp only []; omega)
  have habove : ∀ x, b.heapLen < x → b'.heap.get x = _ := fun x hx => (hsink.above x hx).trans (hget x)
  refine ⟨by rw [hsink.fields], by rw [hsink.fields], by rw [hsink.fields], by rw [hsink.fields],
    ⟨_, Ram.nodesAt_erase _ hfirst, hsink.roots.trans ?_⟩, ?_, ?_, fun x hx => ?_⟩
  · refine (Ram.nodesAt_set _ hfirst (by omega) _).trans (congrArg _ (Ram.nodesAt_congr fun x hx => ?_))
    simp only [Finset.mem_erase, Finset.mem_Icc] at hx
    rw [Ram.get_set _ _ _ _ (by omega), Ram.get_set _ _ _ _ (by omega), if_neg (by omega), if_neg (by omega)]
  · rw [habove _ (by omega), if_neg (by omega), if_pos rfl]
  · rw [habove _ (by omega), if_neg (by omega), if_neg (by omega), if_pos rfl]
  · rw [habove _ (by omega), if_neg (by omega), if_neg (by omega), if_neg (by omega)]

/-- One round of the merge loop. -/
def mergeOnce (b : Builder) (node : Nat) : Builder :=
  b.removeLeast.join (b.heap.get 1) (b.removeLeast.heap.get 1) node

/-- The end of the merge loop: the root goes to the upper end. -/
def finish (b : Builder) : Builder :=
  { b with heap := b.heap.set (b.heapMax - 1) (b.heap.get 1), heapMax := b.heapMax - 1 }

theorem merge_succ (fuel node : Nat) (b : Builder) :
    merge (fuel + 1) node b
      = if (b.mergeOnce node).heapLen < 2 then (b.mergeOnce node).finish
        else merge fuel (node + 1) (b.mergeOnce node) := rfl

/-- A builder whose merge loop may go on with `node` as the next parent: at least two roots, all numbered below it, and
room for the nodes above the heap. -/
structure Mergeable (elems fuel node : Nat) (b : Builder) : Prop where
  two : 2 ≤ b.heapLen
  enough : b.heapLen ≤ fuel + 1
  room : 2 * b.heapLen ≤ b.heapMax
  top : b.heapMax ≤ 577
  inner : elems ≤ node
  fit : node + fuel ≤ 576
  nodup : b.roots.Nodup
  below : ∀ x ∈ b.roots, x < node

/-- What a round does: two roots `n` and `m` give way to their parent, and stand at the upper end from now on. -/
structure Merges (b : Builder) (node n m : Nat) (rest : Multiset Nat) (b' : Builder) : Prop where
  before : b.roots = n ::ₘ m ::ₘ rest
  after : b'.roots = node ::ₘ rest
  heapLen : b'.heapLen = b.heapLen - 1
  heapMax : b'.heapMax = b.heapMax - 2
  maxCode : b'.maxCode = b.maxCode
  dad : b'.dad = (b.dad.set n node).set m node
  second : b'.heap.get (b.heapMax - 2) = m
  first : b'.heap.get (b.heapMax - 1) = n
  above : ∀ x, b.heapMax ≤ x → b'.heap.get x = b.heap.get x

theorem Mergeable.merges {elems fuel node : Nat} {b : Builder} (h : b.Mergeable elems fuel node) :
    ∃ n m rest, b.Merges node n m rest (b.mergeOnce node) := by
  have htwo := h.two
  have hroom := h.room
  have htop := h.top
  obtain ⟨hfields, hroots, habove⟩ := removeLeast_spec htwo (by omega)
  have hlen1 : b.removeLeast.heapLen = b.heapLen - 1 := by rw [hfields]
  have hmax1 : b.removeLeast.heapMax = b.heapMax := by rw [hfields]
  have hcode1 : b.removeLeast.maxCode = b.maxCode := by rw [hfields]
  have hdad1 : b.removeLeast.dad = b.dad := by rw [hfields]
  obtain ⟨hlen, hmax, hcode, hdad, ⟨rest, hbefore, hafter⟩, hsecond, hfirst, hheap⟩ :=
    join_spec (b := b.removeLeast) (n := b.heap.get 1) (node := node) (by omega) (by omega) (by omega)
  rw [hmax1] at hmax hsecond hfirst hheap
  exact ⟨_, _, rest, hroots.trans (congrArg _ hbefore), hafter, hlen.trans hlen1, hmax, hcode.trans hcode1,
    hdad.trans (by rw [hdad1]), hsecond, hfirst, fun x hx => (hheap x hx).trans (habove x (by omega))⟩

/-- The loop may go on while two roots are left. -/
theorem Merges.mergeable {elems fuel node n m : Nat} {rest : Multiset Nat} {b b' : Builder}
    (hm : b.Merges node n m rest b') (h : b.Mergeable elems (fuel + 1) node) (htwo : 2 ≤ b'.heapLen) :
    b'.Mergeable elems fuel (node + 1) := by
  have hlen := hm.heapLen
  have hmax := hm.heapMax
  obtain ⟨-, hfuel, hroom, htop, hinner, hfit, hnodup, hbelow⟩ := h
  rw [hm.before] at hnodup hbelow
  have hrest : ∀ x ∈ rest, x < node := fun x hx => hbelow x (by simp [hx])
  refine ⟨htwo, by omega, by omega, by omega, by omega, by omega, ?_, ?_⟩
  · rw [hm.after, Multiset.nodup_cons]
    exact ⟨fun hmem => Nat.lt_irrefl _ (hrest node hmem), (Multiset.nodup_cons.mp (Multiset.nodup_cons.mp hnodup).2).2⟩
  · intro x hx
    rw [hm.after, Multiset.mem_cons] at hx
    rcases hx with rfl | hx
    · exact Nat.lt_succ_self x
    · exact (hrest x hx).trans (Nat.lt_succ_self node)

/-! ## The whole merge (R612) -/

/-- The nodes taken off the heap, the last one first: the heap's entries from `heapMax` up to `total`. -/
def removed (b : Builder) (total : Nat) : List Nat := b.heap.getRun b.heapMax (total - b.heapMax)

end Builder

theorem Ram.getRun_congr {t t' : Ram Nat} {k : Nat} (h : ∀ x, k ≤ x → t.get x = t'.get x) (n : Nat) :
    t.getRun k n = t'.getRun k n := by
  induction n generalizing k with
  | zero => rfl
  | succ n ih => rw [Ram.getRun, Ram.getRun, h k (Nat.le_refl k), ih fun x hx => h x (by omega)]

/-- A tree read from its root: starting from the root alone, each split replaces a parent by its two children, which
follow it in `order`; the nodes not split yet are the last argument. Inner nodes are numbered from `elems` on. -/
inductive Splits (elems : Nat) (dad : Nat → Nat) (root : Nat) : List Nat → Multiset Nat → Prop where
  | root (hinner : elems ≤ root) (hfit : root ≤ 576) : Splits elems dad root [] {root}
  | split {order : List Nat} {rest : Multiset Nat} {n m p : Nat} (h : Splits elems dad root order (p ::ₘ rest))
    (hn : dad n = p) (hm : dad m = p) (hnp : n < p) (hmp : m < p) (hp : elems ≤ p)
    (hnodup : (n ::ₘ m ::ₘ rest).Nodup) : Splits elems dad root (order ++ [m, n]) (n ::ₘ m ::ₘ rest)

theorem Splits.le_root {elems root : Nat} {dad : Nat → Nat} {order : List Nat} {nodes : Multiset Nat}
    (h : Splits elems dad root order nodes) : ∀ x ∈ nodes, x ≤ root := by
  induction h with
  | root => simp
  | split _ _ _ hnp hmp _ _ ih =>
    simp only [Multiset.mem_cons, forall_eq_or_imp] at ih ⊢
    exact ⟨by omega, by omega, ih.2⟩

theorem Splits.root_bounds {elems root : Nat} {dad : Nat → Nat} {order : List Nat} {nodes : Multiset Nat}
    (h : Splits elems dad root order nodes) : elems ≤ root ∧ root ≤ 576 := by
  induction h with
  | root hinner hfit => exact ⟨hinner, hfit⟩
  | split _ _ _ _ _ _ _ ih => exact ih

namespace Builder

theorem Merges.removed_eq {node n m : Nat} {rest : Multiset Nat} {b b' : Builder} (h : b.Merges node n m rest b')
    {total : Nat} (htwo : 2 ≤ b.heapMax) (htotal : b.heapMax ≤ total) : b'.removed total = m :: n :: b.removed total := by
  obtain ⟨k, hk⟩ : ∃ k, b.heapMax = k + 2 := ⟨b.heapMax - 2, by omega⟩
  have hmax := h.heapMax
  have hsecond := h.second
  have hfirst := h.first
  have habove := h.above
  rw [hk] at hmax hsecond hfirst habove
  rw [removed, removed, hmax, hk, show total - (k + 2 - 2) = total - (k + 2) + 1 + 1 by omega]
  simp only [Ram.getRun]
  rw [hsecond, show k + 2 - 2 + 1 = k + 2 - 1 by omega, hfirst, show k + 2 - 1 + 1 = k + 2 by omega,
    Ram.getRun_congr habove]

theorem finish_removed {b : Builder} {total : Nat} (hone : 1 ≤ b.heapMax) (htop : b.heapMax ≤ 577)
    (htotal : b.heapMax ≤ total) : b.finish.removed total = b.heap.get 1 :: b.removed total := by
  obtain ⟨k, hk⟩ : ∃ k, b.heapMax = k + 1 := ⟨b.heapMax - 1, by omega⟩
  have hget : ∀ x, b.finish.heap.get x = if x = k then b.heap.get 1 else b.heap.get x := fun x => by
    rw [finish, hk, Ram.get_set _ _ _ _ (by omega), Nat.add_sub_cancel]
  have hmax : b.finish.heapMax = k := congrArg (· - 1) hk
  have habove : ∀ x, k + 1 ≤ x → b.finish.heap.get x = b.heap.get x := fun x hx => by rw [hget, if_neg (by omega)]
  rw [removed, removed, hmax, hk, show total - k = total - (k + 1) + 1 by omega, Ram.getRun, hget, if_pos rfl,
    Ram.getRun_congr habove]

theorem heap_of_removed_cons {b : Builder} {total root : Nat} {order : List Nat} (h : b.removed total = root :: order) :
    b.heap.get b.heapMax = root ∧ b.heap.getRun (b.heapMax + 1) (total - (b.heapMax + 1)) = order := by
  rw [removed] at h
  cases hn : total - b.heapMax with
  | zero => rw [hn] at h; cases h
  | succ n =>
    rw [hn, Ram.getRun] at h
    rw [show total - (b.heapMax + 1) = n by omega]
    exact List.cons.inj h

/-- A heap of one node holds the root. -/
theorem heap_one_of_roots {b : Builder} {x : Nat} (h : b.roots = {x}) : b.heap.get 1 = x := by
  have hlen : b.heapLen = 1 := by rw [← card_roots, h, Multiset.card_singleton]
  rw [roots, hlen] at h
  simpa [Ram.nodesAt] using h

/-- The merge loop builds a tree whose leaves are the roots it began with, and lists its nodes from the root down. -/
theorem Mergeable.merge_splits {elems fuel node : Nat} {b : Builder} (h : b.Mergeable elems fuel node) {total : Nat}
    (htotal : b.heapMax ≤ total) :
    (merge fuel node b).maxCode = b.maxCode
      ∧ (∀ x, x < node → x ∉ b.roots → (merge fuel node b).dad.get x = b.dad.get x)
      ∧ ∃ root order, (merge fuel node b).removed total = root :: (order ++ b.removed total)
        ∧ Splits elems (merge fuel node b).dad.get root order b.roots := by
  induction fuel generalizing node b with
  | zero => exact absurd h.two (by have := h.enough; omega)
  | succ fuel ih =>
    obtain ⟨n, m, rest, hround⟩ := h.merges
    have hlen := hround.heapLen
    have hmax := hround.heapMax
    obtain ⟨htwo, hfuel, hroom, htop, hinner, hfit, hnodup, hbelow⟩ := h
    have hcons := hround.removed_eq (total := total) (by omega) htotal
    rw [hround.before] at hnodup hbelow
    have hn : n < node := hbelow n (by simp)
    have hm : m < node := hbelow m (by simp)
    have hdad : ∀ x, (b.mergeOnce node).dad.get x = if x = m ∨ x = n then node else b.dad.get x := fun x => by
      rw [hround.dad, Ram.get_set _ _ _ _ (by omega), Ram.get_set _ _ _ _ (by omega)]
      split <;> simp_all
    rw [merge_succ, hround.before]
    split
    · have hrest : rest = 0 := by
        have hcard := b.card_roots
        rw [hround.before, Multiset.card_cons, Multiset.card_cons] at hcard
        exact Multiset.card_eq_zero.mp (by omega)
      subst hrest
      have hroot := heap_one_of_roots hround.after
      have hchild : ∀ x, x = m ∨ x = n → (b.mergeOnce node).finish.dad.get x = node :=
        fun x hx => (hdad x).trans (if_pos hx)
      refine ⟨hround.maxCode, fun x _ hx => ?_, node, [m, n], ?_, ?_⟩
      · simp only [Multiset.mem_cons, not_or] at hx
        obtain ⟨hxn, hxm, -⟩ := hx
        exact (hdad x).trans (if_neg (by simp [hxn, hxm]))
      · rw [finish_removed (by omega) (by omega) (by omega), hroot, hcons]
        rfl
      · exact .split (.root hinner (by omega)) (hchild n (.inr rfl)) (hchild m (.inl rfl)) hn hm hinner hnodup
    · next hmore =>
      have hgo := hround.mergeable ⟨htwo, hfuel, hroom, htop, hinner, hfit, hround.before ▸ hnodup, hround.before ▸ hbelow⟩
        (by omega)
      obtain ⟨hcode, hkept, root, order, hremoved, hsplits⟩ := ih hgo (by omega)
      rw [hround.after] at hkept hsplits
      refine ⟨hcode.trans hround.maxCode, fun x hx hxm => ?_, root, order ++ [m, n], ?_, ?_⟩
      · simp only [Multiset.mem_cons, not_or] at hxm
        obtain ⟨hxn, hxm, hxr⟩ := hxm
        rw [hkept x (by omega) (by simp [hxr]; omega), hdad, if_neg (by simp [hxn, hxm])]
      · rw [hremoved, hcons, List.append_assoc]
        rfl
      · obtain ⟨hnm, hmr⟩ := Multiset.nodup_cons.mp hnodup
        have hnr : n ∉ rest := fun hr => hnm (Multiset.mem_cons_of_mem hr)
        have hmr := (Multiset.nodup_cons.mp hmr).1
        have hfresh : ∀ {x}, x < node → x ∉ rest → x ∉ node ::ₘ rest := fun hx hr => by simp [hr, Nat.ne_of_lt hx]
        exact .split hsplits (by rw [hkept n (by omega) (hfresh hn hnr), hdad, if_pos (.inr rfl)])
          (by rw [hkept m (by omega) (hfresh hm hmr), hdad, if_pos (.inl rfl)]) hn hm hinner hnodup

end Builder

end Sys2Proof.Machine
end

section
/-!
The lengths of a built tree (46_huffman.md R613, R614). The clipped tree's excess over the Kraft sum is half of R613's
`overflow`, every round of R614 takes one off, and reassigning gives the leaves the lengths counted.
-/

namespace Sys2Proof.Machine

/-! ## Counts of lengths -/

/-- What counts of the lengths below `n` add up to when a length `l` weighs `w l`. -/
def Ram.weighed (c : Ram Nat) (n : Nat) (w : Nat → Nat) : Nat := ∑ l ∈ Finset.range n, c.get l * w l

@[simp] theorem Ram.weighed_zero (c : Ram Nat) (w : Nat → Nat) : c.weighed 0 w = 0 := rfl

theorem Ram.weighed_succ (c : Ram Nat) (n : Nat) (w : Nat → Nat) :
    c.weighed (n + 1) w = c.weighed n w + c.get n * w n := Finset.sum_range_succ _ n

theorem Ram.weighed_set (c : Ram Nat) {n l : Nat} (hl : l < n) (hfit : l + 1 < 2 ^ 20) (v : Nat) (w : Nat → Nat) :
    (c.set l v).weighed n w + c.get l * w l = c.weighed n w + v * w l := by
  have hmem := Finset.mem_range.mpr hl
  have hothers : ∑ x ∈ (Finset.range n).erase l, (c.set l v).get x * w x
      = ∑ x ∈ (Finset.range n).erase l, c.get x * w x :=
    Finset.sum_congr rfl fun x hx => by rw [Ram.get_set _ _ _ _ hfit, if_neg (Finset.ne_of_mem_erase hx)]
  rw [weighed, weighed, ← Finset.add_sum_erase _ _ hmem, ← Finset.add_sum_erase _ _ hmem, hothers,
    Ram.get_set _ _ _ _ hfit, if_pos rfl]
  omega

/-- More leaves of one length. -/
theorem Ram.weighed_set_add (c : Ram Nat) {n l : Nat} (hl : l < n) (hfit : l + 1 < 2 ^ 20) (j : Nat) (w : Nat → Nat) :
    (c.set l (c.get l + j)).weighed n w = c.weighed n w + j * w l := by
  have := c.weighed_set hl hfit (c.get l + j) w
  rw [Nat.add_mul] at this
  omega

/-- One leaf less of a length. -/
theorem Ram.weighed_set_pred {c : Ram Nat} {n l : Nat} (hl : l < n) (hfit : l + 1 < 2 ^ 20) (hsome : c.get l ≠ 0)
    (w : Nat → Nat) : (c.set l (c.get l - 1)).weighed n w + w l = c.weighed n w := by
  have := c.weighed_set hl hfit (c.get l - 1) w
  obtain ⟨k, hk⟩ := Nat.exists_eq_succ_of_ne_zero hsome
  rw [hk, Nat.succ_sub_one, Nat.succ_mul] at this
  rw [hk, Nat.succ_sub_one]
  omega

/-- The lengths above the last one used weigh nothing. -/
theorem weighed_lastUsed (c : Ram Nat) (bits : Nat) (w : Nat → Nat) :
    c.weighed (lastUsed c bits + 1) w = c.weighed (bits + 1) w := by
  induction bits with
  | zero => rfl
  | succ bits ih =>
    rw [lastUsed]
    split
    · next hnone => rw [ih, c.weighed_succ (bits + 1), hnone, Nat.zero_mul]; rfl
    · rfl

theorem get_lastUsed_ne_zero {c : Ram Nat} {bits : Nat} (h : lastUsed c bits ≠ 0) : c.get (lastUsed c bits) ≠ 0 := by
  induction bits with
  | zero => exact absurd rfl h
  | succ bits ih =>
    rw [lastUsed] at h ⊢
    split
    · next hnone => exact ih (by rwa [if_pos hnone] at h)
    · assumption

/-- Below a last length that is not used nothing weighs. -/
theorem weighed_lastUsed_of_none {c : Ram Nat} {bits : Nat} (h : c.get (lastUsed c bits) = 0) (w : Nat → Nat) :
    c.weighed (lastUsed c bits) w = 0 := by
  have hroot : lastUsed c bits = 0 := by
    by_contra hne
    exact get_lastUsed_ne_zero hne h
  rw [hroot, Ram.weighed_zero]

/-! ## The overflow fix of the counts (R614) -/

/-- Counts of `n` lengths up to `m` whose Kraft sum is `k` above 1, in units of `2^-m`, with enough leaves at `m` to take
`k` of them away, and no more leaves than words of `m` bits. -/
structure Excess (m n k : Nat) (c : Ram Nat) : Prop where
  zero : c.get 0 = 0
  kraft : c.weighed (m + 1) (fun l => 2 ^ (m - l)) = 2 ^ m + k
  deep : k = 0 ∨ k < c.get m
  leaves : c.weighed (m + 1) (fun _ => 1) = n
  fits : n ≤ 2 ^ m

/-- While the sum is above 1 some leaf is above the limit: all leaves at the limit would be too many. -/
theorem Excess.lastUsed_ne_zero {m n k : Nat} {c : Ram Nat} (h : Excess m n (k + 1) c) (hm : m ≠ 0) :
    lastUsed c (m - 1) ≠ 0 := by
  intro hnone
  obtain ⟨l, rfl⟩ := Nat.exists_eq_succ_of_ne_zero hm
  have hnothing : ∀ w, c.weighed (l + 1) w = 0 := fun w => by
    rw [← weighed_lastUsed c l w, show lastUsed c l = 0 from hnone, Ram.weighed_succ, h.zero]
    simp
  have hkraft := h.kraft
  have hleaves := h.leaves
  have hfits := h.fits
  rw [Ram.weighed_succ, hnothing] at hkraft hleaves
  simp at hkraft hleaves
  omega

/-- No root is moved down while a leaf is used. -/
theorem get_moveLeafDown_zero {m : Nat} {c : Ram Nat} (hm15 : m ≤ 15) (hused : lastUsed c (m - 1) ≠ 0) :
    (moveLeafDown m c).get 0 = c.get 0 := by
  have ht := lastUsed_le c (m - 1)
  unfold moveLeafDown
  simp only []
  rw [Ram.get_set _ _ _ _ (by omega), if_neg (by omega), Ram.get_set _ _ _ _ (by omega), if_neg (by omega),
    Ram.get_set _ _ _ _ (by omega), if_neg (by omega)]

/-- The limit loses one leaf at most. -/
theorem le_get_moveLeafDown {m : Nat} {c : Ram Nat} (hm : m ≠ 0) (hm15 : m ≤ 15) :
    c.get m ≤ (moveLeafDown m c).get m + 1 := by
  have ht := lastUsed_le c (m - 1)
  unfold moveLeafDown
  simp only []
  have htake : (c.set (lastUsed c (m - 1)) (c.get (lastUsed c (m - 1)) - 1)).get m = c.get m := by
    rw [Ram.get_set _ _ _ _ (by omega), if_neg (by omega)]
  rw [Ram.get_set _ _ _ _ (by omega), if_pos rfl, Ram.get_set _ _ _ _ (by omega)]
  split
  · next hlimit =>
    rw [← hlimit, htake]
    omega
  · omega

/-- Moving a leaf down: one leaf at the last used length and one at the limit become two below the former (R614). -/
theorem weighed_moveLeafDown {m : Nat} {c : Ram Nat} (hm15 : m ≤ 15) (hused : lastUsed c (m - 1) ≠ 0)
    (hdeep : c.get m ≠ 0) (w : Nat → Nat) :
    (moveLeafDown m c).weighed (m + 1) w + w (lastUsed c (m - 1)) + w m
      = c.weighed (m + 1) w + 2 * w (lastUsed c (m - 1) + 1) := by
  have ht := lastUsed_le c (m - 1)
  have hsome := get_lastUsed_ne_zero hused
  unfold moveLeafDown
  simp only []
  generalize lastUsed c (m - 1) = t at ht hsome hused ⊢
  have htake := Ram.weighed_set_pred (n := m + 1) (by omega) (by omega) hsome w
  generalize hc1 : c.set t (c.get t - 1) = c1 at htake ⊢
  have hput := c1.weighed_set_add (n := m + 1) (l := t + 1) (by omega) (by omega) 2 w
  generalize hc2 : c1.set (t + 1) (c1.get (t + 1) + 2) = c2 at hput ⊢
  have hdeep2 : c2.get m ≠ 0 := by
    rw [← hc2, Ram.get_set _ _ _ _ (by omega)]
    split
    · omega
    · rwa [← hc1, Ram.get_set _ _ _ _ (by omega), if_neg (by omega)]
  have hdrop := Ram.weighed_set_pred (n := m + 1) (by omega) (by omega) hdeep2 w
  omega

theorem Excess.moveLeafDown {m n k : Nat} {c : Ram Nat} (h : Excess m n (k + 1) c) (hm : m ≠ 0) (hm15 : m ≤ 15) :
    Excess m n k (moveLeafDown m c) := by
  have hused := h.lastUsed_ne_zero hm
  have ht := lastUsed_le c (m - 1)
  obtain ⟨hzero, hkraft, hdeep, hleaves, hfits⟩ := h
  have hdeep : k + 1 < c.get m := hdeep.resolve_left (Nat.succ_ne_zero k)
  have hweighed := weighed_moveLeafDown hm15 hused (by omega)
  refine ⟨?_, ?_, .inr ?_, ?_, hfits⟩
  · rw [get_moveLeafDown_zero hm15 hused, hzero]
  · have hkraft' := hweighed (fun l => 2 ^ (m - l))
    have hhalf : 2 ^ (m - lastUsed c (m - 1)) = 2 * 2 ^ (m - (lastUsed c (m - 1) + 1)) := by
      rw [← pow_succ']
      congr 1
      omega
    rw [hkraft, hhalf, Nat.sub_self, pow_zero] at hkraft'
    omega
  · have := le_get_moveLeafDown (c := c) hm hm15
    omega
  · have := hweighed (fun _ => 1)
    omega

/-- The loop of R614 ends with the Kraft sum 1. -/
theorem Excess.fixCounts {m n k fuel : Nat} {c : Ram Nat} (h : Excess m n k c) (hk : k ≠ 0) (hm : m ≠ 0) (hm15 : m ≤ 15)
    (hfuel : k ≤ fuel) : Excess m n 0 (fixCounts m fuel (2 * k) c) := by
  induction fuel generalizing k c with
  | zero => omega
  | succ fuel ih =>
    obtain ⟨j, rfl⟩ : ∃ j, k = j + 1 := ⟨k - 1, by omega⟩
    have hdown := h.moveLeafDown hm hm15
    unfold Machine.fixCounts
    split
    · obtain rfl : j = 0 := by omega
      exact hdown
    · have := ih hdown (by omega) (by omega)
      rwa [show (2 * (j + 1 : Nat) : Int) - 2 = 2 * (j : Nat) by omega]

/-! ## `gen_bitlen` (R613) -/

/-- The leaves among some nodes: those up to `max_code`. -/
def leaves (top : Nat) (nodes : Multiset Nat) : Multiset Nat := nodes.filter (· ≤ top)

theorem leaves_cons_of_le {top n : Nat} (h : n ≤ top) (nodes : Multiset Nat) :
    leaves top (n ::ₘ nodes) = n ::ₘ leaves top nodes := Multiset.filter_cons_of_pos nodes h

theorem leaves_cons_of_lt {top n : Nat} (h : top < n) (nodes : Multiset Nat) :
    leaves top (n ::ₘ nodes) = leaves top nodes := Multiset.filter_cons_of_neg nodes (Nat.not_le.mpr h)

/-- The lengths of some nodes, a length `l` weighing `w l`. -/
def Ram.weighing (len : Ram Nat) (nodes : Multiset Nat) (w : Nat → Nat) : Nat := (nodes.map fun x => w (len.get x)).sum

@[simp] theorem Ram.weighing_cons (len : Ram Nat) (x : Nat) (nodes : Multiset Nat) (w : Nat → Nat) :
    len.weighing (x ::ₘ nodes) w = w (len.get x) + len.weighing nodes w := by simp [weighing]

theorem Ram.weighing_congr {len len' : Ram Nat} {nodes : Multiset Nat} (h : ∀ x ∈ nodes, len.get x = len'.get x)
    (w : Nat → Nat) : len.weighing nodes w = len'.weighing nodes w :=
  congrArg _ (Multiset.map_congr rfl fun x hx => by rw [h x hx])

theorem Ram.weighing_set_of_notMem (len : Ram Nat) {n : Nat} {nodes : Multiset Nat} (h : n ∉ nodes)
    (hfit : n + 1 < 2 ^ 20) (l : Nat) (w : Nat → Nat) : (len.set n l).weighing nodes w = len.weighing nodes w :=
  weighing_congr (fun x hx => by rw [Ram.get_set _ _ _ _ hfit, if_neg (ne_of_mem_of_not_mem hx h)]) w

namespace Lengths

/-- What R613 has counted when it has passed the leaves among `nodes`: each of them, under its length; all other symbols
below `elems` still have the length 0. -/
structure Counts (elems m top : Nat) (nodes : Multiset Nat) (x : Lengths) : Prop where
  counted : ∀ w, x.len.weighing (leaves top nodes) w = x.blCount.weighed (m + 1) w
  zero : x.blCount.get 0 = 0
  others : ∀ k, k < elems → k ∉ nodes → x.len.get k = 0

/-- The clipped tree's excess over the Kraft sum 1, in units of `2^-m`, is half of R613's `overflow`; there are more nodes
at the limit than that. -/
def Exceeds (m : Nat) (nodes : Multiset Nat) (x : Lengths) : Prop :=
  ∃ k : Nat, x.overflow = 2 * k ∧ x.len.weighing nodes (fun l => 2 ^ (m - l)) = 2 ^ m + k
    ∧ (k = 0 ∨ k < x.len.weighing nodes (fun l => if l = m then 1 else 0))

variable {kind : TreeKind} {b : Builder} {x : Lengths}

/-- The length R613 gives a node. -/
def clipped (kind : TreeKind) (b : Builder) (x : Lengths) (n : Nat) : Nat :=
  min (x.len.get (b.dad.get n) + 1) kind.maxLength

@[simp] theorem assign_len (n : Nat) : (x.assign kind b n).len = x.len.set n (clipped kind b x n) := by
  unfold assign clipped
  simp only []
  split <;> rfl

@[simp] theorem assign_overflow (n : Nat) : (x.assign kind b n).overflow
    = x.overflow + if kind.maxLength < x.len.get (b.dad.get n) + 1 then 1 else 0 := by
  unfold assign
  simp only []
  split <;> split <;> simp

@[simp] theorem assign_blCount (n : Nat) : (x.assign kind b n).blCount
    = if b.maxCode < n then x.blCount
      else x.blCount.set (clipped kind b x n) (x.blCount.get (clipped kind b x n) + 1) := by
  unfold assign clipped
  simp only []
  split <;> rfl

theorem Counts.assign {elems top n : Nat} {nodes : Multiset Nat} (h : Counts elems kind.maxLength top nodes x)
    (hm : 1 ≤ kind.maxLength) (hm15 : kind.maxLength ≤ 15) (htop : b.maxCode = top) (hn : n ∉ nodes) (hfit : n ≤ 576) :
    Counts elems kind.maxLength top (n ::ₘ nodes) (x.assign kind b n) := by
  have hlen : ∀ k, (x.assign kind b n).len.get k = if k = n then clipped kind b x n else x.len.get k := fun k => by
    rw [assign_len, Ram.get_set _ _ _ _ (by omega)]
  have hclip : 1 ≤ clipped kind b x n ∧ clipped kind b x n ≤ kind.maxLength := by unfold clipped; omega
  have hrest : ∀ w, (x.assign kind b n).len.weighing (leaves top nodes) w
      = x.blCount.weighed (kind.maxLength + 1) w := by
    intro w
    have hmem : n ∉ leaves top nodes := fun hmem => hn (Multiset.mem_of_mem_filter hmem)
    rw [assign_len, Ram.weighing_set_of_notMem _ hmem (by omega), h.counted]
  refine ⟨fun w => ?_, ?_, fun k hk hmem => ?_⟩
  · rw [assign_blCount, htop]
    by_cases hleaf : n ≤ top
    · rw [leaves_cons_of_le hleaf, Ram.weighing_cons, hrest, if_neg (by omega), hlen, if_pos rfl,
        Ram.weighed_set_add _ (by omega) (by omega)]
      omega
    · rw [leaves_cons_of_lt (by omega), hrest, if_pos (by omega)]
  · rw [assign_blCount]
    split
    · exact h.zero
    · rw [Ram.get_set _ _ _ _ (by omega), if_neg (by omega), h.zero]
  · rw [Multiset.mem_cons, not_or] at hmem
    rw [hlen, if_neg hmem.1, h.others k hk hmem.2]

/-- An inner node no longer at the edge counts for nothing. -/
theorem Counts.of_cons {elems m top p : Nat} {nodes : Multiset Nat} (h : Counts elems m top (p ::ₘ nodes) x)
    (hp : elems ≤ p) (htop : top < p) : Counts elems m top nodes x where
  counted w := by rw [← h.counted, leaves_cons_of_lt htop]
  zero := h.zero
  others k hk hmem := h.others k hk (by simp [hmem]; omega)

/-- Splitting a node above the limit keeps the Kraft sum; a node at the limit gives two at the limit, which R613 clips. -/
theorem Exceeds.split {n m p : Nat} {rest : Multiset Nat} (h : Exceeds kind.maxLength (p ::ₘ rest) x)
    (hwithin : x.Within kind.maxLength) (hn : b.dad.get n = p) (hm : b.dad.get m = p) (hnp : n < p) (hmp : m < p)
    (hfit : p ≤ 576) (hnodup : (n ::ₘ m ::ₘ rest).Nodup) :
    Exceeds kind.maxLength (n ::ₘ m ::ₘ rest) ((x.assign kind b m).assign kind b n) := by
  obtain ⟨k, hover, hkraft, hdeep⟩ := h
  have hle := hwithin p
  obtain ⟨hnm, hmr⟩ := Multiset.nodup_cons.mp hnodup
  simp only [Multiset.mem_cons, not_or] at hnm
  have hdadlen : (x.assign kind b m).len.get p = x.len.get p := by
    rw [assign_len, Ram.get_set _ _ _ _ (by omega), if_neg (by omega)]
  set child := min (x.len.get p + 1) kind.maxLength with hchild
  set x' := (x.assign kind b m).assign kind b n with hx'
  have hlen : x'.len = (x.len.set m child).set n child := by
    rw [hx', assign_len, assign_len, clipped, clipped, hn, hdadlen, hm]
  have hover' : x'.overflow = x.overflow + if kind.maxLength < x.len.get p + 1 then 2 else 0 := by
    rw [hx', assign_overflow, assign_overflow, hn, hm, hdadlen]
    split <;> omega
  have hweigh : ∀ w, x'.len.weighing (n ::ₘ m ::ₘ rest) w = 2 * w child + x.len.weighing rest w := fun w => by
    rw [hlen, Ram.weighing_cons, Ram.weighing_cons, Ram.weighing_set_of_notMem _ hnm.2 (by omega),
      Ram.weighing_set_of_notMem _ (Multiset.nodup_cons.mp hmr).1 (by omega), Ram.get_set _ _ _ _ (by omega), if_pos rfl,
      Ram.get_set _ _ _ _ (by omega), if_neg (Ne.symm hnm.1), Ram.get_set _ _ _ _ (by omega), if_pos rfl]
    omega
  rw [Ram.weighing_cons] at hkraft hdeep
  rcases hle.lt_or_eq with hlt | heq
  · have hhalf : 2 ^ (kind.maxLength - x.len.get p) = 2 * 2 ^ (kind.maxLength - (x.len.get p + 1)) := by
      rw [← pow_succ']
      congr 1
      omega
    refine ⟨k, ?_, ?_, ?_⟩
    · rw [hover', if_neg (by omega), hover, add_zero]
    · rw [hweigh, show child = x.len.get p + 1 by omega, ← hkraft, hhalf]
    · rw [hweigh]
      rw [if_neg (by omega)] at hdeep
      omega
  · refine ⟨k + 1, ?_, ?_, ?_⟩
    · rw [hover', if_pos (by omega), hover]
      omega
    · rw [heq, Nat.sub_self, pow_zero] at hkraft
      rw [hweigh, show child = kind.maxLength by omega, Nat.sub_self, pow_zero]
      omega
    · rw [if_pos heq] at hdeep
      rw [hweigh, if_pos (by omega)]
      omega

/-- Where R613 begins: the root alone, of length 0. -/
def atRoot (b : Builder) (root : Nat) : Lengths :=
  { len := (Ram.nil : Ram Nat).set root 0, blCount := .nil, overflow := 0, dOpt := b.dOpt, dStatic := b.dStatic }

theorem atRoot_len {root : Nat} (hfit : root ≤ 576) (k : Nat) : (atRoot b root).len.get k = 0 := by
  rw [atRoot, Ram.get_set _ _ _ _ (by omega), Ram.get_nil]
  split <;> rfl

end Lengths

/-- `gen_bitlen` walks the nodes after the root in the order they are listed (R613). -/
theorem genBitlen_of_removed {kind : TreeKind} {b : Builder} {root : Nat} {order : List Nat}
    (h : b.removed (heapSize kind.elems) = root :: order) :
    genBitlen kind b = order.foldl (Lengths.assign kind b) (Lengths.atRoot b root) := by
  obtain ⟨hroot, horder⟩ := Builder.heap_of_removed_cons h
  rw [genBitlen, horder, hroot]
  rfl

/-- R613 over a tree read from its root. -/
theorem Splits.lengths {kind : TreeKind} {b : Builder} {elems root top : Nat} {order : List Nat} {nodes : Multiset Nat}
    (h : Splits elems b.dad.get root order nodes) (hm : 1 ≤ kind.maxLength) (hm15 : kind.maxLength ≤ 15)
    (hcode : b.maxCode = top) (htop : top < elems) :
    let x := order.foldl (Lengths.assign kind b) (Lengths.atRoot b root)
    x.Within kind.maxLength ∧ x.Counts elems kind.maxLength top nodes ∧ x.Exceeds kind.maxLength nodes := by
  induction h with
  | root hinner hfit =>
    have hlen := fun k => Lengths.atRoot_len (b := b) hfit k
    refine ⟨fun k => by simp [hlen], ⟨fun w => ?_, Ram.get_nil 0, fun k _ _ => hlen k⟩, 0, rfl, ?_, .inl rfl⟩
    · have hleaf : leaves top {root} = 0 := leaves_cons_of_lt (by omega) 0
      simp [hleaf, Ram.weighing, Ram.weighed, Lengths.atRoot]
    · simp [Ram.weighing, hlen]
  | @split order rest n m p h hn hmd hnp hmp hp hnodup ih =>
    obtain ⟨hwithin, hcounts, hexceeds⟩ := ih
    have hpr := h.le_root p (Multiset.mem_cons_self p rest)
    have hroot := h.root_bounds
    obtain ⟨hnm, hmr⟩ := Multiset.nodup_cons.mp hnodup
    rw [List.foldl_append]
    refine ⟨(hwithin.assign b m).assign b n, ?_, hexceeds.split hwithin hn hmd hnp hmp (by omega) hnodup⟩
    exact ((hcounts.of_cons hp (by omega)).assign hm hm15 hcode (Multiset.nodup_cons.mp hmr).1 (by omega)).assign hm hm15
      hcode hnm (by omega)

/-! ## Reassigning (R614) -/

theorem leaves_append (top : Nat) (xs ys : List Nat) :
    leaves top ((xs ++ ys : List Nat) : Multiset Nat)
      = leaves top (xs : Multiset Nat) + leaves top (ys : Multiset Nat) := by
  rw [← Multiset.coe_add, leaves, Multiset.filter_add]
  rfl

/-- The leaves of a tree are the leaves among the nodes listed from the root down. -/
theorem Splits.leaves_eq {elems root top : Nat} {dad : Nat → Nat} {order : List Nat} {nodes : Multiset Nat}
    (h : Splits elems dad root order nodes) (htop : top < elems) :
    leaves top ((root :: order : List Nat) : Multiset Nat) = leaves top nodes := by
  induction h with
  | root => rfl
  | @split order rest n m p _ _ _ _ _ hp _ ih =>
    rw [leaves_cons_of_lt (by omega)] at ih
    have hpair : (([m, n] : List Nat) : Multiset Nat) = n ::ₘ m ::ₘ 0 := Multiset.cons_swap m n 0
    rw [← List.cons_append, leaves_append, ih, hpair, leaves, leaves, leaves, ← Multiset.filter_add, Multiset.add_cons,
      Multiset.add_cons, add_zero]

theorem Ram.getRun_snoc (t : Ram Nat) (k n : Nat) : t.getRun k (n + 1) = t.getRun k n ++ [t.get (k + n)] := by
  induction n generalizing k with
  | zero => rfl
  | succ n ih =>
    rw [Ram.getRun, ih (k + 1), Nat.add_right_comm k 1 n]
    rfl

/-- The leaves on the heap's upper end below position `h`. -/
def Builder.leavesBelow (b : Builder) (top h : Nat) : Multiset Nat :=
  leaves top (b.heap.getRun b.heapMax (h - b.heapMax) : List Nat)

theorem Builder.leavesBelow_of_le {b : Builder} {h : Nat} (hh : h ≤ b.heapMax) (top : Nat) : b.leavesBelow top h = 0 := by
  rw [leavesBelow, Nat.sub_eq_zero_of_le hh]
  rfl

theorem Builder.leavesBelow_succ {b : Builder} {h : Nat} (hh : b.heapMax ≤ h) (top : Nat) :
    b.leavesBelow top (h + 1)
      = if b.heap.get h ≤ top then b.heap.get h ::ₘ b.leavesBelow top h else b.leavesBelow top h := by
  have hlast : b.leavesBelow top (h + 1) = leaves top (b.heap.get h ::ₘ 0) + b.leavesBelow top h := by
    rw [leavesBelow, Nat.succ_sub hh, Ram.getRun_snoc, Nat.add_sub_cancel' hh, leaves_append, add_comm]
    rfl
  rw [hlast]
  split
  · next hleaf =>
    rw [leaves_cons_of_le hleaf]
    exact Multiset.singleton_add _ _
  · next hinner =>
    rw [leaves_cons_of_lt (by omega)]
    exact zero_add _

section

variable {b : Builder} {counts : Ram Nat}

theorem reassign_none (h bits : Nat) (x : Lengths) : reassign b counts h bits 0 x = x := by cases h <;> rfl

theorem reassign_inner {h : Nat} (hinner : b.maxCode < b.heap.get h) (bits c : Nat) (x : Lengths) :
    reassign b counts (h + 1) bits (c + 1) x = reassign b counts h bits (c + 1) x := if_pos hinner

/-- A leaf gets length `bits`, and the walk goes on to the leaves still to come. -/
theorem reassign_leaf {h : Nat} (hleaf : ¬ b.maxCode < b.heap.get h) (hfit : b.heap.get h ≤ 576)
    (hzero : counts.get 0 = 0) (bits c : Nat) (x : Lengths) :
    ∃ bits' c' x', reassign b counts (h + 1) bits (c + 1) x = reassign b counts h bits' c' x'
      ∧ (∀ k, x'.len.get k = if k = b.heap.get h then bits else x.len.get k)
      ∧ (∀ w, c' * w bits' + counts.weighed bits' w = c * w bits + counts.weighed bits w)
      ∧ (c' = 0 → counts.weighed bits' (fun _ => 1) = 0) := by
  obtain ⟨x', hx', hlen⟩ : ∃ x', (if x.len.get (b.heap.get h) = bits then x
      else { x with
        dOpt := x.dOpt + (bits - x.len.get (b.heap.get h)) * b.freq.get (b.heap.get h)
        len := x.len.set (b.heap.get h) bits }) = x'
      ∧ ∀ k, x'.len.get k = if k = b.heap.get h then bits else x.len.get k := by
    refine ⟨_, rfl, fun k => ?_⟩
    split
    · split <;> simp_all
    · rw [Ram.get_set _ _ _ _ (by omega)]
  cases c with
  | zero =>
    refine ⟨lastUsed counts (bits - 1), counts.get (lastUsed counts (bits - 1)), x', ?_, hlen, fun w => ?_,
      fun hnone => ?_⟩
    · rw [reassign, if_neg hleaf, hx']
    · have hweighed := weighed_lastUsed counts (bits - 1) w
      rw [Ram.weighed_succ] at hweighed
      cases bits with
      | zero =>
        rw [Ram.weighed_succ, hzero] at hweighed
        simp only [Nat.zero_sub, Ram.weighed_zero, Nat.zero_mul] at hweighed ⊢
        omega
      | succ bits =>
        rw [Nat.add_sub_cancel] at hweighed ⊢
        omega
    · exact weighed_lastUsed_of_none hnone _
  | succ c =>
    refine ⟨bits, c + 1, x', ?_, hlen, fun w => rfl, nofun⟩
    rw [reassign, if_neg hleaf, hx']

theorem Ram.weighed_eq_zero {c : Ram Nat} {n : Nat} (h : c.weighed n (fun _ => 1) = 0) (w : Nat → Nat) :
    c.weighed n w = 0 := by
  refine Finset.sum_eq_zero fun l hl => ?_
  have := Finset.sum_eq_zero_iff.mp h l hl
  rw [Nat.mul_one] at this
  rw [this, Nat.zero_mul]

/-- Walking down the heap's upper end from position `h`, where the counts give the leaves still to come their lengths: `c`
of them `bits`, the rest those below `bits`. -/
theorem reassign_spec {top : Nat} (hcode : b.maxCode = top) (htop : top ≤ 576) (hzero : counts.get 0 = 0)
    {h bits c : Nat} {x : Lengths} (hnodup : (b.leavesBelow top h).Nodup)
    (hcard : (b.leavesBelow top h).card = c + counts.weighed bits (fun _ => 1))
    (hend : c = 0 → counts.weighed bits (fun _ => 1) = 0) :
    (∀ w, (reassign b counts h bits c x).len.weighing (b.leavesBelow top h) w = c * w bits + counts.weighed bits w)
      ∧ ∀ k, k ∉ b.leavesBelow top h → (reassign b counts h bits c x).len.get k = x.len.get k := by
  induction h generalizing bits c x with
  | zero =>
    have hnil := b.leavesBelow_of_le (Nat.zero_le _) top
    rw [hnil, Multiset.card_zero] at hcard
    obtain rfl : c = 0 := by omega
    exact ⟨fun w => by rw [hnil, Ram.weighed_eq_zero (hend rfl) w, Nat.zero_mul]; rfl, fun _ _ => rfl⟩
  | succ h ih =>
    cases c with
    | zero =>
      rw [hend rfl, Multiset.card_eq_zero] at hcard
      rw [reassign_none, hcard]
      exact ⟨fun w => by rw [Ram.weighed_eq_zero (hend rfl) w, Nat.zero_mul]; rfl, fun _ _ => rfl⟩
    | succ c =>
      have hh : b.heapMax ≤ h := by
        by_contra hlt
        rw [b.leavesBelow_of_le (by omega), Multiset.card_zero] at hcard
        omega
      rw [b.leavesBelow_succ hh] at hnodup hcard ⊢
      by_cases hleaf : b.heap.get h ≤ top
      · rw [if_pos hleaf] at hnodup hcard ⊢
        obtain ⟨hfresh, hnodup⟩ := Multiset.nodup_cons.mp hnodup
        obtain ⟨bits', c', x', heq, hlen, hsame, hend'⟩ :=
          reassign_leaf (b := b) (h := h) (by omega) (by omega) hzero bits c x
        have hone := hsame fun _ => 1
        rw [Multiset.card_cons] at hcard
        obtain ⟨hweigh, hothers⟩ := ih (x := x') hnodup (by omega) hend'
        rw [heq]
        refine ⟨fun w => ?_, fun k hk => ?_⟩
        · rw [Ram.weighing_cons, hothers _ hfresh, hlen, if_pos rfl, hweigh, hsame, Nat.succ_mul]
          omega
        · rw [Multiset.mem_cons, not_or] at hk
          rw [hothers k hk.2, hlen, if_neg hk.1]
      · rw [if_neg hleaf] at hnodup hcard ⊢
        rw [reassign_inner (by omega)]
        exact ih hnodup hcard hend

end

theorem Ram.weighed_limit (c : Ram Nat) (m : Nat) : c.weighed (m + 1) (fun l => if l = m then 1 else 0) = c.get m := by
  simp [weighed]

/-- The fix needed or not, the leaves end with lengths of the Kraft sum 1, and no other symbol has a length. -/
theorem Lengths.Counts.fixOverflow {kind : TreeKind} {b : Builder} {x : Lengths} {elems top : Nat} {nodes : Multiset Nat}
    (h : x.Counts elems kind.maxLength top nodes) (hexceeds : x.Exceeds kind.maxLength nodes) (hm : kind.maxLength ≠ 0)
    (hm15 : kind.maxLength ≤ 15) (hcode : b.maxCode = top) (htop : top ≤ 576) (hleaves : leaves top nodes = nodes)
    (hbelow : b.leavesBelow top (heapSize kind.elems) = nodes) (hnodup : nodes.Nodup)
    (hfits : nodes.card ≤ 2 ^ kind.maxLength) :
    (∃ c, Excess kind.maxLength nodes.card 0 c
        ∧ ∀ w, (fixOverflow kind b x).len.weighing nodes w = c.weighed (kind.maxLength + 1) w)
      ∧ ∀ k, k < elems → k ∉ nodes → (fixOverflow kind b x).len.get k = 0 := by
  obtain ⟨hcounted, hzero, hothers⟩ := h
  obtain ⟨k, hover, hkraft, hdeep⟩ := hexceeds
  rw [hleaves] at hcounted
  rw [hcounted, Ram.weighed_limit] at hdeep
  rw [hcounted] at hkraft
  have hcard : x.blCount.weighed (kind.maxLength + 1) (fun _ => 1) = nodes.card := by
    rw [← hcounted]
    simp [Ram.weighing]
  have hexcess : Excess kind.maxLength nodes.card k x.blCount := ⟨hzero, hkraft, hdeep, hcard, hfits⟩
  unfold Machine.fixOverflow
  simp only []
  by_cases hk : k = 0
  · subst hk
    rw [if_pos (by omega)]
    exact ⟨⟨_, hexcess, hcounted⟩, hothers⟩
  · rw [if_neg (by omega), hover, show (2 * (k : Int)).toNat = 2 * k by omega]
    have hfixed := hexcess.fixCounts (fuel := 2 * k) hk hm hm15 (by omega)
    generalize fixCounts kind.maxLength (2 * k) (2 * k) x.blCount = counts at hfixed
    have htotal := weighed_lastUsed counts kind.maxLength
    simp only [Ram.weighed_succ _ (lastUsed _ _)] at htotal
    obtain ⟨hweigh, hkept⟩ := reassign_spec (x := x) (h := heapSize kind.elems) (bits := lastUsed counts kind.maxLength)
      (c := counts.get (lastUsed counts kind.maxLength)) hcode htop hfixed.zero (hbelow.symm ▸ hnodup)
      (by have := htotal fun _ => 1; rw [hbelow, ← hfixed.leaves, ← this]; omega)
      (fun hnone => weighed_lastUsed_of_none hnone _)
    rw [hbelow] at hweigh hkept
    refine ⟨⟨counts, hfixed, fun w => ?_⟩, fun j hj hmem => (hkept j hmem).trans (hothers j hj hmem)⟩
    rw [hweigh, ← htotal, Nat.add_comm]

/-! ## The built tree (R616) -/

open Sys2Proof.Claims

theorem Ram.sum_map_getRun (t : Ram Nat) (g : Nat → Nat) (n : Nat) :
    ((t.getRun 0 n).map g).sum = ∑ k ∈ Finset.range n, g (t.get k) := by
  induction n with
  | zero => rfl
  | succ n ih =>
    rw [Ram.getRun_snoc, List.map_append, List.sum_append, ih, Finset.sum_range_succ]
    simp

/-- Counts of the Kraft sum 1 give lengths of the Kraft sum 1 (R19, R616). -/
theorem Excess.kraft_eq {m n : Nat} {c : Ram Nat} (h : Excess m n 0 c) (hm15 : m ≤ 15) :
    c.weighed (m + 1) (fun l => if l = 0 then 0 else 2 ^ (15 - l)) = 2 ^ 15 := by
  have hscale : ∀ l ∈ Finset.range (m + 1), c.get l * (if l = 0 then 0 else 2 ^ (15 - l))
      = 2 ^ (15 - m) * (c.get l * 2 ^ (m - l)) := by
    intro l hl
    have hl := Finset.mem_range.mp hl
    split
    · next hl0 => rw [hl0, h.zero]; simp
    · rw [show 15 - l = 15 - m + (m - l) by omega, pow_add]
      ring
  have hkraft := h.kraft
  rw [Ram.weighed] at hkraft ⊢
  rw [Finset.sum_congr rfl hscale, ← Finset.mul_sum, hkraft, Nat.add_zero, ← pow_add, Nat.sub_add_cancel hm15]

/-- Leaves with such counts have no length 0. -/
theorem Excess.length_ne_zero {m n : Nat} {c len : Ram Nat} {nodes : Multiset Nat} (h : Excess m n 0 c)
    (hweigh : ∀ w, len.weighing nodes w = c.weighed (m + 1) w) {k : Nat} (hk : k ∈ nodes) : len.get k ≠ 0 := by
  intro hlen
  obtain ⟨rest, rfl⟩ := Multiset.exists_cons_of_mem hk
  have hnone := hweigh fun l => if l = 0 then 1 else 0
  rw [Ram.weighing_cons, if_pos hlen] at hnone
  simp [Ram.weighed, h.zero] at hnone

end Sys2Proof.Machine
end

section
/-!
The built tree as a whole (46_huffman.md R610, R616): which symbols are its leaves, and that their lengths make a complete
code; then the command HBUILD (R640).
-/

namespace Sys2Proof.Machine

open Sys2Proof.Claims

/-! ## The leaves (R610) -/

/-- A builder with leaves on its heap, as R610 puts them there: symbols up to `max_code`, each once. -/
structure Builder.Seeded (elems top : Nat) (b : Builder) : Prop where
  heapMax : b.heapMax = heapSize elems
  maxCode : b.maxCode = top
  top_lt : top < elems
  top_mem : top ∈ b.roots
  nodup : b.roots.Nodup
  le_top : ∀ x ∈ b.roots, x ≤ top

theorem Builder.Seeded.heapLen_le {elems top : Nat} {b : Builder} (h : b.Seeded elems top) : b.heapLen ≤ elems := by
  have hsub : b.roots ≤ Multiset.range elems := (Multiset.le_iff_subset h.nodup).mpr fun x hx =>
    Multiset.mem_range.mpr ((h.le_top x hx).trans_lt h.top_lt)
  simpa using Multiset.card_le_card hsub


namespace Builder

/-- Before the loop of R610. -/
def empty (freq : Ram Nat) (elems : Nat) : Builder :=
  { heap := .nil, heapLen := 0, heapMax := heapSize elems, freq := freq, depth := .nil, dad := .nil, maxCode := -1,
    dOpt := 0, dStatic := 0 }

/-- One symbol in the loop of R610. -/
def place (b : Builder) (n : Nat) : Builder :=
  if b.freq.get n ≠ 0 then
    { b with heapLen := b.heapLen + 1, heap := b.heap.set (b.heapLen + 1) n, maxCode := n }
  else b

theorem start_eq_foldl (freq : Ram Nat) (elems : Nat) :
    start freq elems = (List.range elems).foldl place (empty freq elems) := rfl

end Builder

theorem Ram.nodesAt_push (h : Ram Nat) {len : Nat} (hfit : len ≤ 577) (v : Nat) :
    (h.set (len + 1) v).nodesAt (Finset.Icc 1 (len + 1)) = v ::ₘ h.nodesAt (Finset.Icc 1 len) := by
  have hmem : len + 1 ∈ Finset.Icc 1 (len + 1) := Finset.mem_Icc.mpr ⟨by omega, Nat.le_refl _⟩
  have herase : (Finset.Icc 1 (len + 1)).erase (len + 1) = Finset.Icc 1 len := by
    ext x
    simp only [Finset.mem_erase, Finset.mem_Icc]
    omega
  rw [nodesAt_set _ hmem (by omega), herase]

namespace Builder

/-- The symbols of nonzero frequency below `n`. -/
def used (freq : Ram Nat) (n : Nat) : Multiset Nat := (Multiset.range n).filter (fun k => freq.get k ≠ 0)

theorem used_succ (freq : Ram Nat) (n : Nat) :
    used freq (n + 1) = if freq.get n ≠ 0 then n ::ₘ used freq n else used freq n := by
  rw [used, Multiset.range_succ]
  split
  · next h => exact Multiset.filter_cons_of_pos _ h
  · next h => exact Multiset.filter_cons_of_neg _ h

theorem mem_used {freq : Ram Nat} {n k : Nat} : k ∈ used freq n ↔ k < n ∧ freq.get k ≠ 0 := by simp [used]

theorem nodup_used (freq : Ram Nat) (n : Nat) : (used freq n).Nodup := (Multiset.nodup_range n).filter _

/-- The loop of R610 up to symbol `n`: `max_code` is the last symbol put on the heap. -/
theorem place_spec (freq : Ram Nat) {elems n : Nat} (hn : n ≤ 288) :
    let b := (List.range n).foldl place (empty freq elems)
    b.freq = freq ∧ b.heapMax = heapSize elems ∧ b.roots = used freq n
      ∧ (b.heapLen = 0 ∧ b.maxCode = -1 ∨ ∃ top : Nat, b.maxCode = top ∧ top ∈ used freq n ∧ ∀ x ∈ used freq n, x ≤ top) := by
  induction n with
  | zero => exact ⟨rfl, rfl, rfl, .inl ⟨rfl, rfl⟩⟩
  | succ n ih =>
    obtain ⟨hfreq, hmax, hroots, htop⟩ := ih (by omega)
    rw [List.range_succ, List.foldl_append, List.foldl_cons, List.foldl_nil, used_succ]
    generalize (List.range n).foldl place (empty freq elems) = b at hfreq hmax hroots htop ⊢
    unfold place
    rw [hfreq]
    split
    · have hlen : b.heapLen ≤ n := by
        rw [← card_roots, hroots]
        exact (Multiset.card_le_card (Multiset.filter_le _ _)).trans (Multiset.card_range n).le
      refine ⟨rfl, hmax, (Ram.nodesAt_push _ (by omega) _).trans (congrArg _ hroots), .inr ⟨n, rfl, by simp, ?_⟩⟩
      intro x hx
      rcases Multiset.mem_cons.mp hx with rfl | hx
      · exact Nat.le_refl x
      · exact (mem_used.mp hx).1.le
    · exact ⟨hfreq, hmax, hroots, htop⟩

/-- The leaf R610 forces. -/
def forced (b : Builder) : Nat := if b.maxCode < 2 then (b.maxCode + 1).toNat else 0

theorem roots_force {b : Builder} (kind : TreeKind) (hfit : b.heapLen ≤ 577) :
    (b.force kind).roots = b.forced ::ₘ b.roots := Ram.nodesAt_push _ hfit _

/-- Forcing a leaf when there is at most one, whose symbol is `max_code`. -/
theorem force_seeded {b : Builder} {kind : TreeKind} {elems : Nat} (helems : 3 ≤ elems) (hmax : b.heapMax = heapSize elems)
    (h : b.roots = 0 ∧ b.maxCode = -1 ∨ ∃ top : Nat, top < elems ∧ b.maxCode = top ∧ b.roots = {top}) :
    ∃ top, (b.force kind).Seeded elems top := by
  have hlen : b.heapLen ≤ 577 := by
    rw [← card_roots]
    rcases h with ⟨hroots, -⟩ | ⟨top, -, -, hroots⟩ <;> simp [hroots]
  have hroots' := roots_force kind hlen
  rcases h with ⟨hroots, hcode⟩ | ⟨top, htop, hcode, hroots⟩
  · have hforced : b.forced = 0 := by rw [forced, hcode]; rfl
    rw [hroots, hforced] at hroots'
    exact ⟨0, hmax, by simp [force, hcode], by omega, by simp [hroots'], by simp [hroots'], by simp [hroots']⟩
  · by_cases hsmall : top < 2
    · have hforced : b.forced = top + 1 := by rw [forced, hcode, if_pos (by omega)]; omega
      rw [hroots, hforced] at hroots'
      refine ⟨top + 1, hmax, ?_, by omega, by simp [hroots'], by simp [hroots'], by simp [hroots']⟩
      simp only [force, hcode]
      rw [if_pos (by omega)]
      rfl
    · have hforced : b.forced = 0 := by rw [forced, hcode, if_neg (by omega)]
      rw [hroots, hforced] at hroots'
      refine ⟨top, hmax, ?_, htop, by simp [hroots'], by simp [hroots']; omega, by simp [hroots']⟩
      simp only [force, hcode]
      rw [if_neg (by omega)]

/-- A second leaf is forced beside a single one. -/
theorem Seeded.force {b : Builder} {kind : TreeKind} {elems top : Nat} (h : b.Seeded elems top) (helems : 3 ≤ elems)
    (hone : b.heapLen = 1) :
    ∃ top, (b.force kind).Seeded elems top := by
  obtain ⟨x, hx⟩ := Multiset.card_eq_one.mp ((card_roots b).trans hone)
  obtain rfl : top = x := by simpa [hx] using h.top_mem
  exact force_seeded helems h.heapMax (.inr ⟨top, h.top_lt, h.maxCode, hx⟩)

theorem start_spec (freq : Ram Nat) {elems : Nat} (hn : elems ≤ 288) :
    (start freq elems).heapMax = heapSize elems ∧ (start freq elems).roots = used freq elems
      ∧ ((start freq elems).heapLen = 0 ∧ (start freq elems).maxCode = -1
        ∨ ∃ top, (start freq elems).Seeded elems top) := by
  obtain ⟨-, hmax, hroots, htop⟩ := place_spec freq (elems := elems) hn
  rw [← start_eq_foldl] at hmax hroots htop
  refine ⟨hmax, hroots, htop.imp_right fun ⟨top, hcode, hmem, hle⟩ => ⟨top, ?_⟩⟩
  exact ⟨hmax, hcode, (mem_used.mp hmem).1, hroots ▸ hmem, hroots ▸ nodup_used freq elems, hroots ▸ hle⟩

/-- R610 ends with two leaves at least: the symbols of nonzero frequency, when these are enough. -/
theorem forceTwo_spec (kind : TreeKind) (freq : Ram Nat) (helems : 3 ≤ kind.elems) (hn : kind.elems ≤ 288) :
    ∃ top, ((start freq kind.elems).forceTwo kind).Seeded kind.elems top
      ∧ ((start freq kind.elems).forceTwo kind).heapLen = max 2 (used freq kind.elems).card
      ∧ (2 ≤ (used freq kind.elems).card → ((start freq kind.elems).forceTwo kind).roots = used freq kind.elems) := by
  obtain ⟨hmax, hroots, htop⟩ := start_spec freq hn
  generalize start freq kind.elems = b at hmax hroots htop
  have hlen : b.heapLen = (used freq kind.elems).card := by rw [← card_roots, hroots]
  have hforcelen : ∀ b : Builder, (b.force kind).heapLen = b.heapLen + 1 := fun _ => rfl
  unfold forceTwo
  split
  · next hnone =>
    have hempty : b.roots = 0 := Multiset.card_eq_zero.mp ((card_roots b).trans hnone)
    have hcode := (htop.resolve_right fun ⟨top, hseeded⟩ => Multiset.notMem_zero top (hempty ▸ hseeded.top_mem)).2
    obtain ⟨one, hone⟩ := force_seeded (kind := kind) helems hmax (.inl ⟨hempty, hcode⟩)
    obtain ⟨two, htwo⟩ := hone.force helems (by rw [hforcelen, hnone])
    exact ⟨two, htwo, by rw [hforcelen, hforcelen]; omega, by omega⟩
  · split
    · next hone =>
      obtain ⟨one, hseeded⟩ := htop.resolve_left (by omega)
      obtain ⟨two, htwo⟩ := hseeded.force (kind := kind) helems hone
      exact ⟨two, htwo, by rw [hforcelen]; omega, by omega⟩
    · obtain ⟨top, hseeded⟩ := htop.resolve_left (by omega)
      exact ⟨top, hseeded, by omega, fun _ => hroots⟩

/-! ## The built tree (R616) -/

/-- The leaves put on the heap are those of the merged tree, and R613 and R614 give them the lengths of a complete code. -/
theorem Seeded.build {kind : TreeKind} {b : Builder} {top : Nat} (h : b.Seeded kind.elems top) (hn : kind.elems ≤ 288)
    (htwo : 2 ≤ b.heapLen) (hm : 1 ≤ kind.maxLength) (hm15 : kind.maxLength ≤ 15)
    (hfits : b.heapLen ≤ 2 ^ kind.maxLength) :
    let b' := merge kind.elems kind.elems (heapify (b.heapLen / 2) b)
    b'.maxCode = top
      ∧ (∃ c, Excess kind.maxLength b.roots.card 0 c
        ∧ ∀ w, (fixOverflow kind b' (genBitlen kind b')).len.weighing b.roots w = c.weighed (kind.maxLength + 1) w)
      ∧ ∀ k, k < kind.elems → k ∉ b.roots → (fixOverflow kind b' (genBitlen kind b')).len.get k = 0 := by
  have hle := h.heapLen_le
  have hsize : 2 * kind.elems + 1 ≤ heapSize kind.elems ∧ heapSize kind.elems ≤ 577 := by unfold heapSize; omega
  obtain ⟨hmax, hcode, htop, -, hnodup, htops⟩ := h
  have hheap := heapify_rearranges (b := b) (Nat.div_le_self _ 2) (by omega)
  have hroots := hheap.roots
  have hlen1 : (heapify (b.heapLen / 2) b).heapLen = b.heapLen := by rw [hheap.fields]
  have hmax1 : (heapify (b.heapLen / 2) b).heapMax = heapSize kind.elems := by rw [hheap.fields]; exact hmax
  have hcode1 : (heapify (b.heapLen / 2) b).maxCode = top := by rw [hheap.fields]; exact hcode
  generalize heapify (b.heapLen / 2) b = b1 at hroots hlen1 hmax1 hcode1
  have hgo : b1.Mergeable kind.elems kind.elems kind.elems :=
    ⟨by omega, by omega, by omega, by omega, Nat.le_refl _, by omega, hroots ▸ hnodup,
      fun x hx => (htops x (hroots ▸ hx)).trans_lt htop⟩
  obtain ⟨hcode2, -, root, order, hremoved, hsplits⟩ := hgo.merge_splits (total := heapSize kind.elems) hmax1.le
  rw [hcode1] at hcode2
  rw [hroots] at hsplits
  intro b'
  change b'.maxCode = top at hcode2
  change b'.removed _ = _ at hremoved
  change Splits kind.elems b'.dad.get root order b.roots at hsplits
  have hempty : b1.removed (heapSize kind.elems) = [] := by rw [removed, hmax1, Nat.sub_self]; rfl
  rw [hempty, List.append_nil] at hremoved
  have hleaves : leaves top b.roots = b.roots := Multiset.filter_eq_self.mpr htops
  have hbelow : b'.leavesBelow top (heapSize kind.elems) = b.roots :=
    (congrArg (fun l : List Nat => leaves top l) hremoved).trans ((hsplits.leaves_eq htop).trans hleaves)
  obtain ⟨-, hcounts, hexceeds⟩ := hsplits.lengths hm hm15 hcode2 htop
  rw [genBitlen_of_removed hremoved]
  exact ⟨hcode2, hcounts.fixOverflow hexceeds (by omega) hm15 hcode2 (by omega) hleaves hbelow hnodup
    (by rwa [card_roots])⟩

end Builder

theorem Ram.getD_getRun (t : Ram Nat) {n k : Nat} (hk : k < n) : (t.getRun 0 n).getD k 0 = t.get k := by
  rw [List.getD_eq_getElem?_getD, Ram.getRun_get _ _ _ _ hk, Nat.zero_add, Option.getD_some]

/-- When only the nodes of a set have a length, all symbols together weigh what these nodes do. -/
theorem Ram.weighing_eq_sum {len : Ram Nat} {nodes : Multiset Nat} {n : Nat} (hnodup : nodes.Nodup)
    (hlt : ∀ k ∈ nodes, k < n) (hothers : ∀ k, k < n → k ∉ nodes → len.get k = 0) {g : Nat → Nat} (hg : g 0 = 0) :
    len.weighing nodes g = ∑ k ∈ Finset.range n, g (len.get k) := by
  have hsum : len.weighing nodes g = ∑ k ∈ (⟨nodes, hnodup⟩ : Finset Nat), g (len.get k) := rfl
  rw [hsum]
  refine Finset.sum_subset (fun k hk => Finset.mem_range.mpr (hlt k hk)) fun k hk hmem => ?_
  rw [hothers k (Finset.mem_range.mp hk) hmem, hg]

/-- A built tree's lengths are a complete code; with two or more symbols of nonzero frequency these are its leaves, and the
last one is `max_code` (R616). -/
theorem buildTree_complete {kind : TreeKind} (freq : Ram Nat) (helems : 3 ≤ kind.elems) (hn : kind.elems ≤ 288)
    (hm : 1 ≤ kind.maxLength) (hm15 : kind.maxLength ≤ 15)
    (hfits : max 2 (Builder.used freq kind.elems).card ≤ 2 ^ kind.maxLength) :
    kraft (buildTree kind freq).lens = 2 ^ 15
      ∧ (2 ≤ (Builder.used freq kind.elems).card →
        (∀ k, k < kind.elems → ((buildTree kind freq).lens.getD k 0 ≠ 0 ↔ freq.get k ≠ 0))
        ∧ (buildTree kind freq).maxCode ∈ Builder.used freq kind.elems
        ∧ ∀ k ∈ Builder.used freq kind.elems, k ≤ (buildTree kind freq).maxCode) := by
  obtain ⟨top, hseeded, hlen, hused⟩ := Builder.forceTwo_spec kind freq helems hn
  obtain ⟨hcode, ⟨c, hexcess, hweigh⟩, hothers⟩ := hseeded.build hn (by omega) hm hm15 (by omega)
  obtain ⟨-, -, htop, hmem, hnodup, hle⟩ := hseeded
  have hmax : (buildTree kind freq).maxCode = top := congrArg Int.toNat hcode
  rw [hmax]
  refine ⟨?_, fun htwo => ⟨fun k hk => ?_, hused htwo ▸ hmem, hused htwo ▸ hle⟩⟩
  · refine .trans (Ram.sum_map_getRun _ _ kind.elems) ?_
    rw [← hexcess.kraft_eq hm15, ← hweigh]
    exact (Ram.weighing_eq_sum (g := fun l => if l = 0 then 0 else 2 ^ (15 - l)) hnodup
      (fun k hk => (hle k hk).trans_lt htop) hothers rfl).symm
  · refine (not_congr (Eq.congr_left (Ram.getD_getRun _ hk))).trans ?_
    rw [hused htwo] at hweigh hothers
    by_cases hfreq : freq.get k = 0
    · have hnot : k ∉ Builder.used freq kind.elems := fun hk' => (Builder.mem_used.mp hk').2 hfreq
      exact iff_of_false (not_not.mpr (hothers k hk hnot)) (not_not.mpr hfreq)
    · exact iff_of_true (hexcess.length_ne_zero hweigh (Builder.mem_used.mpr ⟨hk, hfreq⟩)) hfreq

/-! ## HBUILD (R640) -/

theorem get_setRun_nil {vs : List Nat} (h : vs.length < 2 ^ 20) (k : Nat) : (Ram.setRun .nil 0 vs).get k = vs.getD k 0 := by
  rw [Ram.get_setRun _ _ _ _ (by omega)]
  split
  · rfl
  · next hout => rw [Ram.get_nil, List.getD_eq_default _ _ (by omega)]; rfl

theorem getRun_setRun_nil {vs : List Nat} (h : vs.length < 2 ^ 20) : (Ram.setRun .nil 0 vs).getRun 0 vs.length = vs := by
  refine List.ext_getElem? fun k => ?_
  by_cases hk : k < vs.length
  · rw [Ram.getRun_get _ _ _ _ hk, get_setRun_nil h, Nat.zero_add, List.getD_eq_getElem _ _ hk, List.getElem?_eq_getElem hk]
  · rw [List.getElem?_eq_none (by simp; omega), List.getElem?_eq_none (by omega)]

/-- The leaves R610 puts on the heap are as many as the nonzero frequencies. -/
theorem card_used {freqs : List Nat} (h : freqs.length < 2 ^ 20) :
    (Builder.used (Ram.setRun .nil 0 freqs) freqs.length).card = freqs.countP (fun f => f != 0) := by
  have hall : freqs = (List.range freqs.length).map (freqs.getD · 0) := by
    refine List.ext_getElem (by simp) fun k hk _ => ?_
    rw [List.getElem_map, List.getElem_range, List.getD_eq_getElem _ _ hk]
  conv_rhs => rw [hall, List.countP_map]
  rw [Builder.used, ← Multiset.countP_eq_card_filter]
  refine (Multiset.coe_countP _ _).trans (List.countP_congr fun k _ => ?_)
  simp [get_setRun_nil h]

theorem zipWith_biReverse_lt {codes lens : List Nat} (h : ∀ l ∈ lens, l ≤ 15) :
    ∀ v ∈ List.zipWith biReverse codes lens, v < 65536 := by
  intro v hv
  obtain ⟨k, hk, rfl⟩ := List.mem_iff_getElem.mp hv
  rw [List.getElem_zipWith]
  exact (biReverse_lt _ _).trans (Nat.pow_lt_pow_right (n := 16) (by decide) (Nat.lt_succ_of_le (h _ (List.getElem_mem _))))

theorem execHbuild_of_good {s : State} (hn : 3 ≤ s.arg1.toNat ∧ s.arg1.toNat ≤ 288)
    (hm : 1 ≤ s.arg2.toNat ∧ s.arg2.toNat ≤ 15) (hok : s.hbuildRangesOk = true)
    (hfits : leafCount (s.port.mem.readU16s s.arg0.toNat s.arg1.toNat) ≤ 2 ^ s.arg2.toNat) :
    execHbuild s = .next s.hbuildResult := by
  rw [execHbuild, if_neg (by omega), hok, if_neg (by decide), if_neg (by omega)]

/-- What HBUILD stores reads back: the lengths, then the codes reversed in their lengths. -/
theorem State.hbuildResult_reads {s : State} (hwf : Memory.wf s.port.mem = true) (hn : s.arg1.toNat ≤ 288)
    (hm15 : s.arg2.toNat ≤ 15) :
    Memory.readRun s.hbuildResult.port.mem s.arg3.toNat s.arg1.toNat = s.hbuildTree.lens.map Byte.ofNat
      ∧ Memory.readU16s s.hbuildResult.port.mem (s.arg3.toNat + s.arg1.toNat) s.arg1.toNat
        = List.zipWith biReverse (canonCodes s.hbuildTree.lens) s.hbuildTree.lens := by
  have hlen : s.hbuildTree.lens.length = s.arg1.toNat := buildTree_lens_length _ _
  have hle : ∀ l ∈ s.hbuildTree.lens, l ≤ 15 := fun l hl => (buildTree_lens_le _ _ l hl).trans hm15
  set codes := List.zipWith biReverse (canonCodes s.hbuildTree.lens) s.hbuildTree.lens with hcodes
  have hcodeslen : codes.length = s.arg1.toNat := by simp [hcodes, hlen]
  have hrun : s.hbuildTree.code.code.getRun 0 s.arg1.toNat = codes := by
    rw [← hcodeslen]
    exact getRun_setRun_nil (vs := codes) (by omega)
  have hmem : s.hbuildResult.port.mem
      = (s.port.mem.writeRun s.arg3.toNat (s.hbuildTree.lens.map Byte.ofNat)).writeRun (s.arg3.toNat + s.arg1.toNat)
        (u16Bytes codes) := by
    rw [← hrun]
    rfl
  rw [hmem]
  constructor
  · rw [Memory.readRun_congr _ (s.port.mem.writeRun s.arg3.toNat (s.hbuildTree.lens.map Byte.ofNat)) _ _
      fun x _ hx => Memory.read_writeRun_outside _ _ _ _ (.inl hx)]
    have hback := Memory.readRun_writeRun s.port.mem s.arg3.toNat (s.hbuildTree.lens.map Byte.ofNat) hwf
    rwa [List.length_map, hlen] at hback
  · have hback := Memory.readU16s_writeRun _ (s.arg3.toNat + s.arg1.toNat) codes
      (Memory.wf_writeRun s.port.mem s.arg3.toNat (s.hbuildTree.lens.map Byte.ofNat) hwf) (zipWith_biReverse_lt hle)
    rwa [hcodeslen] at hback

/-- Settles O45: the lengths by `buildTree_complete`, the stores by `State.hbuildResult_reads`. -/
theorem hbuildStoresCode : Obligations.HbuildStoresCode := by
  intro s n ml freqs hn hml h3 h288 h1 h15 hgood hwf hfreqs hfits
  subst hn hml
  have hok : s.hbuildRangesOk = true := rangesOk_of_not_bad hgood
  have hlen : freqs.length = s.arg1.toNat := by rw [hfreqs, Memory.readU16s_length]
  have hcard := card_used (freqs := freqs) (by omega)
  rw [hlen] at hcard
  have hexec : exec .hbuild s = .next s.hbuildResult :=
    execHbuild_of_good ⟨h3, h288⟩ ⟨h1, h15⟩ hok (by rw [← hfreqs]; exact hfits)
  obtain ⟨hkraft, hused⟩ := buildTree_complete (kind := hbuildKind s.arg1.toNat s.arg2.toNat) (Ram.setRun .nil 0 freqs)
    h3 h288 h1 h15 (hcard.symm ▸ hfits)
  obtain ⟨hlens, hcodes⟩ := State.hbuildResult_reads hwf h288 h15
  have htree : s.hbuildTree = buildTree (hbuildKind s.arg1.toNat s.arg2.toNat) (Ram.setRun .nil 0 freqs) := by
    rw [hfreqs]
    rfl
  rw [← htree] at hkraft hused
  refine ⟨s.hbuildResult.port.mem, Word.ofNat s.hbuildTree.maxCode, s.hbuildTree.lens, hexec, buildTree_lens_length _ _,
    buildTree_lens_le _ _, hkraft, hlens, hcodes, fun htwo => ?_⟩
  obtain ⟨hiff, hmem, hlast⟩ := hused (hcard.symm ▸ htwo)
  have hget := get_setRun_nil (vs := freqs) (by omega)
  refine ⟨fun k hk => (hiff k hk).trans (by rw [hget]), fun k hk hne hzeros => congrArg Word.ofNat ?_⟩
  have hle := hlast k (Builder.mem_used.mpr ⟨hk, by rwa [hget]⟩)
  refine hle.eq_or_lt.elim Eq.symm fun hlt => absurd (hzeros _ hlt) ?_
  rw [← hget]
  exact (Builder.mem_used.mp hmem).2

end Sys2Proof.Machine
end

section
/-!
The hardware reset (70_reset_and_hazards.md R650): the register values it gives, and the invariants it establishes.
-/

namespace Sys2Proof.Machine

open Sys2Proof.Claims

/-- Every register of a core that was just reset reads its reset value. -/
theorem State.hardReset_resetRegisters (s : State) : resetRegisters s.hardReset :=
  ⟨rfl, rfl, rfl, rfl, rfl, rfl, rfl, rfl, rfl, rfl, rfl, rfl, rfl, rfl, rfl, rfl, rfl, rfl, rfl, rfl⟩

/-- The start state is one that a reset leaves as it is. -/
theorem State.hardReset_reset : State.reset.hardReset = State.reset := rfl

/-- A reset while the core is idle takes place (R653). -/
theorem hostAct_reset {s : State} (h : s.busy = false) : hostAct .reset s = .next s.hardReset := by
  simp only [hostAct, hostReset, h, Bool.false_eq_true, if_false]

/-- Settles O6: an idle reset is `State.hardReset`, and the start state is reset. -/
theorem hardwareResetValues : Obligations.HardwareResetValues :=
  ⟨fun s h => ⟨s.hardReset, hostAct_reset h, s.hardReset_resetRegisters, rfl, rfl⟩,
    State.hardReset_reset ▸ State.reset.hardReset_resetRegisters, rfl⟩

/-- Settles O60: no byte is listed, and no engine is open. -/
theorem invariantsAtReset : Obligations.InvariantsAtReset := ⟨rfl, nofun, nofun⟩

end Sys2Proof.Machine
end

section
/-!
What the commands check before anything else (60_exceptions.md R604): each failed check ends the command and leaves the rest
of the state alone.
-/

namespace Sys2Proof.Machine

open Sys2Proof.Claims

/-- Settles O14: the lemmas on a missing engine, and on an opening command while one is open. -/
theorem wrongEngineHasNoEffect : Obligations.WrongEngineHasNoEffect := by
  refine fun i s => ⟨exec_of_no_compressor, exec_of_no_decompressor, ?_, ?_⟩
  · rintro level wbits memLevel strategy rfl hopen
    exact execDinit_of_bad (.inl hopen)
  · rintro wbits rfl hopen
    exact execIinit_of_bad (.inl hopen)

section

variable {s : State}

/-- DSETDICT comes before the header, and once (R452). -/
theorem exec_dsetdict_of_late {c : Compressor} (he : s.engine = .deflate c)
    (h : c.dstate ≠ .init ∨ c.strstart ≠ 0 ∨ s.port.adler ≠ 1#32) : exec .dsetdict s = .next (refusedBy20 s) := by
  simp only [exec, execDsetdict, he, if_pos h]
  rfl

/-- ISETDICT comes while a dictionary is awaited (R550). -/
theorem exec_isetdict_of_not_awaited {d : Decompressor} (he : s.engine = .inflate d) (h : d.mode ≠ .waitForDictionary) :
    exec .isetdict s = .next (refusedBy20 s) := by
  simp only [exec, execIsetdict, he, if_pos h]
  rfl

theorem exec_inflate_of_badFlush {flush : Nat} {d : Decompressor} (he : s.engine = .inflate d) (hflush : 4 < flush) :
    exec (.inflate flush) s = .next (refusedBy20 s) := by
  simp only [exec, execInflate, he, if_pos hflush]
  rfl

/-- FLUSH above 4 is turned away whichever engine is open (R105). -/
theorem exec_of_badFlush {flush : Nat} (hflush : 4 < flush) :
    exec (.deflate flush) s = .next (refusedBy20 s) ∧ exec (.inflate flush) s = .next (refusedBy20 s) := by
  cases he : s.engine with
  | none => exact ⟨exec_of_no_compressor rfl (by rw [he]; nofun), exec_of_no_decompressor rfl (by rw [he]; nofun)⟩
  | deflate c => exact ⟨exec_deflate_of_badFlush he hflush, exec_of_no_decompressor rfl (by rw [he]; nofun)⟩
  | inflate d => exact ⟨exec_of_no_compressor rfl (by rw [he]; nofun), exec_inflate_of_badFlush he hflush⟩

/-- HBUILD with a count or a limit out of range, or with more leaves than the limit allows (R640). -/
theorem exec_hbuild_of_badOperands
    (h : s.arg1.toNat < 3 ∨ 288 < s.arg1.toNat ∨ s.arg2.toNat < 1 ∨ 15 < s.arg2.toNat
      ∨ 2 ^ s.arg2.toNat < leafCount (s.port.mem.readU16s s.arg0.toNat s.arg1.toNat)) :
    exec .hbuild s = .next (refusedBy20 s) := by
  show execHbuild s = .next s.misuse
  unfold execHbuild
  split
  · rfl
  · next hrange =>
    have hleaves : 2 ^ s.arg2.toNat < leafCount (s.port.mem.readU16s s.arg0.toNat s.arg1.toNat) := by tauto
    rw [if_pos hleaves, ite_self]

/-- HCANON with a count out of range, or with a length above 15 (R641). -/
theorem exec_hcanon_of_badOperands
    (h : s.arg1.toNat < 1 ∨ 320 < s.arg1.toNat ∨ ∃ l ∈ s.port.mem.readRun s.arg0.toNat s.arg1.toNat, 15 < l.toNat) :
    exec .hcanon s = .next (refusedBy20 s) := by
  show execHcanon s = .next s.misuse
  unfold execHcanon
  split
  · rfl
  · next hrange =>
    obtain ⟨l, hl, hlong⟩ : ∃ l ∈ s.port.mem.readRun s.arg0.toNat s.arg1.toNat, 15 < l.toNat := by tauto
    have hany : ((s.port.mem.readRun s.arg0.toNat s.arg1.toNat).map BitVec.toNat).any (fun l => decide (15 < l)) = true :=
      List.any_eq_true.mpr ⟨l.toNat, List.mem_map_of_mem hl, decide_eq_true hlong⟩
    simp only [hany, if_true, ite_self]

end

/-! ## DEFLATE without progress (R430) -/

namespace DRun

variable {r : DRun} {flush : Nat}

/-- Without output space nothing is done, once FINISH and DONE accept the call. -/
theorem deflate_of_no_room (hfin : ¬ (r.c.finishing ∧ (flush ≠ 4 ∨ r.port.availIn ≠ 0#32)))
    (hroom : r.port.availOut = 0#32) : r.deflate flush = (r, .raise .bufError 21#8) := by
  rw [deflate, if_neg hfin, if_pos hroom]

/-- With nothing pending, no input and a FLUSH that is not new there is nothing to do. -/
theorem proceed_of_nothing_new {oldFlush : Int} (hpending : r.c.pending = []) (hin : r.port.availIn = 0#32)
    (hold : (flush : Int) ≤ oldFlush) (hflush : flush ≠ 4) :
    r.proceed flush oldFlush = (r, .raise .bufError 21#8) := by
  rw [proceed, if_neg (not_not_intro hpending), if_pos ⟨hin, hold, hflush⟩]

/-- In BUSY, with nothing pending, no input and a FLUSH that is not new, only last_flush is written. -/
theorem deflate_of_nothing_new (hbusy : r.c.dstate = .busy) (hpending : r.c.pending = []) (hin : r.port.availIn = 0#32)
    (hroom : r.port.availOut ≠ 0#32) (hold : (flush : Int) ≤ r.c.lastFlush) (hflush : flush ≠ 4) :
    r.deflate flush = (r.noteFlush flush, .raise .bufError 21#8) := by
  have hfin : ¬ (r.c.finishing ∧ (flush ≠ 4 ∨ r.port.availIn ≠ 0#32)) := by
    simp [Compressor.finishing, hbusy]
  have hinit : (r.noteFlush flush).c.dstate ≠ .init := by
    show r.c.dstate ≠ .init
    rw [hbusy]
    nofun
  rw [deflate_of_accepted hfin hroom, start_of_not_init hinit]
  exact proceed_of_nothing_new hpending hin hold hflush

end DRun

/-- Settles O16: each check fails in its command's first lines; `refusedBy20` is `State.misuse`. -/
theorem entryChecksHaveNoEffect : Obligations.EntryChecksHaveNoEffect := by
  refine fun s => ⟨fun c => exec_dsetdict_of_late, fun d => exec_isetdict_of_not_awaited, fun flush => exec_of_badFlush,
    exec_hbuild_of_badOperands, exec_hcanon_of_badOperands, ?_, ?_⟩
  · intro c flush he hguard hflush hs hfinished hroom
    have hfin : ¬ (c.finishing ∧ (flush ≠ 4 ∨ s.port.availIn ≠ 0#32)) := by
      rintro ⟨hfin, hrefused⟩
      obtain ⟨hfour, hin⟩ := hfinished (by simpa [Compressor.finishing] using hfin)
      exact hrefused.elim (absurd hfour) (absurd hin)
    rw [exec_deflate_of_run he hflush hs (DRun.deflate_of_no_room hfin hroom) hguard, State.withDRun_self he]
    rfl
  · intro c flush he hguard hflush hs hbusy hpending hin hroom hold
    rw [exec_deflate_of_run he hflush.le hs (DRun.deflate_of_nothing_new hbusy hpending hin hroom hold hflush.ne) hguard]
    rfl

end Sys2Proof.Machine
end

section
/-!
The statuses each command can end with (60_exceptions.md R601).
-/

namespace Sys2Proof.Machine

open Sys2Proof.Claims

/-! ## DEFLATE and DPARAMS -/

namespace DRun

/-- The statuses of DEFLATE once its work has begun: Ok, and StreamEnd under Finish (R430). -/
def WorkStatus (flush : Nat) (e : Ending) : Prop := e.status = .ok ∨ (flush = 4 ∧ e.status = .streamEnd)

theorem trailer_workStatus (r : DRun) (flush : Nat) : WorkStatus flush (r.trailer flush).2 := by
  unfold trailer
  split
  · exact .inl rfl
  · next hfinish =>
    have hfour : flush = 4 := not_not.mp hfinish
    split
    · exact .inr ⟨hfour, rfl⟩
    · simp only []
      split
      · exact .inr ⟨hfour, rfl⟩
      · exact .inl rfl

theorem afterFunc_workStatus (r : DRun) (flush : Nat) (b : BState) : WorkStatus flush (r.afterFunc flush b).2 := by
  cases b with
  | needMore => exact .inl rfl
  | finishStarted => exact .inl rfl
  | finishDone => exact trailer_workStatus _ flush
  | blockDone =>
    unfold afterFunc
    simp only []
    split
    · exact .inl rfl
    · exact trailer_workStatus _ flush

theorem work_workStatus (r : DRun) (flush : Nat) : WorkStatus flush (r.work flush).2 := by
  unfold work
  split
  · exact afterFunc_workStatus _ flush _
  · exact trailer_workStatus r flush

theorem proceed_status (r : DRun) (flush : Nat) (oldFlush : Int) :
    WorkStatus flush (r.proceed flush oldFlush).2 ∨ (r.proceed flush oldFlush).2.status = .bufError := by
  unfold proceed
  split
  · simp only []
    split
    · exact .inl (.inl rfl)
    · exact .inl (work_workStatus _ flush)
  · split
    · exact .inr rfl
    · exact .inl (work_workStatus r flush)

/-- How a call of DEFLATE can end (R430, R601). -/
theorem deflate_status (r : DRun) (flush : Nat) :
    WorkStatus flush (r.deflate flush).2 ∨ (r.deflate flush).2.status ∈ [.streamError, .bufError] := by
  unfold deflate
  split
  · exact .inr (by simp [Ending.status])
  · split
    · exact .inr (by simp [Ending.status])
    · exact (proceed_status _ flush _).imp_right fun hfull => by simp [hfull]

/-- The internal flush of DPARAMS is no Finish, so it does not end the stream (R457). -/
theorem params_status (r : DRun) (level strategy : Nat) :
    (r.params level strategy).2.status ∈ [.ok, .streamError, .bufError] := by
  have hflush : (r.deflate 1).2.status ∈ [.ok, .streamError, .bufError] := by
    rcases r.deflate_status 1 with (hok | ⟨hfinish, -⟩) | herror
    · simp [hok]
    · nomatch hfinish
    · exact List.mem_cons_of_mem _ herror
  unfold params
  split
  · simp only [afterFlush]
    split
    · exact hflush
    · split
      · simp [Ending.status]
      · exact hflush
  · simp [Ending.status]

end DRun

/-! ## INFLATE -/

/-- A step that ends the command is a DataError. -/
def IStep.FailsOnly : IStep → Prop
  | .go _ => True
  | .blocked _ => True
  | .ended _ st => st = .dataError

namespace IRun

theorem failsOnly_afterByte {r : IRun} {next : Byte → IRun → IStep} (hnext : ∀ b r1, (next b r1).FailsOnly) :
    (match r.takeByte with | none => IStep.blocked r | some (b, r1) => next b r1).FailsOnly := by
  cases r.takeByte with
  | none => exact trivial
  | some x => exact hnext x.1 x.2

theorem failsOnly_afterBits {r : IRun} {n : Nat} {next : IRun → IStep} (hnext : ∀ r1, (next r1).FailsOnly) :
    (match r.needBits n with | .blocked r1 => IStep.blocked r1 | .got r1 => next r1).FailsOnly := by
  cases r.needBits n with
  | blocked r1 => exact trivial
  | got r1 => exact hnext r1

theorem failsOnly_afterSymbol {r : IRun} {code : List Nat} {err : BitVec 8} {next : Nat → Nat → IRun → IStep}
    (hnext : ∀ c n r1, (next c n r1).FailsOnly) :
    (match r.decode code with
      | .blocked r1 => IStep.blocked r1
      | .undefined r1 => r1.bad err
      | .sym c n r1 => next c n r1).FailsOnly := by
  cases r.decode code with
  | blocked r1 => exact trivial
  | undefined r1 => rfl
  | sym c n r1 => exact hnext c n r1

/-- A check that fails the stream, or else goes on. -/
theorem failsOnly_ite {p : Prop} [Decidable p] {x y : IStep} (hx : x.FailsOnly) (hy : y.FailsOnly) :
    (if p then x else y).FailsOnly := by
  split
  · exact hx
  · exact hy

variable (r : IRun)

theorem stepMethod_failsOnly : r.stepMethod.FailsOnly :=
  failsOnly_afterByte fun _ _ => failsOnly_ite rfl (failsOnly_ite rfl trivial)

theorem stepFlags_failsOnly : r.stepFlags.FailsOnly := failsOnly_afterByte fun _ _ => failsOnly_ite rfl trivial

theorem stepTrailer_failsOnly : r.stepTrailer.FailsOnly :=
  failsOnly_afterByte fun _ _ => failsOnly_ite (failsOnly_ite rfl trivial) trivial

theorem stepType_failsOnly : r.stepType.FailsOnly := by
  refine failsOnly_afterBits fun r1 => ?_
  simp only []
  split
  · exact trivial
  · exact trivial
  · exact trivial
  · rfl

theorem stepStoredLen_failsOnly : r.stepStoredLen.FailsOnly := failsOnly_afterBits fun _ => failsOnly_ite rfl trivial

theorem stepStoredCopy_failsOnly : r.stepStoredCopy.FailsOnly :=
  failsOnly_ite trivial (failsOnly_afterByte fun _ _ => trivial)

theorem stepTable_failsOnly : r.stepTable.FailsOnly := failsOnly_afterBits fun _ => failsOnly_ite rfl trivial

theorem stepBtreeCheck_failsOnly : r.stepBtreeCheck.FailsOnly := by
  unfold stepBtreeCheck
  cases verdict r.d.blens with
  | oversubscribed => rfl
  | empty => rfl
  | incomplete => exact failsOnly_ite rfl trivial
  | complete => exact trivial

theorem stepBtree_failsOnly : r.stepBtree.FailsOnly :=
  failsOnly_ite (failsOnly_afterBits fun _ => trivial) r.stepBtreeCheck_failsOnly

theorem stepRepeat_failsOnly (c n : Nat) : (r.stepRepeat c n).FailsOnly :=
  failsOnly_afterBits fun _ => failsOnly_ite rfl trivial

theorem stepDtreeCheck_failsOnly : r.stepDtreeCheck.FailsOnly := by
  unfold stepDtreeCheck
  simp only []
  split
  · rfl
  · split
    · rfl
    · exact trivial

theorem stepDtree_failsOnly : r.stepDtree.FailsOnly :=
  failsOnly_ite (failsOnly_afterSymbol fun c n r1 => failsOnly_ite trivial (r1.stepRepeat_failsOnly c n))
    r.stepDtreeCheck_failsOnly

theorem stepLength_failsOnly (k n : Nat) : (r.stepLength k n).FailsOnly := failsOnly_afterBits fun _ => trivial

theorem stepCodesLen_failsOnly : r.stepCodesLen.FailsOnly := by
  refine failsOnly_ite trivial (failsOnly_afterSymbol fun c n r1 => ?_)
  refine failsOnly_ite trivial (failsOnly_ite trivial (failsOnly_ite rfl ?_))
  generalize c - 257 = k
  exact r1.stepLength_failsOnly k n

theorem stepCodesDist_failsOnly : r.stepCodesDist.FailsOnly :=
  failsOnly_afterSymbol fun _ _ _ => failsOnly_ite rfl (failsOnly_afterBits fun _ => failsOnly_ite rfl trivial)

theorem stepCodesCopy_failsOnly : r.stepCodesCopy.FailsOnly := failsOnly_ite trivial trivial

theorem stepWash_failsOnly : r.stepWash.FailsOnly := failsOnly_ite trivial trivial

/-- Within the blocks only an error ends the command (R531 to R537). -/
theorem stepBlock_failsOnly : r.stepBlock.FailsOnly := by
  unfold stepBlock
  cases r.d.bmode with
  | type => exact r.stepType_failsOnly
  | storedLen => exact r.stepStoredLen_failsOnly
  | storedCopy => exact r.stepStoredCopy_failsOnly
  | table => exact r.stepTable_failsOnly
  | btree => exact r.stepBtree_failsOnly
  | dtree => exact r.stepDtree_failsOnly
  | codesLen => exact r.stepCodesLen_failsOnly
  | codesDist => exact r.stepCodesDist_failsOnly
  | codesCopy => exact r.stepCodesCopy_failsOnly
  | wash => exact r.stepWash_failsOnly

variable {r}

/-- The statuses a step can end INFLATE with: StreamEnd in DONE, NeedDictionary after the identifier, StreamError in the
dictionary wait, DataError for an error of the stream (R520, R531, R538). -/
theorem step_status {r1 : IRun} {st : Status} (h : r.step = .ended r1 st) :
    st ∈ [.streamEnd, .needDictionary, .streamError, .dataError] := by
  have hfails {out : IStep} (hout : out.FailsOnly) (h : out = .ended r1 st) :
      st ∈ [.streamEnd, .needDictionary, .streamError, .dataError] := by
    rw [h] at hout
    obtain rfl : st = .dataError := hout
    decide
  unfold step at h
  cases hm : r.d.mode with
  | headerMethod => rw [hm] at h; exact hfails r.stepMethod_failsOnly h
  | headerFlags => rw [hm] at h; exact hfails r.stepFlags_failsOnly h
  | blocks => rw [hm] at h; exact hfails r.stepBlock_failsOnly h
  | trailerChecksum => rw [hm] at h; exact hfails r.stepTrailer_failsOnly h
  | waitForDictionary => rw [hm] at h; cases h; decide
  | done => rw [hm] at h; cases h; decide
  | bad => rw [hm] at h; cases h; decide
  | dictId =>
    simp only [hm, stepDictId] at h
    split at h
    · cases h
    · split at h
      · cases h; decide
      · cases h

theorem loop_status {fuel : Nat} {st : Status} (h : (loop fuel r).2 = some st) :
    st ∈ [.streamEnd, .needDictionary, .streamError, .dataError] := by
  induction fuel generalizing r with
  | zero => cases h
  | succ fuel ih =>
    cases hs : r.drain.step with
    | go r1 => rw [loop_succ_of_go hs] at h; exact ih h
    | blocked r1 => rw [loop_succ_of_blocked hs] at h; cases h
    | ended r1 st' => rw [loop_succ_of_ended hs] at h; cases h; exact step_status hs

end IRun

theorem Decompressor.ending_status (d : Decompressor) (st : Status) : (d.ending st).status = st := by
  cases st <;> rfl

/-! ## The statement -/

/-- Every command can end with Ok. -/
theorem ok_mem_statuses (i : Instr) : .ok ∈ statuses i := by
  cases i <;> exact List.mem_cons_self

/-- Every command can be turned away. -/
theorem State.misuse_mem_statuses (s : State) (i : Instr) : s.misuse.result ∈ statuses i := by
  rw [State.misuse_result]
  cases i <;> simp [statuses]

/-- How a call of INFLATE can end (R540). -/
theorem inflateEnding_status (flush : Nat) (start : Port) (r : IRun) :
    (inflateEnding flush start r.inflate).status ∈ statuses (.inflate flush) := by
  unfold inflateEnding
  split
  · next st hst =>
    rw [Decompressor.ending_status]
    have hmem := IRun.loop_status hst
    simp only [statuses, List.mem_cons] at hmem ⊢
    tauto
  · split
    · simp [Ending.status, statuses]
    · split <;> simp [Ending.status, statuses]

/-- How a call of DEFLATE can end (R430). -/
theorem DRun.deflate_mem_statuses (r : DRun) (flush : Nat) : (r.deflate flush).2.status ∈ statuses (.deflate flush) := by
  rcases r.deflate_status flush with (hok | ⟨-, hend⟩) | herror
  · rw [hok]; exact ok_mem_statuses _
  · rw [hend]; simp [statuses]
  · exact List.mem_cons_of_mem _ (List.mem_cons_of_mem _ herror)

theorem State.setDict_result (s : State) (c : Compressor) : (s.setDict c).result = .ok := by
  unfold State.setDict
  simp only []
  split <;> rfl

/-- The scan of ISYNC ends with Ok or DataError (R560). -/
theorem State.resync_status (s : State) (d : Decompressor) : (s.resync d).result ∈ statuses .isync := by
  unfold State.resync
  simp only []
  split
  · exact ok_mem_statuses _
  · simp [statuses]

theorem State.hcanonResult_status (s : State) (lens : List Nat) : (s.hcanonResult lens).result ∈ statuses .hcanon := by
  rcases s.hcanonResult_cases lens with heq | ⟨st, rfl | rfl, heq⟩ <;> simp [heq, statuses]

/-- Settles O13: command by command, over what each can answer; MemError of DINIT cannot happen (R440). -/
theorem statusesOfCommands : Obligations.StatusesOfCommands := by
  intro i s t h
  have hmisuse := s.misuse_mem_statuses i
  have hok := ok_mem_statuses i
  cases i with
  | dinit level wbits memLevel strategy =>
    by_cases hopens : s.engine = .none ∧ dinitFieldsOk level wbits memLevel strategy = true
    · cases h.symm.trans (execDinit_of_ok hopens.1 hopens.2)
      exact hok
    · cases h.symm.trans (execDinit_of_bad (by simpa [imp_iff_not_or] using hopens))
      exact hmisuse
  | dsetdict =>
    rcases execDsetdict_cases h with rfl | ⟨c, -, -, -, -, -, rfl⟩
    · exact hmisuse
    · rwa [State.setDict_result]
  | deflate flush =>
    rcases execDeflate_cases h with rfl | ⟨c, -, -, -, -, rfl⟩
    · exact hmisuse
    · rw [State.finish_result]
      exact DRun.deflate_mem_statuses _ flush
  | dparams level strategy =>
    rcases execDparams_cases h with rfl | ⟨c, -, -, -, -, -, rfl⟩
    · exact hmisuse
    · rw [State.finish_result]
      exact DRun.params_status _ level strategy
  | dreset =>
    rcases execDreset_cases h with rfl | ⟨c, -, rfl⟩
    · exact hmisuse
    · exact hok
  | dend =>
    rcases execDend_cases h with rfl | ⟨c, -, ⟨-, rfl⟩ | ⟨-, rfl⟩⟩
    · exact hmisuse
    · simp [statuses]
    · exact hok
  | iinit wbits =>
    rcases execIinit_cases h with rfl | ⟨-, -, -, rfl⟩
    · exact hmisuse
    · exact hok
  | isetdict =>
    rcases execIsetdict_cases h with rfl | ⟨d, -, -, -, ⟨-, rfl⟩ | ⟨-, rfl⟩⟩
    · exact hmisuse
    · simp [statuses]
    · exact hok
  | inflate flush =>
    rcases execInflate_cases h with rfl | ⟨d, -, -, -, rfl⟩
    · exact hmisuse
    · rw [State.finish_result]
      exact inflateEnding_status flush s.port _
  | isync =>
    rcases execIsync_cases h with rfl | ⟨d, -, -, ⟨-, rfl⟩ | ⟨-, rfl⟩⟩
    · exact hmisuse
    · simp [statuses]
    · exact State.resync_status _ _
  | ireset =>
    rcases execIreset_cases h with rfl | ⟨d, -, rfl⟩
    · exact hmisuse
    · exact hok
  | iend =>
    rcases execIend_cases h with rfl | ⟨d, -, rfl⟩
    · exact hmisuse
    · exact hok
  | adler =>
    rcases execAdler_cases h with rfl | ⟨-, rfl⟩
    · exact hmisuse
    · exact hok
  | hbuild =>
    rcases execHbuild_cases h with rfl | ⟨-, -, -, -, -, -, rfl⟩
    · exact hmisuse
    · exact hok
  | hcanon =>
    rcases execHcanon_cases h with rfl | ⟨-, -, -, rfl⟩
    · exact hmisuse
    · exact s.hcanonResult_status _

end Sys2Proof.Machine
end

section
/-!
The loops of INFLATE and of the strategy functions end (70_reset_and_hazards.md R656), and their bounds are enough (log 10).
INFLATE's measure is that of R544's proof. A matching turn that goes on takes lookahead or input (R366, R367). A turn of
`deflate_stored` that goes on emits part of what the block reaches, or takes lookahead or input (R368).
-/

namespace Sys2Proof.Machine

open Sys2Proof.Claims

/-- Settles O54: the bound is above the measure, and so is every greater one. -/
theorem inflateTerminates : Obligations.InflateTerminates := fun r extra =>
  IRun.loop_fuel (Nat.lt_add_right extra r.measure_lt_stepBound) r.measure_lt_stepBound

/-! ## The loop of a strategy function -/

/-- Where a turn goes on, it does so with a `P`. -/
def Turn.Goes (P : Scan → Prop) : Turn → Prop
  | .again x => P x
  | .leave _ _ => True
  | .exit _ => True

/-- A loop whose turns keep `Inv` and make `size` smaller does not run out of fuel above its size: more changes nothing. -/
theorem runTurns_fuel {turn : Scan → Turn} {close : DRun → BState × DRun} {Inv : Scan → Prop} {size : Scan → Nat}
    (hturn : ∀ x, Inv x → (turn x).Goes fun y => Inv y ∧ size y < size x) {fuel fuel' : Nat} {x : Scan} (hx : Inv x)
    (h : size x < fuel) (h' : size x < fuel') : runTurns turn close fuel x = runTurns turn close fuel' x := by
  induction fuel generalizing x fuel' with
  | zero => exact absurd h (Nat.not_lt_zero _)
  | succ fuel ih =>
    obtain ⟨fuel', rfl⟩ := Nat.exists_eq_succ_of_ne_zero (Nat.ne_zero_of_lt h')
    have hgoes := hturn x hx
    unfold runTurns
    cases ht : turn x with
    | leave b r => rfl
    | exit r => rfl
    | again y =>
      rw [ht] at hgoes
      obtain ⟨hy, hless⟩ := hgoes
      exact ih hy (by omega) (by omega)

/-! ## The operations of a turn -/

namespace DRun

/-- What a strategy function has still to take: the lookahead and the input on offer. -/
def ahead (r : DRun) : Nat := r.c.lookahead + r.port.availIn.toNat

/-- The bytes of the block so far (R53), which a slide does not change; below 0 if the block begins above strstart. -/
def extent (r : DRun) : Int := (r.c.strstart : Int) - r.c.blockStart

/-- `r'` has the block of `r` and what was ahead of it, some of the input moved to the lookahead. -/
structure Refills (r r' : DRun) : Prop where
  ahead : r'.ahead = r.ahead
  extent : r'.extent = r.extent
  taken : r.c.lookahead ≤ r'.c.lookahead

theorem Refills.refl (r : DRun) : r.Refills r := ⟨rfl, rfl, le_rfl⟩

theorem Refills.trans {r r' r'' : DRun} (h : r.Refills r') (h' : r'.Refills r'') : r.Refills r'' :=
  ⟨h'.ahead.trans h.ahead, h'.extent.trans h.extent, h.taken.trans h'.taken⟩

/-- A slide moves strstart and the block's start alike (R323): it comes only where strstart is high enough. -/
theorem slideIfHigh_refills (r : DRun) : r.Refills { r with c := r.c.slideIfHigh } := by
  by_cases hhigh : r.c.wSize + r.c.maxDist ≤ r.c.strstart
  · rw [Compressor.slideIfHigh_of_high hhigh]
    refine ⟨rfl, ?_, le_rfl⟩
    show ((r.c.strstart - r.c.wSize : Nat) : Int) - (r.c.blockStart - r.c.wSize) = r.c.strstart - r.c.blockStart
    omega
  · rw [Compressor.slideIfHigh_of_low hhigh]
    exact .refl r

theorem fillOnce_refills (r : DRun) (more : Nat) : r.Refills (r.fillOnce more) := by
  obtain ⟨-, hstart, hahead, havail⟩ := r.fillOnce_sizes more
  have hblock : (r.fillOnce more).c.blockStart = r.c.blockStart := by
    unfold fillOnce
    simp only []
    rw [Compressor.afterRead_eq, r.readBuf_eq]
  exact ⟨by unfold ahead; omega, by rw [extent, hstart, hblock, extent], by omega⟩

theorem fillLoop_refills (fuel : Nat) (r : DRun) : r.Refills (fillLoop fuel r) := by
  induction fuel generalizing r with
  | zero => exact .refl r
  | succ fuel ih =>
    have hslide := r.slideIfHigh_refills
    unfold fillLoop
    simp only []
    split
    · exact hslide
    · have hround := hslide.trans (fillOnce_refills _ r.c.moreAfterSlide)
      split
      · exact hround.trans (ih _)
      · exact hround

theorem fillWindow_refills (r : DRun) : r.Refills r.fillWindow := r.fillLoop_refills _

theorem refill_refills (r : DRun) : r.Refills r.refill := by
  unfold refill
  split
  · exact r.fillWindow_refills
  · exact .refl r

/-- An emitted block ends at strstart, and nothing is taken (R445, R446). -/
theorem flushBlockOnly_cursors (r : DRun) (eof : Bool) :
    (r.flushBlockOnly eof).c.lookahead = r.c.lookahead ∧ (r.flushBlockOnly eof).port.availIn = r.port.availIn
      ∧ (r.flushBlockOnly eof).extent = 0 := by
  obtain ⟨-, havail, -, -⟩ := r.flushBlockOnly_input eof
  refine ⟨?_, havail, ?_⟩
  · unfold flushBlockOnly
    rw [flushPending_eq, Compressor.flushBlock_eq]
    rfl
  · unfold flushBlockOnly extent
    rw [flushPending_eq]
    exact Int.sub_self _

theorem flushBlockOnly_ahead (r : DRun) (eof : Bool) : (r.flushBlockOnly eof).ahead = r.ahead := by
  obtain ⟨hahead, havail, -⟩ := r.flushBlockOnly_cursors eof
  rw [ahead, hahead, havail, ahead]

end DRun

/-- A flush inside a loop goes on, if at all, from the emitted block (R445). -/
theorem Scan.flushAndGo_goes {P : Scan → Prop} {x : Scan} (h : P { x with run := x.run.flushBlockOnly false }) :
    x.flushAndGo.Goes P := by
  unfold Scan.flushAndGo
  simp only []
  split
  · exact trivial
  · exact h

/-- Recording a symbol takes nothing (R364). -/
theorem Compressor.record_kept (c : Compressor) (dist lc : Nat) :
    (c.record dist lc).lookahead = c.lookahead ∧ (c.record dist lc).matchLength = c.matchLength
      ∧ (c.record dist lc).prevLength = c.prevLength := by
  unfold Compressor.record
  simp only []
  split <;> exact ⟨rfl, rfl, rfl⟩

namespace Scan

/-- `y` has the same lookahead and stream port as `x`. -/
structure Stays (x y : Scan) : Prop where
  lookahead : y.run.c.lookahead = x.run.c.lookahead
  port : y.run.port = x.run.port

theorem Stays.trans {x y z : Scan} (h : x.Stays y) (h' : y.Stays z) : x.Stays z :=
  ⟨h'.lookahead.trans h.lookahead, h'.port.trans h.port⟩

theorem Stays.ahead {x y : Scan} (h : x.Stays y) : y.run.ahead = x.run.ahead := by
  rw [DRun.ahead, h.lookahead, h.port, DRun.ahead]

theorem insertHere_stays (x : Scan) : x.Stays x.insertHere := by
  unfold insertHere
  split <;> exact ⟨rfl, rfl⟩

theorem fastSearch_stays (x : Scan) : x.Stays x.fastSearch := by
  unfold fastSearch
  simp only []
  split <;> exact ⟨rfl, rfl⟩

theorem slowSearch_stays (x : Scan) : x.Stays x.slowSearch := by
  unfold slowSearch
  simp only []
  split <;> exact ⟨rfl, rfl⟩

theorem insertCovered_stays (n : Nat) (x : Scan) : x.Stays (insertCovered n x) := by
  induction n generalizing x with
  | zero => exact ⟨rfl, rfl⟩
  | succ n ih =>
    unfold insertCovered
    refine Stays.trans ?_ (ih _)
    exact ⟨rfl, rfl⟩

theorem insertUpTo_stays (maxInsert : Int) (n : Nat) (x : Scan) : x.Stays (insertUpTo maxInsert n x) := by
  induction n generalizing x with
  | zero => exact ⟨rfl, rfl⟩
  | succ n ih =>
    unfold insertUpTo
    simp only []
    split
    · refine Stays.trans ?_ (ih _)
      exact ⟨rfl, rfl⟩
    · refine Stays.trans ?_ (ih _)
      exact ⟨rfl, rfl⟩

/-! ## deflate_fast (R366) -/

/-- A match takes its length from the lookahead. -/
theorem fastMatch_lookahead (x : Scan) :
    x.fastMatch.run.c.lookahead = x.run.c.lookahead - x.run.c.matchLength ∧ x.fastMatch.run.port = x.run.port := by
  have hmatch : x.fastMatch.run.c.lookahead = x.run.c.recordMatch.lookahead - x.run.c.recordMatch.matchLength
      ∧ x.fastMatch.run.port = x.run.port := by
    unfold fastMatch
    simp only []
    split
    · exact ⟨(insertCovered_stays _ _).lookahead, (insertCovered_stays _ _).port⟩
    · exact ⟨rfl, rfl⟩
  obtain ⟨hahead, hlength, -⟩ := x.run.c.record_kept (matchDist x.run.c.strstart x.run.c.matchStart) (x.run.c.matchLength - 3)
  rwa [Compressor.recordMatch, hahead, hlength] at hmatch

/-- A match or a literal takes at least one byte of the lookahead. -/
theorem fastEmit_ahead (x : Scan) (h : x.run.c.lookahead ≠ 0) : x.fastEmit.run.ahead < x.run.ahead := by
  unfold fastEmit
  split
  · next hmatch =>
    obtain ⟨hahead, hport⟩ := x.fastMatch_lookahead
    rw [DRun.ahead, hahead, hport, DRun.ahead]
    omega
  · obtain ⟨hahead, -, -⟩ := x.run.c.record_kept 0 (x.run.c.win.get x.run.c.strstart).toNat
    have hone : x.run.c.recordLiteral.advance.lookahead = x.run.c.lookahead - 1 := congrArg (· - 1) hahead
    simp only [DRun.ahead, hone]
    omega

theorem fastTurn_goes (flush : Nat) (x : Scan) : (fastTurn flush x).Goes fun y => y.run.ahead < x.run.ahead := by
  have hfill := x.run.refill_refills.ahead
  unfold fastTurn
  simp only []
  split
  · exact trivial
  · split
    · exact trivial
    · next hsome =>
      have hstays := (insertHere_stays { x with run := x.run.refill }).trans (fastSearch_stays _)
      have hemit := fastEmit_ahead _ (hstays.lookahead.trans_ne hsome)
      rw [hstays.ahead, hfill] at hemit
      split
      · refine flushAndGo_goes ?_
        rwa [DRun.flushBlockOnly_ahead]
      · exact hemit

/-! ## deflate_slow (R367) -/

/-- A match takes all but one of its bytes from the lookahead, the first one being behind strstart. -/
theorem slowMatch_lookahead (x : Scan) :
    x.slowMatch.run.c.lookahead = x.run.c.lookahead - (x.run.c.prevLength - 1) ∧ x.slowMatch.run.port = x.run.port := by
  have hmatch : x.slowMatch.run.c.lookahead = x.run.c.recordPrevMatch.lookahead - (x.run.c.recordPrevMatch.prevLength - 1)
      ∧ x.slowMatch.run.port = x.run.port := ⟨(insertUpTo_stays _ _ _).lookahead, (insertUpTo_stays _ _ _).port⟩
  obtain ⟨hahead, -, hlength⟩ := x.run.c.record_kept (matchDist ((x.run.c.strstart : Int) - 1) x.run.c.prevMatch)
    (x.run.c.prevLength - 3)
  rwa [Compressor.recordPrevMatch, hahead, hlength] at hmatch

/-- A literal takes one byte of the lookahead. -/
theorem slowLiteral_ahead (x : Scan) (h : x.run.c.lookahead ≠ 0) : x.slowLiteral.run.ahead < x.run.ahead := by
  obtain ⟨hahead, -, -⟩ := x.run.c.record_kept 0 (byteBelow x.run.c.win x.run.c.strstart).toNat
  have hadvance (r : DRun) (hr : r.ahead = x.run.ahead) (hlook : r.c.lookahead = x.run.c.lookahead) :
      DRun.ahead { r with c := r.c.advance } < x.run.ahead := by
    show r.c.lookahead - 1 + r.port.availIn.toNat < x.run.ahead
    unfold DRun.ahead at *
    omega
  have hrec : DRun.ahead { x.run with c := x.run.c.recordBehind } = x.run.ahead := congrArg (· + _) hahead
  unfold slowLiteral
  simp only []
  split
  · refine hadvance _ ?_ ?_
    · rw [DRun.flushBlockOnly_ahead, hrec]
    · rw [(DRun.flushBlockOnly_cursors _ _).1]
      exact hahead
  · exact hadvance _ hrec hahead

theorem slowEmit_goes (x : Scan) (h : x.run.c.lookahead ≠ 0) : x.slowEmit.Goes fun y => y.run.ahead < x.run.ahead := by
  unfold slowEmit
  simp only []
  split
  · next hmatch =>
    obtain ⟨hlong, -⟩ := hmatch
    have hless : x.slowMatch.run.ahead < x.run.ahead := by
      obtain ⟨hahead, hport⟩ := x.slowMatch_lookahead
      rw [DRun.ahead, hahead, hport, DRun.ahead]
      omega
    split
    · refine flushAndGo_goes ?_
      rwa [DRun.flushBlockOnly_ahead]
    · exact hless
  · split
    · split
      · exact trivial
      · exact x.slowLiteral_ahead h
    · show x.run.c.lookahead - 1 + x.run.port.availIn.toNat < x.run.c.lookahead + x.run.port.availIn.toNat
      omega

theorem slowTurn_goes (flush : Nat) (x : Scan) : (slowTurn flush x).Goes fun y => y.run.ahead < x.run.ahead := by
  have hfill := x.run.refill_refills.ahead
  unfold slowTurn
  simp only []
  split
  · exact trivial
  · split
    · exact trivial
    · next hsome =>
      have hstays := (insertHere_stays { x with run := x.run.refill }).trans (slowSearch_stays _)
      have hemit := slowEmit_goes _ (hstays.lookahead.trans_ne hsome)
      rwa [hstays.ahead, hfill] at hemit

end Scan

/-! ## deflate_stored (R368) -/

namespace Compressor

/-- `max_block` is at least two bytes, whatever the memory level. -/
theorem two_le_maxBlock (c : Compressor) : 2 ≤ c.maxBlock := by
  have := c.pendingBufSize_ge
  unfold maxBlock
  omega

theorem takeStored_of_full {c : Compressor} (h : c.storedFull = true) :
    c.takeStored = { c with
      strstart := (c.blockStart + c.maxBlock).toNat
      lookahead := c.strstart + c.lookahead - (c.blockStart + c.maxBlock).toNat } :=
  if_pos (of_decide_eq_true h)

theorem takeStored_of_room {c : Compressor} (h : ¬ c.storedFull = true) :
    c.takeStored = { c with strstart := c.strstart + c.lookahead, lookahead := 0 } :=
  if_neg fun hfull => h (decide_eq_true hfull)

end Compressor

namespace DRun

/-- What the block reaches is what it holds and what is ahead of it. -/
theorem blockReach_eq (r : DRun) : r.blockReach = (r.extent + r.ahead).toNat := by
  unfold blockReach extent ahead
  omega

/-- What bounds the turns of `deflate_stored` that are left: the block's reach for those that emit a full block, the input on
offer and a lookahead for those that only take (R368). -/
def storedSize (r : DRun) : Nat := r.blockReach + r.port.availIn.toNat + min r.c.lookahead 1

theorem storedSize_lt_storedBound (r : DRun) : r.storedSize < r.storedBound := by
  unfold storedSize storedBound turnBound
  omega

/-- A run of `deflate_stored` of a size below `n`, its block no further than strstart. -/
structure StoredBelow (n : Nat) (r : DRun) : Prop where
  extent : 0 ≤ r.extent
  size : r.storedSize < n

/-- The reach of an emitted block is what is ahead (R445). -/
theorem flushBlockOnly_storedSize (r : DRun) (eof : Bool) :
    (r.flushBlockOnly eof).storedSize = r.ahead + r.port.availIn.toNat + min r.c.lookahead 1 := by
  obtain ⟨hahead, havail, hextent⟩ := r.flushBlockOnly_cursors eof
  rw [storedSize, blockReach_eq, hextent, flushBlockOnly_ahead, hahead, havail]
  omega

theorem StoredBelow.flushBlockOnly {n : Nat} {r : DRun} (h : r.StoredBelow n) (eof : Bool) :
    (r.flushBlockOnly eof).StoredBelow n := by
  obtain ⟨hextent, hsize⟩ := h
  refine ⟨(r.flushBlockOnly_cursors eof).2.2.ge, ?_⟩
  rw [flushBlockOnly_storedSize]
  rw [storedSize, blockReach_eq] at hsize
  omega

/-- The refill at the head of a turn (R368). -/
theorem storedRefill_refills (r : DRun) : r.Refills (if r.c.lookahead ≤ 1 then r.fillWindow else r) := by
  split
  · exact r.fillWindow_refills
  · exact .refl r

/-- A full block is emitted: the reach loses its bytes, at least two. -/
theorem Refills.full_storedBelow {x r : DRun} (hfill : x.Refills r) (hx : 0 ≤ x.extent)
    (hfull : r.c.storedFull = true) :
    (DRun.flushBlockOnly { r with c := r.c.takeStored } false).StoredBelow x.storedSize := by
  have hblock := r.c.two_le_maxBlock
  have htop : r.c.blockStart + r.c.maxBlock ≤ ((r.c.strstart + r.c.lookahead : Nat) : Int) := of_decide_eq_true hfull
  obtain ⟨hahead, hextent, htaken⟩ := hfill
  refine ⟨(flushBlockOnly_cursors _ _).2.2.ge, ?_⟩
  rw [flushBlockOnly_storedSize, storedSize, blockReach_eq, Compressor.takeStored_of_full hfull]
  unfold DRun.ahead DRun.extent at *
  simp only []
  omega

/-- The whole lookahead is taken: there was some, or else some of the input was taken first. -/
theorem Refills.room_storedBelow {x r : DRun} (hfill : x.Refills r) (hx : 0 ≤ x.extent) (hsome : r.c.lookahead ≠ 0)
    (hroom : ¬ r.c.storedFull = true) : DRun.StoredBelow x.storedSize { r with c := r.c.takeStored } := by
  obtain ⟨hahead, hextent, htaken⟩ := hfill
  rw [Compressor.takeStored_of_room hroom]
  constructor
  · unfold DRun.extent at *
    simp only []
    omega
  · rw [storedSize, storedSize, blockReach_eq, blockReach_eq]
    unfold DRun.ahead DRun.extent at *
    simp only []
    omega

end DRun

namespace Scan

theorem storedSlide_goes {n : Nat} {x : Scan} (h : x.run.StoredBelow n) :
    x.storedSlide.Goes fun y => y.run.StoredBelow n := by
  unfold storedSlide
  split
  · exact flushAndGo_goes (h.flushBlockOnly false)
  · exact h

theorem storedTurn_goes (flush : Nat) (x : Scan) (hx : 0 ≤ x.run.extent) :
    (storedTurn flush x).Goes fun y => y.run.StoredBelow x.run.storedSize := by
  have hfill := x.run.storedRefill_refills
  unfold storedTurn
  simp only []
  generalize (if x.run.c.lookahead ≤ 1 then x.run.fillWindow else x.run) = r at hfill ⊢
  split
  · exact trivial
  · split
    · exact trivial
    · next hsome =>
      split
      · next hfull =>
        have hflush := flushAndGo_goes (x := { x with run := { r with c := r.c.takeStored } })
          (P := fun y => y.run.StoredBelow x.run.storedSize) (hfill.full_storedBelow hx hfull)
        split
        · next z hz =>
          rw [hz] at hflush
          exact storedSlide_goes hflush
        · exact trivial
        · exact trivial
      · next hroom => exact storedSlide_goes (hfill.room_storedBelow hx hsome hroom)

end Scan

/-! ## The statement -/

theorem Turn.Goes.imp {P Q : Scan → Prop} (hPQ : ∀ x, P x → Q x) {t : Turn} (h : t.Goes P) : t.Goes Q := by
  cases t with
  | again x => exact hPQ x h
  | leave b r => exact trivial
  | exit r => exact trivial

/-- A matching loop, whose turns take from what is ahead, ends within `turnBound` turns. -/
theorem runTurns_turnBound {turn : Scan → Turn} (hturn : ∀ x, (turn x).Goes fun y => y.run.ahead < x.run.ahead)
    (close : DRun → BState × DRun) (r : DRun) (head extra : Nat) :
    runTurns turn close (r.turnBound + extra) ⟨r, head⟩ = runTurns turn close r.turnBound ⟨r, head⟩ := by
  have hbound : r.ahead < r.turnBound := Nat.lt_add_of_pos_right (by decide)
  exact runTurns_fuel (Inv := fun _ => True) (size := fun x => x.run.ahead)
    (fun x _ => (hturn x).imp fun _ hless => ⟨trivial, hless⟩) trivial (Nat.lt_add_right extra hbound) hbound

/-- The loop of `deflate_stored` ends within `storedBound` turns, if its block begins no higher than strstart. -/
theorem runTurns_storedBound (flush : Nat) (close : DRun → BState × DRun) {r : DRun} (hr : 0 ≤ r.extent)
    (head extra : Nat) :
    runTurns (storedTurn flush) close (r.storedBound + extra) ⟨r, head⟩
      = runTurns (storedTurn flush) close r.storedBound ⟨r, head⟩ :=
  runTurns_fuel (Inv := fun x => 0 ≤ x.run.extent) (size := fun x => x.run.storedSize)
    (fun x hx => (x.storedTurn_goes flush hx).imp fun _ hbelow => ⟨hbelow.extent, hbelow.size⟩) hr
    (Nat.lt_add_right extra r.storedSize_lt_storedBound) r.storedSize_lt_storedBound

/-- Settles O55: each loop has a size that every turn makes smaller. -/
theorem matchersTerminate : Obligations.MatchersTerminate := fun flush head extra r close =>
  ⟨runTurns_turnBound (Scan.fastTurn_goes flush) close r head extra,
    runTurns_turnBound (Scan.slowTurn_goes flush) close r head extra,
    fun _ _ hblock => runTurns_storedBound flush close (Int.sub_nonneg_of_le hblock) head extra⟩

end Sys2Proof.Machine
end
